-- ==== Sys2Proof/Word.lean ====
section
/-! DEFINITION. The plain types of the ON4120 model: bytes, and the numbers of hosts, slots, channels, routes and segments. -/

namespace Sys2Proof

/-- One byte of a frame, of a job entry or of the P-link. -/
abbrev Byte := BitVec 8

/-- A host H0 to H3, and the port, event unit and counts that carry its number. -/
abbrev HostId := Fin 4

/-- A slot of the job table, 0 to 23 (R1). -/
abbrev SlotId := Fin 24

/-- A forward channel of the peripheral, 0 to 15. -/
abbrev ChannelId := Fin 16

/-- A reply route, 0 to 15 (R95). -/
abbrev RouteId := Fin 16

/-- A segment of the pool, 0 to 383 (chapter 2). -/
abbrev SegmentId := Fin 384

/-- A timer: `none` when stopped, `some n` when running, with `n` the count it was started with, in the unit of its
setting (R151: a running timer keeps the value it was started with). -/
abbrev Timer := Option Nat

/-- The two kinds of byte on the P-link and in job entries. -/
inductive ByteKind where
  | data
  | control
deriving DecidableEq, Repr

/-- `v` with the entry at `i` replaced by `x`. -/
def upd {α : Type} {n : Nat} (v : Vector α n) (i : Fin n) (x : α) : Vector α n :=
  v.set i.val x i.isLt

@[simp] theorem upd_same {α : Type} {n : Nat} (v : Vector α n) (i : Fin n) (x : α) : (upd v i x)[i] = x := by
  simp [upd]

theorem upd_get {α : Type} {n : Nat} (v : Vector α n) (i j : Fin n) (x : α) :
    (upd v i x)[j] = if i = j then x else v[j] := by
  simp only [upd, Fin.getElem_fin, Vector.getElem_set, Fin.ext_iff]

@[simp] theorem upd_ne {α : Type} {n : Nat} (v : Vector α n) {i j : Fin n} (x : α) (h : i ≠ j) :
    (upd v i x)[j] = v[j] := by
  rw [upd_get, if_neg h]

end Sys2Proof
end

