-- ==== Sys2Proof/Config.lean ====
section
/-! DEFINITION. What the spec fixes for the part once and for all, and the one value it leaves open. -/

namespace Sys2Proof.Config

/-- Segments of the pool (chapter 2). -/
def poolSegments : Nat := 384

/-- Positions of one segment (R24). -/
def segmentPositions : Nat := 32

/-- Records an event queue holds (R119). -/
def queueCapacity : Nat := 16

/-- Bytes a route buffer holds (R95). -/
def routeBuffer : Nat := 256

/-- Jobs the suspension stack holds (R52). -/
def stackDepth : Nat := 3

/-- The largest number of bytes an APPEND may carry (R31). -/
def appendBytes : Nat := 240

/-- The largest LEN of a request frame (R166). -/
def maxLen : Nat := 248

/-- The value at which a turn count stops rising (R6). -/
def turnCountMax : Nat := 65535

/-- The fixed period of the pool's initialisation, in µs (R40). -/
def poolInitPeriod : Nat := 80

/-- The fixed length of the LRST pulse, in µs (R143). -/
def lrstPulse : Nat := 100

/-- FREE VALUE. The time left on the lease's term timer, in ms, at the n-th LEASE_HELD answer (R157). It depends on how
much time has passed, which no command of the table carries; `remainingTerm` in Machine/Operands.lean bounds it by what was left
when it was last answered, and before that by the term the timer was started with. DESIGN CHOICE, log entry 2. -/
opaque leaseRemaining : Nat → BitVec 16

end Sys2Proof.Config
end

