-- ==== Sys2Proof/Syntax.lean ====
section
/-! DEFINITION. The commands of the ON4120: one constructor per row of spec/opcode_table.json. -/

namespace Sys2Proof

/-- A command: a change of an input line, the expiry of a timer, a byte on the P-link, or a well-framed request whose CHECK
has been received on the port of host `h` (R165). Request parameters stand as the bytes the frame carries (section 10.3):
whether they hold legal values is judged by the block that owns the request, not here. -/
inductive Instr where
  /-- PART_RESET (R178): RST is asserted, or power comes up. -/
  | partReset
  /-- RST_RELEASE (R93): RST is released. -/
  | rstRelease
  /-- POOL_INIT_END (R41): the 80 µs of the pool's initialisation are over. -/
  | poolInitEnd
  /-- LRST_PULSE_END (R143): the 100 µs of the LRST pulse are over. -/
  | lrstPulseEnd
  /-- PORT_RESET (R177): HkRST is asserted. -/
  | portReset (h : HostId)
  /-- HKRST_RELEASE (R176): HkRST is released. -/
  | hkrstRelease (h : HostId)
  /-- CHIP_SELECT_ASSERT (R164): HkCS is asserted. -/
  | chipSelectAssert (h : HostId)
  /-- CHIP_SELECT_RELEASE (R168): HkCS is released. -/
  | chipSelectRelease (h : HostId)
  /-- FRAMING_FAULT (R166): the CHECK of a faulty frame has been received; `frame` is every byte of it. -/
  | framingFault (h : HostId) (frame : List Byte)
  /-- IDENT (R173). -/
  | ident (h : HostId)
  /-- LAST (R172). -/
  | last (h : HostId)
  /-- OPEN (R9). -/
  | openJob (h : HostId) (channel priority flags : Byte)
  /-- APPEND (R33). -/
  | append (h : HostId) (handle kind flags : Byte) (bytes : List Byte)
  /-- CLOSE (R13). -/
  | close (h : HostId) (handle : Byte)
  /-- SET_PRIORITY (R15). -/
  | setPriority (h : HostId) (handle priority : Byte)
  /-- CANCEL (R129). -/
  | cancel (h : HostId) (handle : Byte)
  /-- RELEASE (R18). -/
  | release (h : HostId) (handle : Byte)
  /-- JOB_STATUS (R19). -/
  | jobStatus (h : HostId) (handle : Byte)
  /-- READ_REPLY (R116). -/
  | readReply (h : HostId) (handle maximum : Byte)
  /-- FETCH_EVENT (R123). -/
  | fetchEvent (h : HostId)
  /-- SUBSCRIBE (R124). -/
  | subscribe (h : HostId) (flags : Byte)
  /-- LEASE_TAKE (R157). -/
  | leaseTake (h : HostId)
  /-- LEASE_DROP (R158). -/
  | leaseDrop (h : HostId)
  /-- SET (R152). -/
  | setSetting (h : HostId) (setting host : Byte) (value : BitVec 16)
  /-- GET (R155). -/
  | getSetting (h : HostId) (setting host : Byte)
  /-- LINK_STATUS (R174). -/
  | linkStatus (h : HostId)
  /-- LINK_RESET (R141). -/
  | linkReset (h : HostId)
  /-- ACKNOWLEDGEMENT (R74, R75): the level of FACK changes. -/
  | acknowledgement
  /-- ACKNOWLEDGE_TIMEOUT (R76): the acknowledge timer expires. -/
  | acknowledgeTimeout
  /-- RREQ_RISE (R80). -/
  | rreqRise
  /-- PRDY_RISE (R88). -/
  | prdyRise
  /-- PRDY_FALL (R88). -/
  | prdyFall
  /-- PFLT_CHANGE (R88): the level of PFLT changes. -/
  | pfltChange
  /-- REVERSE_BYTE (R100): the level of RSTB changes, with this byte on LD7–LD0 and this kind on LKIND. -/
  | reverseByte (kind : ByteKind) (b : Byte)
  /-- REV_IDLE_EXPIRY (R101): the reverse-idle timer expires. -/
  | revIdleExpiry
  /-- STALL_TIMER_EXPIRY (R89): the stall timer expires. -/
  | stallTimerExpiry
  /-- DRY_WAIT_EXPIRY (R65): the dry-wait timer expires. -/
  | dryWaitExpiry
  /-- WAKE_TIMER_EXPIRY (R144): the wake timer expires. -/
  | wakeTimerExpiry
  /-- REPLY_TIMER_EXPIRY (R114): the reply timer of route `r` expires. -/
  | replyTimerExpiry (r : RouteId)
  /-- LEASE_TERM_EXPIRY (R159): the term timer of the lease expires. -/
  | leaseTermExpiry
  /-- RREQ_FALL (R77). -/
  | rreqFall
  /-- ANSWER_SENT (R167): the last bit of the answer frame's CHECK has been clocked out. -/
  | answerSent (h : HostId)
deriving DecidableEq, Repr

end Sys2Proof
end

