-- ==== Sys2Proof/Decode.lean ====
section
/-! DEFINITION. The framing of requests on a host port: the sum, the check of R166, the request a frame spells and the frame of
a request (R165, R179, sections 10.2 and 10.3). The opcode table gives no row bits of its own, so no table word decodes. -/

namespace Sys2Proof

/-- The 8-bit sum of a frame's bytes (section 9.1, Request frames). -/
def sum8 : List Byte → Byte
  | [] => 0
  | b :: bs => b + sum8 bs

/-- The CHECK byte that brings the sum of `bs` and itself to 00h: the two's complement of the sum. -/
def checkOf (bs : List Byte) : Byte := - sum8 bs

/-- A 16-bit value as two bytes, most significant byte first (R179). -/
def bytesOf16 (v : BitVec 16) : List Byte := [v.extractLsb' 8 8, v.extractLsb' 0 8]

/-- Two bytes, the most significant first, read as one value (R179). -/
def wordOf16 (hi lo : Byte) : BitVec 16 := hi ++ lo

/-- The codes of the eighteen requests (section 10.2). -/
def requestCodes : List Byte :=
  [0x01#8, 0x02#8, 0x10#8, 0x11#8, 0x12#8, 0x13#8, 0x14#8, 0x15#8, 0x16#8, 0x20#8, 0x30#8, 0x31#8, 0x40#8, 0x41#8,
    0x42#8, 0x43#8, 0x50#8, 0x51#8]

/-- Whether LEN is the parameter size of the request that OPCODE names (the table of R166). -/
def paramSizeFits (opcode : Byte) (len : Nat) : Bool :=
  if opcode = 0x11#8 then decide (3 ≤ len)
  else if opcode = 0x10#8 then decide (len = 3)
  else if opcode = 0x42#8 then decide (len = 4)
  else if opcode ∈ [0x13#8, 0x20#8, 0x43#8] then decide (len = 2)
  else if opcode ∈ [0x12#8, 0x14#8, 0x15#8, 0x16#8, 0x31#8] then decide (len = 1)
  else if opcode ∈ [0x01#8, 0x02#8, 0x30#8, 0x40#8, 0x41#8, 0x50#8, 0x51#8] then decide (len = 0)
  else false

/-- The frame is whole: OPCODE, LEN, LEN parameter bytes and the byte the port takes as CHECK (R165). -/
def frameComplete : List Byte → Bool
  | _ :: len :: rest => decide (rest.length = len.toNat + 1)
  | _ => false

/-- The framing check of R166 refuses the frame: its sum is not 00h, its OPCODE is no request's, its LEN is greater than 248,
or its LEN differs from the parameter size of its request. -/
def frameFaulty : List Byte → Bool
  | opcode :: len :: rest =>
    decide (sum8 (opcode :: len :: rest) ≠ 0) || decide (opcode ∉ requestCodes) || decide (Config.maxLen < len.toNat) ||
      !paramSizeFits opcode len.toNat
  | _ => true

/-- OPCODE and parameter bytes of a request (sections 10.2 and 10.3); none for a command that is no request. -/
def requestBody : Instr → Option (Byte × List Byte)
  | .ident _ => some (0x01#8, [])
  | .last _ => some (0x02#8, [])
  | .openJob _ c p f => some (0x10#8, [c, p, f])
  | .append _ hd k f bs => some (0x11#8, hd :: k :: f :: bs)
  | .close _ hd => some (0x12#8, [hd])
  | .setPriority _ hd p => some (0x13#8, [hd, p])
  | .cancel _ hd => some (0x14#8, [hd])
  | .release _ hd => some (0x15#8, [hd])
  | .jobStatus _ hd => some (0x16#8, [hd])
  | .readReply _ hd m => some (0x20#8, [hd, m])
  | .fetchEvent _ => some (0x30#8, [])
  | .subscribe _ f => some (0x31#8, [f])
  | .leaseTake _ => some (0x40#8, [])
  | .leaseDrop _ => some (0x41#8, [])
  | .setSetting _ i n v => some (0x42#8, i :: n :: bytesOf16 v)
  | .getSetting _ i n => some (0x43#8, [i, n])
  | .linkStatus _ => some (0x50#8, [])
  | .linkReset _ => some (0x51#8, [])
  | .partReset | .rstRelease | .poolInitEnd | .lrstPulseEnd | .portReset _ | .hkrstRelease _ | .chipSelectAssert _
  | .chipSelectRelease _ | .framingFault _ _ | .acknowledgement | .acknowledgeTimeout | .rreqRise | .prdyRise | .prdyFall
  | .pfltChange | .reverseByte _ _ | .revIdleExpiry | .stallTimerExpiry | .dryWaitExpiry | .wakeTimerExpiry
  | .replyTimerExpiry _ | .leaseTermExpiry | .rreqFall | .answerSent _ => none

/-- The host port on which a request arrives; none for a command that is no request. -/
def requestHost : Instr → Option HostId
  | .ident h | .last h | .openJob h _ _ _ | .append h _ _ _ _ | .close h _ | .setPriority h _ _ | .cancel h _
  | .release h _ | .jobStatus h _ | .readReply h _ _ | .fetchEvent h | .subscribe h _ | .leaseTake h | .leaseDrop h
  | .setSetting h _ _ _ | .getSetting h _ _ | .linkStatus h | .linkReset h => some h
  | .partReset | .rstRelease | .poolInitEnd | .lrstPulseEnd | .portReset _ | .hkrstRelease _ | .chipSelectAssert _
  | .chipSelectRelease _ | .framingFault _ _ | .acknowledgement | .acknowledgeTimeout | .rreqRise | .prdyRise | .prdyFall
  | .pfltChange | .reverseByte _ _ | .revIdleExpiry | .stallTimerExpiry | .dryWaitExpiry | .wakeTimerExpiry
  | .replyTimerExpiry _ | .leaseTermExpiry | .rreqFall | .answerSent _ => none

/-- A frame: the given bytes and the CHECK that completes them. -/
def withCheck (bs : List Byte) : List Byte := bs ++ [checkOf bs]

/-- The frame of a request, every byte of it: OPCODE, LEN, parameters and CHECK (section 9.1). -/
def encodeRequest (i : Instr) : Option (List Byte) :=
  (requestBody i).map fun b => withCheck (b.1 :: BitVec.ofNat 8 b.2.length :: b.2)

/-- The request that OPCODE and the parameter bytes spell on port `h`; none where they fit no request. -/
def decodeBody (h : HostId) (opcode : Byte) (params : List Byte) : Option Instr :=
  if opcode = 0x01#8 then (match params with | [] => some (.ident h) | _ => none)
  else if opcode = 0x02#8 then (match params with | [] => some (.last h) | _ => none)
  else if opcode = 0x10#8 then (match params with | [c, p, f] => some (.openJob h c p f) | _ => none)
  else if opcode = 0x11#8 then (match params with | hd :: k :: f :: bs => some (.append h hd k f bs) | _ => none)
  else if opcode = 0x12#8 then (match params with | [hd] => some (.close h hd) | _ => none)
  else if opcode = 0x13#8 then (match params with | [hd, p] => some (.setPriority h hd p) | _ => none)
  else if opcode = 0x14#8 then (match params with | [hd] => some (.cancel h hd) | _ => none)
  else if opcode = 0x15#8 then (match params with | [hd] => some (.release h hd) | _ => none)
  else if opcode = 0x16#8 then (match params with | [hd] => some (.jobStatus h hd) | _ => none)
  else if opcode = 0x20#8 then (match params with | [hd, m] => some (.readReply h hd m) | _ => none)
  else if opcode = 0x30#8 then (match params with | [] => some (.fetchEvent h) | _ => none)
  else if opcode = 0x31#8 then (match params with | [f] => some (.subscribe h f) | _ => none)
  else if opcode = 0x40#8 then (match params with | [] => some (.leaseTake h) | _ => none)
  else if opcode = 0x41#8 then (match params with | [] => some (.leaseDrop h) | _ => none)
  else if opcode = 0x42#8 then
    (match params with | [i, n, hi, lo] => some (.setSetting h i n (wordOf16 hi lo)) | _ => none)
  else if opcode = 0x43#8 then (match params with | [i, n] => some (.getSetting h i n) | _ => none)
  else if opcode = 0x50#8 then (match params with | [] => some (.linkStatus h) | _ => none)
  else if opcode = 0x51#8 then (match params with | [] => some (.linkReset h) | _ => none)
  else none

/-- The request that a whole frame spells on port `h`: none where the frame is not whole or fails the framing check. -/
def decodeRequest (h : HostId) (frame : List Byte) : Option Instr :=
  if frameComplete frame && !frameFaulty frame then
    match frame with
    | opcode :: _ :: rest => decodeBody h opcode rest.dropLast
    | _ => none
  else none

/-- The command a word of the opcode table spells. The table gives no row any bits ("fields" is empty in every row), so no
word spells a command. DEDUCED, log entry 1. -/
def decodeTableWord (_nbits _w : Nat) : Option Instr := none

end Sys2Proof
end

