-- ==== Sys2Proof/Machine/State.lean ====
section
/-! DEFINITION. The state of the ON4120, block by block, and the state the part is in after reset. -/

namespace Sys2Proof.Machine

/-- The model has no fault: the spec gives every command of the table an effect in every state, and an event that cannot arise
in a state (the expiry of a stopped timer, R80) changes nothing. No constructor is declared, so no command can answer one; that
is safe. -/
inductive Fault where
deriving DecidableEq, Repr

/-- Why a command has no meaning in the model. -/
inductive Refusal where
  /-- Raised by an arm of exec whose command has no meaning yet; safe, since nothing is claimed of it. No arm raises it. -/
  | notModelled (mnemonic : String)
deriving DecidableEq, Repr

/-! ## Jobs (chapter 1) and their entries (chapter 2) -/

/-- The one-byte name of a job as its two parts (R2). -/
structure Handle where
  slot : SlotId
  gen : Fin 8
deriving DecidableEq, Repr

/-- An entry of a job's chain (section 2.1). -/
inductive Entry where
  | data (b : Byte)
  | control (b : Byte)
  /-- BREAK. -/
  | brk
deriving DecidableEq, Repr

/-- A segment in a chain (R24). `taken` positions have left it; `entries` are those not yet taken, in position order, so the
written count is `taken` plus their number. -/
structure Segment where
  id : SegmentId
  taken : Nat
  entries : List Entry
deriving DecidableEq, Repr

/-- The states of a job (section 1.4). -/
inductive JobState where
  | free
  | filling
  | ready
  | active
  | suspended
  | starved
  | cancelling
  | awaitReply
  | ended
deriving DecidableEq, Repr

/-- How a job ended (R17). -/
inductive JobOutcome where
  | done
  | failed
  | cancelled
deriving DecidableEq, Repr

/-- Why a job ended (R17). -/
inductive Cause where
  | none
  | byOwner
  | byLeaseHolder
  | linkFault
  | linkReset
  | replyTimeout
deriving DecidableEq, Repr

/-- The job record of a slot (section 1.3). `chain` is absent when empty. `queued` is the record's own count. R6 and R50 speak of
the ready sequence in two ways, and the record holds both: `readySeq` is the place in the ready set, absent outside it (R16, R50);
`seqTaken` is the ordering number the job took when it last entered READY, kept until it next enters READY (R6; log entry 11). -/
structure Job where
  owner : HostId
  channel : ChannelId
  priority : Fin 8
  stream : Bool
  reply : Bool
  closed : Bool
  begun : Bool
  orphaned : Bool
  state : JobState
  queued : Nat
  chain : List Segment
  sent : BitVec 32
  route : Option RouteId
  readySeq : Option Nat
  seqTaken : Option Nat
  turn : Nat
  outcome : Option JobOutcome
  cause : Option Cause
deriving DecidableEq, Repr

/-- The cleared record of a FREE slot (R18). The values of the fields that have no "absent" are the model's: DESIGN CHOICE,
log entry 12. -/
def freeJob : Job :=
  { owner := 0, channel := 0, priority := 0, stream := false, reply := false, closed := false, begun := false,
    orphaned := false, state := .free, queued := 0, chain := [], sent := 0, route := none, readySeq := none, seqTaken := none,
    turn := 0, outcome := none, cause := none }

/-- Job Manager: job table, generation counters, owned-slot counts (R1), and the ordering number the next job to enter READY
takes (R6). -/
structure JobManager where
  jobs : Vector Job 24
  gens : Vector (Fin 8) 24
  owned : Vector Nat 4
  nextSeq : Nat
deriving DecidableEq, Repr

/-! ## Segment Pool (chapter 2) -/

/-- The pool state (R40, R41). -/
inductive PoolPhase where
  | init
  | ready
deriving DecidableEq, Repr

/-- Segment Pool: pool state, the 80 µs period, free list (the next to be allocated first, R27), used counts (R28) and
space-waiter marks with their recorded need (R36). -/
structure SegmentPool where
  phase : PoolPhase
  initTimer : Timer
  free : List SegmentId
  used : Vector Nat 4
  marks : Vector (Option Nat) 4
deriving DecidableEq, Repr

/-! ## Dispatch Unit (chapter 3) -/

/-- Dispatch Unit (section 3.1): ready set oldest first, suspension stack bottom first, channel claim table, rotation pointer,
active job. Jobs are named by their slot. `leaving` is true while the decision that a dry-wait expiry has started is open for an
event that falls together with it (R64; log entry 24). -/
structure DispatchUnit where
  ready : List SlotId
  stack : List SlotId
  claims : Vector (Option SlotId) 16
  rotation : HostId
  active : Option SlotId
  leaving : Bool
deriving DecidableEq, Repr

/-! ## Link Engine (chapter 4) -/

/-- The link states (R72). -/
inductive LinkState where
  | resetting
  | waking
  | down
  | idle
  | sending
  | waiting
  | reverse
deriving DecidableEq, Repr

/-- The origin of an offer (R73). -/
inductive Origin where
  | entry (job : Handle)
  | select (channel : ChannelId)
  | abandon
deriving DecidableEq, Repr

/-- What the output latch holds (R73). -/
structure Offer where
  byte : Byte
  kind : ByteKind
  origin : Origin
deriving DecidableEq, Repr

/-- An entry of the abandon list (R134). -/
structure AbandonEntry where
  job : Handle
  channel : ChannelId
  cause : Cause
deriving DecidableEq, Repr

/-- The stall record (R89). -/
inductive StallRecord where
  | none
  | timing
  | reported
deriving DecidableEq, Repr

/-- The last fault (R76, R141). -/
inductive LastFault where
  | none
  | ackTimeout
  | resetRequested
deriving DecidableEq, Repr

/-- Link Engine (section 4.1). `current` is none for NONE. `pulseTimer` is the LRST pulse (R143). -/
structure LinkEngine where
  link : LinkState
  current : Option ChannelId
  latch : Option Offer
  abandon : List AbandonEntry
  stall : StallRecord
  ackTimer : Timer
  stallTimer : Timer
  dryTimer : Timer
  wakeTimer : Timer
  revIdleTimer : Timer
  pulseTimer : Timer
  lastStatus : Option (Fin 16)
  lastFault : LastFault
deriving DecidableEq, Repr

/-! ## Reply Router (chapter 5) -/

/-- The states of a route (section 5.1). -/
inductive RouteState where
  | free
  | opened
  | complete
  | aborted
deriving DecidableEq, Repr

/-- A route record (section 5.1): its state, owner job, buffer oldest first, TRUNCATED flag and reply timer. -/
structure Route where
  state : RouteState
  owner : Option Handle
  buffer : List Byte
  truncated : Bool
  timer : Timer
deriving DecidableEq, Repr

/-- The record of a FREE route (R95, R98). -/
def freeRoute : Route := { state := .free, owner := none, buffer := [], truncated := false, timer := none }

/-- Reply Router (section 5.1): route table, route selection, pending repeat, orphan notice posted or not. -/
structure ReplyRouter where
  routes : Vector Route 16
  selection : Option RouteId
  repeats : Option Nat
  orphanPosted : Bool
deriving DecidableEq, Repr

/-! ## Event Units (chapter 6) -/

/-- The thirteen kinds of event (section 6.2). -/
inductive EventKind where
  | jobEnded
  | jobStarved
  | replyArrived
  | replyEnd
  | space
  | leaseGranted
  | leaseExpired
  | linkStall
  | linkFault
  | linkDown
  | linkUp
  | linkProtocol
  | periphStatus
deriving DecidableEq, Repr

/-- An event record (R118): none stands for the FFh of a handle or route the event does not concern (R181). -/
structure Event where
  kind : EventKind
  handle : Option Handle
  route : Option RouteId
  code : Byte
deriving DecidableEq, Repr

/-- An event unit (R117): its queue oldest first, LAPSED, the subscription in three parts, and the attention line. -/
structure EventUnit where
  queue : List Event
  lapsed : Bool
  enable : Bool
  linkGroup : Bool
  statusGroup : Bool
  attn : Bool
deriving DecidableEq, Repr

/-- An event unit after part reset and after the port reset of its host (section 6.1). -/
def emptyEventUnit : EventUnit :=
  { queue := [], lapsed := false, enable := false, linkGroup := false, statusGroup := false, attn := false }

/-! ## Settings Unit (chapter 8) -/

/-- The settings record (section 8.1), each value in its own unit. -/
structure Settings where
  ackTime : Nat
  stallTime : Nat
  starveTime : Nat
  revIdle : Nat
  replyTime : Nat
  wakeTime : Nat
  leaseTerm : Nat
  startThreshold : Nat
  turnBudget : Nat
  preemptFloor : Nat
  jobLimit : Vector Nat 4
  reserve : Vector Nat 4
deriving DecidableEq, Repr

/-- The defaults of the settings record (section 8.1, R150). -/
def defaultSettings : Settings :=
  { ackTime := 50, stallTime := 100, starveTime := 20, revIdle := 50, replyTime := 50, wakeTime := 20, leaseTerm := 20,
    startThreshold := 64, turnBudget := 4096, preemptFloor := 6, jobLimit := Vector.replicate 4 8,
    reserve := Vector.replicate 4 32 }

/-- Settings Unit: settings record, lease holder, term timer, waiter list with the head first (R156). `termLeft` is the most
that can be left on the term timer, in ms: the term at each start of the timer, then each remaining term answered (R157); 0 while
it is stopped. It is the model's own field (log entry 2). -/
structure SettingsUnit where
  settings : Settings
  holder : Option HostId
  term : Timer
  termLeft : Nat
  waiters : List HostId
deriving DecidableEq, Repr

/-! ## Host Ports (chapter 9) and pins (section 10.5) -/

/-- The framing state of a port (R164). In ANSWER it holds the answer frame being sent after the fill byte. -/
inductive Framing where
  | idle
  | request
  | answer (frame : List Byte)
  | draining
deriving DecidableEq, Repr

/-- A host port: framing state, stored last answer (none when empty, R171), detached state (R176), and the asserted level of
HkCS and HkRST. -/
structure Port where
  framing : Framing
  stored : Option (List Byte)
  detached : Bool
  cs : Bool
  hrst : Bool
deriving DecidableEq, Repr

/-- The lines of the P-link and RST (section 10.5). `rst` and `lrst` are true when asserted, the others when high.
`ld` and `lkind` are what the part drives, or last drove, on LD7–LD0 and LKIND; `ldDriven` is false while it releases them. -/
structure Pins where
  rst : Bool
  lrst : Bool
  fstb : Bool
  fack : Bool
  rreq : Bool
  rgnt : Bool
  rstb : Bool
  rack : Bool
  prdy : Bool
  pflt : Bool
  ld : Byte
  lkind : ByteKind
  ldDriven : Bool
deriving DecidableEq, Repr

/-! ## The part -/

/-- The whole part, with the queue of commands that are waiting. `draws` counts the free values taken (log entry 2): the
model's own field. -/
structure State where
  pending : List Instr
  ports : Vector Port 4
  eus : Vector EventUnit 4
  jm : JobManager
  sp : SegmentPool
  du : DispatchUnit
  le : LinkEngine
  rr : ReplyRouter
  su : SettingsUnit
  pins : Pins
  draws : Nat
deriving DecidableEq, Repr

/-! ## After part reset -/

/-- JM after part reset (R1). -/
def resetJobManager : JobManager :=
  { jobs := Vector.replicate 24 freeJob, gens := Vector.replicate 24 0, owned := Vector.replicate 4 0, nextSeq := 0 }

/-- SP after part reset: INIT, used counts 0, no mark (R40). The free list is empty until INIT ends: log entry 13. -/
def resetSegmentPool : SegmentPool :=
  { phase := .init, initTimer := none, free := [], used := Vector.replicate 4 0, marks := Vector.replicate 4 none }

/-- DU after part reset (R42). -/
def resetDispatchUnit : DispatchUnit :=
  { ready := [], stack := [], claims := Vector.replicate 16 none, rotation := 3, active := none, leaving := false }

/-- LE after part reset (section 4.1, R93). -/
def resetLinkEngine : LinkEngine :=
  { link := .resetting, current := none, latch := none, abandon := [], stall := .none, ackTimer := none, stallTimer := none,
    dryTimer := none, wakeTimer := none, revIdleTimer := none, pulseTimer := none, lastStatus := none, lastFault := .none }

/-- RR after part reset (R95). -/
def resetReplyRouter : ReplyRouter :=
  { routes := Vector.replicate 16 freeRoute, selection := none, repeats := none, orphanPosted := false }

/-- SU after part reset (R150, R156). -/
def resetSettingsUnit : SettingsUnit :=
  { settings := defaultSettings, holder := none, term := none, termLeft := 0, waiters := [] }

/-- A host port while RST is held (R178), its input lines at the given levels. -/
def resetPort (cs hrst : Bool) : Port := { framing := .idle, stored := none, detached := true, cs := cs, hrst := hrst }

/-- The lines while RST is held: outputs as R93 gives, inputs at the given levels. -/
def resetPins (fack rreq rstb prdy pflt : Bool) : Pins :=
  { rst := true, lrst := true, fstb := false, fack := fack, rreq := rreq, rgnt := false, rstb := rstb, rack := false,
    prdy := prdy, pflt := pflt, ld := 0, lkind := .data, ldDriven := false }

/-- The part right after reset: RST is asserted and every block has its part-reset state (R178). The spec gives the input
lines no level: every one stands deasserted or low. DESIGN CHOICE, log entry 8. -/
def State.reset : State :=
  { pending := [], ports := Vector.replicate 4 (resetPort false false), eus := Vector.replicate 4 emptyEventUnit,
    jm := resetJobManager, sp := resetSegmentPool, du := resetDispatchUnit, le := resetLinkEngine, rr := resetReplyRouter,
    su := resetSettingsUnit, pins := resetPins false false false false false, draws := 0 }

end Sys2Proof.Machine
end

