-- ==== Sys2Proof/Machine/Flags.lean ====
section
/-! DEFINITION. Flags the part computes or packs: the attention line, flag bytes of requests and answers, the numbers that
stand for names in frames (sections 10.1 to 10.3). -/

namespace Sys2Proof.Machine

/-- A flag as a bit of weight `2 ^ n`. -/
def flagBit (b : Bool) (n : Nat) : Byte := if b then 1#8 <<< n else 0#8

/-- The level of HkATTN: attention enable on, and queue non-empty or LAPSED set (R125). -/
def attentionLevel (u : EventUnit) : Bool := u.enable && (!u.queue.isEmpty || u.lapsed)

/-- The unit with its attention line driven as R125 gives. -/
def driveAttention (u : EventUnit) : EventUnit := { u with attn := attentionLevel u }

/-- The codes of the answers (section 10.2). -/
inductive AnswerCode where
  | ok
  | notReady
  | frame
  | badArg
  | badJob
  | notOwner
  | badState
  | noSlot
  | limit
  | noSpace
  | noRoute
  | noLease
  | leaseHeld
  | empty
deriving DecidableEq, Repr

/-- The number of an answer code (section 10.2). -/
def answerCodeByte : AnswerCode → Byte
  | .ok => 0x00#8
  | .notReady => 0x01#8
  | .frame => 0x02#8
  | .badArg => 0x03#8
  | .badJob => 0x04#8
  | .notOwner => 0x05#8
  | .badState => 0x06#8
  | .noSlot => 0x07#8
  | .limit => 0x08#8
  | .noSpace => 0x09#8
  | .noRoute => 0x0A#8
  | .noLease => 0x0B#8
  | .leaseHeld => 0x0C#8
  | .empty => 0x0D#8

/-- The STATUS byte of an answer: EVENTS_PENDING in bit 7, LAPSED in bit 6, LINK_DOWN in bit 5, the code below (R126, R179). -/
def statusByte (u : EventUnit) (link : LinkState) (code : AnswerCode) : Byte :=
  flagBit (!u.queue.isEmpty) 7 ||| flagBit u.lapsed 6 ||| flagBit (decide (link = .down)) 5 ||| answerCodeByte code

/-- The number of a job state (section 10.2). -/
def jobStateByte : JobState → Byte
  | .free => 0x00#8
  | .filling => 0x01#8
  | .ready => 0x02#8
  | .active => 0x03#8
  | .suspended => 0x04#8
  | .starved => 0x05#8
  | .cancelling => 0x06#8
  | .awaitReply => 0x07#8
  | .ended => 0x08#8

/-- The number of a route state (section 10.2). -/
def routeStateByte : RouteState → Byte
  | .free => 0x00#8
  | .opened => 0x01#8
  | .complete => 0x02#8
  | .aborted => 0x03#8

/-- The number of a link state (section 10.2). -/
def linkStateByte : LinkState → Byte
  | .resetting => 0x00#8
  | .waking => 0x01#8
  | .down => 0x02#8
  | .idle => 0x03#8
  | .sending => 0x04#8
  | .waiting => 0x05#8
  | .reverse => 0x06#8

/-- The number of a last fault, the same as the LINK_FAULT code (section 10.2). -/
def lastFaultByte : LastFault → Byte
  | .none => 0x00#8
  | .ackTimeout => 0x01#8
  | .resetRequested => 0x02#8

/-- The number of a pool state, the part state of IDENT (section 10.2). -/
def partStateByte : PoolPhase → Byte
  | .init => 0x00#8
  | .ready => 0x01#8

/-- The number of an outcome (section 10.2). -/
def outcomeNumber : JobOutcome → Byte
  | .done => 1#8
  | .failed => 2#8
  | .cancelled => 3#8

/-- The number of a cause (section 10.2). -/
def causeNumber : Cause → Byte
  | .none => 0#8
  | .byOwner => 1#8
  | .byLeaseHolder => 2#8
  | .linkFault => 3#8
  | .linkReset => 4#8
  | .replyTimeout => 5#8

/-- Outcome in bits 7–4 and cause in bits 3–0 (section 10.2). -/
def outcomeCauseByte (o : JobOutcome) (c : Cause) : Byte := outcomeNumber o <<< 4 ||| causeNumber c

/-- Byte 13 of the job status record: FFh in every state but ENDED (R180). -/
def endByte (j : Job) : Byte :=
  match j.state, j.outcome, j.cause with
  | .ended, some o, some c => outcomeCauseByte o c
  | _, _, _ => 0xFF#8

/-- The flags byte of the job status record (R180). -/
def jobFlagsByte (j : Job) : Byte :=
  flagBit j.stream 0 ||| flagBit j.reply 1 ||| flagBit j.closed 2 ||| flagBit j.begun 3 ||| flagBit j.orphaned 4

/-- The subscription flags of an event unit (SUBSCRIBE in section 10.3). -/
def subscriptionByte (u : EventUnit) : Byte :=
  flagBit u.enable 0 ||| flagBit u.linkGroup 1 ||| flagBit u.statusGroup 2

/-- The number of an event kind (R181). -/
def eventKindByte : EventKind → Byte
  | .jobEnded => 0x01#8
  | .jobStarved => 0x02#8
  | .replyArrived => 0x03#8
  | .replyEnd => 0x04#8
  | .space => 0x05#8
  | .leaseGranted => 0x06#8
  | .leaseExpired => 0x07#8
  | .linkStall => 0x08#8
  | .linkFault => 0x09#8
  | .linkDown => 0x0A#8
  | .linkUp => 0x0B#8
  | .linkProtocol => 0x0C#8
  | .periphStatus => 0x0D#8

/-- A byte uses no bit but those of `mask` (R179: a set bit that is not named is refused). -/
def onlyBits (mask b : Byte) : Bool := decide (b &&& ~~~mask = 0#8)

end Sys2Proof.Machine
end

