-- ==== Sys2Proof/Machine/Ops.lean ====
section
/-! DEFINITION. The named operations over the part's state that every meaning is built from: reading and writing its tables,
posting events, the pool's counts and chains, routes, and the ending and release of jobs. -/

namespace Sys2Proof.Machine

/-- The four hosts in ascending order. -/
def allHosts : List HostId := [0, 1, 2, 3]

/-- The slots of the job table in ascending order. -/
def allSlots : List SlotId := List.finRange 24

/-! ## Reading and writing the tables -/

def State.port (s : State) (h : HostId) : Port := s.ports[h]
def State.setPort (s : State) (h : HostId) (p : Port) : State := { s with ports := upd s.ports h p }
def State.eu (s : State) (h : HostId) : EventUnit := s.eus[h]
def State.setEu (s : State) (h : HostId) (u : EventUnit) : State := { s with eus := upd s.eus h u }
def State.job (s : State) (k : SlotId) : Job := s.jm.jobs[k]
def State.setJob (s : State) (k : SlotId) (j : Job) : State := { s with jm := { s.jm with jobs := upd s.jm.jobs k j } }
def State.gen (s : State) (k : SlotId) : Fin 8 := s.jm.gens[k]
def State.owned (s : State) (h : HostId) : Nat := s.jm.owned[h]
def State.setOwned (s : State) (h : HostId) (n : Nat) : State := { s with jm := { s.jm with owned := upd s.jm.owned h n } }
def State.used (s : State) (h : HostId) : Nat := s.sp.used[h]
def State.mark (s : State) (h : HostId) : Option Nat := s.sp.marks[h]
def State.setMark (s : State) (h : HostId) (m : Option Nat) : State :=
  { s with sp := { s.sp with marks := upd s.sp.marks h m } }
def State.route (s : State) (r : RouteId) : Route := s.rr.routes[r]
def State.setRoute (s : State) (r : RouteId) (x : Route) : State :=
  { s with rr := { s.rr with routes := upd s.rr.routes r x } }
def State.claim (s : State) (c : ChannelId) : Option SlotId := s.du.claims[c]
def State.setClaim (s : State) (c : ChannelId) (k : Option SlotId) : State :=
  { s with du := { s.du with claims := upd s.du.claims c k } }

/-- The handle of the job in slot `k`: its slot and the slot's generation (R2). -/
def State.handle (s : State) (k : SlotId) : Handle := { slot := k, gen := s.gen k }

/-! ## Event units (chapter 6) -/

/-- An event unit takes a post: dropped while the port is detached, lost with LAPSED set when the queue holds 16 records,
queued at the tail otherwise (R119, R122); the attention line follows (R125). -/
def takePost (detached : Bool) (e : Event) (u : EventUnit) : EventUnit :=
  if detached then u
  else if Config.queueCapacity ≤ u.queue.length then driveAttention { u with lapsed := true }
  else driveAttention { u with queue := u.queue ++ [e] }

/-- Post a record to the event unit of host `h` (R119). -/
def post (h : HostId) (e : Event) (s : State) : State := s.setEu h (takePost (s.port h).detached e (s.eu h))

/-- Post a record to every unit that is a member of the LINK group at this moment (R121). -/
def postLinkGroup (e : Event) (s : State) : State :=
  allHosts.foldl (fun s h => if (s.eu h).linkGroup then post h e s else s) s

/-- Post a record to every unit that is a member of the STATUS group at this moment (R121). -/
def postStatusGroup (e : Event) (s : State) : State :=
  allHosts.foldl (fun s h => if (s.eu h).statusGroup then post h e s else s) s

/-- A record that concerns no job and no route (section 6.2). -/
def plainEvent (kind : EventKind) (code : Byte) : Event := { kind := kind, handle := none, route := none, code := code }

/-! ## The pool's counts (section 2.4) -/

/-- The sum over the four hosts. -/
def sumHosts (f : HostId → Nat) : Nat := (allHosts.map f).sum

/-- Σ RESERVE. -/
def reserveSum (reserve : Vector Nat 4) : Nat := sumHosts fun h => reserve[h]

/-- Shared capacity: 384 − Σ RESERVE. -/
def sharedCapacity (reserve : Vector Nat 4) : Nat := Config.poolSegments - reserveSum reserve

/-- Shared used: Σ max(0, used[h] − RESERVE[h]). -/
def sharedUsed (reserve used : Vector Nat 4) : Nat := sumHosts fun h => used[h] - reserve[h]

/-- Shared free: shared capacity − shared used. -/
def sharedFree (s : State) : Nat :=
  sharedCapacity s.su.settings.reserve - sharedUsed s.su.settings.reserve s.sp.used

/-- Unused reserve of `h`: max(0, RESERVE[h] − used[h]). -/
def unusedReserve (s : State) (h : HostId) : Nat := s.su.settings.reserve[h] - s.used h

/-- The allowance of `h`: its unused reserve and the shared free segments (R29). -/
def allowance (s : State) (h : HostId) : Nat := unusedReserve s h + sharedFree s

/-- A set of reserves is acceptable: it sums to 384 at most, and shared used, computed with it, fits (R38, R154). -/
def reservesAcceptable (reserve used : Vector Nat 4) : Bool :=
  decide (reserveSum reserve ≤ Config.poolSegments) &&
    decide (sharedUsed reserve used ≤ Config.poolSegments - reserveSum reserve)

/-- The evaluation of host `h`'s mark: its need is met, so the mark goes and SPACE is posted, or the mark stays (R37). -/
def evaluateMark (s : State) (h : HostId) : State :=
  match s.mark h with
  | none => s
  | some need =>
    if need ≤ allowance s h then post h (plainEvent .space 0) (s.setMark h none) else s

/-- The evaluation of the space waiters (R37). -/
def evaluateSpace (s : State) : State := allHosts.foldl evaluateMark s

/-- Segments of a job of host `h` return to the free list, and its used count falls by their number (R26, R27, R28). Which of
several segments freed in one event stands ahead on the list R27 leaves open: DESIGN CHOICE, log entry 13. -/
def freeSegments (h : HostId) (ids : List SegmentId) (s : State) : State :=
  { s with sp := { s.sp with free := ids ++ s.sp.free, used := upd s.sp.used h (s.used h - ids.length) } }

/-! ## Chains (section 2.2) -/

/-- The written count of a segment (R24). -/
def written (g : Segment) : Nat := g.taken + g.entries.length

/-- The number of entries in a chain: over its segments, written count minus taken count (R25). -/
def chainEntries (chain : List Segment) : Nat := (chain.map fun g => g.entries.length).sum

/-- The entry at the head of a job's chain; none when the chain is absent. -/
def headEntry (s : State) (k : SlotId) : Option Entry :=
  match (s.job k).chain with
  | [] => none
  | g :: _ => g.entries.head?

/-- The free positions of the tail segment above its written count; 0 when there is no chain (R30). -/
def tailSpace (chain : List Segment) : Nat :=
  match chain.getLast? with
  | none => 0
  | some g => Config.segmentPositions - written g

/-- The entries an APPEND needs: its bytes, and one for BREAK_AFTER (R30). -/
def entriesNeeded (nBytes : Nat) (breakAfter : Bool) : Nat := nBytes + if breakAfter then 1 else 0

/-- The new segments needed for `n` entries when the tail has `space` free positions: those beyond it, divided by 32 and
rounded up (R30). -/
def segmentsNeeded (n space : Nat) : Nat :=
  (n - space + (Config.segmentPositions - 1)) / Config.segmentPositions

/-- Entries written into the tail segment of a chain (R25). -/
def writeTail (es : List Entry) : List Segment → List Segment
  | [] => []
  | [g] => [{ g with entries := g.entries ++ es }]
  | g :: g' :: gs => g :: writeTail es (g' :: gs)

/-- New segments at the end of a chain, each filled with 32 entries before the next is begun (R25). -/
def writeFresh : List SegmentId → List Entry → List Segment
  | [], _ => []
  | i :: is, es =>
    { id := i, taken := 0, entries := es.take Config.segmentPositions } ::
      writeFresh is (es.drop Config.segmentPositions)

/-- Entries join the chain of the job in slot `k`: the tail is filled, then as many segments as are needed are allocated from
the head of the free list and counted for the owner (R25, R27, R28, R33). -/
def appendEntries (k : SlotId) (es : List Entry) (s : State) : State :=
  let j := s.job k
  let space := tailSpace j.chain
  let need := segmentsNeeded es.length space
  let ids := s.sp.free.take need
  let chain := writeTail (es.take space) j.chain ++ writeFresh ids (es.drop space)
  let s := { s with sp := { s.sp with free := s.sp.free.drop need, used := upd s.sp.used j.owner (s.used j.owner + need) } }
  s.setJob k { j with chain := chain, queued := j.queued + es.length }

/-- The head entry leaves the chain of the job in slot `k`; a segment left with no entries is freed at once, which starts an
evaluation of the space waiters (R26, R37). -/
def takeHead (k : SlotId) (s : State) : State :=
  let j := s.job k
  match j.chain with
  | [] => s
  | g :: gs =>
    match g.entries with
    | [] => s
    | [_] => evaluateSpace (freeSegments j.owner [g.id] (s.setJob k { j with chain := gs, queued := j.queued - 1 }))
    | _ :: es =>
      s.setJob k { j with chain := { g with taken := g.taken + 1, entries := es } :: gs, queued := j.queued - 1 }

/-- The chain of the job in slot `k` is discarded whole: its segments join the free list together (R35). The evaluation of the
space waiters that follows is the caller's, since one event may discard several chains (R39, R140). -/
def discardChain (k : SlotId) (s : State) : State :=
  let j := s.job k
  freeSegments j.owner (j.chain.map fun g => g.id) (s.setJob k { j with chain := [], queued := 0 })

/-! ## Routes (section 5.2) -/

/-- The route of the job in slot `k`, if any, becomes ABORTED: its buffer is emptied and its reply timer stopped; TRUNCATED
and the owner stay (R97). -/
def abortRoute (k : SlotId) (s : State) : State :=
  match (s.job k).route with
  | none => s
  | some r => s.setRoute r { s.route r with state := .aborted, buffer := [], timer := none }

/-- The route of the job in slot `k`, if any, becomes FREE (R98). -/
def freeRouteOf (k : SlotId) (s : State) : State :=
  match (s.job k).route with
  | none => s
  | some r => s.setRoute r freeRoute

/-- The reply timer of the job in slot `k`, if any, is stopped (R16, R113). -/
def stopReplyTimer (k : SlotId) (s : State) : State :=
  match (s.job k).route with
  | none => s
  | some r => s.setRoute r { s.route r with timer := none }

/-! ## Ending and release of jobs (section 1.7) -/

/-- The slot returns to FREE: its record is cleared, its generation advances, its route is freed and its owner's owned-slot
count falls by 1 (R2, R18, R22). -/
def releaseSlot (k : SlotId) (s : State) : State :=
  let h := (s.job k).owner
  let s := freeRouteOf k s
  let s := s.setOwned h (s.owned h - 1)
  { s with jm := { s.jm with jobs := upd s.jm.jobs k freeJob, gens := upd s.jm.gens k (s.gen k + 1) } }

/-- The JOB_ENDED record of a job (section 6.2). -/
def jobEndedEvent (s : State) (k : SlotId) (o : JobOutcome) (c : Cause) : Event :=
  { kind := .jobEnded, handle := some (s.handle k), route := (s.job k).route, code := outcomeCauseByte o c }

/-- The job in slot `k` enters ENDED (R16): outcome and cause are recorded, its chain is freed, its ready sequence becomes
absent and its reply timer stops. An ORPHANED job is released at once with no event (R22); of any other, JOB_ENDED goes to its
owner. The caller has removed it from the ready set, the stack or the abandon list, and evaluates the space waiters after. -/
def endJob (k : SlotId) (o : JobOutcome) (c : Cause) (s : State) : State :=
  let s := stopReplyTimer k (discardChain k s)
  let j := s.job k
  let s := s.setJob k { j with state := .ended, outcome := some o, cause := some c, readySeq := none }
  if j.orphaned then releaseSlot k s else post j.owner (jobEndedEvent s k o c) s

/-- The job enters ENDED and the space waiters are evaluated, JOB_ENDED standing ahead of any SPACE (R16). -/
def endJobAlone (k : SlotId) (o : JobOutcome) (c : Cause) (s : State) : State := evaluateSpace (endJob k o c s)

end Sys2Proof.Machine
end

