-- ==== Sys2Proof/Machine/Operands.lean ====
section
/-! DEFINITION. The operand forms of requests and of reverse bytes: the job a handle names, entries of an APPEND, the setting an
identifier names, the class of a reverse CONTROL byte, and the remaining term of the lease. -/

namespace Sys2Proof.Machine

/-- The slot number of a handle byte, its bits 4–0 (R2). -/
def handleSlot (b : Byte) : Nat := b.toNat % 32

/-- The generation of a handle byte, its bits 7–5 (R2). -/
def handleGen (b : Byte) : Nat := b.toNat / 32

/-- The byte of a handle (R2). -/
def handleByte (x : Handle) : Byte := BitVec.ofNat 8 (32 * x.gen.val + x.slot.val)

/-- The slot of the job that a handle byte names; none where it is answered BAD_JOB: slot 24–31, a FREE slot, or another
generation (R3). -/
def findJob (s : State) (b : Byte) : Option SlotId :=
  if h : handleSlot b < 24 then
    let k : SlotId := ⟨handleSlot b, h⟩
    if (s.job k).state ≠ .free ∧ (s.gen k).val = handleGen b then some k else none
  else none

/-- Host `h` passes the ownership check for the job in slot `k`: it owns the job and the job is not ORPHANED (R4). -/
def ownsJob (s : State) (h : HostId) (k : SlotId) : Bool := decide ((s.job k).owner = h) && !(s.job k).orphaned

/-- The kind an APPEND names: 00h DATA, 01h CONTROL (section 10.3). -/
def appendKind (b : Byte) : Option ByteKind :=
  if b = 0x00#8 then some .data else if b = 0x01#8 then some .control else none

/-- BREAK_AFTER, bit 0 of an APPEND's flags (section 10.3). -/
def breakAfter (flags : Byte) : Bool := flags.getLsbD 0

/-- CLOSE_AFTER, bit 1 of an APPEND's flags (section 10.3). -/
def closeAfter (flags : Byte) : Bool := flags.getLsbD 1

/-- An entry of the given kind (R23). -/
def entryOf (kind : ByteKind) (b : Byte) : Entry :=
  match kind with
  | .data => .data b
  | .control => .control b

/-- The entries of an APPEND: one of its kind for each byte in order, and a BREAK after them when asked (R23). -/
def appendList (kind : ByteKind) (bytes : List Byte) (brk : Bool) : List Entry :=
  bytes.map (entryOf kind) ++ if brk then [.brk] else []

/-- The parameters of an APPEND pass the BAD_ARG check of R31: a known kind, no flag but BREAK_AFTER and CLOSE_AFTER, at most
240 bytes, a byte or a flag, and no byte E0h–FFh in kind CONTROL. Answers the kind. -/
def appendArgs (kind flags : Byte) (bytes : List Byte) : Option ByteKind :=
  match appendKind kind with
  | none => none
  | some kd =>
    if onlyBits 0x03#8 flags ∧ bytes.length ≤ Config.appendBytes ∧ ¬(bytes = [] ∧ flags = 0#8) ∧
        (kd = .data ∨ ∀ b ∈ bytes, b.toNat < 0xE0) then
      some kd
    else none

/-- A name of a value in the settings record (section 10.3). -/
inductive SettingName where
  | ackTime
  | stallTime
  | starveTime
  | revIdle
  | replyTime
  | wakeTime
  | leaseTerm
  | startThreshold
  | turnBudget
  | preemptFloor
  | jobLimit (h : HostId)
  | reserve (h : HostId)
deriving DecidableEq, Repr

/-- The host a host-number byte names, 0–3. -/
def hostNumber (b : Byte) : Option HostId := if h : b.toNat < 4 then some ⟨b.toNat, h⟩ else none

/-- The value that a setting identifier and a host number name; none where R152 and R155 answer BAD_ARG: unknown identifier,
host number above 3, or not 0 for a setting that is not per host. -/
def settingName (identifier host : Byte) : Option SettingName :=
  match hostNumber host with
  | none => none
  | some h =>
    if identifier = 0x0B#8 then some (.jobLimit h)
    else if identifier = 0x0C#8 then some (.reserve h)
    else if h ≠ 0 then none
    else if identifier = 0x01#8 then some .ackTime
    else if identifier = 0x02#8 then some .stallTime
    else if identifier = 0x03#8 then some .starveTime
    else if identifier = 0x04#8 then some .revIdle
    else if identifier = 0x05#8 then some .replyTime
    else if identifier = 0x06#8 then some .wakeTime
    else if identifier = 0x07#8 then some .leaseTerm
    else if identifier = 0x08#8 then some .startThreshold
    else if identifier = 0x09#8 then some .turnBudget
    else if identifier = 0x0A#8 then some .preemptFloor
    else none

/-- The ranges of the settings table (section 8.1). -/
def settingInRange (n : SettingName) (v : Nat) : Bool :=
  match n with
  | .ackTime | .stallTime | .starveTime | .revIdle | .replyTime | .wakeTime | .leaseTerm => decide (1 ≤ v ∧ v ≤ 255)
  | .startThreshold => decide (1 ≤ v ∧ v ≤ 4096)
  | .turnBudget => decide (v = 0 ∨ 256 ≤ v ∧ v ≤ 65535)
  | .preemptFloor => decide (1 ≤ v ∧ v ≤ 8)
  | .jobLimit _ => decide (1 ≤ v ∧ v ≤ 24)
  | .reserve _ => decide (v ≤ 96)

/-- The value of the settings record that a name stands for. -/
def settingValue (x : Settings) : SettingName → Nat
  | .ackTime => x.ackTime
  | .stallTime => x.stallTime
  | .starveTime => x.starveTime
  | .revIdle => x.revIdle
  | .replyTime => x.replyTime
  | .wakeTime => x.wakeTime
  | .leaseTerm => x.leaseTerm
  | .startThreshold => x.startThreshold
  | .turnBudget => x.turnBudget
  | .preemptFloor => x.preemptFloor
  | .jobLimit h => x.jobLimit[h]
  | .reserve h => x.reserve[h]

/-- The settings record with one value replaced. -/
def withSetting (x : Settings) (n : SettingName) (v : Nat) : Settings :=
  match n with
  | .ackTime => { x with ackTime := v }
  | .stallTime => { x with stallTime := v }
  | .starveTime => { x with starveTime := v }
  | .revIdle => { x with revIdle := v }
  | .replyTime => { x with replyTime := v }
  | .wakeTime => { x with wakeTime := v }
  | .leaseTerm => { x with leaseTerm := v }
  | .startThreshold => { x with startThreshold := v }
  | .turnBudget => { x with turnBudget := v }
  | .preemptFloor => { x with preemptFloor := v }
  | .jobLimit h => { x with jobLimit := upd x.jobLimit h v }
  | .reserve h => { x with reserve := upd x.reserve h v }

/-- What a reverse CONTROL byte asks for (the table of section 5.4). -/
inductive ReverseControl where
  | repeats (count : Nat)
  | route (r : RouteId)
  | status (code : Fin 16)
  | endReply
  | yieldPhase
  | malformed
deriving DecidableEq, Repr

/-- The class of a reverse CONTROL byte: 40h–7Fh REPEAT with its low six bits plus 2, 80h–8Fh ROUTE, 90h–9Fh STATUS, F0h END,
F1h YIELD, any other malformed (R102, R104, R105, R108, R111, R112). -/
def reverseControl (b : Byte) : ReverseControl :=
  let n := b.toNat
  if 0x40 ≤ n ∧ n ≤ 0x7F then .repeats (n % 64 + 2)
  else if 0x80 ≤ n ∧ n ≤ 0x8F then .route (Fin.ofNat 16 n)
  else if 0x90 ≤ n ∧ n ≤ 0x9F then .status (Fin.ofNat 16 n)
  else if n = 0xF0 then .endReply
  else if n = 0xF1 then .yieldPhase
  else .malformed

/-- A term of the lease in ms: units of 100 ms (R156). -/
def termMs (units : Nat) : Nat := units * 100

/-- The time left on the term timer, in ms, when a LEASE_HELD is answered (R157): a free value no greater than what can be left,
so that it never rises within one term (log entry 2). -/
def remainingTerm (s : State) : Nat := min (Config.leaseRemaining s.draws).toNat s.su.termLeft

end Sys2Proof.Machine
end

