-- ==== Sys2Proof/Machine/Format.lean ====
section
/-! DEFINITION. The answer frame and the payloads of answers (R167, R179 to R181, section 10.3). -/

namespace Sys2Proof.Machine

/-- A count as two bytes, most significant first (R179). -/
def twoBytes (n : Nat) : List Byte := bytesOf16 (BitVec.ofNat 16 n)

/-- A 32-bit count as four bytes, most significant first (R179). -/
def fourBytes (v : BitVec 32) : List Byte :=
  [v.extractLsb' 24 8, v.extractLsb' 16 8, v.extractLsb' 8 8, v.extractLsb' 0 8]

/-- A small number as one byte. -/
def oneByte (n : Nat) : Byte := BitVec.ofNat 8 n

/-- A handle, or FFh for none (R179). -/
def handleOrNone : Option Handle → Byte
  | none => 0xFF#8
  | some x => handleByte x

/-- A route, channel, host number or status code, or FFh for none (R179). -/
def numberOrNone {n : Nat} : Option (Fin n) → Byte
  | none => 0xFF#8
  | some x => oneByte x.val

/-- An answer frame: STATUS, LEN, payload, CHECK (R167). -/
def answerFrame (status : Byte) (payload : List Byte) : List Byte :=
  withCheck (status :: oneByte payload.length :: payload)

/-- The event record: kind, handle, route, code (R181). -/
def eventBytes (e : Event) : List Byte := [eventKindByte e.kind, handleOrNone e.handle, numberOrNone e.route, e.code]

/-- IDENT: part code 4120h, revision 01h, port number, part state (R173). -/
def identPayload (h : HostId) (phase : PoolPhase) : List Byte :=
  [0x41#8, 0x20#8, 0x01#8, oneByte h.val, partStateByte phase]

/-- The job status record (R180). -/
def jobStatusPayload (s : State) (k : SlotId) : List Byte :=
  let j := s.job k
  [handleByte (s.handle k), jobStateByte j.state, oneByte j.owner.val, oneByte j.channel.val, oneByte j.priority.val,
    jobFlagsByte j] ++ twoBytes j.queued ++ fourBytes j.sent ++ [numberOrNone j.route, endByte j]

/-- APPEND, OK: job state, queued entries, allowance (R33, section 10.3). -/
def appendPayload (s : State) (h : HostId) (k : SlotId) : List Byte :=
  jobStateByte (s.job k).state :: (twoBytes (s.job k).queued ++ twoBytes (allowance s h))

/-- APPEND, NO_SPACE: segments needed, allowance (R32, section 10.3). -/
def noSpacePayload (need allow : Nat) : List Byte := oneByte need :: twoBytes allow

/-- SET and GET, OK: identifier, host number, value (section 10.3). -/
def settingPayload (identifier host : Byte) (v : Nat) : List Byte := identifier :: host :: twoBytes v

/-- The stack handles of LINK_STATUS: bottom first, FFh in the places above the depth (section 10.3). -/
def stackBytes (s : State) : List Byte :=
  (s.du.stack.map (fun k => handleByte (s.handle k)) ++ List.replicate 3 0xFF#8).take 3

/-- LINK_STATUS: seventeen bytes (R174, section 10.3). -/
def linkStatusPayload (s : State) (h : HostId) : List Byte :=
  [linkStateByte s.le.link, numberOrNone s.le.current, handleOrNone (s.du.active.map s.handle),
    oneByte s.du.stack.length] ++ stackBytes s ++ [oneByte s.le.abandon.length] ++
    twoBytes s.sp.free.length ++ twoBytes (sharedFree s) ++ twoBytes (allowance s h) ++
    [numberOrNone s.le.lastStatus, lastFaultByte s.le.lastFault, numberOrNone s.su.holder]

end Sys2Proof.Machine
end

