-- ==== Sys2Proof/Machine/HostPort.lean ====
section
/-! DEFINITION. The host port (chapter 9): when it takes a request, how it answers, and what it drives on data-out. -/

namespace Sys2Proof.Machine

/-- What a request gives back: the state after its effect, the answer code and the payload. -/
structure Reply where
  state : State
  code : AnswerCode
  payload : List Byte

/-- A refusal: no effect and no payload (R169). -/
def refuse (s : State) (code : AnswerCode) : Reply := { state := s, code := code, payload := [] }

/-- The port takes the bytes on data-in: it is attached and its framing state is REQUEST (R164, R165, R176). -/
def listening (s : State) (h : HostId) : Bool :=
  !(s.port h).detached && decide ((s.port h).framing = .request)

/-- The answer frame with the status bits of the moment it is built, after the request's effect (R126, R167). -/
def builtAnswer (s : State) (h : HostId) (code : AnswerCode) (payload : List Byte) : List Byte :=
  answerFrame (statusByte (s.eu h) s.le.link code) payload

/-- The port enters ANSWER with a frame just built, and stores it when it is of a kind that is stored (R165, R171). -/
def answer (h : HostId) (code : AnswerCode) (payload : List Byte) (store : Bool) (s : State) : State :=
  let frame := builtAnswer s h code payload
  let p := s.port h
  s.setPort h { p with framing := .answer frame, stored := if store then some frame else p.stored }

/-- A request whose CHECK has been received. A port that is not listening reads no byte, so nothing happens (log entry 5).
During INIT the answer is NOT_READY and the request reaches no block (R170). Otherwise the owning block judges it, and its
answer is stored (R171). -/
def serve (h : HostId) (body : State → Reply) (s : State) : Host.Outcome State Fault Refusal :=
  if listening s h then
    match s.sp.phase with
    | .init => .next (answer h .notReady [] false s)
    | .ready => .next (answer h (body s).code (body s).payload true (body s).state)
  else .next s

/-- What a port drives on data-out (R164, R176). -/
inductive DataOut where
  /-- Left undriven. -/
  | undriven
  /-- The bits of FFh at every clock. -/
  | ones
  /-- The fill byte and then the answer frame. -/
  | sending (bytes : List Byte)
deriving DecidableEq, Repr

/-- HkSDO: undriven while chip select is released; the fill byte FFh and the answer frame in ANSWER; FFh at every clock in
REQUEST, in DRAINING, while detached and while the port waits for a new assertion (R164, R167, R176). -/
def dataOut (p : Port) : DataOut :=
  if p.cs then
    match p.framing with
    | .answer frame => if p.detached then .ones else .sending (0xFF#8 :: frame)
    | .idle | .request | .draining => .ones
  else .undriven

end Sys2Proof.Machine
end

