-- ==== Sys2Proof/Machine/DispatchUnit.lean ====
section
/-! DEFINITION. The Dispatch Unit (chapter 3): eligibility, selection, preemption, yield, the suspension stack, the dry wait,
completion of transmission and the leaving decision. -/

namespace Sys2Proof.Machine

/-- The link is in RESETTING, WAKING or DOWN, where DU makes no job ACTIVE (R70). -/
def recovering (s : State) : Bool :=
  match s.le.link with
  | .resetting | .waking | .down => true
  | .idle | .sending | .waiting | .reverse => false

/-! ## Eligibility and selection -/

/-- The job's channel is unclaimed or claimed by the job itself. -/
def channelOpen (s : State) (k : SlotId) : Bool :=
  match s.claim (s.job k).channel with
  | none => true
  | some c => decide (c = k)

/-- READY, priority 1–7, channel unclaimed or its own (R43). -/
def eligible (s : State) (k : SlotId) : Bool :=
  decide ((s.job k).state = .ready) && decide ((s.job k).priority ≠ 0) && channelOpen s k

/-- Eligible, and on a channel of no job on the stack nor, at a preemption, of the job being pushed (R43). -/
def admissible (s : State) (pushed : Option SlotId) (k : SlotId) : Bool :=
  eligible s k && (s.du.stack ++ pushed.toList).all fun j => decide ((s.job j).channel ≠ (s.job k).channel)

/-- The hosts in the cyclic order counted from the host after `h` (R48). -/
def hostsAfter (h : HostId) : List HostId := [h + 1, h + 2, h + 3, h]

/-- The highest priority among candidates. -/
def topPriority (s : State) (ks : List SlotId) : Fin 8 := ks.foldl (fun p k => max p (s.job k).priority) 0

/-- The choice among candidates given in age order (R48): highest priority, then the first host after `h` that owns one of
these, then the earliest in age order. -/
def choose (s : State) (h : HostId) (candidates : List SlotId) : Option SlotId :=
  let p := topPriority s candidates
  let best := candidates.filter fun k => decide ((s.job k).priority = p)
  (hostsAfter h).findSome? fun x => best.find? fun k => decide ((s.job k).owner = x)

/-- The best admissible job, rotation starting after the rotation pointer (R48). -/
def bestAdmissible (s : State) (pushed : Option SlotId) : Option SlotId :=
  choose s s.du.rotation (s.du.ready.filter (admissible s pushed))

/-! ## Changes of the active job -/

/-- A READY job is made ACTIVE: it leaves the ready set, its ready sequence becomes absent, its turn count 0, and the rotation
pointer is set to its owner (R49, R50). The number it took stays (R6). -/
def makeActive (k : SlotId) (s : State) : State :=
  let j := s.job k
  let s := s.setJob k { j with state := .active, turn := 0, readySeq := none }
  { s with du := { s.du with ready := s.du.ready.erase k, rotation := j.owner, active := some k } }

/-- The top of the stack is popped and becomes ACTIVE with turn count 0; the rotation pointer stays (R61). -/
def resumeTop (k : SlotId) (s : State) : State :=
  let s := s.setJob k { s.job k with state := .active, turn := 0 }
  { s with du := { s.du with stack := s.du.stack.dropLast, active := some k } }

/-- The active job is pushed on top of the stack and becomes SUSPENDED; a dry wait's timer stops (R52, R53, R55). -/
def pushActive (k : SlotId) (s : State) : State :=
  let s := s.setJob k { s.job k with state := .suspended }
  { s with du := { s.du with stack := s.du.stack ++ [k], active := none }, le := { s.le with dryTimer := none } }

/-- The job takes a new ready sequence, which it keeps as the number last taken, and joins the ready set at the tail (R6, R12,
R47). -/
def joinReady (k : SlotId) (s : State) : State :=
  let s := s.setJob k { s.job k with
    state := .ready, readySeq := some s.jm.nextSeq, seqTaken := some s.jm.nextSeq }
  { s with jm := { s.jm with nextSeq := s.jm.nextSeq + 1 }, du := { s.du with ready := s.du.ready ++ [k] } }

/-! ## Break points -/

/-- The job that preempts the active job `a`: the best admissible job, when the stack holds fewer than 3 jobs and its priority
is above the active job's and at PREEMPT_FLOOR or more (R55). -/
def preemptor (s : State) (a : SlotId) : Option SlotId :=
  match bestAdmissible s (some a) with
  | none => none
  | some k =>
    if s.du.stack.length < Config.stackDepth ∧ (s.job a).priority < (s.job k).priority ∧
        s.su.settings.preemptFloor ≤ (s.job k).priority.val then
      some k
    else none

/-- The preemption test (R55): the state after a preemption, none when there is none. -/
def preempt (s : State) (a : SlotId) : Option State := (preemptor s a).map fun k => makeActive k (pushActive a s)

/-- The successor at a turn-budget yield of the active job `a` (R56): TURN_BUDGET is not 0 and is reached, and an admissible
job of the same priority belongs to another host, chosen from the host after the yielding job's owner. -/
def yieldSuccessor (s : State) (a : SlotId) : Option SlotId :=
  if s.su.settings.turnBudget ≠ 0 ∧ s.su.settings.turnBudget ≤ (s.job a).turn then
    choose s (s.job a).owner (s.du.ready.filter fun k =>
      admissible s none k && decide ((s.job k).priority = (s.job a).priority) &&
        decide ((s.job k).owner ≠ (s.job a).owner))
  else none

/-- The turn-budget test (R56): the state after a yield, none when the active job continues. -/
def yieldTurn (s : State) (a : SlotId) : Option State :=
  (yieldSuccessor s a).map fun k =>
    let s := joinReady a s
    makeActive k { s with le := { s.le with dryTimer := none } }

/-- The decision on a break point of the active job `a`: preemption, else yield, else continue, which is none (R54, R57). No job
is made ACTIVE during recovery (R70). -/
def breakPoint (s : State) (a : SlotId) : Option State :=
  if recovering s then none
  else
    match preempt s a with
    | some s' => some s'
    | none => yieldTurn s a

/-! ## Completion and leaving -/

/-- The claim of the job in slot `k` on its channel is released (R46). -/
def releaseClaim (k : SlotId) (s : State) : State :=
  if s.claim (s.job k).channel = some k then s.setClaim (s.job k).channel none else s

/-- The job is no longer the active job, and a running dry-wait timer stops (R58, R63). -/
def dropActive (s : State) : State :=
  { s with du := { s.du with active := none }, le := { s.le with dryTimer := none } }

/-- The job enters AWAIT_REPLY and the reply timer of its route starts with REPLY_TIME (R92, R113). -/
def awaitReply (k : SlotId) (r : RouteId) (s : State) : State :=
  let s := s.setJob k { s.job k with state := .awaitReply }
  s.setRoute r { s.route r with timer := some s.su.settings.replyTime }

/-- Completion of transmission (R92), up to the leaving decision: the claim is released, the job leaves the link, and it ends
DONE when it has no route or its route is no longer OPEN, or else awaits its reply. -/
def completeTransmission (k : SlotId) (s : State) : State :=
  let s := dropActive (releaseClaim k s)
  match (s.job k).route with
  | none => endJobAlone k .done .none s
  | some r => if (s.route r).state = .opened then awaitReply k r s else endJobAlone k .done .none s

/-- The decision when the active job has left the link (R59, R60): with the stack empty the best admissible job is selected;
otherwise it enters ahead of the stack when its priority is above the top's and at the floor, and else the top resumes. No job
is made ACTIVE during recovery (R70). -/
def leavingDecision (s : State) : State :=
  if recovering s then s
  else
    match s.du.stack.getLast?, bestAdmissible s none with
    | none, none => s
    | none, some k => makeActive k s
    | some top, none => resumeTop top s
    | some top, some k =>
      if (s.job top).priority < (s.job k).priority ∧ s.su.settings.preemptFloor ≤ (s.job k).priority.val then
        makeActive k s
      else resumeTop top s

/-- An entry of the job in slot `k` is being offered on the link. -/
def entryOffered (s : State) (k : SlotId) : Bool :=
  match s.le.latch with
  | none => false
  | some o => decide (o.origin = .entry (s.handle k))

/-- The dry-wait timer starts with STARVE_TIME (R62, R87). -/
def startDryWait (s : State) : State := { s with le := { s.le with dryTimer := some s.su.settings.starveTime } }

/-- What the chain and flags of the active job bring about at once (R50, R57, R61, R85): with entries, or an entry of its own
in an offer, nothing; an empty chain completes a CLOSED job's transmission, with the leaving decision, and starts the dry wait
of a stream job that is not CLOSED, which is a break point. A job these decisions make ACTIVE is looked at in its turn; `fuel`
bounds how many (log entry 18). -/
def settle : Nat → State → State
  | 0, s => s
  | fuel + 1, s =>
    match s.du.active with
    | none => s
    | some a =>
      if (headEntry s a).isSome || entryOffered s a then s
      else if (s.job a).closed then settle fuel (leavingDecision (completeTransmission a s))
      else if (s.job a).stream then
        let s := startDryWait s
        match breakPoint s a with
        | none => s
        | some s' => settle fuel s'
      else s

/-- Every round of `settle` after the first makes a job ACTIVE from the ready set or pops the stack, and only a preemption
pushes: twice the ready jobs, and the stack, bound them. -/
def settleFuel (s : State) : Nat := 2 * s.du.ready.length + s.du.stack.length + 3

/-- `settle` with the fuel it needs. -/
def settled (s : State) : State := settle (settleFuel s) s

/-- The leaving decision, and what it brings about at once. -/
def leaveLink (s : State) : State := settled (leavingDecision s)

/-! ## Eligibility as an event -/

/-- The decision that a dry-wait expiry has started is no longer open (R64). -/
def closeDecision (s : State) : State := { s with du := { s.du with leaving := false } }

/-- DU's response when a job becomes eligible or an eligible job's priority is raised (R44): with no active job it selects at
once (R51) unless the link is in recovery, and where the expiry of a dry wait that fell together with this event was taken first,
the job is judged in the decision which that leaving started (R64); with the active job in a dry wait the preemption test is
repeated (R64); else nothing. -/
def respondEligible (s : State) : State :=
  if recovering s then s
  else
    match s.du.active with
    | none =>
      if s.du.leaving then leaveLink (closeDecision s)
      else
        match bestAdmissible s none with
        | none => s
        | some k => settled (makeActive k s)
    | some a =>
      if s.le.dryTimer.isSome then
        match preempt s a with
        | none => s
        | some s' => settled s'
      else s

/-- The job enters READY (R12); with priority 1–7 that is the first event of R44, to which DU responds, on whatever channel: a dry
wait is retested for a job on a claimed channel too (step 5 of section 3.13), though that job itself is not eligible (R43; log
entry 25). -/
def enterReady (k : SlotId) (s : State) : State :=
  let s := joinReady k s
  if (s.job k).priority = 0 then s else respondEligible s

/-- The job is removed from whichever of DU's structures holds it (R66). -/
def removeFromDispatch (k : SlotId) (s : State) : State :=
  let s := if s.du.active = some k then dropActive s else s
  { s with du := { s.du with ready := s.du.ready.erase k, stack := s.du.stack.erase k } }

/-! ## Closing and cancelling (sections 1.6 and 7.1) -/

/-- A job closed with no entries before it began ends DONE without use of the link (R14). -/
def endUnused (k : SlotId) (s : State) : State :=
  endJobAlone k .done .none (abortRoute k { s with du := { s.du with ready := s.du.ready.erase k } })

/-- CLOSE is accepted for the job: it is not CLOSED already and not CANCELLING, AWAIT_REPLY or ENDED (R13). -/
def closable (j : Job) : Bool :=
  !j.closed &&
    match j.state with
    | .filling | .ready | .active | .suspended | .starved => true
    | .free | .cancelling | .awaitReply | .ended => false

/-- CLOSED is set and the job moves as the table of R13 gives. An ACTIVE job with an empty chain and no entry of its own in a
handshake completes at once. -/
def closeJob (k : SlotId) (s : State) : State :=
  let s := s.setJob k { s.job k with closed := true }
  let unused := decide ((s.job k).queued = 0) && !(s.job k).begun
  match (s.job k).state with
  | .filling | .starved => if unused then endUnused k s else enterReady k s
  | .ready => if unused then endUnused k s else s
  | .active => settled s
  | .suspended | .free | .cancelling | .awaitReply | .ended => s

/-- The job has partial output on its channel: BEGUN, and ACTIVE, SUSPENDED, READY or STARVED (R131). -/
def partlySent (j : Job) : Bool :=
  j.begun &&
    match j.state with
    | .active | .suspended | .ready | .starved => true
    | .free | .filling | .cancelling | .awaitReply | .ended => false

/-- A CANCEL acts on the job in slot `k` with cause `c` (R66, R130, R131), up to the evaluation of the space waiters and the
leaving decision: DU lets go of it and its route becomes ABORTED. A partly sent job becomes CANCELLING, its chain discarded,
its claim kept and an entry appended to the abandon list. Any other job ends CANCELLED. -/
def cancelJob (k : SlotId) (c : Cause) (s : State) : State :=
  let partly := partlySent (s.job k)
  let s := abortRoute k (removeFromDispatch k s)
  if partly then
    let s := discardChain k s
    let s := s.setJob k { s.job k with state := .cancelling }
    { s with le := { s.le with
        abandon := s.le.abandon ++ [{ job := s.handle k, channel := (s.job k).channel, cause := c }] } }
  else endJob k .cancelled c s

end Sys2Proof.Machine
end

