-- ==== Sys2Proof/Machine/LinkEngine.lean ====
section
/-! DEFINITION. The Link Engine (chapter 4): offers, stalls, grants and the order of work at a forward boundary. -/

namespace Sys2Proof.Machine

/-- The SELECT byte of a channel: E0h plus its number (R82). -/
def selectByte (c : ChannelId) : Byte := BitVec.ofNat 8 (0xE0 + c.val)

/-- The ABANDON byte (R73). -/
def abandonByte : Byte := 0xF8#8

/-- A stall in progress ends by an offer or by the disappearance of forward work: the timer stops, the record becomes NONE, and
a reported stall posts LINK_STALL code 0 to the LINK group (R90). -/
def endStall (s : State) : State :=
  let s' := { s with le := { s.le with stall := .none, stallTimer := none } }
  match s.le.stall with
  | .none | .timing => s'
  | .reported => postLinkGroup (plainEvent .linkStall 0) s'

/-- An offer (R73, R94): it ends a stall, the latch is loaded, the byte and kind are driven, FSTB changes level, the acknowledge
timer starts with ACK_TIME and the link is SENDING. -/
def makeOffer (o : Offer) (s : State) : State :=
  let s := endStall s
  { s with
    le := { s.le with link := .sending, latch := some o, ackTimer := some s.su.settings.ackTime }
    pins := { s.pins with ld := o.byte, lkind := o.kind, fstb := !s.pins.fstb } }

/-- An offer of a SELECT for channel `c` (R82, R135). -/
def offerSelect (c : ChannelId) (s : State) : State :=
  makeOffer { byte := selectByte c, kind := .control, origin := .select c } s

/-- An offer of ABANDON (R135). -/
def offerAbandon (s : State) : State := makeOffer { byte := abandonByte, kind := .control, origin := .abandon } s

/-- The job's first entry is put on the link: BEGUN is set and the claim taken (R5, R45). -/
def beginJob (k : SlotId) (s : State) : State :=
  if (s.job k).begun then s
  else (s.setJob k { s.job k with begun := true }).setClaim (s.job k).channel (some k)

/-- The head entry of the active job, a DATA or CONTROL entry, is taken and offered (R84). -/
def offerEntry (k : SlotId) (kind : ByteKind) (b : Byte) (s : State) : State :=
  let s := beginJob k (takeHead k s)
  makeOffer { byte := b, kind := kind, origin := .entry (s.handle k) } s

/-- The grant of a reverse phase (R99): the data lines are released, RGNT rises, RR's selection, repeat and notice are cleared
and the reverse-idle timer starts with REV_IDLE. -/
def grantReverse (s : State) : State :=
  { s with
    le := { s.le with link := .reverse, revIdleTimer := some s.su.settings.revIdle }
    rr := { s.rr with selection := none, repeats := none, orphanPosted := false }
    pins := { s.pins with rgnt := true, ldDriven := false } }

/-- Forward work is held off: WAITING, and a stall begins if none is in progress (R78 step 3, R89). -/
def holdOff (s : State) : State :=
  let s := { s with le := { s.le with link := .waiting } }
  match s.le.stall with
  | .none => { s with le := { s.le with stall := .timing, stallTimer := some s.su.settings.stallTime } }
  | .timing | .reported => s

/-- Nothing to do at the boundary: a stall ends, and the link is IDLE (R78 step 6, R79, R90). -/
def goIdle (s : State) : State :=
  let s := endStall s
  { s with le := { s.le with link := .idle } }

/-- The head entry of the active job's chain. -/
def activeHead (s : State) : Option (SlotId × Entry) :=
  match s.du.active with
  | none => none
  | some a => (headEntry s a).map fun e => (a, e)

/-- The BREAK entry at the head of the active job's chain is taken, and the break point decided (R54, R57, R86). -/
def takeBreak (a : SlotId) (s : State) : State :=
  let s := takeHead a s
  match breakPoint s a with
  | none => settled s
  | some s' => settled s'

/-- Steps 4 and 5 of the order of work, with PRDY high and PFLT low (R78, R82, R84, R135). -/
def sendForward (s : State) : State :=
  match s.le.abandon with
  | e :: _ => if s.le.current = some e.channel then offerAbandon s else offerSelect e.channel s
  | [] =>
    match activeHead s with
    | some (a, .data b) =>
      if s.le.current = some (s.job a).channel then offerEntry a .data b s else offerSelect (s.job a).channel s
    | some (a, .control b) =>
      if s.le.current = some (s.job a).channel then offerEntry a .control b s else offerSelect (s.job a).channel s
    | some (_, .brk) | none => goIdle s

/-- Forward work exists (R79). -/
def forwardWork (s : State) : Bool := !s.le.abandon.isEmpty || (activeHead s).isSome

/-- The order of work at a forward boundary (R78). A BREAK entry taken at step 2 leaves the link at the boundary and the order
is applied again; `fuel` bounds the BREAK entries there are to take (log entry 18). -/
def orderOfWork : Nat → State → State
  | 0, s => goIdle s
  | fuel + 1, s =>
    if s.pins.rreq then grantReverse s
    else
      match activeHead s with
      | some (a, .brk) => orderOfWork fuel (takeBreak a s)
      | some (_, .data _) | some (_, .control _) | none =>
        if forwardWork s then
          if !s.pins.prdy || s.pins.pflt then holdOff s else sendForward s
        else goIdle s

/-- All entries in the pool, each of which can be taken once. -/
def poolEntries (s : State) : Nat := (allSlots.map fun k => chainEntries (s.job k).chain).sum

/-- The order of work, applied as often as it has to be (R77, R78). -/
def applyOrder (s : State) : State := orderOfWork (poolEntries s + 1) s

/-- An input that the order of work reads may have changed: it is applied in IDLE and WAITING, and waits for the next boundary
in any other state (R77). -/
def boundaryWork (s : State) : State :=
  match s.le.link with
  | .idle | .waiting => applyOrder s
  | .resetting | .waking | .down | .sending | .reverse => s

end Sys2Proof.Machine
end

