-- ==== Sys2Proof/Machine/JobRequests.lean ====
section
/-! DEFINITION. The requests about jobs: OPEN, APPEND, CLOSE, SET_PRIORITY, CANCEL, RELEASE, JOB_STATUS and READ_REPLY, each as
its judgement and effect, and as the command on a port. -/

namespace Sys2Proof.Machine

/-- The part of LE in a host request: an input the order of work reads may have changed (R77). -/
def onwards (s : State) : State := boundaryWork s

/-- The handle and ownership checks that open a request about a job, in that order (R3, R4, R169). -/
def withOwnJob (h : HostId) (handle : Byte) (s : State) (body : SlotId → Reply) : Reply :=
  match findJob s handle with
  | none => refuse s .badJob
  | some k => if ownsJob s h k then body k else refuse s .notOwner

/-! ## OPEN -/

/-- The lowest-numbered FREE slot (R9). -/
def lowestFreeSlot (s : State) : Option SlotId := allSlots.find? fun k => decide ((s.job k).state = .free)

/-- The lowest-numbered FREE route (R96). -/
def lowestFreeRoute (s : State) : Option RouteId :=
  (List.finRange 16).find? fun r => decide ((s.route r).state = .free)

/-- OPEN's parameters as channel, priority, STREAM and REPLY; none where they are BAD_ARG (R8). -/
def openArgs (channel priority flags : Byte) : Option (ChannelId × Fin 8 × Bool × Bool) :=
  if h : channel.toNat < 16 ∧ priority.toNat < 8 then
    if onlyBits 0x03#8 flags then
      some (⟨channel.toNat, h.1⟩, ⟨priority.toNat, h.2⟩, flags.getLsbD 0, flags.getLsbD 1)
    else none
  else none

/-- The record of a job just opened (R9). -/
def openedJob (h : HostId) (c : ChannelId) (p : Fin 8) (stream reply : Bool) (route : Option RouteId) : Job :=
  { freeJob with
    owner := h, channel := c, priority := p, stream := stream, reply := reply, state := .filling, route := route }

/-- The route the job in slot `k` is given at OPEN (R96). -/
def openedRoute (x : Handle) : Route :=
  { state := .opened, owner := some x, buffer := [], truncated := false, timer := none }

/-- A job is created in slot `k` with the given route (R9, R96). -/
def createJob (h : HostId) (k : SlotId) (c : ChannelId) (p : Fin 8) (stream reply : Bool) (route : Option RouteId)
    (s : State) : Reply :=
  let s := (s.setJob k (openedJob h c p stream reply route)).setOwned h (s.owned h + 1)
  let s := match route with
    | none => s
    | some r => s.setRoute r (openedRoute (s.handle k))
  { state := s, code := .ok, payload := [handleByte (s.handle k), numberOrNone route] }

/-- OPEN judged and applied: BAD_ARG, LIMIT, NO_SLOT, NO_ROUTE, in that order (R8, R9). -/
def judgeOpen (h : HostId) (channel priority flags : Byte) (s : State) : Reply :=
  match openArgs channel priority flags with
  | none => refuse s .badArg
  | some (c, p, stream, reply) =>
    if s.su.settings.jobLimit[h] ≤ s.owned h then refuse s .limit
    else
      match lowestFreeSlot s with
      | none => refuse s .noSlot
      | some k =>
        if reply then
          match lowestFreeRoute s with
          | none => refuse s .noRoute
          | some r => createJob h k c p stream true (some r) s
        else createJob h k c p stream false none s

/-- OPEN (R9). -/
def execOpen (h : HostId) (channel priority flags : Byte) (s : State) : Host.Outcome State Fault Refusal :=
  serve h (judgeOpen h channel priority flags) s

/-! ## APPEND -/

/-- APPEND is not refused BAD_STATE: the job is not CLOSED and not in CANCELLING, AWAIT_REPLY or ENDED (R31). The same jobs
accept CLOSE. -/
def appendable (j : Job) : Bool := closable j

/-- An accepted APPEND (R33): the entries join the chain, a stream job that reaches START_THRESHOLD in FILLING or STARVED becomes
READY (R11), a dry wait of the job ends (R63), CLOSE_AFTER closes it, and LE works on. -/
def acceptAppend (k : SlotId) (es : List Entry) (close : Bool) (s : State) : State :=
  let s := appendEntries k es s
  let j := s.job k
  let s := match j.state with
    | .filling | .starved =>
      if j.stream && decide (s.su.settings.startThreshold ≤ j.queued) then enterReady k s else s
    | .active => { s with le := { s.le with dryTimer := none } }
    | .ready | .suspended | .free | .cancelling | .awaitReply | .ended => s
  onwards (if close then closeJob k s else s)

/-- APPEND judged and applied (R31, R32, R33): a refusal NO_SPACE marks the host a space waiter with the segments needed. -/
def judgeAppend (h : HostId) (handle kind flags : Byte) (bytes : List Byte) (s : State) : Reply :=
  withOwnJob h handle s fun k =>
    match appendArgs kind flags bytes with
    | none => refuse s .badArg
    | some kd =>
      if appendable (s.job k) then
        let need := segmentsNeeded (entriesNeeded bytes.length (breakAfter flags)) (tailSpace (s.job k).chain)
        if allowance s h < need then
          { state := s.setMark h (some need), code := .noSpace, payload := noSpacePayload need (allowance s h) }
        else
          let s := acceptAppend k (appendList kd bytes (breakAfter flags)) (closeAfter flags) s
          { state := s, code := .ok, payload := appendPayload s h k }
      else refuse s .badState

/-- APPEND (R33). -/
def execAppend (h : HostId) (handle kind flags : Byte) (bytes : List Byte) (s : State) :
    Host.Outcome State Fault Refusal :=
  serve h (judgeAppend h handle kind flags bytes) s

/-! ## CLOSE, SET_PRIORITY, CANCEL and RELEASE -/

/-- CLOSE judged and applied (R13). -/
def judgeClose (h : HostId) (handle : Byte) (s : State) : Reply :=
  withOwnJob h handle s fun k =>
    if closable (s.job k) then
      let s := onwards (closeJob k s)
      { state := s, code := .ok, payload := [jobStateByte (s.job k).state] }
    else refuse s .badState

/-- CLOSE (R13). -/
def execClose (h : HostId) (handle : Byte) (s : State) : Host.Outcome State Fault Refusal :=
  serve h (judgeClose h handle) s

/-- A priority byte, 0–7 (R15). -/
def priorityArg (b : Byte) : Option (Fin 8) := if h : b.toNat < 8 then some ⟨b.toNat, h⟩ else none

/-- A change of priority of the job in slot `k` to `p` makes DU respond (R15, R44): it raises a READY job from 0, on whatever channel,
or it raises one that is eligible, which a job on a channel claimed by another is not (R43; log entry 25). -/
def raisePrompts (k : SlotId) (p : Fin 8) (s : State) : Bool :=
  decide ((s.job k).state = .ready) && decide ((s.job k).priority < p) &&
    (decide ((s.job k).priority = 0) || channelOpen s k)

/-- The priority changes, and DU responds where R44 makes it (R15). -/
def changePriority (k : SlotId) (p : Fin 8) (s : State) : State :=
  let prompts := raisePrompts k p s
  let s := s.setJob k { s.job k with priority := p }
  onwards (if prompts then respondEligible s else s)

/-- SET_PRIORITY judged and applied (R15). -/
def judgeSetPriority (h : HostId) (handle priority : Byte) (s : State) : Reply :=
  withOwnJob h handle s fun k =>
    match priorityArg priority with
    | none => refuse s .badArg
    | some p =>
      match (s.job k).state with
      | .filling | .ready | .starved => { state := changePriority k p s, code := .ok, payload := [] }
      | .free | .active | .suspended | .cancelling | .awaitReply | .ended => refuse s .badState

/-- SET_PRIORITY (R15). -/
def execSetPriority (h : HostId) (handle priority : Byte) (s : State) : Host.Outcome State Fault Refusal :=
  serve h (judgeSetPriority h handle priority) s

/-- A CANCEL acts (R130, R131): the job is cancelled, the space waiters are evaluated, DU makes its leaving decision if the job
was the active one (R66), and LE works on. -/
def acceptCancel (k : SlotId) (c : Cause) (s : State) : State :=
  let wasActive := decide (s.du.active = some k)
  let s := evaluateSpace (cancelJob k c s)
  onwards (if wasActive then leaveLink s else s)

/-- CANCEL judged and applied (R129): the owner cancels with BY_OWNER, else the lease holder with BY_LEASE_HOLDER. -/
def judgeCancel (h : HostId) (handle : Byte) (s : State) : Reply :=
  match findJob s handle with
  | none => refuse s .badJob
  | some k =>
    let own := ownsJob s h k
    if own || decide (s.su.holder = some h) then
      match (s.job k).state with
      | .cancelling | .ended | .free => refuse s .badState
      | .filling | .ready | .active | .suspended | .starved | .awaitReply =>
        let s := acceptCancel k (if own then .byOwner else .byLeaseHolder) s
        { state := s, code := .ok, payload := [jobStateByte (s.job k).state] }
    else refuse s .notOwner

/-- CANCEL (R129). -/
def execCancel (h : HostId) (handle : Byte) (s : State) : Host.Outcome State Fault Refusal :=
  serve h (judgeCancel h handle) s

/-- RELEASE judged and applied (R18). -/
def judgeRelease (h : HostId) (handle : Byte) (s : State) : Reply :=
  withOwnJob h handle s fun k =>
    if (s.job k).state = .ended then { state := releaseSlot k s, code := .ok, payload := [] } else refuse s .badState

/-- RELEASE (R18). -/
def execRelease (h : HostId) (handle : Byte) (s : State) : Host.Outcome State Fault Refusal :=
  serve h (judgeRelease h handle) s

/-! ## JOB_STATUS and READ_REPLY -/

/-- JOB_STATUS judged: any host may ask about any job (R19). -/
def judgeJobStatus (handle : Byte) (s : State) : Reply :=
  match findJob s handle with
  | none => refuse s .badJob
  | some k => { state := s, code := .ok, payload := jobStatusPayload s k }

/-- JOB_STATUS (R19). -/
def execJobStatus (h : HostId) (handle : Byte) (s : State) : Host.Outcome State Fault Refusal :=
  serve h (judgeJobStatus handle) s

/-- An accepted READ_REPLY (R116): up to `n` bytes leave the head of the route's buffer and are returned with the route, its
state, TRUNCATED and the bytes still buffered. -/
def readRoute (r : RouteId) (n : Nat) (s : State) : Reply :=
  let x := s.route r
  let rest := x.buffer.drop n
  { state := s.setRoute r { x with buffer := rest }, code := .ok
    payload := oneByte r.val :: routeStateByte x.state :: flagBit x.truncated 0 :: oneByte rest.length ::
      x.buffer.take n }

/-- READ_REPLY judged and applied (R115, R116). -/
def judgeReadReply (h : HostId) (handle maximum : Byte) (s : State) : Reply :=
  withOwnJob h handle s fun k =>
    if 1 ≤ maximum.toNat ∧ maximum.toNat ≤ 240 then
      match (s.job k).route with
      | none => refuse s .badState
      | some r => readRoute r maximum.toNat s
    else refuse s .badArg

/-- READ_REPLY (R116). -/
def execReadReply (h : HostId) (handle maximum : Byte) (s : State) : Host.Outcome State Fault Refusal :=
  serve h (judgeReadReply h handle maximum) s

end Sys2Proof.Machine
end

