-- ==== Sys2Proof/Machine/ReplyRouter.lean ====
section
/-! DEFINITION. The reverse phase and the Reply Router (chapter 5): the meaning of each reverse byte and the end of a phase. -/

namespace Sys2Proof.Machine

/-- The code bytes of LINK_PROTOCOL (R181). -/
def malformedCode : Byte := 0x01#8
def orphanCode : Byte := 0x02#8
def repeatBrokenCode : Byte := 0x03#8
def revTimeoutCode : Byte := 0x04#8

/-- The ORPHAN notice: posted once in a phase, with the selected route or FFh (R106). -/
def orphanNotice (s : State) : State :=
  if s.rr.orphanPosted then s
  else
    let s' := postLinkGroup { kind := .linkProtocol, handle := none, route := s.rr.selection, code := orphanCode } s
    { s' with rr := { s'.rr with orphanPosted := true } }

/-- One copy of a DATA byte reaches an OPEN route's buffer: appended when it finds fewer than 256 bytes, else discarded with
TRUNCATED set (R107). -/
def storeCopy (b : Byte) (x : Route) : Route :=
  if x.buffer.length < Config.routeBuffer then { x with buffer := x.buffer ++ [b] } else { x with truncated := true }

/-- The copies of a DATA byte, one after another (R107). -/
def storeCopies (b : Byte) : Nat → Route → Route
  | 0, x => x
  | n + 1, x => storeCopies b n (storeCopy b x)

/-- The reply timer restarts with REPLY_TIME if it is running (R106, R113). -/
def restartReplyTimer (time : Nat) (x : Route) : Route := { x with timer := x.timer.map fun _ => time }

/-- A record about the job that owns route `r`, posted to the owner of that job; an ORPHANED job has none (R120). -/
def postToRouteOwner (r : RouteId) (kind : EventKind) (code : Byte) (s : State) : State :=
  match (s.route r).owner with
  | none => s
  | some x =>
    if (s.job x.slot).orphaned then s
    else post (s.job x.slot).owner { kind := kind, handle := some x, route := some r, code := code } s

/-- A DATA byte delivered to an OPEN route: its reply timer restarts, the copies are stored, and a buffer that was empty and is
no longer posts REPLY_ARRIVED (R106, R107, R113). -/
def storeData (r : RouteId) (copies : Nat) (b : Byte) (s : State) : State :=
  let x := s.route r
  let x' := storeCopies b copies (restartReplyTimer s.su.settings.replyTime x)
  let s := s.setRoute r x'
  if x.buffer.isEmpty && !x'.buffer.isEmpty then postToRouteOwner r .replyArrived 0 s else s

/-- A reverse DATA byte consumes the pending repeat and is delivered to the selected route as the table of R106 gives. -/
def reverseData (b : Byte) (s : State) : State :=
  let copies := s.rr.repeats.getD 1
  let s := { s with rr := { s.rr with repeats := none } }
  match s.rr.selection with
  | none => orphanNotice s
  | some r =>
    match (s.route r).state with
    | .free | .complete => orphanNotice s
    | .aborted => s
    | .opened => storeData r copies b s

/-- An END that finds the OPEN route `r`: the route becomes COMPLETE, REPLY_END goes to the owner with the TRUNCATED bit, and a
job in AWAIT_REPLY then ends DONE (R108, R109). -/
def completeRoute (r : RouteId) (s : State) : State :=
  let x := s.route r
  let s := s.setRoute r { x with state := .complete }
  let s := postToRouteOwner r .replyEnd (flagBit x.truncated 0) s
  match x.owner with
  | none => s
  | some w => if (s.job w.slot).state = .awaitReply then endJobAlone w.slot .done .none s else s

/-- A reverse CONTROL byte END: it acts on the selected route, and the selection becomes none in every case (R108). -/
def reverseEnd (s : State) : State :=
  let s' :=
    match s.rr.selection with
    | none => orphanNotice s
    | some r =>
      match (s.route r).state with
      | .free | .complete => orphanNotice s
      | .aborted => s
      | .opened => completeRoute r s
  { s' with rr := { s'.rr with selection := none } }

/-- The end of a phase: RGNT falls, the data lines are driven again, the reverse-idle timer stops, and RR discards the selection
and the pending repeat (R101, R102). -/
def endPhase (s : State) : State :=
  { s with
    le := { s.le with revIdleTimer := none }
    rr := { s.rr with selection := none, repeats := none }
    pins := { s.pins with rgnt := false, ldDriven := true } }

/-- A CONTROL byte breaks a pending repeat, with LINK_PROTOCOL REPEAT_BROKEN (R105). -/
def breakRepeat (s : State) : State :=
  match s.rr.repeats with
  | none => s
  | some _ => postLinkGroup (plainEvent .linkProtocol repeatBrokenCode) { s with rr := { s.rr with repeats := none } }

/-- The part acknowledges a reverse byte: RACK changes level (R100). -/
def acknowledgeByte (s : State) : State := { s with pins := { s.pins with rack := !s.pins.rack } }

/-- A reverse CONTROL byte with no repeat pending, up to its acknowledgement, and with the end of the phase at YIELD, which is a
forward boundary (section 5.4, R102). -/
def reverseControlByte (c : ReverseControl) (s : State) : State :=
  match c with
  | .repeats n => acknowledgeByte { s with rr := { s.rr with repeats := some n } }
  | .route r => acknowledgeByte { s with rr := { s.rr with selection := some r } }
  | .status n =>
    acknowledgeByte (postStatusGroup (plainEvent .periphStatus (BitVec.ofNat 8 n.val))
      { s with le := { s.le with lastStatus := some n } })
  | .endReply => acknowledgeByte (reverseEnd s)
  | .malformed => acknowledgeByte (postLinkGroup (plainEvent .linkProtocol malformedCode) s)
  | .yieldPhase => applyOrder (endPhase (acknowledgeByte s))

/-- The arrival of a reverse byte in a granted phase: the reverse-idle timer restarts with REV_IDLE, and the byte is acted on and
acknowledged (R100). -/
def takeReverseByte (kind : ByteKind) (b : Byte) (s : State) : State :=
  let s := { s with le := { s.le with revIdleTimer := some s.su.settings.revIdle } }
  match kind with
  | .data => acknowledgeByte (reverseData b s)
  | .control => reverseControlByte (reverseControl b) (breakRepeat s)

end Sys2Proof.Machine
end

