-- ==== Sys2Proof/Machine/Recovery.lean ====
section
/-! DEFINITION. Link reset and recovery (sections 7.4 to 7.6), and the handover of the lease (section 8.3). -/

namespace Sys2Proof.Machine

/-- The LRST pulse starts from its beginning (R143): RESETTING, LRST asserted, FSTB, RGNT and RACK low. -/
def startPulse (s : State) : State :=
  { s with
    le := { s.le with link := .resetting, pulseTimer := some Config.lrstPulse }
    pins := { s.pins with lrst := true, fstb := false, rgnt := false, rack := false } }

/-- The cause a CANCELLING job's abandon entry holds (R134). A CANCELLING job always has one; were there none, the cause would
be BY_OWNER (log entry 21). -/
def abandonCause (entries : List AbandonEntry) (x : Handle) : Cause :=
  match entries.find? fun e => decide (e.job = x) with
  | some e => e.cause
  | none => .byOwner

/-- The outcome and cause with which a link reset ends a job, `activeCause` being the active job's cause; none for a job it
keeps (the table of R139). -/
def resetFate (entries : List AbandonEntry) (activeCause : Cause) (x : Handle) (j : Job) : Option (JobOutcome × Cause) :=
  match j.state with
  | .active => some (.failed, activeCause)
  | .suspended | .awaitReply => some (.failed, .linkReset)
  | .ready | .starved => if j.begun then some (.failed, .linkReset) else none
  | .cancelling => some (.cancelled, abandonCause entries x)
  | .filling | .ended | .free => none

/-- The fate of the job in slot `k` at a link reset: its route becomes ABORTED and it ends, or it is kept (R139). -/
def meetFate (entries : List AbandonEntry) (activeCause : Cause) (s : State) (k : SlotId) : State :=
  match resetFate entries activeCause (s.handle k) (s.job k) with
  | none => s
  | some (o, c) => endJob k o c (abortRoute k s)

/-- The items a link reset sets in LE, DU, RR and on the lines (R140), and the start of the pulse. The ready set keeps the jobs
that are still READY (R69). -/
def clearLink (s : State) : State :=
  startPulse
    { s with
      du := { s.du with
        claims := Vector.replicate 16 none, stack := [], active := none, leaving := false
        ready := s.du.ready.filter fun k => decide ((s.job k).state = .ready) }
      le := { s.le with
        current := none, latch := none, abandon := [], stall := .none, ackTimer := none, stallTimer := none
        dryTimer := none, wakeTimer := none, revIdleTimer := none }
      rr := { s.rr with selection := none, repeats := none }
      pins := { s.pins with ld := 0, lkind := .data, ldDriven := true } }

/-- A link reset (R138, R139, R140, R141): the last fault is recorded, LINK_FAULT is posted to the LINK group, the jobs meet
their fates in ascending slot order, the items of R140 are set, and one evaluation of the space waiters follows. R27 leaves open in
what order the discarded chains join the free list: they join one by one in ascending slot order, so that of the highest slot
stands at the head (DESIGN CHOICE, log entry 13). -/
def resetLink (fault : LastFault) (activeCause : Cause) (s : State) : State :=
  let s := { s with le := { s.le with lastFault := fault } }
  let s := postLinkGroup (plainEvent .linkFault (lastFaultByte fault)) s
  evaluateSpace (clearLink (allSlots.foldl (meetFate s.le.abandon activeCause) s))

/-- The link enters IDLE from WAKING (R144, R146): the wake timer stops, LINK_UP is posted, DU selects and the order of work is
applied. -/
def enterIdle (s : State) : State :=
  let s := { s with le := { s.le with link := .idle, wakeTimer := none } }
  let s := postLinkGroup (plainEvent .linkUp 0) s
  applyOrder (respondEligible s)

/-- LRST is released and the link enters WAKING, the wake timer starting with WAKE_TIME; with PRDY high it enters IDLE at once
(R143, R144). -/
def enterWaking (s : State) : State :=
  let s := { s with
    le := { s.le with link := .waking, pulseTimer := none, wakeTimer := some s.su.settings.wakeTime }
    pins := { s.pins with lrst := false } }
  if s.pins.prdy then enterIdle s else s

/-- The lease is held by `h` with a new term, all of which is left (R156, R157). -/
def grantLease (h : HostId) (s : State) : State :=
  let units := s.su.settings.leaseTerm
  { s with su := { s.su with holder := some h, term := some units, termLeft := termMs units } }

/-- A holding has ended (R158): the head waiter becomes the holder with a new term and is posted LEASE_GRANTED; with no waiters
there is no holder and the term timer stays stopped. -/
def handover (s : State) : State :=
  match s.su.waiters with
  | [] => { s with su := { s.su with holder := none, term := none, termLeft := 0 } }
  | w :: ws =>
    post w (plainEvent .leaseGranted 0) (grantLease w { s with su := { s.su with waiters := ws } })

end Sys2Proof.Machine
end

