-- ==== Sys2Proof/Machine/LinkEvents.lean ====
section
/-! DEFINITION. The events of the P-link and of the timers: acknowledgements, level changes, reverse bytes and expiries. The
expiry of a timer that is not running cannot arise and changes nothing (R80; log entry 4). -/

namespace Sys2Proof.Machine

/-- The acknowledgement of an entry (R74, R85, R132): an ACTIVE job's sent and turn counts rise, and an empty chain leads to
completion or a dry wait; a CANCELLING job's sent count rises and nothing else. -/
def entryAcknowledged (x : Handle) (s : State) : State :=
  let j := s.job x.slot
  match j.state with
  | .active =>
    settled (s.setJob x.slot
      { j with sent := j.sent + 1, turn := if j.turn < Config.turnCountMax then j.turn + 1 else j.turn })
  | .cancelling => s.setJob x.slot { j with sent := j.sent + 1 }
  | .free | .filling | .ready | .suspended | .starved | .awaitReply | .ended => s

/-- The READY jobs with priority 1–7 on channel `c` that are eligible now (R46). -/
def eligibleOn (s : State) (c : ChannelId) : Bool :=
  s.du.ready.any fun k => decide ((s.job k).channel = c) && eligible s k

/-- The acknowledgement of ABANDON (R136): the head entry leaves the abandon list, its job's claim is released and the job ends
CANCELLED with the cause the entry holds; READY jobs on the channel become eligible and DU responds. -/
def abandonAcknowledged (s : State) : State :=
  match s.le.abandon with
  | [] => s
  | e :: es =>
    let s := { s with le := { s.le with abandon := es } }
    let s := s.setClaim e.channel none
    let s := endJobAlone e.job.slot .cancelled e.cause s
    if eligibleOn s e.channel then respondEligible s else s

/-- What the acknowledgement of an offer of this origin brings about (R74). -/
def originAcknowledged (o : Origin) (s : State) : State :=
  match o with
  | .entry x => entryAcknowledged x s
  | .select c => { s with le := { s.le with current := some c } }
  | .abandon => abandonAcknowledged s

/-- ACKNOWLEDGEMENT (R74, R75): with an offer outstanding the acknowledge timer stops, the latch empties, the origin is acted on
and the order of work is applied; with none the change of FACK is ignored. -/
def execAcknowledgement (s : State) : Host.Outcome State Fault Refusal :=
  let s := { s with pins := { s.pins with fack := !s.pins.fack } }
  match s.le.latch with
  | none => .next s
  | some o =>
    let s := { s with le := { s.le with latch := none, ackTimer := none } }
    .next (applyOrder (originAcknowledged o.origin s))

/-- ACKNOWLEDGE_TIMEOUT (R76, R138): with an offer outstanding, the link reset of an acknowledge timeout. -/
def execAcknowledgeTimeout (s : State) : Host.Outcome State Fault Refusal :=
  if s.le.ackTimer.isSome then .next (resetLink .ackTimeout .linkFault s) else .next s

/-- RREQ_RISE (R77, R80). -/
def execRreqRise (s : State) : Host.Outcome State Fault Refusal :=
  if s.pins.rreq then .next s else .next (boundaryWork { s with pins := { s.pins with rreq := true } })

/-- RREQ_FALL (R77). -/
def execRreqFall (s : State) : Host.Outcome State Fault Refusal :=
  if s.pins.rreq then .next (boundaryWork { s with pins := { s.pins with rreq := false } }) else .next s

/-- PRDY_RISE (R77, R80, R144, R145): in IDLE and WAITING the order of work is applied; in WAKING the link enters IDLE; in DOWN a
new pulse starts; else the level is read at the next boundary. While RST is held the line is ignored. -/
def execPrdyRise (s : State) : Host.Outcome State Fault Refusal :=
  if s.pins.prdy then .next s
  else
    let s := { s with pins := { s.pins with prdy := true } }
    match s.le.link with
    | .idle | .waiting => .next (applyOrder s)
    | .waking => .next (enterIdle s)
    | .down => .next (startPulse s)
    | .resetting | .sending | .reverse => .next s

/-- PRDY_FALL (R77, R80, R88). -/
def execPrdyFall (s : State) : Host.Outcome State Fault Refusal :=
  if s.pins.prdy then .next (boundaryWork { s with pins := { s.pins with prdy := false } }) else .next s

/-- PFLT_CHANGE (R77, R80, R88): the level of PFLT changes, and the order of work reads it. -/
def execPfltChange (s : State) : Host.Outcome State Fault Refusal :=
  .next (boundaryWork { s with pins := { s.pins with pflt := !s.pins.pflt } })

/-- REVERSE_BYTE (R100): in a granted phase one reverse byte arrives; with no phase granted the change of RSTB is ignored. A phase
granted by an expiry that was taken first, RREQ being high, is a granted phase (DESIGN CHOICE, log entry 26). -/
def execReverseByte (kind : ByteKind) (b : Byte) (s : State) : Host.Outcome State Fault Refusal :=
  let s := { s with pins := { s.pins with rstb := !s.pins.rstb } }
  if s.le.link = .reverse then .next (takeReverseByte kind b s) else .next s

/-- REV_IDLE_EXPIRY (R101): the phase ends without YIELD, LINK_PROTOCOL REV_TIMEOUT is posted to the LINK group, and the order of
work is applied, which grants a new phase at once while RREQ is high. R101 also says that a change of RSTB falling together with the
expiry, the expiry taken first, finds no phase granted, and leaves open how the two go together while RREQ is high: here the byte
arrives in the new phase, where it is taken and acknowledged (DESIGN CHOICE, log entry 26). -/
def execRevIdleExpiry (s : State) : Host.Outcome State Fault Refusal :=
  if s.le.revIdleTimer.isSome then
    .next (applyOrder (postLinkGroup (plainEvent .linkProtocol revTimeoutCode) (endPhase s)))
  else .next s

/-- STALL_TIMER_EXPIRY (R89): the stall is REPORTED and LINK_STALL code 1 is posted to the LINK group. -/
def execStallTimerExpiry (s : State) : Host.Outcome State Fault Refusal :=
  if s.le.stallTimer.isSome then
    .next (postLinkGroup (plainEvent .linkStall 1)
      { s with le := { s.le with stall := .reported, stallTimer := none } })
  else .next s

/-- What a command that can make a job eligible, or raise its priority, does (the three events of R44); none for any other. -/
def eligibilityEvent (c : Instr) (s : State) : Option (Host.Outcome State Fault Refusal) :=
  match c with
  | .append h handle kind flags bytes => some (execAppend h handle kind flags bytes s)
  | .close h handle => some (execClose h handle s)
  | .setPriority h handle priority => some (execSetPriority h handle priority s)
  | .acknowledgement => some (execAcknowledgement s)
  | .partReset | .rstRelease | .poolInitEnd | .lrstPulseEnd | .portReset _ | .hkrstRelease _ | .chipSelectAssert _
  | .chipSelectRelease _ | .framingFault _ _ | .ident _ | .last _ | .openJob _ _ _ _ | .cancel _ _ | .release _ _
  | .jobStatus _ _ | .readReply _ _ _ | .fetchEvent _ | .subscribe _ _ | .leaseTake _ | .leaseDrop _
  | .setSetting _ _ _ _ | .getSetting _ _ _ | .linkStatus _ | .linkReset _ | .acknowledgeTimeout | .rreqRise | .rreqFall
  | .prdyRise | .prdyFall | .pfltChange | .reverseByte _ _ | .revIdleExpiry | .stallTimerExpiry | .dryWaitExpiry
  | .wakeTimerExpiry | .replyTimerExpiry _ | .leaseTermExpiry | .answerSent _ => none

/-- The command that waits next prompts the decision that is open in `s`: it makes a job eligible, or raises an eligible job's
priority, and that job is not the job `a` whose dry wait has expired (R64, R65). -/
def nextPrompts (a : SlotId) (s : State) : Bool :=
  match s.pending with
  | [] => false
  | c :: rest =>
    match eligibilityEvent c { s with pending := rest } with
    | some (.next t) => !t.du.leaving && decide ((t.job a).state = .starved)
    | some (.fault _) | some (.refused _) | none => false

/-- The decision that the leaving of a job has started is left open (R64). -/
def openDecision (s : State) : State := boundaryWork { s with du := { s.du with leaving := true } }

/-- DRY_WAIT_EXPIRY (R64, R65): the active job becomes STARVED and leaves the link, JOB_STARVED goes to its owner, and DU makes the
leaving decision. A command falls together with the expiry, the expiry taken first, when it waits next in the queue as the
expiry is taken (DESIGN CHOICE, log entry 24): where it makes a job eligible or raises its priority, the decision is left open
for it, and that command's step makes it. -/
def execDryWaitExpiry (s : State) : Host.Outcome State Fault Refusal :=
  match s.le.dryTimer, s.du.active with
  | some _, some a =>
    let s := dropActive (s.setJob a { s.job a with state := .starved })
    let s := post (s.job a).owner
      { kind := .jobStarved, handle := some (s.handle a), route := (s.job a).route, code := 0 } s
    .next (if nextPrompts a (openDecision s) then openDecision s else boundaryWork (leaveLink s))
  | _, _ => .next s

/-- WAKE_TIMER_EXPIRY (R144): with PRDY low the link enters DOWN and LINK_DOWN is posted to the LINK group. -/
def execWakeTimerExpiry (s : State) : Host.Outcome State Fault Refusal :=
  if s.le.wakeTimer.isSome ∧ s.pins.prdy = false then
    .next (postLinkGroup (plainEvent .linkDown 0) { s with le := { s.le with link := .down, wakeTimer := none } })
  else .next s

/-- REPLY_TIMER_EXPIRY (R114): the route becomes ABORTED and its job, in AWAIT_REPLY, ends FAILED with REPLY_TIMEOUT. -/
def execReplyTimerExpiry (r : RouteId) (s : State) : Host.Outcome State Fault Refusal :=
  match (s.route r).timer, (s.route r).owner with
  | some _, some x => .next (endJobAlone x.slot .failed .replyTimeout (abortRoute x.slot s))
  | _, _ => .next s

/-- LEASE_TERM_EXPIRY (R159): LEASE_EXPIRED goes to the holder, and the lease is handed over. -/
def execLeaseTermExpiry (s : State) : Host.Outcome State Fault Refusal :=
  match s.su.term, s.su.holder with
  | some _, some h => .next (handover (post h (plainEvent .leaseExpired 0) s))
  | _, _ => .next s

end Sys2Proof.Machine
end

