-- ==== Sys2Proof/Machine/PortEvents.lean ====
section
/-! DEFINITION. The commands of a host port itself: chip select, ANSWER_SENT, FRAMING_FAULT, IDENT and LAST. -/

namespace Sys2Proof.Machine

/-- CHIP_SELECT_ASSERT (R164, R176): on an attached port whose framing state is IDLE a transaction begins in REQUEST. With chip
select asserted already there is no assertion. -/
def execChipSelectAssert (h : HostId) (s : State) : Host.Outcome State Fault Refusal :=
  let p := s.port h
  if p.cs then .next s
  else
    .next (s.setPort h { p with
      cs := true
      framing := if !p.detached && decide (p.framing = .idle) then .request else p.framing })

/-- CHIP_SELECT_RELEASE (R164, R168): the transaction ends, whatever its phase, and the framing state returns to IDLE. -/
def execChipSelectRelease (h : HostId) (s : State) : Host.Outcome State Fault Refusal :=
  let p := s.port h
  if p.cs then .next (s.setPort h { p with cs := false, framing := .idle }) else .next s

/-- ANSWER_SENT (R167): the port leaves ANSWER and enters DRAINING. -/
def execAnswerSent (h : HostId) (s : State) : Host.Outcome State Fault Refusal :=
  let p := s.port h
  match p.framing with
  | .answer _ => .next (s.setPort h { p with framing := .draining })
  | .idle | .request | .draining => .next s

/-- FRAMING_FAULT (R165, R166): a whole frame that fails the framing check is answered FRAME, in INIT too, and the answer is not
stored. A frame that is not whole, or that passes, is no framing fault and changes nothing (log entry 6). -/
def execFramingFault (h : HostId) (frame : List Byte) (s : State) : Host.Outcome State Fault Refusal :=
  if listening s h && frameComplete frame && frameFaulty frame then .next (answer h .frame [] false s) else .next s

/-- IDENT (R173), answered in INIT too, and stored. -/
def execIdent (h : HostId) (s : State) : Host.Outcome State Fault Refusal :=
  if listening s h then .next (answer h .ok (identPayload h s.sp.phase) true s) else .next s

/-- LAST (R172): the stored answer verbatim, or NOT_READY built anew and not stored. -/
def execLast (h : HostId) (s : State) : Host.Outcome State Fault Refusal :=
  if listening s h then
    let p := s.port h
    match p.stored with
    | some frame => .next (s.setPort h { p with framing := .answer frame })
    | none => .next (answer h .notReady [] false s)
  else .next s

end Sys2Proof.Machine
end

