-- ==== Sys2Proof/Machine/Resets.lean ====
section
/-! DEFINITION. The commands of reset and start-up: PART_RESET, RST_RELEASE, POOL_INIT_END, LRST_PULSE_END, PORT_RESET and
HKRST_RELEASE. -/

namespace Sys2Proof.Machine

/-- PART_RESET (R178): every block takes its part-reset state and every port detaches. What stays is what is not the part's:
the levels of the input lines, the commands waiting, and the count of free values. -/
def execPartReset (s : State) : Host.Outcome State Fault Refusal :=
  .next { State.reset with
    pending := s.pending
    draws := s.draws
    ports := s.ports.map fun p => resetPort p.cs p.hrst
    pins := resetPins s.pins.fack s.pins.rreq s.pins.rstb s.pins.prdy s.pins.pflt }

/-- A port at the release of RST: attached unless its HkRST is asserted, framing IDLE, nothing stored (R176, R178). -/
def attachPort (p : Port) : Port := { p with framing := .idle, stored := none, detached := p.hrst }

/-- RST_RELEASE (R40, R93, R94, R176, R178): the ports attach, the 80 µs and 100 µs periods begin, and LE drives zero and DATA.
With RST not asserted there is nothing to release. -/
def execRstRelease (s : State) : Host.Outcome State Fault Refusal :=
  if s.pins.rst then
    .next { s with
      ports := s.ports.map attachPort
      sp := { s.sp with initTimer := some Config.poolInitPeriod }
      le := { s.le with pulseTimer := some Config.lrstPulse }
      pins := { s.pins with rst := false, ld := 0, lkind := .data, ldDriven := true } }
  else .next s

/-- Every segment, in ascending order. -/
def allSegments : List SegmentId := List.finRange 384

/-- POOL_INIT_END (R41): the pool enters READY with all 384 segments free. The period runs only in INIT with RST released. -/
def execPoolInitEnd (s : State) : Host.Outcome State Fault Refusal :=
  if s.sp.initTimer.isSome then
    .next { s with sp :=
      { phase := .ready, initTimer := none, free := allSegments, used := Vector.replicate 4 0
        marks := Vector.replicate 4 none } }
  else .next s

/-- LRST_PULSE_END (R143, R144). The pulse runs only in RESETTING with RST released. -/
def execLrstPulseEnd (s : State) : Host.Outcome State Fault Refusal :=
  if s.le.pulseTimer.isSome then .next (enterWaking s) else .next s

/-- The part of port reset that falls to one slot of host `h` (R21): an ENDED job is released; a CANCELLING job is marked
ORPHANED; any other is marked ORPHANED and cancelled with cause BY_OWNER. -/
def orphanSlot (h : HostId) (s : State) (k : SlotId) : State :=
  if (s.job k).owner = h then
    match (s.job k).state with
    | .free => s
    | .ended => releaseSlot k s
    | .cancelling => s.setJob k { s.job k with orphaned := true }
    | .filling | .ready | .active | .suspended | .starved | .awaitReply =>
      cancelJob k .byOwner (s.setJob k { s.job k with orphaned := true })
  else s

/-- The ENDED jobs of host `h` are released first (R21). -/
def releaseEnded (h : HostId) (s : State) (k : SlotId) : State :=
  if (s.job k).owner = h ∧ (s.job k).state = .ended then releaseSlot k s else s

/-- All jobs of host `h` at its port reset (R21, R39, R67): ENDED jobs are released, then the others are orphaned in ascending
slot order (R149), then the space waiters are evaluated once, and then comes the leaving decision if the active job was one of
them. R27 leaves open in what order the discarded chains join the free list: that of the highest slot stands at the head (DESIGN
CHOICE, log entry 13). -/
def orphanJobs (h : HostId) (s : State) : State :=
  let lost := match s.du.active with
    | none => false
    | some a => decide ((s.job a).owner = h)
  let s := evaluateSpace (allSlots.foldl (orphanSlot h) (allSlots.foldl (releaseEnded h) s))
  if lost then leaveLink s else s

/-- Host `h` leaves the waiter list, and then its holding, if any, ends with handover and no LEASE_EXPIRED (R161). -/
def dropLeaseOf (h : HostId) (s : State) : State :=
  let s := { s with su := { s.su with waiters := s.su.waiters.filter fun x => decide (x ≠ h) } }
  if s.su.holder = some h then handover s else s

/-- PORT_RESET (R177): the port detaches, its framing and stored answer are cleared, its event unit is emptied (R127), its
space-waiter mark goes (R39), its jobs are released or orphaned (R21), LE works on at its boundary, and its lease and wait are
dropped (R161). While HkRST stays asserted nothing more happens. -/
def execPortReset (h : HostId) (s : State) : Host.Outcome State Fault Refusal :=
  if (s.port h).hrst then .next s
  else
    let s := s.setPort h { s.port h with framing := .idle, stored := none, detached := true, hrst := true }
    let s := s.setEu h emptyEventUnit
    let s := s.setMark h none
    .next (dropLeaseOf h (boundaryWork (orphanJobs h s)))

/-- HKRST_RELEASE (R176, R177): the port attaches, framing IDLE and nothing stored, unless RST is asserted. -/
def execHkrstRelease (h : HostId) (s : State) : Host.Outcome State Fault Refusal :=
  let p := s.port h
  if p.hrst then
    .next (s.setPort h { p with framing := .idle, stored := none, detached := s.pins.rst, hrst := false })
  else .next s

end Sys2Proof.Machine
end

