-- ==== Sys2Proof/Machine/SharedRequests.lean ====
section
/-! DEFINITION. The requests about events, the lease, the settings and the link: FETCH_EVENT, SUBSCRIBE, LEASE_TAKE, LEASE_DROP,
SET, GET, LINK_STATUS and LINK_RESET. -/

namespace Sys2Proof.Machine

/-- FETCH_EVENT judged and applied (R123): the oldest record and the number left, or EMPTY with LAPSED cleared. -/
def judgeFetchEvent (h : HostId) (s : State) : Reply :=
  let u := s.eu h
  match u.queue with
  | [] => { state := s.setEu h (driveAttention { u with lapsed := false }), code := .empty, payload := [] }
  | e :: es =>
    { state := s.setEu h (driveAttention { u with queue := es }), code := .ok
      payload := eventBytes e ++ [oneByte es.length] }

/-- FETCH_EVENT (R123). -/
def execFetchEvent (h : HostId) (s : State) : Host.Outcome State Fault Refusal := serve h (judgeFetchEvent h) s

/-- SUBSCRIBE judged and applied (R124). -/
def judgeSubscribe (h : HostId) (flags : Byte) (s : State) : Reply :=
  if onlyBits 0x07#8 flags then
    let u := { s.eu h with
      enable := flags.getLsbD 0, linkGroup := flags.getLsbD 1, statusGroup := flags.getLsbD 2 }
    { state := s.setEu h (driveAttention u), code := .ok, payload := [subscriptionByte u] }
  else refuse s .badArg

/-- SUBSCRIBE (R124). -/
def execSubscribe (h : HostId) (flags : Byte) (s : State) : Host.Outcome State Fault Refusal :=
  serve h (judgeSubscribe h flags) s

/-- The payload of LEASE_HELD (R157): the remaining term just read and the requester's place, counted from 1 for the head. -/
def leaseHeldPayload (h : HostId) (s : State) : List Byte :=
  twoBytes s.su.termLeft ++ [oneByte (s.su.waiters.idxOf h + 1)]

/-- LEASE_TAKE judged and applied (R157): granted with no holder, renewed for the holder, and else LEASE_HELD, the requester
joining the waiter list at the tail unless it is on it. The remaining term answered is the most that can be left from then on. -/
def judgeLeaseTake (h : HostId) (s : State) : Reply :=
  if s.su.holder = none ∨ s.su.holder = some h then
    { state := grantLease h s, code := .ok, payload := twoBytes (termMs s.su.settings.leaseTerm) }
  else
    let waiters := if h ∈ s.su.waiters then s.su.waiters else s.su.waiters ++ [h]
    let s := { s with su := { s.su with waiters := waiters, termLeft := remainingTerm s }, draws := s.draws + 1 }
    { state := s, code := .leaseHeld, payload := leaseHeldPayload h s }

/-- LEASE_TAKE (R157). -/
def execLeaseTake (h : HostId) (s : State) : Host.Outcome State Fault Refusal := serve h (judgeLeaseTake h) s

/-- LEASE_DROP judged and applied (R158). -/
def judgeLeaseDrop (h : HostId) (s : State) : Reply :=
  if s.su.holder = some h then { state := handover s, code := .ok, payload := [] }
  else if h ∈ s.su.waiters then
    { state := { s with su := { s.su with waiters := s.su.waiters.erase h } }, code := .ok, payload := [] }
  else refuse s .noLease

/-- LEASE_DROP (R158). -/
def execLeaseDrop (h : HostId) (s : State) : Host.Outcome State Fault Refusal := serve h (judgeLeaseDrop h) s

/-- A change of the named setting to `v` can stand against the present state: JOB_LIMIT not below the host's owned-slot count
(R153), the reserves acceptable to the pool (R154), any other always. -/
def settingStands (s : State) (n : SettingName) (v : Nat) : Bool :=
  match n with
  | .jobLimit x => decide (s.owned x ≤ v)
  | .reserve x => reservesAcceptable (upd s.su.settings.reserve x v) s.sp.used
  | .ackTime | .stallTime | .starveTime | .revIdle | .replyTime | .wakeTime | .leaseTerm | .startThreshold | .turnBudget
  | .preemptFloor => true

/-- The value is replaced; a change of a reserve starts an evaluation of the space waiters (R38, R151). -/
def applySetting (n : SettingName) (v : Nat) (s : State) : State :=
  let s := { s with su := { s.su with settings := withSetting s.su.settings n v } }
  match n with
  | .reserve _ => evaluateSpace s
  | .jobLimit _ | .ackTime | .stallTime | .starveTime | .revIdle | .replyTime | .wakeTime | .leaseTerm | .startThreshold
  | .turnBudget | .preemptFloor => s

/-- SET judged and applied: NO_LEASE, BAD_ARG, BAD_STATE, in that order (R152). -/
def judgeSet (h : HostId) (identifier host : Byte) (value : BitVec 16) (s : State) : Reply :=
  if s.su.holder = some h then
    match settingName identifier host with
    | none => refuse s .badArg
    | some n =>
      if settingInRange n value.toNat then
        if settingStands s n value.toNat then
          { state := applySetting n value.toNat s, code := .ok
            payload := settingPayload identifier host value.toNat }
        else refuse s .badState
      else refuse s .badArg
  else refuse s .noLease

/-- SET (R152). -/
def execSet (h : HostId) (identifier host : Byte) (value : BitVec 16) (s : State) : Host.Outcome State Fault Refusal :=
  serve h (judgeSet h identifier host value) s

/-- GET judged: one value of the record, for any host (R155). -/
def judgeGet (identifier host : Byte) (s : State) : Reply :=
  match settingName identifier host with
  | none => refuse s .badArg
  | some n =>
    { state := s, code := .ok, payload := settingPayload identifier host (settingValue s.su.settings n) }

/-- GET (R155). -/
def execGet (h : HostId) (identifier host : Byte) (s : State) : Host.Outcome State Fault Refusal :=
  serve h (judgeGet identifier host) s

/-- LINK_STATUS judged: a snapshot for any host (R174). -/
def judgeLinkStatus (h : HostId) (s : State) : Reply := { state := s, code := .ok, payload := linkStatusPayload s h }

/-- LINK_STATUS (R174). -/
def execLinkStatus (h : HostId) (s : State) : Host.Outcome State Fault Refusal := serve h (judgeLinkStatus h) s

/-- LINK_RESET judged and applied (R141). -/
def judgeLinkReset (h : HostId) (s : State) : Reply :=
  if s.su.holder = some h then
    { state := resetLink .resetRequested .linkReset s, code := .ok, payload := [] }
  else refuse s .noLease

/-- LINK_RESET (R141). -/
def execLinkReset (h : HostId) (s : State) : Host.Outcome State Fault Refusal := serve h (judgeLinkReset h) s

end Sys2Proof.Machine
end

