-- ==== Sys2Proof/Machine/Dispatch.lean ====
section
/-! DEFINITION. The effect of each command on the part, but for the queue of waiting commands: one arm per row of the table. -/

namespace Sys2Proof.Machine

def exec (i : Instr) (s : State) : Host.Outcome State Fault Refusal :=
  match i with
  | .partReset => Sys2Proof.Machine.execPartReset s
  | .rstRelease => Sys2Proof.Machine.execRstRelease s
  | .poolInitEnd => Sys2Proof.Machine.execPoolInitEnd s
  | .lrstPulseEnd => Sys2Proof.Machine.execLrstPulseEnd s
  | .portReset h => Sys2Proof.Machine.execPortReset h s
  | .hkrstRelease h => Sys2Proof.Machine.execHkrstRelease h s
  | .chipSelectAssert h => Sys2Proof.Machine.execChipSelectAssert h s
  | .chipSelectRelease h => Sys2Proof.Machine.execChipSelectRelease h s
  | .framingFault h frame => Sys2Proof.Machine.execFramingFault h frame s
  | .ident h => Sys2Proof.Machine.execIdent h s
  | .last h => Sys2Proof.Machine.execLast h s
  | .openJob h channel priority flags => Sys2Proof.Machine.execOpen h channel priority flags s
  | .append h handle kind flags bytes => Sys2Proof.Machine.execAppend h handle kind flags bytes s
  | .close h handle => Sys2Proof.Machine.execClose h handle s
  | .setPriority h handle priority => Sys2Proof.Machine.execSetPriority h handle priority s
  | .cancel h handle => Sys2Proof.Machine.execCancel h handle s
  | .release h handle => Sys2Proof.Machine.execRelease h handle s
  | .jobStatus h handle => Sys2Proof.Machine.execJobStatus h handle s
  | .readReply h handle maximum => Sys2Proof.Machine.execReadReply h handle maximum s
  | .fetchEvent h => Sys2Proof.Machine.execFetchEvent h s
  | .subscribe h flags => Sys2Proof.Machine.execSubscribe h flags s
  | .leaseTake h => Sys2Proof.Machine.execLeaseTake h s
  | .leaseDrop h => Sys2Proof.Machine.execLeaseDrop h s
  | .setSetting h setting host value => Sys2Proof.Machine.execSet h setting host value s
  | .getSetting h setting host => Sys2Proof.Machine.execGet h setting host s
  | .linkStatus h => Sys2Proof.Machine.execLinkStatus h s
  | .linkReset h => Sys2Proof.Machine.execLinkReset h s
  | .acknowledgement => Sys2Proof.Machine.execAcknowledgement s
  | .acknowledgeTimeout => Sys2Proof.Machine.execAcknowledgeTimeout s
  | .rreqRise => Sys2Proof.Machine.execRreqRise s
  | .prdyRise => Sys2Proof.Machine.execPrdyRise s
  | .prdyFall => Sys2Proof.Machine.execPrdyFall s
  | .pfltChange => Sys2Proof.Machine.execPfltChange s
  | .reverseByte kind b => Sys2Proof.Machine.execReverseByte kind b s
  | .revIdleExpiry => Sys2Proof.Machine.execRevIdleExpiry s
  | .stallTimerExpiry => Sys2Proof.Machine.execStallTimerExpiry s
  | .dryWaitExpiry => Sys2Proof.Machine.execDryWaitExpiry s
  | .wakeTimerExpiry => Sys2Proof.Machine.execWakeTimerExpiry s
  | .replyTimerExpiry r => Sys2Proof.Machine.execReplyTimerExpiry r s
  | .leaseTermExpiry => Sys2Proof.Machine.execLeaseTermExpiry s
  | .rreqFall => Sys2Proof.Machine.execRreqFall s
  | .answerSent h => Sys2Proof.Machine.execAnswerSent h s

end Sys2Proof.Machine
end

