-- ==== Sys2Proof/Machine/Step.lean ====
section
/-! DEFINITION. One step of the part: the command at the front of the queue, or nothing when none waits. -/

namespace Sys2Proof.Machine

/-- The command at the front of the queue runs on the state with the queue's rest. On an empty queue the block idles: DESIGN
CHOICE, log entry 3. -/
def step (s : State) : Host.Outcome State Fault Refusal :=
  match s.pending with
  | [] => .next s
  | c :: rest => exec c { s with pending := rest }

/-- `s` with the command that a table word spells at the front of its queue, and `s` itself where the word spells none, which is
every word (log entry 1). -/
def State.withFetchWord (s : State) (nbits w : Nat) : State :=
  match decodeTableWord nbits w with
  | some c => { s with pending := c :: s.pending }
  | none => s

end Sys2Proof.Machine
end

