-- ==== Sys2Proof/Safety.lean ====
section
/-! DEFINITION. What counts as a sound state of the part, and the words the statements use for what a command did: an answer
given, records posted, blocks left alone. -/

namespace Sys2Proof.Machine

/-! ## Words for statements -/

/-- Port `h` takes a request now: it is attached, in REQUEST, and the pool is READY (R164, R165, R170). -/
abbrev taking (s : State) (h : HostId) : Prop :=
  (s.port h).detached = false ∧ (s.port h).framing = .request ∧ s.sp.phase = .ready

/-- The handle byte names the job in slot `k`: its slot, the slot's present generation, and the slot is not FREE (R3). -/
abbrev namesJob (s : State) (handle : Byte) (k : SlotId) : Prop :=
  handleSlot handle = k.val ∧ handleGen handle = (s.gen k).val ∧ (s.job k).state ≠ .free

/-- The handle byte names the job in slot `k` of host `h`, which passes the handle and ownership checks (R3, R4). -/
abbrev ownHandle (s : State) (h : HostId) (handle : Byte) (k : SlotId) : Prop :=
  handleSlot handle = k.val ∧ handleGen handle = (s.gen k).val ∧ (s.job k).state ≠ .free ∧ (s.job k).owner = h ∧
    (s.job k).orphaned = false

/-- The handle byte of a request that names a job (R3). -/
def requestHandle : Instr → Option Byte
  | .append _ hd _ _ _ | .close _ hd | .setPriority _ hd _ | .cancel _ hd | .release _ hd | .jobStatus _ hd
  | .readReply _ hd _ => some hd
  | .partReset | .rstRelease | .poolInitEnd | .lrstPulseEnd | .portReset _ | .hkrstRelease _ | .chipSelectAssert _
  | .chipSelectRelease _ | .framingFault _ _ | .ident _ | .last _ | .openJob _ _ _ _ | .fetchEvent _ | .subscribe _ _
  | .leaseTake _ | .leaseDrop _ | .setSetting _ _ _ _ | .getSetting _ _ _ | .linkStatus _ | .linkReset _ | .acknowledgement
  | .acknowledgeTimeout | .rreqRise | .prdyRise | .prdyFall | .pfltChange | .reverseByte _ _ | .revIdleExpiry
  | .stallTimerExpiry | .dryWaitExpiry | .wakeTimerExpiry | .replyTimerExpiry _ | .leaseTermExpiry | .rreqFall
  | .answerSent _ => none

/-- A number below 65536 as two bytes, most significant first (R179). -/
abbrev big16 (n : Nat) : List Byte := [BitVec.ofNat 8 (n / 256), BitVec.ofNat 8 n]

/-- A 32-bit number as four bytes, most significant first (R179). -/
abbrev big32 (n : Nat) : List Byte :=
  [BitVec.ofNat 8 (n / 16777216), BitVec.ofNat 8 (n / 65536), BitVec.ofNat 8 (n / 256), BitVec.ofNat 8 n]

/-- The parameters of an APPEND pass the BAD_ARG check (R31). -/
abbrev appendLegal (kind flags : Byte) (bytes : List Byte) : Prop :=
  (kind = 0x00#8 ∨ kind = 0x01#8 ∧ ∀ b ∈ bytes, b.toNat < 0xE0) ∧ flags.toNat < 4 ∧ bytes.length ≤ 240 ∧
    (bytes ≠ [] ∨ flags ≠ 0#8)

/-- The entries an APPEND brings: one of its kind for each byte in order, and a BREAK for BREAK_AFTER (R23). -/
abbrev appended (kind flags : Byte) (bytes : List Byte) : List Entry :=
  bytes.map (if kind = 0x01#8 then Entry.control else Entry.data) ++ if flags.getLsbD 0 then [.brk] else []

/-- The segments an APPEND of `n` entries needs on a chain (R30). -/
abbrev newSegments (n : Nat) (chain : List Segment) : Nat := (n - tailSpace chain + 31) / 32

/-- The record of a job that ended (R16). -/
abbrev endedJob (j : Job) (o : JobOutcome) (c : Cause) : Job :=
  { j with chain := [], queued := 0, state := .ended, outcome := some o, cause := some c, readySeq := none }

/-- The JOB_ENDED record of the job in slot `k` (section 6.2). -/
abbrev endedRecord (s : State) (k : SlotId) (code : Byte) : Event :=
  { kind := .jobEnded, handle := some (s.handle k), route := (s.job k).route, code := code }

/-- From `s` to `t` the route of the job in slot `k`, if any, became ABORTED, and no other route changed (R97). -/
abbrev routeAborted (s t : State) (k : SlotId) : Prop :=
  ∀ r, t.route r = if (s.job k).route = some r then { s.route r with state := .aborted, buffer := [], timer := none }
    else s.route r

/-- The frame answered with in state `t`: STATUS with the status bits of `t`, LEN, payload and CHECK (R126, R167). -/
abbrev frameIn (t : State) (h : HostId) (code : AnswerCode) (payload : List Byte) : List Byte :=
  answerFrame (statusByte (t.eu h) t.le.link code) payload

/-- From `s` to `t` port `h` has answered with this code and payload and stored the answer; no other port changed (R171). -/
abbrev answeredWith (s t : State) (h : HostId) (code : AnswerCode) (payload : List Byte) : Prop :=
  t.ports = upd s.ports h
    { s.port h with framing := .answer (frameIn t h code payload), stored := some (frameIn t h code payload) }

/-- From `s` to `t` port `h` has answered with this code and no payload, and stored nothing (R166, R170). -/
abbrev answeredUnstored (s t : State) (h : HostId) (code : AnswerCode) : Prop :=
  t.ports = upd s.ports h { s.port h with framing := .answer (frameIn t h code []) }

/-- From `s` to `t` each event unit in the LINK group took a post of `e`, and no other unit changed (R119, R121). -/
abbrev postedToLinkGroup (s t : State) (e : Event) : Prop :=
  ∀ h, t.eu h = if (s.eu h).linkGroup then takePost (s.port h).detached e (s.eu h) else s.eu h

/-- From `s` to `t` the unit of host `h` took a post of `e`, and no other unit changed. -/
abbrev postedTo (s t : State) (h : HostId) (e : Event) : Prop :=
  t.eus = upd s.eus h (takePost (s.port h).detached e (s.eu h))

/-- Everything but the ports is as it was: the whole effect of a refusal that leaves no mark (R169). -/
abbrev onlyPortsDiffer (s t : State) : Prop := t = { s with ports := t.ports }

/-- The request is answered with this code and no payload, and changes nothing but its own port (R169, R171). -/
abbrev refusedWith (c : Instr) (s : State) (h : HostId) (code : AnswerCode) : Prop :=
  ∃ t, exec c s = .next t ∧ answeredWith s t h code [] ∧ onlyPortsDiffer s t

/-- From `s` to `t` each event unit in the STATUS group took a post of `e`, and no other unit changed (R111, R121). -/
abbrev postedToStatusGroup (s t : State) (e : Event) : Prop :=
  ∀ h, t.eu h = if (s.eu h).statusGroup then takePost (s.port h).detached e (s.eu h) else s.eu h

/-- The event unit of host `h` after the posts `es` in order (R119). -/
abbrev unitAfter (s : State) (h : HostId) (es : List Event) : EventUnit :=
  es.foldl (fun u e => takePost (s.port h).detached e u) (s.eu h)

/-- The record OPEN creates for host `h` (R9): flags bit 0 is STREAM, bit 1 REPLY. -/
abbrev newJob (h : HostId) (c : ChannelId) (p : Fin 8) (flags : Byte) (route : Option RouteId) : Job :=
  { owner := h, channel := c, priority := p, stream := flags.getLsbD 0, reply := flags.getLsbD 1, closed := false,
    begun := false, orphaned := false, state := .filling, queued := 0, chain := [], sent := 0, route := route,
    readySeq := none, seqTaken := none, turn := 0, outcome := none, cause := none }

/-- An APPEND of `n` entries by host `h` to the job in slot `k` fits the allowance and the free list (R30, R33). -/
abbrev appendHasRoom (s : State) (h : HostId) (k : SlotId) (n : Nat) : Prop :=
  newSegments n (s.job k).chain ≤ allowance s h ∧ newSegments n (s.job k).chain ≤ s.sp.free.length

/-- The Segment Pool after `need` segments have been allocated for host `h` (R27, R28). -/
abbrev poolTook (s : State) (h : HostId) (need : Nat) : SegmentPool :=
  { s.sp with free := s.sp.free.drop need, used := upd s.sp.used h (s.used h + need) }

/-- The value of the settings record that an identifier and a host number name (section 10.3). -/
def recordValue (x : Settings) (identifier : Byte) (h : HostId) : Nat :=
  match identifier.toNat with
  | 1 => x.ackTime
  | 2 => x.stallTime
  | 3 => x.starveTime
  | 4 => x.revIdle
  | 5 => x.replyTime
  | 6 => x.wakeTime
  | 7 => x.leaseTerm
  | 8 => x.startThreshold
  | 9 => x.turnBudget
  | 10 => x.preemptFloor
  | 11 => x.jobLimit[h]
  | 12 => x.reserve[h]
  | _ => 0

/-- The range of the setting an identifier names (section 8.1). -/
def inTableRange (identifier : Byte) (v : Nat) : Prop :=
  match identifier.toNat with
  | 1 | 2 | 3 | 4 | 5 | 6 | 7 => 1 ≤ v ∧ v ≤ 255
  | 8 => 1 ≤ v ∧ v ≤ 4096
  | 9 => v = 0 ∨ 256 ≤ v ∧ v ≤ 65535
  | 10 => 1 ≤ v ∧ v ≤ 8
  | 11 => 1 ≤ v ∧ v ≤ 24
  | 12 => v ≤ 96
  | _ => False

/-- An identifier and a host number name a value of the settings record (R152, R155). -/
abbrev namesSetting (identifier host : Byte) (x : HostId) : Prop :=
  1 ≤ identifier.toNat ∧ identifier.toNat ≤ 12 ∧ host.toNat = x.val ∧ (identifier.toNat ≤ 10 → x = 0)

/-- The reserves with that of host `x` replaced by `v` fit the pool: their sum is 384 at most, and what the hosts use beyond
them fits the rest (R38, R154). -/
abbrev reserveFits (s : State) (x : HostId) (v : Nat) : Prop :=
  let reserve := upd s.su.settings.reserve x v
  (allHosts.map fun h => reserve[h]).sum ≤ 384 ∧
    (allHosts.map fun h => s.used h - reserve[h]).sum + (allHosts.map fun h => reserve[h]).sum ≤ 384

/-- The command `c` brings about a link reset in state `s`, with this last fault and this cause for the active job: LINK_RESET by
the lease holder (R141), or the acknowledge timeout (R76, R138). -/
abbrev resetsLink (c : Instr) (s : State) (fault : LastFault) (cause : Cause) : Prop :=
  (∃ h, c = .linkReset h ∧ taking s h ∧ s.su.holder = some h ∧ fault = .resetRequested ∧ cause = .linkReset) ∨
    (c = .acknowledgeTimeout ∧ s.le.ackTimer ≠ none ∧ fault = .ackTimeout ∧ cause = .linkFault)

/-- A link reset ends the job in slot `k` with this outcome and cause (the table of R139). -/
abbrev resetEnds (s : State) (k : SlotId) (activeCause : Cause) (o : JobOutcome) (c : Cause) : Prop :=
  ((s.job k).state = .active ∧ o = .failed ∧ c = activeCause) ∨
    (((s.job k).state = .suspended ∨ (s.job k).state = .awaitReply ∨
        ((s.job k).state = .ready ∨ (s.job k).state = .starved) ∧ (s.job k).begun = true) ∧
      o = .failed ∧ c = .linkReset) ∨
    ((s.job k).state = .cancelling ∧ o = .cancelled ∧
      ∃ e, (s.le.abandon.find? fun e => decide (e.job = s.handle k)) = some e ∧ c = e.cause)

/-- A link reset keeps the job in slot `k` (the table of R139). -/
abbrev resetKeeps (s : State) (k : SlotId) : Prop :=
  (s.job k).state = .free ∨ (s.job k).state = .filling ∨ (s.job k).state = .ended ∨
    ((s.job k).state = .ready ∨ (s.job k).state = .starved) ∧ (s.job k).begun = false

/-- How many places after host `h` host `x` comes in the rotation: 0 for the next host, 3 for `h` itself (R48). -/
def turnsAfter (h x : HostId) : Nat := (x - h - 1).val

/-- The port that a command of a host's own pins or requests acts on. -/
def commandPort : Instr → Option HostId
  | .portReset h | .hkrstRelease h | .chipSelectAssert h | .chipSelectRelease h | .framingFault h _ | .answerSent h => some h
  | .ident h | .last h | .openJob h _ _ _ | .append h _ _ _ _ | .close h _ | .setPriority h _ _ | .cancel h _
  | .release h _ | .jobStatus h _ | .readReply h _ _ | .fetchEvent h | .subscribe h _ | .leaseTake h | .leaseDrop h
  | .setSetting h _ _ _ | .getSetting h _ _ | .linkStatus h | .linkReset h => some h
  | .partReset | .rstRelease | .poolInitEnd | .lrstPulseEnd | .acknowledgement | .acknowledgeTimeout | .rreqRise
  | .prdyRise | .prdyFall | .pfltChange | .reverseByte _ _ | .revIdleExpiry | .stallTimerExpiry | .dryWaitExpiry
  | .wakeTimerExpiry | .replyTimerExpiry _ | .leaseTermExpiry | .rreqFall => none

/-- The entries of a chain in the order they will be taken (R25). -/
def chainList (chain : List Segment) : List Entry := (chain.map fun g => g.entries).flatten

/-! ## Sound states -/

/-- Every event unit holds at most 16 records, and its attention line is asserted exactly when its attention enable is on and
its queue is non-empty or LAPSED is set (R119, R125). -/
abbrev unitsSound (s : State) : Prop :=
  ∀ h, (s.eu h).queue.length ≤ 16 ∧
    ((s.eu h).attn = true ↔ (s.eu h).enable = true ∧ ((s.eu h).queue ≠ [] ∨ (s.eu h).lapsed = true))

/-- A port is detached exactly while RST or its HkRST is asserted; a detached port has framing IDLE, no stored answer and an
empty event unit (R127, R176, R177, R178). -/
abbrev portsSound (s : State) : Prop :=
  ∀ h, ((s.port h).detached = true ↔ s.pins.rst = true ∨ (s.port h).hrst = true) ∧
    ((s.port h).detached = true →
      (s.port h).framing = .idle ∧ (s.port h).stored = none ∧ s.eu h = emptyEventUnit)

/-- The lease (R156): the holder is not on the waiter list, which holds distinct hosts, is empty when there is no holder, and the
term timer runs exactly while there is a holder, with no more left on it than it was started with (R157; log entry 2). -/
abbrev leaseSound (s : State) : Prop :=
  s.su.waiters.Nodup ∧ (∀ h, s.su.holder = some h → h ∉ s.su.waiters) ∧ (s.su.holder = none → s.su.waiters = []) ∧
    (s.su.term.isSome = true ↔ s.su.holder.isSome = true) ∧
    (s.su.term = none → s.su.termLeft = 0) ∧ (∀ units, s.su.term = some units → s.su.termLeft ≤ units * 100)

/-- No route buffer holds more than 256 bytes (R95). -/
abbrev buffersSound (s : State) : Prop := ∀ r, (s.route r).buffer.length ≤ 256

/-- The link (R72, R76, R93, R94, R99, R143): an offer is outstanding, and the acknowledge timer runs, exactly in SENDING; RGNT
is high, and the reverse-idle timer runs, exactly in REVERSE; LRST is asserted exactly in RESETTING, where the pulse runs once
RST is released; the wake timer runs exactly in WAKING; the stall timer runs exactly while the stall record is TIMING, and a
stall is in progress in WAITING; the data lines are driven outside RST and REVERSE; and the link is RESETTING under RST. -/
abbrev linkSound (s : State) : Prop :=
  (s.le.latch.isSome = true ↔ s.le.link = .sending) ∧ (s.le.ackTimer.isSome = true ↔ s.le.link = .sending) ∧
    (s.pins.rgnt = true ↔ s.le.link = .reverse) ∧ (s.le.revIdleTimer.isSome = true ↔ s.le.link = .reverse) ∧
    (s.pins.lrst = true ↔ s.le.link = .resetting) ∧ (s.le.wakeTimer.isSome = true ↔ s.le.link = .waking) ∧
    (s.le.pulseTimer.isSome = true ↔ s.le.link = .resetting ∧ s.pins.rst = false) ∧
    (s.le.stallTimer.isSome = true ↔ s.le.stall = .timing) ∧ (s.le.link = .waiting → s.le.stall ≠ .none) ∧
    (s.pins.ldDriven = true ↔ s.pins.rst = false ∧ s.le.link ≠ .reverse) ∧ (s.pins.rst = true → s.le.link = .resetting)

/-- Segments in the chains of all jobs. -/
abbrev segmentsHeld (s : State) : Nat := (allSlots.map fun k => (s.job k).chain.length).sum

/-- Segments in the chains of the jobs of host `h` (R28). -/
abbrev segmentsOf (s : State) (h : HostId) : Nat :=
  (allSlots.map fun k => if (s.job k).owner = h then (s.job k).chain.length else 0).sum

/-- The segments in the chains of all jobs, by their numbers. -/
abbrev heldIds (s : State) : List SegmentId := (allSlots.map fun k => (s.job k).chain.map fun g => g.id).flatten

/-- The counts of the pool once it is READY: the segments on the free list and in the chains are 384 together (R27), and no segment
is there twice, neither on the list nor in a chain nor in both (R24, R27); each used count is the number of segments in the
chains of that host's jobs (R28), and a FREE or ENDED job holds none (section 1.4). -/
abbrev poolCounts (s : State) : Prop :=
  s.sp.free.length + segmentsHeld s = 384 ∧ (s.sp.free ++ heldIds s).Nodup ∧ (∀ h, s.used h = segmentsOf s h) ∧
    ∀ k, (s.job k).state = .free ∨ (s.job k).state = .ended → (s.job k).chain = []

/-- No job holds a segment. -/
abbrev noChains (s : State) : Prop := ∀ k, (s.job k).chain = []

/-- The pool: its counts hold in READY, no chain exists in INIT (R40), the period of INIT runs in INIT only, with RST
released, the pool is in INIT under RST, and the reserves and the shared use fit the pool (R28). -/
abbrev poolSound (s : State) : Prop :=
  (s.sp.phase = .ready → poolCounts s) ∧ (s.sp.phase = .init → noChains s) ∧
    (s.sp.initTimer.isSome = true → s.sp.phase = .init ∧ s.pins.rst = false) ∧
    (s.pins.rst = true → s.sp.phase = .init) ∧
    reserveSum s.su.settings.reserve ≤ 384 ∧
    sharedUsed s.su.settings.reserve s.sp.used ≤ 384 - reserveSum s.su.settings.reserve

/-- A chain: every segment holds an entry and has at most 32 positions written, and every one but the tail has all 32 written
(R24, R25). -/
abbrev chainSound (chain : List Segment) : Prop :=
  (∀ g ∈ chain, g.entries ≠ [] ∧ written g ≤ 32) ∧ ∀ g ∈ chain.dropLast, written g = 32

/-- Every job's chain is sound, and its queued entries are the entries of its chain (R25). -/
abbrev chainsSound (s : State) : Prop :=
  ∀ k, chainSound (s.job k).chain ∧ (s.job k).queued = chainEntries (s.job k).chain

/-- No host owns more slots than its JOB_LIMIT (R10). -/
abbrev limitsSound (s : State) : Prop := ∀ h, s.owned h ≤ s.su.settings.jobLimit[h]

/-- The suspension stack holds at most 3 jobs (R52). -/
abbrev stackSound (s : State) : Prop := s.du.stack.length ≤ 3

/-- Every value of the settings record lies in its range (section 8.1). -/
abbrev settingsSound (s : State) : Prop := ∀ n, settingInRange n (settingValue s.su.settings n) = true

/-- The order of work has nothing to do (R77, R78, R79): the link is not at a boundary; or it is IDLE with no reverse request,
no forward work and no stall; or it is WAITING, a stall in progress, with no reverse request and no BREAK entry to take, and
its forward work held off. -/
abbrev nothingToDo (s : State) : Prop :=
  (s.le.link ≠ .idle ∧ s.le.link ≠ .waiting) ∨
    (s.le.link = .idle ∧ s.pins.rreq = false ∧ s.le.abandon = [] ∧ activeHead s = none ∧ s.le.stall = .none ∧
      s.le.stallTimer = none) ∨
    (s.le.link = .waiting ∧ s.pins.rreq = false ∧ (∀ a, activeHead s ≠ some (a, .brk)) ∧ forwardWork s = true ∧
      (s.pins.prdy = false ∨ s.pins.pflt = true) ∧ s.le.stall ≠ .none)

/-- Neither the order of work nor the Dispatch Unit has anything to do about the job in slot `k`: the link is not at a boundary, or
it has nothing to do there and the job is not the active one. -/
abbrev undisturbed (s : State) (k : SlotId) : Prop :=
  (s.le.link ≠ .idle ∧ s.le.link ≠ .waiting) ∨ nothingToDo s ∧ s.du.active ≠ some k

/-- No stall is in progress. -/
abbrev noStall (s : State) : Prop := s.le.stall = .none ∧ s.le.stallTimer = none

/-- No forward work, no reverse request and no stall: a link at a boundary is IDLE (R78, R79). -/
abbrev noWork (s : State) : Prop := s.du.active = none ∧ s.le.abandon = [] ∧ s.pins.rreq = false ∧ noStall s

/-- Forward work can go out at a boundary: no reverse request, PRDY high, PFLT low (R78), and no stall in progress. -/
abbrev forwardOpen (s : State) : Prop :=
  s.pins.rreq = false ∧ s.pins.prdy = true ∧ s.pins.pflt = false ∧ noStall s

/-- From `s` to `t` the chain of the job in slot `k` grew by `es` at its tail, in the segments it had and in as many from the head
of the free list as are needed, and stays sound (R25, R27). -/
abbrev chainGrew (s t : State) (k : SlotId) (es : List Entry) : Prop :=
  chainList (t.job k).chain = chainList (s.job k).chain ++ es ∧
    ((t.job k).chain.map fun g => g.id) =
      ((s.job k).chain.map fun g => g.id) ++ s.sp.free.take (newSegments es.length (s.job k).chain) ∧
    (chainSound (s.job k).chain → chainSound (t.job k).chain)

/-! ## Posts and space waiters -/

/-- Host `h` is a space waiter in `s`, and its allowance in `t` meets the need it recorded (R37). -/
abbrev spaceDue (s t : State) (h : HostId) : Bool := (s.mark h).any fun need => decide (need ≤ allowance t h)

/-- The SPACE record of host `h` where its need is met (R37). -/
abbrev spaceRecords (s t : State) (h : HostId) : List Event := if spaceDue s t h then [plainEvent .space 0] else []

/-- From `s` to `t` each host `h` was posted `posts h`, and after them SPACE where the evaluation of the space waiters finds its
need met; its mark then goes, and every other mark stays (R16, R37, R119). -/
abbrev postedAheadOfSpace (s t : State) (posts : HostId → List Event) : Prop :=
  ∀ h, t.eu h = unitAfter s h (posts h ++ spaceRecords s t h) ∧ t.mark h = if spaceDue s t h then none else s.mark h

/-- The posts that give host `h` these records and no other host any. -/
abbrev postsTo (h : HostId) (es : List Event) : HostId → List Event := fun x => if x = h then es else []

/-- From `s` to `t` the head entry of the job in slot `k` was taken (R26, R28, R37): with entries left, its segment has one more
taken; with none, it leaves the chain for the head of the free list, its owner's used count falls by 1 and the space waiters are
evaluated. After that, host `h` was posted `later h`. -/
abbrev headTaken (s t : State) (k : SlotId) (later : HostId → List Event) : Prop :=
  ∀ g gs, (s.job k).chain = g :: gs →
    (1 < g.entries.length →
      (t.job k).chain = { g with taken := g.taken + 1, entries := g.entries.tail } :: gs ∧ t.sp = s.sp ∧
        ∀ h, t.eu h = unitAfter s h (later h)) ∧
    (g.entries.length = 1 →
      (t.job k).chain = gs ∧
        t.sp = { s.sp with
          free := g.id :: s.sp.free, used := upd s.sp.used (s.job k).owner (s.used (s.job k).owner - 1),
          marks := t.sp.marks } ∧
        ∀ h, t.eu h = unitAfter s h (spaceRecords s t h ++ later h) ∧
          t.mark h = if spaceDue s t h then none else s.mark h)

/-- REPEAT_BROKEN for host `h`, where a CONTROL byte finds a repeat pending and the host is in the LINK group (R105). -/
abbrev brokenRepeat (s : State) (h : HostId) : List Event :=
  if (s.eu h).linkGroup ∧ s.rr.repeats ≠ none then
    [{ kind := .linkProtocol, handle := none, route := none, code := 0x03#8 }]
  else []

/-! ## Answers of the Dispatch Unit (chapter 3) -/

/-- The job in slot `k` may be given the link once it is READY (R43): its priority is 1–7, its channel is unclaimed or claimed by
itself, and it is the channel of no job on the stack nor of the job being pushed, if any. -/
abbrev openTo (s : State) (pushed : Option SlotId) (k : SlotId) : Prop :=
  (s.job k).priority ≠ 0 ∧ (s.claim (s.job k).channel = none ∨ s.claim (s.job k).channel = some k) ∧
    (∀ j ∈ s.du.stack, (s.job j).channel ≠ (s.job k).channel) ∧ ∀ j, pushed = some j → (s.job j).channel ≠ (s.job k).channel

/-- A READY job is a candidate (R43). -/
abbrev candidate (s : State) (pushed : Option SlotId) (k : SlotId) : Prop := (s.job k).state = .ready ∧ openTo s pushed k

/-- The job in slot `k`, the best of the candidates, preempts the active job `a` at a decision (R55, R70). -/
abbrev urgent (s : State) (a k : SlotId) : Prop :=
  recovering s = false ∧ bestAdmissible s (some a) = some k ∧ s.du.stack.length < 3 ∧
    (s.job a).priority < (s.job k).priority ∧ s.su.settings.preemptFloor ≤ (s.job k).priority.val

/-- A job with turn count `turn` has spent its turn budget (R56). -/
abbrev spent (s : State) (turn : Nat) : Prop := s.su.settings.turnBudget ≠ 0 ∧ s.su.settings.turnBudget ≤ turn

/-- The job in slot `k` is a candidate of the priority of the active job `a`, and of another host (R56). -/
abbrev rival (s : State) (a k : SlotId) : Prop :=
  k ∈ s.du.ready ∧ candidate s none k ∧ (s.job k).priority = (s.job a).priority ∧ (s.job k).owner ≠ (s.job a).owner

/-- Of the rivals of `a`, the job in slot `k` is that of the first host counted from the host after the owner of `a`, and of that
host's the earliest (R48, R56). -/
abbrev firstRival (s : State) (a k : SlotId) : Prop :=
  rival s a k ∧ ∀ z, rival s a z →
    turnsAfter (s.job a).owner (s.job k).owner ≤ turnsAfter (s.job a).owner (s.job z).owner ∧
      ((s.job z).owner = (s.job k).owner → s.du.ready.idxOf k ≤ s.du.ready.idxOf z)

/-- At a break point of the active job `a`, its turn count being `turn`, no job preempts it and it does not yield (R55 to R57). -/
abbrev staysOn (s : State) (a : SlotId) (turn : Nat) : Prop :=
  (∀ m, ¬ urgent s a m) ∧ (¬ spent s turn ∨ ∀ m, ¬ rival s a m)

/-- The job in slot `k`, its record now `j`, joins the ready set at the tail with the next ordering number (R6, R12, R47). -/
abbrev joins (s : State) (k : SlotId) (j : Job) : State :=
  { s with
    jm := { s.jm with
      jobs := upd s.jm.jobs k { j with state := .ready, readySeq := some s.jm.nextSeq, seqTaken := some s.jm.nextSeq },
      nextSeq := s.jm.nextSeq + 1 },
    du := { s.du with ready := s.du.ready ++ [k] } }

/-- The READY job in slot `k` takes the link (R49, R50). -/
abbrev takesLink (s : State) (k : SlotId) : State :=
  { s with
    jm := { s.jm with jobs := upd s.jm.jobs k { s.job k with state := .active, turn := 0, readySeq := none } },
    du := { s.du with ready := s.du.ready.erase k, rotation := (s.job k).owner, active := some k } }

/-- The job in slot `z`, the top of the stack, resumes (R61). -/
abbrev resumes (s : State) (z : SlotId) : State :=
  { s with
    jm := { s.jm with jobs := upd s.jm.jobs z { s.job z with state := .active, turn := 0 } },
    du := { s.du with stack := s.du.stack.dropLast, active := some z } }

/-- The active job `a` is pushed onto the stack, its dry wait ended (R53, R55). -/
abbrev suspends (s : State) (a : SlotId) : State :=
  { s with
    jm := { s.jm with jobs := upd s.jm.jobs a { s.job a with state := .suspended } },
    du := { s.du with stack := s.du.stack ++ [a] }, le := { s.le with dryTimer := none } }

/-- The active job `a` returns to the ready set, its dry wait ended, and the job in slot `k` takes the link (R56). -/
abbrev yields (s : State) (a k : SlotId) : State :=
  takesLink { joins s a (s.job a) with le := { s.le with dryTimer := none } } k

/-- Who has the link after the active job has left it (R59, R60). -/
inductive Successor where
  | nobody
  | selected (k : SlotId)
  | resumed (z : SlotId)
deriving DecidableEq, Repr

/-- The job that has the link then. -/
def Successor.holder : Successor → Option SlotId
  | .nobody => none
  | .selected k => some k
  | .resumed z => some z

/-- The leaving decision in `s`, where no job is active, names this successor (R59, R60, R70): nobody in recovery, or with the stack
empty and no candidate; the best of the candidates, with the stack empty or above its top and at the floor; or else the top of the
stack. -/
abbrev leavesTo (s : State) : Successor → Prop
  | .nobody => recovering s = true ∨ s.du.stack = [] ∧ bestAdmissible s none = none
  | .selected k => recovering s = false ∧ bestAdmissible s none = some k ∧
      ∀ top, s.du.stack.getLast? = some top →
        (s.job top).priority < (s.job k).priority ∧ s.su.settings.preemptFloor ≤ (s.job k).priority.val
  | .resumed z => recovering s = false ∧ s.du.stack.getLast? = some z ∧
      ∀ k, bestAdmissible s none = some k →
        (s.job k).priority ≤ (s.job z).priority ∨ (s.job k).priority.val < s.su.settings.preemptFloor

/-- The leaving decision names this successor, which has an entry to send. -/
abbrev followedBy (s : State) (n : Successor) : Prop := leavesTo s n ∧ ∀ z, n.holder = some z → headEntry s z ≠ none

/-- The state `s`, where no job is active, once the successor has the link. -/
abbrev passedTo (s : State) : Successor → State
  | .nobody => s
  | .selected k => takesLink s k
  | .resumed z => resumes s z

/-- What DU does when a job becomes eligible: the rows of the table of R44, and the decision that a dry-wait expiry taken first has
started (R64). -/
inductive Response where
  | waits
  | selected (m : SlotId)
  | preempts (a m : SlotId)
  | decides (n : Successor)
deriving DecidableEq, Repr

/-- The job to which the answer gives the link. -/
def Response.holder : Response → Option SlotId
  | .waits => none
  | .selected m => some m
  | .preempts _ m => some m
  | .decides n => n.holder

/-- DU answers in this way when a job becomes eligible, or an eligible job's priority is raised, which leaves the state `s` (R44, R51,
R64, R70): nothing in recovery, behind an active job that is not in a dry wait or that no job preempts, and with no candidate; with no
job active the best of the candidates is selected; in a dry wait it preempts; and where the expiry of a dry wait that fell together
with the event was taken first, the decision which that leaving started is made. -/
abbrev respondsWith (s : State) : Response → Prop
  | .waits => recovering s = true ∨
      (∃ a, s.du.active = some a ∧ (s.le.dryTimer = none ∨ ∀ m, ¬ urgent s a m)) ∨
      s.du.active = none ∧ s.du.leaving = false ∧ bestAdmissible s none = none
  | .selected m => recovering s = false ∧ s.du.active = none ∧ s.du.leaving = false ∧ bestAdmissible s none = some m
  | .preempts a m => s.du.active = some a ∧ s.le.dryTimer ≠ none ∧ urgent s a m
  | .decides n => recovering s = false ∧ s.du.active = none ∧ s.du.leaving = true ∧ leavesTo s n

/-- The channel of the job in slot `k` is unclaimed or claimed by itself (R43). -/
abbrev openChannel (s : State) (k : SlotId) : Prop :=
  s.claim (s.job k).channel = none ∨ s.claim (s.job k).channel = some k

/-- In `s` the job in slot `k`, which is not the active job, has become READY, or had its priority raised, and DU answers in this way;
where that is no event of R44, which is what `prompts` says, it does nothing. -/
abbrev answersTo (s : State) (k : SlotId) (prompts : Prop) (r : Response) : Prop :=
  s.du.active ≠ some k ∧ (prompts ∧ respondsWith s r ∨ ¬ prompts ∧ r = .waits)

/-- The decision that a dry-wait expiry has started is no longer open (R64). -/
abbrev decided (s : State) : State := { s with du := { s.du with leaving := false } }

/-- The state `s` after DU's answer. -/
abbrev responded (s : State) : Response → State
  | .waits => s
  | .selected m => takesLink s m
  | .preempts a m => takesLink (suspends s a) m
  | .decides n => passedTo (decided s) n

/-- The command is one that can make a job eligible, or raise an eligible job's priority (the events of R44). -/
abbrev canMakeEligible (c : Instr) : Prop :=
  c = .acknowledgement ∨ (∃ h hd kind flags bytes, c = .append h hd kind flags bytes) ∨ (∃ h hd, c = .close h hd) ∨
    ∃ h hd p, c = .setPriority h hd p

/-- In `s`, where the decision that the leaving of job `a` has started is open, the command that waits next makes it (R64, R65; that the
command waiting next is the one that falls together with the expiry is the model's choice, log entry 24). -/
abbrev fallsTogether (s : State) (a : SlotId) : Prop :=
  ∃ c rest u, s.pending = c :: rest ∧ canMakeEligible c ∧ exec c { s with pending := rest } = .next u ∧
    u.du.leaving = false ∧ (u.job a).state = .starved

/-- The claims with that of the job in slot `k`, if it holds one, released (R46). -/
abbrev claimsWithout (s : State) (k : SlotId) : Vector (Option SlotId) 16 :=
  if s.claim (s.job k).channel = some k then upd s.du.claims (s.job k).channel none else s.du.claims

/-! ## What the link does at a boundary -/

/-- The link is up and not at a boundary: what DU decides shows at once, and the link acts on it later (R77). -/
abbrev busyLink (s : State) : Prop := s.le.link = .sending ∨ s.le.link = .reverse

/-- An offer of this byte, no stall being in progress (R73). -/
abbrev offered (s : State) (b : Byte) (kind : ByteKind) (o : Origin) : State :=
  { s with
    le := { s.le with
      link := .sending, ackTimer := some s.su.settings.ackTime, latch := some { byte := b, kind := kind, origin := o } },
    pins := { s.pins with ld := b, lkind := kind, fstb := !s.pins.fstb } }

/-- An offer of a SELECT for channel `c` (R82). -/
abbrev selectOffered (s : State) (c : ChannelId) : State := offered s (BitVec.ofNat 8 (0xE0 + c.val)) .control (.select c)

/-- A granted reverse phase (R99). -/
abbrev granted (s : State) : State :=
  { s with
    le := { s.le with link := .reverse, revIdleTimer := some s.su.settings.revIdle },
    rr := { s.rr with selection := none, repeats := none, orphanPosted := false },
    pins := { s.pins with rgnt := true, ldDriven := false } }

/-- The boundary of a link with a reverse request, which is granted, or else with no work, which is IDLE (R78). -/
abbrev grantedOrIdle (s : State) : State :=
  if s.pins.rreq then granted s else { s with le := { s.le with link := .idle } }

/-- The offer has been acknowledged (R74): the latch is empty and the acknowledge timer stopped. -/
abbrev acknowledged (s : State) : State :=
  { s with le := { s.le with latch := none, ackTimer := none }, pins := { s.pins with fack := !s.pins.fack } }

/-! ## The job table, the Dispatch Unit's structures, the abandon list and the routes -/

/-- The job table (R1, R6, section 1.4): each owned-slot count is the number of slots not FREE of that owner; a FILLING job is
never begun and a CANCELLING job always; the ready sequence of a READY job is the number it took last, below the next. -/
abbrev jobsSound (s : State) : Prop :=
  (∀ h, s.owned h = (allSlots.filter fun k => decide ((s.job k).owner = h) && decide ((s.job k).state ≠ .free)).length) ∧
    ∀ k, ((s.job k).state = .filling → (s.job k).begun = false) ∧ ((s.job k).state = .cancelling → (s.job k).begun = true) ∧
      ((s.job k).state = .ready → (s.job k).readySeq.isSome = true ∧ (s.job k).readySeq = (s.job k).seqTaken ∧
        (s.job k).readySeq.getD 0 < s.jm.nextSeq)

/-- The channel claims (R45): channel `c` is claimed for a job exactly when it is that job's channel and the job is begun and ACTIVE,
SUSPENDED, READY, STARVED or CANCELLING. -/
abbrev claimsSound (s : State) : Prop :=
  ∀ c k, s.claim c = some k ↔ (s.job k).channel = c ∧ (s.job k).begun = true ∧
    ((s.job k).state = .active ∨ (s.job k).state = .suspended ∨ (s.job k).state = .ready ∨ (s.job k).state = .starved ∨
      (s.job k).state = .cancelling)

/-- The ready set (R47): exactly the READY jobs, each once, in the order of their ready sequences. -/
abbrev readySound (s : State) : Prop :=
  s.du.ready.Nodup ∧ (∀ k, k ∈ s.du.ready ↔ (s.job k).state = .ready) ∧
    (s.du.ready.map fun k => (s.job k).readySeq.getD 0).Pairwise (· < ·)

/-- The stack and the active job (R43, R52, R69): the stack holds exactly the SUSPENDED jobs, each once, at most 3, and the active job
is the one ACTIVE job; priorities rise strictly from the bottom of the stack to the active job, which is there while the stack is
not empty and no leaving decision is open; their channels differ, and each is unclaimed or the job's own; in recovery there is
neither stack nor active job. A leaving decision is open only with no job active (R64; log entry 24). -/
abbrev stackAndActiveSound (s : State) : Prop :=
  let line := s.du.stack ++ s.du.active.toList
  s.du.stack.Nodup ∧ s.du.stack.length ≤ 3 ∧ (∀ k, k ∈ s.du.stack ↔ (s.job k).state = .suspended) ∧
    (∀ k, s.du.active = some k ↔ (s.job k).state = .active) ∧
    (s.du.active = none → s.du.leaving = false → s.du.stack = []) ∧ (s.du.leaving = true → s.du.active = none) ∧
    (line.map fun k => (s.job k).priority).Pairwise (· < ·) ∧ (line.map fun k => (s.job k).channel).Nodup ∧
    (∀ k ∈ line, s.claim (s.job k).channel = none ∨ s.claim (s.job k).channel = some k) ∧
    (recovering s = true → s.du.active = none ∧ s.du.stack = [] ∧ s.du.leaving = false)

/-- No candidate is left waiting (R44, R51): with no job active, no leaving decision open and the link up, no READY job is a
candidate. -/
abbrev nobodyLeftWaiting (s : State) : Prop :=
  recovering s = false → s.du.active = none → s.du.leaving = false → ∀ k ∈ s.du.ready, ¬ candidate s none k

/-- The abandon list (R134): exactly the CANCELLING jobs, each once, under their handles and channels, with one entry per channel. -/
abbrev abandonSound (s : State) : Prop :=
  (s.le.abandon.map fun e => e.job.slot).Nodup ∧ (s.le.abandon.map fun e => e.channel).Nodup ∧
    (∀ e ∈ s.le.abandon, e.job = s.handle e.job.slot ∧ (s.job e.job.slot).state = .cancelling ∧
      (s.job e.job.slot).channel = e.channel) ∧
    ∀ k, (s.job k).state = .cancelling → k ∈ s.le.abandon.map fun e => e.job.slot

/-- Routes and jobs (R95, R96, R98, R113): a route has an owner exactly when it is not FREE; the owner names a job by its handle, and
that job names the route; a job's route names that job; and a reply timer runs for a job in AWAIT_REPLY only. -/
abbrev routesSound (s : State) : Prop :=
  (∀ r, (s.route r).state = .free ↔ (s.route r).owner = none) ∧
    (∀ r x, (s.route r).owner = some x →
      x = s.handle x.slot ∧ (s.job x.slot).state ≠ .free ∧ (s.job x.slot).route = some r ∧
        ((s.route r).timer ≠ none → (s.job x.slot).state = .awaitReply)) ∧
    (∀ k r, (s.job k).state ≠ .free → (s.job k).route = some r → (s.route r).owner = some (s.handle k)) ∧
    ∀ r, (s.route r).owner = none → (s.route r).timer = none

/-- The job table, the structures of the Dispatch Unit, the abandon list and the routes agree. -/
abbrev tablesSound (s : State) : Prop :=
  jobsSound s ∧ claimsSound s ∧ readySound s ∧ stackAndActiveSound s ∧ nobodyLeftWaiting s ∧ abandonSound s ∧ routesSound s

end Sys2Proof.Machine
end

