-- ==== Sys2Proof/WellFormed.lean ====
section
/-! DEFINITION. Which terms of Instr are commands that can reach the part: the frame of an APPEND must fit a request frame, and
the frame of a FRAMING_FAULT must be whole and fail the framing check. Every other term is a command. -/

namespace Sys2Proof

/-- An APPEND's LEN is 3 plus its bytes and at most 248 (R166), so it carries at most 245 bytes. -/
def appendFits (bytes : List Byte) : Bool := decide (bytes.length ≤ 245)

/-- The frame of a FRAMING_FAULT has been received whole and the framing check refuses it (R165, R166). -/
def faultyFrameFits (frame : List Byte) : Bool := frameComplete frame && frameFaulty frame

/-- The command can reach the part. -/
def Instr.wellFormed : Instr → Bool
  | .append _ _ _ _ bytes => appendFits bytes
  | .framingFault _ frame => faultyFrameFits frame
  | .partReset | .rstRelease | .poolInitEnd | .lrstPulseEnd | .portReset _ | .hkrstRelease _ | .chipSelectAssert _
  | .chipSelectRelease _ | .ident _ | .last _ | .openJob _ _ _ _ | .close _ _ | .setPriority _ _ _ | .cancel _ _
  | .release _ _ | .jobStatus _ _ | .readReply _ _ _ | .fetchEvent _ | .subscribe _ _ | .leaseTake _ | .leaseDrop _
  | .setSetting _ _ _ _ | .getSetting _ _ _ | .linkStatus _ | .linkReset _ | .acknowledgement | .acknowledgeTimeout
  | .rreqRise | .prdyRise | .prdyFall | .pfltChange | .reverseByte _ _ | .revIdleExpiry | .stallTimerExpiry
  | .dryWaitExpiry | .wakeTimerExpiry | .replyTimerExpiry _ | .leaseTermExpiry | .rreqFall | .answerSent _ => true

end Sys2Proof
end

