-- ==== Sys2Proof/Certificates/Slice0/Obligations.lean ====
section
/-! DEFINITION. The statements for the provers. Each docstring names the part of the spec its statement formalises; where a clause
is the model's own choice it names the log entry. -/

open Sys2Proof Sys2Proof.Machine

/-! ## The step -/

/-- A step runs the command at the front of the queue on the state with the queue's rest; with none waiting the part stays as it
is (the second clause is the model's choice, log entry 3). -/
def Obligations.StepRunsTheFrontCommand : Prop :=
  ∀ s : State,
    (∀ (c : Instr) (rest : List Instr), s.pending = c :: rest → step s = exec c { s with pending := rest }) ∧
    (s.pending = [] → step s = .next s)

/-- Every command has a next state in every state, since the spec gives each an effect, be it none (section 4.3's table, sections
9.2 and 9.7); and it leaves the queue of waiting commands, the model's own field, to the step. -/
def Obligations.EveryCommandHasANextState : Prop :=
  ∀ (c : Instr) (s : State), ∃ t, exec c s = .next t ∧ t.pending = s.pending

/-! ## Framing of requests (section 9.1, sections 10.1 to 10.3) -/

/-- Frames and requests agree (sections 9.1 and 10.3): the frame of a request that can reach the part decodes to that request, and
every whole frame that passes the framing check is the frame of exactly the request it decodes to, which can reach the part. -/
def Obligations.RequestFramesEncodeAndDecode : Prop :=
  (∀ (c : Instr) (h : HostId), requestHost c = some h → c.wellFormed = true →
    ∃ frame, encodeRequest c = some frame ∧ decodeRequest h frame = some c) ∧
  (∀ (h : HostId) (frame : List Byte), frameComplete frame = true → frameFaulty frame = false →
    ∃ c, decodeRequest h frame = some c ∧ requestHost c = some h ∧ c.wellFormed = true ∧ encodeRequest c = some frame)

/-! ## Resets and start-up -/

/-- PART_RESET puts every block into its part-reset state, with no levels of input lines changed (R1, R40, R42, section 4.1, R93,
R95, R117, R150, R156, R178). The commands waiting and the count of free values are the model's own and stay (log entry 8), and no
leaving decision is open (log entry 24). -/
def Obligations.PartResetSetsEveryBlock : Prop :=
  ∀ s : State, ∃ t, exec .partReset s = .next t ∧ t.pending = s.pending ∧ t.draws = s.draws ∧
    (∀ h, t.port h = { framing := .idle, stored := none, detached := true, cs := (s.port h).cs, hrst := (s.port h).hrst }) ∧
    (∀ h, t.eu h =
      { queue := [], lapsed := false, enable := false, linkGroup := false, statusGroup := false, attn := false }) ∧
    (∀ k, (t.job k).state = .free ∧ t.gen k = 0) ∧ (∀ h, t.owned h = 0) ∧
    t.sp.phase = .init ∧ t.sp.initTimer = none ∧ (∀ h, t.used h = 0 ∧ t.mark h = none) ∧
    t.du.ready = [] ∧ t.du.stack = [] ∧ (∀ c, t.claim c = none) ∧ t.du.rotation = 3 ∧ t.du.active = none ∧
    t.du.leaving = false ∧ t.le = {
      link := .resetting, current := none, latch := none, abandon := [], stall := .none, ackTimer := none,
      stallTimer := none, dryTimer := none, wakeTimer := none, revIdleTimer := none, pulseTimer := none,
      lastStatus := none, lastFault := .none } ∧
    (∀ r, t.route r = { state := .free, owner := none, buffer := [], truncated := false, timer := none }) ∧
    t.rr.selection = none ∧ t.rr.repeats = none ∧ t.rr.orphanPosted = false ∧
    t.su = {
      settings := {
        ackTime := 50, stallTime := 100, starveTime := 20, revIdle := 50, replyTime := 50, wakeTime := 20,
        leaseTerm := 20, startThreshold := 64, turnBudget := 4096, preemptFloor := 6,
        jobLimit := #v[8, 8, 8, 8], reserve := #v[32, 32, 32, 32] },
      holder := none, term := none, termLeft := 0, waiters := [] } ∧
    t.pins.rst = true ∧ t.pins.lrst = true ∧ t.pins.fstb = false ∧ t.pins.rgnt = false ∧ t.pins.rack = false ∧
    t.pins.ldDriven = false ∧ t.pins.fack = s.pins.fack ∧ t.pins.rreq = s.pins.rreq ∧ t.pins.rstb = s.pins.rstb ∧
    t.pins.prdy = s.pins.prdy ∧ t.pins.pflt = s.pins.pflt

/-- RST_RELEASE (R40, R93, R94, R176, R178): every port whose HkRST is not asserted attaches, idle and with nothing stored; the
80 µs of the pool and the 100 µs of the pulse start; zero and DATA are driven; nothing else changes. While RST is not asserted
there is nothing to release (log entry 15). -/
def Obligations.RstReleaseStartsThePart : Prop :=
  ∀ s : State,
    (s.pins.rst = true → ∃ t, exec .rstRelease s = .next t ∧
      (∀ h, t.port h = { s.port h with framing := .idle, stored := none, detached := (s.port h).hrst }) ∧
      t = { s with
        ports := t.ports, sp := { s.sp with initTimer := some 80 }, le := { s.le with pulseTimer := some 100 },
        pins := { s.pins with rst := false, ld := 0, lkind := .data, ldDriven := true } }) ∧
    (s.pins.rst = false → exec .rstRelease s = .next s)

/-- POOL_INIT_END (R41): the pool enters READY with all 384 segments free, used counts 0 and no mark, and nothing else changes;
with the default reserves every allowance is 288. Outside the period the event does not arise (log entry 4). -/
def Obligations.PoolInitEndMakesThePoolReady : Prop :=
  ∀ s : State,
    (s.sp.initTimer ≠ none → ∃ t, exec .poolInitEnd s = .next t ∧ t = { s with sp := t.sp } ∧ t.sp.phase = .ready ∧
      t.sp.initTimer = none ∧ t.sp.free.Nodup ∧ t.sp.free.length = 384 ∧ (∀ h, t.used h = 0 ∧ t.mark h = none) ∧
      (s.su.settings.reserve = #v[32, 32, 32, 32] → ∀ h, allowance t h = 288)) ∧
    (s.sp.initTimer = none → exec .poolInitEnd s = .next s)

/-- LRST_PULSE_END and WAKE_TIMER_EXPIRY (R51, R78, R82, R143, R144, R146): at the end of the pulse the link is WAKING with the wake
timer at WAKE_TIME when PRDY is low; with PRDY high it passes WAKING, LINK_UP is posted and the Dispatch Unit selects the best of the
candidates. Then a reverse request is granted; the head abandon entry or the selected job has its SELECT offered; and a link with
nothing to do is IDLE. When the wake timer runs out with PRDY low the link is DOWN and LINK_DOWN is posted. A timer that is not
running does not expire (log entry 4). -/
def Obligations.RecoveryTimersMoveTheLink : Prop :=
  ∀ s : State,
    (s.le.wakeTimer ≠ none → s.pins.prdy = false → ∃ t, exec .wakeTimerExpiry s = .next t ∧
      t = { s with eus := t.eus, le := { s.le with link := .down, wakeTimer := none } } ∧
      postedToLinkGroup s t (plainEvent .linkDown 0)) ∧
    (s.le.wakeTimer = none ∨ s.pins.prdy = true → exec .wakeTimerExpiry s = .next s) ∧
    (s.le.pulseTimer = none → exec .lrstPulseEnd s = .next s) ∧
    (s.le.pulseTimer ≠ none → s.pins.prdy = false → exec .lrstPulseEnd s = .next { s with
      le := { s.le with link := .waking, pulseTimer := none, wakeTimer := some s.su.settings.wakeTime },
      pins := { s.pins with lrst := false } }) ∧
    (∀ r, s.le.pulseTimer ≠ none → s.pins.prdy = true →
      let up : State := { s with
        le := { s.le with link := .idle, pulseTimer := none, wakeTimer := none }, pins := { s.pins with lrst := false } }
      respondsWith up r → (∀ z, r.holder = some z → headEntry s z ≠ none) →
      let after (t : State) : State := responded { up with eus := t.eus } r
      (s.pins.rreq = true →
        ∃ t, exec .lrstPulseEnd s = .next t ∧ postedToLinkGroup s t (plainEvent .linkUp 0) ∧ t = granted (after t)) ∧
      (s.pins.rreq = false → s.le.abandon = [] → noStall s → s.du.active = none → r.holder = none →
        ∃ t, exec .lrstPulseEnd s = .next t ∧ postedToLinkGroup s t (plainEvent .linkUp 0) ∧ t = after t) ∧
      (∀ e es, s.le.abandon = e :: es → forwardOpen s →
        (∀ z, (responded up r).du.active = some z → headEntry s z ≠ some .brk) → s.le.current ≠ some e.channel →
        ∃ t, exec .lrstPulseEnd s = .next t ∧ postedToLinkGroup s t (plainEvent .linkUp 0) ∧
          t = selectOffered (after t) e.channel) ∧
      (∀ m kind b, s.le.abandon = [] → forwardOpen s → r.holder = some m → headEntry s m = some (entryOf kind b) →
        s.le.current ≠ some (s.job m).channel →
        ∃ t, exec .lrstPulseEnd s = .next t ∧ postedToLinkGroup s t (plainEvent .linkUp 0) ∧
          t = selectOffered (after t) (s.job m).channel))

/-! ## Host ports -/

/-- CHIP_SELECT_ASSERT begins a transaction on an attached idle port and on no other; CHIP_SELECT_RELEASE ends one whatever its
phase; ANSWER_SENT takes the port from ANSWER to DRAINING; HKRST_RELEASE attaches the port unless RST is asserted (R164, R167,
R168, R176). Each touches its own port only. A line that does not change its level is no event (log entry 15). -/
def Obligations.PortLinesFrameTransactions : Prop :=
  ∀ (s : State) (h : HostId),
    ((s.port h).cs = false → (s.port h).detached = false → (s.port h).framing = .idle →
      exec (.chipSelectAssert h) s =
        .next { s with ports := upd s.ports h { s.port h with cs := true, framing := .request } }) ∧
    ((s.port h).cs = false → (s.port h).detached = true ∨ (s.port h).framing ≠ .idle →
      exec (.chipSelectAssert h) s = .next { s with ports := upd s.ports h { s.port h with cs := true } }) ∧
    ((s.port h).cs = true → exec (.chipSelectAssert h) s = .next s) ∧
    ((s.port h).cs = true →
      exec (.chipSelectRelease h) s =
        .next { s with ports := upd s.ports h { s.port h with cs := false, framing := .idle } }) ∧
    ((s.port h).cs = false → exec (.chipSelectRelease h) s = .next s) ∧
    (∀ frame, (s.port h).framing = .answer frame →
      exec (.answerSent h) s = .next { s with ports := upd s.ports h { s.port h with framing := .draining } }) ∧
    ((∀ frame, (s.port h).framing ≠ .answer frame) → exec (.answerSent h) s = .next s) ∧
    ((s.port h).hrst = true → exec (.hkrstRelease h) s = .next { s with
      ports := upd s.ports h
        { s.port h with framing := .idle, stored := none, detached := s.pins.rst, hrst := false } }) ∧
    ((s.port h).hrst = false → exec (.hkrstRelease h) s = .next s)

/-- PORT_RESET in every state (R127, R161, R176, R177): port, event unit, mark and lease of the host are dropped, its standing on
the lease falls to the head waiter, and no other port and no setting changes; while HkRST stays asserted nothing happens. -/
def Obligations.PortResetDropsTheHost : Prop :=
  ∀ (s : State) (h : HostId),
    ((s.port h).hrst = true → exec (.portReset h) s = .next s) ∧
    ((s.port h).hrst = false → ∃ t, exec (.portReset h) s = .next t ∧
      t.ports = upd s.ports h { s.port h with framing := .idle, stored := none, detached := true, hrst := true } ∧
      t.eu h = emptyEventUnit ∧ t.mark h = none ∧ t.su.settings = s.su.settings ∧ t.draws = s.draws ∧
      (s.su.holder ≠ some h → t.su = { s.su with waiters := s.su.waiters.filter fun x => decide (x ≠ h) }) ∧
      (s.su.holder = some h → ∀ w ws, (s.su.waiters.filter fun x => decide (x ≠ h)) = w :: ws →
        t.su = { s.su with
          holder := some w, term := some s.su.settings.leaseTerm, termLeft := s.su.settings.leaseTerm * 100, waiters := ws }) ∧
      (s.su.holder = some h → (s.su.waiters.filter fun x => decide (x ≠ h)) = [] →
        t.su = { s.su with holder := none, term := none, termLeft := 0, waiters := [] }))

/-- PORT_RESET and jobs (R21, R22, R39, R67, R149): each ENDED job of the host and each without partial output is gone and its
generation advanced; each partly sent job is CANCELLING and ORPHANED with no entries; a CANCELLING job is ORPHANED; the abandon
entries join in ascending slot order with BY_OWNER; no other slot changes but by the leaving decision that follows where the
active job was the host's; the space waiters of other hosts are evaluated once. A link that is not at a boundary, or has nothing
to do there, stays; an IDLE link starts on the first abandon entry. -/
def Obligations.PortResetEndsOrOrphansTheJobs : Prop :=
  ∀ (s : State) (h : HostId), (s.port h).hrst = false → s.du.ready.Nodup → s.du.stack.Nodup →
    (∀ z ∈ s.du.stack, (s.job z).state = .suspended) →
    let partly := allSlots.filter fun k => decide ((s.job k).owner = h) && partlySent (s.job k)
    let dropped := allSlots.filter fun k => decide ((s.job k).owner = h) &&
      !decide ((s.job k).state ∈ [JobState.free, .ended, .cancelling])
    let entries : List AbandonEntry := s.le.abandon ++ partly.map fun k =>
      { job := s.handle k, channel := (s.job k).channel, cause := .byOwner }
    let du := { s.du with ready := s.du.ready.diff dropped, stack := s.du.stack.diff dropped }
    let became (t u : State) : Prop :=
      (∀ k, (s.job k).owner = h → (s.job k).state ≠ .free → (s.job k).state ≠ .cancelling → partlySent (s.job k) = false →
        (t.job k).state = .free ∧ t.gen k = s.gen k + 1) ∧
      (∀ k, (s.job k).owner = h → partlySent (s.job k) = true →
        t.job k = { s.job k with state := .cancelling, orphaned := true, chain := [], queued := 0 } ∧ t.gen k = s.gen k) ∧
      (∀ k, (s.job k).owner = h → (s.job k).state = .cancelling →
        t.job k = { s.job k with orphaned := true } ∧ t.gen k = s.gen k) ∧
      (∀ k, (s.job k).owner ≠ h ∨ (s.job k).state = .free → t.job k = u.job k ∧ t.gen k = s.gen k) ∧
      (s.su.holder ≠ some h → ∀ x, x ≠ h → t.eu x = unitAfter s x (spaceRecords s t x) ∧
        t.mark x = if spaceDue s t x then none else s.mark x) ∧
      t.du = u.du ∧ t.le = u.le ∧ t.pins = u.pins
    ((∀ a, s.du.active = some a → (s.job a).owner ≠ h) →
      (s.le.link ≠ .idle ∧ s.le.link ≠ .waiting ∨ nothingToDo s ∧ (partly = [] ∨ s.le.link = .waiting) →
        ∃ t, exec (.portReset h) s = .next t ∧ became t { s with du := du, le := { s.le with abandon := entries } }) ∧
      (∀ k, partly.head? = some k → s.le.link = .idle → nothingToDo s → forwardOpen s →
        ∃ t, exec (.portReset h) s = .next t ∧
          (s.le.current = some (s.job k).channel →
            became t (offered { s with du := du, le := { s.le with abandon := entries } } 0xF8#8 .control .abandon)) ∧
          (s.le.current ≠ some (s.job k).channel →
            became t (selectOffered { s with du := du, le := { s.le with abandon := entries } } (s.job k).channel)))) ∧
    (∀ a n, s.du.active = some a → (s.job a).state = .active → (s.job a).owner = h → busyLink s →
      followedBy { s with du := { du with active := none } } n →
      ∃ t, exec (.portReset h) s = .next t ∧
        became t (passedTo
          { s with
            du := { du with active := none }, le := { s.le with abandon := entries, dryTimer := none } } n))

/-- FRAMING_FAULT (R165, R166): a port in REQUEST answers FRAME, in INIT too, stores nothing, and no other state changes. A frame
that is not whole or that passes the check is no fault, and a port that is not listening reads none (log entries 5 and 6). -/
def Obligations.FramingFaultIsAnsweredFrame : Prop :=
  ∀ (s : State) (h : HostId) (frame : List Byte),
    ((s.port h).detached = false → (s.port h).framing = .request → frameComplete frame = true → frameFaulty frame = true →
      ∃ t, exec (.framingFault h frame) s = .next t ∧ answeredUnstored s t h .frame ∧ onlyPortsDiffer s t) ∧
    ((s.port h).detached = true ∨ (s.port h).framing ≠ .request ∨ frameComplete frame = false ∨ frameFaulty frame = false →
      exec (.framingFault h frame) s = .next s)

/-- IDENT (R173): OK with part code 4120h, revision 01h, the port number and the part state, in INIT too; the answer is stored and
nothing else changes. -/
def Obligations.IdentNamesThePart : Prop :=
  ∀ (s : State) (h : HostId), (s.port h).detached = false → (s.port h).framing = .request →
    ∃ t, exec (.ident h) s = .next t ∧ onlyPortsDiffer s t ∧
      answeredWith s t h .ok [0x41#8, 0x20#8, 0x01#8, BitVec.ofNat 8 h.val, if s.sp.phase = .init then 0x00#8 else 0x01#8]

/-- LAST (R172): the stored frame verbatim, or NOT_READY built anew; the stored answer stays and nothing else changes. -/
def Obligations.LastRepeatsTheStoredAnswer : Prop :=
  ∀ (s : State) (h : HostId), (s.port h).detached = false → (s.port h).framing = .request →
    (∀ frame, (s.port h).stored = some frame →
      exec (.last h) s = .next { s with ports := upd s.ports h { s.port h with framing := .answer frame } }) ∧
    ((s.port h).stored = none →
      ∃ t, exec (.last h) s = .next t ∧ answeredUnstored s t h .notReady ∧ onlyPortsDiffer s t)

/-- When a request reaches no block (R164, R170, R176): in INIT every request but IDENT and LAST is answered NOT_READY, which is not
stored; and a port that is detached or not in REQUEST takes none (that such a command then changes nothing is the model's
reading, log entry 5). -/
def Obligations.RequestsReachNoBlockOutsideTheirTime : Prop :=
  ∀ (s : State) (h : HostId) (c : Instr), requestHost c = some h →
    (c ≠ .ident h → c ≠ .last h → (s.port h).detached = false → (s.port h).framing = .request → s.sp.phase = .init →
      ∃ t, exec c s = .next t ∧ answeredUnstored s t h .notReady ∧ onlyPortsDiffer s t) ∧
    ((s.port h).detached = true ∨ (s.port h).framing ≠ .request → exec c s = .next s)

/-- The handle and ownership checks (R3, R4, R169): a request whose handle names no job is answered BAD_JOB ahead of every other
check; of the requests that name a job all but JOB_STATUS are answered NOT_OWNER when they come from another host or the job is
ORPHANED, but for a CANCEL of the lease holder. -/
def Obligations.HandleAndOwnershipAreCheckedFirst : Prop :=
  ∀ (s : State) (h : HostId) (c : Instr) (hd : Byte), requestHost c = some h → requestHandle c = some hd → taking s h →
    ((∀ k, ¬ namesJob s hd k) → refusedWith c s h .badJob) ∧
    (∀ k, c ≠ .jobStatus h hd → (c = .cancel h hd → s.su.holder ≠ some h) → namesJob s hd k →
      (s.job k).owner ≠ h ∨ (s.job k).orphaned = true → refusedWith c s h .notOwner)

/-! ## Jobs (chapter 1) and the segment pool (chapter 2) -/

/-- OPEN accepted (R2, R9, R96): the lowest FREE slot takes a job in FILLING with the given channel, priority and flags, under the
slot's generation; with REPLY the lowest FREE route becomes OPEN for it; the host's owned-slot count rises by 1, the answer
carries handle and route, and nothing else changes. -/
def Obligations.OpenCreatesTheLowestFreeJob : Prop :=
  ∀ (s : State) (h : HostId) (c : ChannelId) (p : Fin 8) (flags : Byte) (k : SlotId), taking s h → flags.toNat < 4 →
    s.owned h < s.su.settings.jobLimit[h] → (s.job k).state = .free → (∀ z < k, (s.job z).state ≠ .free) →
    (flags.getLsbD 1 = false →
      ∃ t, exec (.openJob h (BitVec.ofNat 8 c.val) (BitVec.ofNat 8 p.val) flags) s = .next t ∧
        answeredWith s t h .ok [BitVec.ofNat 8 (32 * (s.gen k).val + k.val), 0xFF#8] ∧
        t = { s with
          ports := t.ports,
          jm := { s.jm with
            jobs := upd s.jm.jobs k (newJob h c p flags none), owned := upd s.jm.owned h (s.owned h + 1) } }) ∧
    (flags.getLsbD 1 = true → ∀ r, (s.route r).state = .free → (∀ z < r, (s.route z).state ≠ .free) →
      ∃ t, exec (.openJob h (BitVec.ofNat 8 c.val) (BitVec.ofNat 8 p.val) flags) s = .next t ∧
        answeredWith s t h .ok [BitVec.ofNat 8 (32 * (s.gen k).val + k.val), BitVec.ofNat 8 r.val] ∧
        t = { s with
          ports := t.ports,
          jm := { s.jm with
            jobs := upd s.jm.jobs k (newJob h c p flags (some r)), owned := upd s.jm.owned h (s.owned h + 1) },
          rr := { s.rr with
            routes := upd s.rr.routes r
              { state := .opened, owner := some { slot := k, gen := s.gen k }, buffer := [], truncated := false,
                timer := none } } })

/-- R8, whole: OPEN is refused with no effect in the first of its four cases that applies, and in no other is it refused. -/
def Obligations.OpenIsRefusedInOrder : Prop :=
  ∀ (s : State) (h : HostId) (channel priority flags : Byte), taking s h →
    let c := Instr.openJob h channel priority flags
    let legal := channel.toNat ≤ 15 ∧ priority.toNat ≤ 7 ∧ flags.toNat < 4
    let room := s.owned h < s.su.settings.jobLimit[h]
    (¬ legal → refusedWith c s h .badArg) ∧
    (legal → s.owned h = s.su.settings.jobLimit[h] → refusedWith c s h .limit) ∧
    (legal → room → (∀ k, (s.job k).state ≠ .free) → refusedWith c s h .noSlot) ∧
    (legal → room → (∃ k, (s.job k).state = .free) → flags.getLsbD 1 = true → (∀ r, (s.route r).state ≠ .free) →
      refusedWith c s h .noRoute) ∧
    (legal → room → (∃ k, (s.job k).state = .free) → (flags.getLsbD 1 = true → ∃ r, (s.route r).state = .free) →
      ∃ t payload, exec c s = .next t ∧ answeredWith s t h .ok payload)

/-- APPEND accepted with nothing to follow (R23, R25, R27, R28, R30, R33): the entries join the tail of the chain, the job's count
rises, the segments they need come from the head of the free list and count for the owner, CLOSE_AFTER marks a READY, SUSPENDED or
ACTIVE job CLOSED, and a dry wait of the job ends (R63), on a WAITING link too. The job is one that the APPEND neither makes READY
nor completes, and the link and the Dispatch Unit have nothing to do about it. CLOSE_AFTER alone on a job that holds no entry and
has not begun ends it DONE (R14), and the answer says so. -/
def Obligations.AppendJoinsTheChain : Prop :=
  ∀ (s : State) (h : HostId) (hd kind flags : Byte) (bytes : List Byte) (k : SlotId),
    let es := appended kind flags bytes
    let j := s.job k
    taking s h → ownHandle s h hd k → appendLegal kind flags bytes → j.closed = false →
    (j.state = .ready ∨ j.state = .suspended ∨ j.state = .active ∨
        (j.state = .filling ∨ j.state = .starved) ∧
          (j.stream = false ∨ j.queued + es.length < s.su.settings.startThreshold) →
      (flags.getLsbD 1 = true →
        j.state = .suspended ∨ j.state = .ready ∧ (j.queued + es.length ≠ 0 ∨ j.begun = true) ∨
          j.state = .active ∧ s.du.active = some k ∧
            (j.chain = [] ∧ es ≠ [] ∨ headEntry s k ≠ none ∨ entryOffered s k = true)) →
      appendHasRoom s h k es.length →
      undisturbed s k ∨
        s.le.link = .waiting ∧ nothingToDo s ∧ (headEntry s k ≠ none ∨ j.chain = [] ∧ es.head? ≠ some .brk) →
      ∃ t, exec (.append h hd kind flags bytes) s = .next t ∧
        answeredWith s t h .ok (jobStateByte j.state :: (big16 (j.queued + es.length) ++ big16 (allowance t h))) ∧
        chainGrew s t k es ∧
        t = { s with
          ports := t.ports,
          jm := { s.jm with
            jobs := upd s.jm.jobs k { j with
              chain := (t.job k).chain, queued := j.queued + es.length, closed := flags.getLsbD 1 } },
          sp := poolTook s h (newSegments es.length j.chain),
          le := { s.le with dryTimer := if j.state = .active then none else s.le.dryTimer } }) ∧
    (flags = 0x02#8 → bytes = [] → j.state = .filling ∨ j.state = .starved ∨ j.state = .ready → j.queued = 0 →
      j.begun = false → j.chain = [] → j.stream = false ∨ s.su.settings.startThreshold ≠ 0 → undisturbed s k →
      ∃ t, exec (.append h hd kind flags bytes) s = .next t ∧
        answeredWith s t h .ok (0x08#8 :: (big16 0 ++ big16 (allowance t h))) ∧ routeAborted s t k ∧
        postedAheadOfSpace s t (postsTo h [endedRecord s k 0x10#8]) ∧
        t = { s with
          ports := t.ports, eus := t.eus,
          jm := { s.jm with jobs := upd s.jm.jobs k (endedJob { j with closed := true } .done .none) },
          sp := { s.sp with marks := t.sp.marks },
          du := { s.du with ready := s.du.ready.erase k },
          rr := { s.rr with routes := t.rr.routes } })

/-- APPEND that makes its job READY (R11, R12, R13, R33, R44): a stream job in FILLING or STARVED that reaches START_THRESHOLD, or
any with CLOSE_AFTER, takes the next ordering number and joins the ready set at the tail; and the Dispatch Unit answers at once:
the job waits, the best of the candidates is selected when no job is active, or preempts one in a dry wait, or the decision is made
that the expiry of a dry wait, taken first, has started (R64). With priority 0 it waits; on a channel claimed by another it prompts
the answer, but is no candidate itself (R43). A job so given an IDLE link has its SELECT offered. -/
def Obligations.AppendMakesItsJobReady : Prop :=
  ∀ (s : State) (h : HostId) (hd kind flags : Byte) (bytes : List Byte) (k : SlotId) (r : Response),
    let es := appended kind flags bytes
    let j := s.job k
    let c := Instr.append h hd kind flags bytes
    taking s h → ownHandle s h hd k → appendLegal kind flags bytes → j.closed = false →
    j.state = .filling ∨ j.state = .starved →
    flags.getLsbD 1 = true ∨ j.stream = true ∧ s.su.settings.startThreshold ≤ j.queued + es.length →
    j.queued + es.length ≠ 0 ∨ j.begun = true → appendHasRoom s h k es.length →
    let joined (t : State) : State :=
      joins { s with ports := t.ports, sp := poolTook s h (newSegments es.length j.chain) } k
        { j with chain := (t.job k).chain, queued := j.queued + es.length, closed := flags.getLsbD 1 }
    let answered (t : State) : Prop :=
      answeredWith s t h .ok
        ((if r.holder = some k then 0x03#8 else 0x02#8) :: (big16 (j.queued + es.length) ++ big16 (allowance t h))) ∧
      chainGrew s t k es
    answersTo (joined s) k (j.priority ≠ 0) r →
    (busyLink s ∨ r.holder = none ∧ nothingToDo s →
      (∀ z, r.holder = some z → headEntry s z ≠ none ∨ z = k ∧ j.chain = [] ∧ es ≠ []) →
      ∃ t, exec c s = .next t ∧ answered t ∧ t = responded (joined t) r) ∧
    (∀ m, r.holder = some m →
      (m = k ∧ j.chain = [] ∧ bytes ≠ [] ∨ ∃ kind b, headEntry s m = some (entryOf kind b)) →
      s.le.link = .idle → nothingToDo s → forwardOpen s → s.le.current ≠ some (s.job m).channel →
      ∃ t, exec c s = .next t ∧ answered t ∧ t = selectOffered (responded (joined t) r) (s.job m).channel)

/-- APPEND in a dry wait on an IDLE link (R26, R33, R37, R45, R63, R77, R82, R84): the wait ends and the link works on at once: the
first byte is taken and offered where the job's channel is current, setting BEGUN and taking the claim if it is the job's first,
and freeing the segment if it is the only entry; and else a SELECT is offered. The counts in the answer are those after the whole
step (log entry 9). -/
def Obligations.AppendInADryWaitIsOffered : Prop :=
  ∀ (s : State) (h : HostId) (hd kind flags b : Byte) (bytes : List Byte) (k : SlotId),
    let es := appended kind flags (b :: bytes)
    let j := s.job k
    let offeredKind : ByteKind := if kind = 0x01#8 then .control else .data
    taking s h → ownHandle s h hd k → appendLegal kind flags (b :: bytes) → flags.getLsbD 1 = false →
    j.closed = false → j.state = .active → s.du.active = some k → j.chain = [] → appendHasRoom s h k es.length →
    s.le.link = .idle → s.le.abandon = [] → forwardOpen s →
    (s.le.current = some j.channel →
      ∃ t, exec (.append h hd kind flags (b :: bytes)) s = .next t ∧
        answeredWith s t h .ok (0x03#8 :: (big16 (j.queued + es.length - 1) ++ big16 (allowance t h))) ∧
        chainList (t.job k).chain = es.tail ∧
        (1 < es.length → t.eus = s.eus ∧ t.sp = poolTook s h (newSegments es.length [])) ∧
        (es.length = 1 → postedAheadOfSpace s t (fun _ => []) ∧ t.sp = { s.sp with marks := t.sp.marks }) ∧
        t = offered
          { s with
            ports := t.ports, eus := t.eus,
            jm := { s.jm with
              jobs := upd s.jm.jobs k { j with
                chain := (t.job k).chain, queued := j.queued + es.length - 1, begun := true } },
            sp := t.sp,
            du := { s.du with claims := if j.begun then s.du.claims else upd s.du.claims j.channel (some k) },
            le := { s.le with dryTimer := none } }
          b offeredKind (.entry (s.handle k))) ∧
    (s.le.current ≠ some j.channel →
      ∃ t, exec (.append h hd kind flags (b :: bytes)) s = .next t ∧
        answeredWith s t h .ok (0x03#8 :: (big16 (j.queued + es.length) ++ big16 (allowance t h))) ∧
        chainGrew s t k es ∧
        t = selectOffered
          { s with
            ports := t.ports,
            jm := { s.jm with
              jobs := upd s.jm.jobs k { j with chain := (t.job k).chain, queued := j.queued + es.length } },
            sp := poolTook s h (newSegments es.length []),
            le := { s.le with dryTimer := none } }
          j.channel)

/-- APPEND refused, in the order of R31 and R32: BAD_ARG for its parameters, BAD_STATE for its job, and NO_SPACE for its need, which
marks the host a space waiter with that need and carries need and allowance; no other effect. -/
def Obligations.AppendIsRefusedInOrder : Prop :=
  ∀ (s : State) (h : HostId) (hd kind flags : Byte) (bytes : List Byte) (k : SlotId), taking s h → ownHandle s h hd k →
    let c := Instr.append h hd kind flags bytes
    let need := newSegments (appended kind flags bytes).length (s.job k).chain
    let spent := (s.job k).closed = true ∨ (s.job k).state = .cancelling ∨ (s.job k).state = .awaitReply ∨
      (s.job k).state = .ended
    (¬ appendLegal kind flags bytes → refusedWith c s h .badArg) ∧
    (appendLegal kind flags bytes → spent → refusedWith c s h .badState) ∧
    (appendLegal kind flags bytes → ¬ spent → allowance s h < need →
      ∃ t, exec c s = .next t ∧ answeredWith s t h .noSpace (BitVec.ofNat 8 need :: big16 (allowance s h)) ∧
        t = { s with ports := t.ports, sp := { s.sp with marks := upd s.sp.marks h (some need) } })

/-- CLOSE (R12, R13, R14, R16, R44, R51, R82, R92): BAD_STATE where it is not possible; a FILLING, STARVED or READY job that is
empty and not begun ends DONE without use of the link, its route ABORTED; a FILLING or STARVED job with something to send becomes
READY, and the Dispatch Unit answers at once, among all the candidates; a READY or SUSPENDED job, and an ACTIVE one with entries
left, is only marked CLOSED; and an ACTIVE job that has run dry completes its transmission, awaiting its reply if its route is
OPEN, and the link passes to its successor. JOB_ENDED stands ahead of the SPACE of any host whose need is met. Whenever a job is so
given an IDLE link, its SELECT is offered. -/
def Obligations.CloseMovesTheJob : Prop :=
  ∀ (s : State) (h : HostId) (hd : Byte) (k : SlotId), taking s h → ownHandle s h hd k →
    let j := s.job k
    let unused := j.queued = 0 ∧ j.begun = false
    let closed := { j with closed := true }
    (j.closed = true ∨ j.state = .cancelling ∨ j.state = .awaitReply ∨ j.state = .ended →
      refusedWith (.close h hd) s h .badState) ∧
    (j.closed = false → j.state = .filling ∨ j.state = .starved ∨ j.state = .ready → unused → j.chain = [] →
      undisturbed s k →
      ∃ t, exec (.close h hd) s = .next t ∧ answeredWith s t h .ok [0x08#8] ∧ routeAborted s t k ∧
        postedAheadOfSpace s t (postsTo h [endedRecord s k 0x10#8]) ∧
        t = { s with
          ports := t.ports, eus := t.eus,
          jm := { s.jm with jobs := upd s.jm.jobs k (endedJob closed .done .none) },
          sp := { s.sp with marks := t.sp.marks },
          du := { s.du with ready := s.du.ready.erase k },
          rr := { s.rr with routes := t.rr.routes } }) ∧
    (j.closed = false → j.state = .filling ∨ j.state = .starved → ¬ unused →
      ∀ r, answersTo (joins s k closed) k (j.priority ≠ 0) r →
        let answered (t : State) : Prop := answeredWith s t h .ok [if r.holder = some k then 0x03#8 else 0x02#8]
        (busyLink s ∨ r.holder = none ∧ nothingToDo s → (∀ z, r.holder = some z → headEntry s z ≠ none) →
          ∃ t, exec (.close h hd) s = .next t ∧ answered t ∧
            t = responded (joins { s with ports := t.ports } k closed) r) ∧
        (∀ m kind b, r.holder = some m → headEntry s m = some (entryOf kind b) → s.le.link = .idle → nothingToDo s →
          forwardOpen s → s.le.current ≠ some (s.job m).channel →
          ∃ t, exec (.close h hd) s = .next t ∧ answered t ∧
            t = selectOffered (responded (joins { s with ports := t.ports } k closed) r) (s.job m).channel)) ∧
    (j.closed = false → nothingToDo s →
      j.state = .suspended ∨ j.state = .ready ∧ ¬ unused ∨
        j.state = .active ∧ s.du.active = some k ∧ (headEntry s k ≠ none ∨ entryOffered s k = true) →
      ∃ t, exec (.close h hd) s = .next t ∧ answeredWith s t h .ok [jobStateByte j.state] ∧
        t = { s with ports := t.ports, jm := { s.jm with jobs := upd s.jm.jobs k closed } }) ∧
    (j.closed = false → j.state = .active → s.du.active = some k → j.chain = [] → j.queued = 0 →
      entryOffered s k = false →
      let left (t : State) (j' : Job) : State := { s with
        ports := t.ports, jm := { s.jm with jobs := upd s.jm.jobs k j' },
        du := { s.du with active := none, claims := claimsWithout s k }, le := { s.le with dryTimer := none } }
      (∀ n, j.route = none → followedBy (left s (endedJob closed .done .none)) n →
        let ended (t : State) : Prop :=
          answeredWith s t h .ok [0x08#8] ∧ postedAheadOfSpace s t (postsTo h [endedRecord s k 0x10#8])
        let passed (t : State) : State := { passedTo (left t (endedJob closed .done .none)) n with
          eus := t.eus, sp := { s.sp with marks := t.sp.marks } }
        (busyLink s ∨ n = .nobody ∧ nothingToDo s →
          ∃ t, exec (.close h hd) s = .next t ∧ ended t ∧ t = passed t) ∧
        (∀ m kind b, n.holder = some m → headEntry s m = some (entryOf kind b) → s.le.link = .idle → nothingToDo s →
          forwardOpen s → s.le.current ≠ some (s.job m).channel →
          ∃ t, exec (.close h hd) s = .next t ∧ ended t ∧ t = selectOffered (passed t) (s.job m).channel)) ∧
      (∀ n r, j.route = some r → (s.route r).state = .opened → followedBy (left s { closed with state := .awaitReply }) n →
        let passed (t : State) : State := { passedTo (left t { closed with state := .awaitReply }) n with
          rr := { s.rr with routes := upd s.rr.routes r { s.route r with timer := some s.su.settings.replyTime } } }
        (busyLink s ∨ n = .nobody ∧ nothingToDo s →
          ∃ t, exec (.close h hd) s = .next t ∧ answeredWith s t h .ok [0x07#8] ∧ t = passed t) ∧
        (∀ m kind b, n.holder = some m → headEntry s m = some (entryOf kind b) → s.le.link = .idle → nothingToDo s →
          forwardOpen s → s.le.current ≠ some (s.job m).channel →
          ∃ t, exec (.close h hd) s = .next t ∧ answeredWith s t h .ok [0x07#8] ∧
            t = selectOffered (passed t) (s.job m).channel)))

/-- SET_PRIORITY (R15, R44): BAD_ARG above 7, BAD_STATE outside FILLING, READY and STARVED; else the priority changes and the
answer is OK with no payload. Nothing else changes where the priority does not rise or the job is not READY; where that of a READY
job rises, the Dispatch Unit answers at once, among all the candidates: the job waits, the best is selected, or preempts a job in a
dry wait, or the decision is made that the expiry of a dry wait, taken first, has started (R64). A job given an IDLE link has its
SELECT offered. The answer is prompted by a raise from 0, and by one of a job whose channel is not claimed by another (R43, R44;
log entry 25). -/
def Obligations.SetPriorityChangesThePriority : Prop :=
  ∀ (s : State) (h : HostId) (hd : Byte) (k : SlotId), taking s h → ownHandle s h hd k →
    let j := s.job k
    let movable := j.state = .filling ∨ j.state = .ready ∨ j.state = .starved
    (∀ priority : Byte, 7 < priority.toNat → refusedWith (.setPriority h hd priority) s h .badArg) ∧
    (∀ p : Fin 8, ¬ movable → refusedWith (.setPriority h hd (BitVec.ofNat 8 p.val)) s h .badState) ∧
    (∀ p : Fin 8, movable →
      let changed (t : State) : State :=
        { s with ports := t.ports, jm := { s.jm with jobs := upd s.jm.jobs k { j with priority := p } } }
      (undisturbed s k → p ≤ j.priority ∨ j.state ≠ .ready →
        ∃ t, exec (.setPriority h hd (BitVec.ofNat 8 p.val)) s = .next t ∧ answeredWith s t h .ok [] ∧ t = changed t) ∧
      (∀ r, j.priority < p → j.state = .ready → answersTo (changed s) k (j.priority = 0 ∨ openChannel s k) r →
        (busyLink s ∨ r.holder = none ∧ nothingToDo s → (∀ z, r.holder = some z → headEntry s z ≠ none) →
          ∃ t, exec (.setPriority h hd (BitVec.ofNat 8 p.val)) s = .next t ∧ answeredWith s t h .ok [] ∧
            t = responded (changed t) r) ∧
        (∀ m kind b, r.holder = some m → headEntry s m = some (entryOf kind b) → s.le.link = .idle → nothingToDo s →
          forwardOpen s → s.le.current ≠ some (s.job m).channel →
          ∃ t, exec (.setPriority h hd (BitVec.ofNat 8 p.val)) s = .next t ∧ answeredWith s t h .ok [] ∧
            t = selectOffered (responded (changed t) r) (s.job m).channel)))

/-- CANCEL of a job that has no partial output on its channel (R16, R35, R66, R97, R129, R130): it leaves the Dispatch Unit, its
chain is freed, its route becomes ABORTED and it ends CANCELLED, with BY_OWNER from its owner and BY_LEASE_HOLDER from another host
that holds the lease; JOB_ENDED goes to its owner, ahead of the SPACE of any host whose need is met; and the link of an ACTIVE one
passes to its successor, whose SELECT is offered on an IDLE link. A CANCELLING or ENDED job is refused BAD_STATE. (That the
discarded chain joins the free list in chain order is the model's choice, log entry 13.) -/
def Obligations.CancelEndsAJobWithoutPartialOutput : Prop :=
  ∀ (s : State) (h : HostId) (hd : Byte) (k : SlotId) (cause : Cause) (code : Byte), taking s h → namesJob s hd k →
    let j := s.job k
    j.orphaned = false →
    j.owner = h ∧ cause = .byOwner ∧ code = 0x31#8 ∨
      j.owner ≠ h ∧ s.su.holder = some h ∧ cause = .byLeaseHolder ∧ code = 0x32#8 →
    (j.state = .cancelling ∨ j.state = .ended → refusedWith (.cancel h hd) s h .badState) ∧
    (j.state ≠ .cancelling → j.state ≠ .ended → partlySent j = false →
      let cancelled (t : State) : State := { s with
        ports := t.ports, eus := t.eus, jm := { s.jm with jobs := upd s.jm.jobs k (endedJob j .cancelled cause) },
        sp := { s.sp with
          free := (j.chain.map fun g => g.id) ++ s.sp.free, used := upd s.sp.used j.owner (s.used j.owner - j.chain.length),
          marks := t.sp.marks },
        du := { s.du with ready := s.du.ready.erase k, stack := s.du.stack.erase k },
        rr := { s.rr with routes := t.rr.routes } }
      let left (t : State) : State := { cancelled t with
        du := { (cancelled t).du with active := none }, le := { s.le with dryTimer := none } }
      let answered (t : State) : Prop := answeredWith s t h .ok [0x08#8] ∧ routeAborted s t k ∧
        postedAheadOfSpace s t (postsTo j.owner [endedRecord s k code])
      (s.du.active ≠ some k → undisturbed s k →
        ∃ t, exec (.cancel h hd) s = .next t ∧ answered t ∧ t = cancelled t) ∧
      (∀ n, s.du.active = some k → followedBy (left s) n →
        (busyLink s → ∃ t, exec (.cancel h hd) s = .next t ∧ answered t ∧ t = passedTo (left t) n) ∧
        (∀ m kind b, n.holder = some m → headEntry s m = some (entryOf kind b) → s.le.link = .idle → nothingToDo s →
          forwardOpen s → s.le.current ≠ some (s.job m).channel →
          ∃ t, exec (.cancel h hd) s = .next t ∧ answered t ∧ t = selectOffered (passedTo (left t) n) (s.job m).channel)))

/-- CANCEL of a partly sent job (R35, R66, R97, R129, R131, R134, R135): it becomes CANCELLING, its chain is freed, its route becomes
ABORTED and its entry joins the tail of the abandon list, with BY_OWNER from its owner and BY_LEASE_HOLDER from another host that
holds the lease; the space waiters are evaluated. On a busy link the link of an ACTIVE job passes to its successor and nothing
else follows; a WAITING link goes on waiting; at an IDLE link the abandon sequence begins at once, with ABANDON where the job's
channel is current and else with its SELECT. (That the discarded chain joins the free list in chain order is the model's choice,
log entry 13.) -/
def Obligations.CancelOfAPartlySentJobJoinsTheAbandonList : Prop :=
  ∀ (s : State) (h : HostId) (hd : Byte) (k : SlotId) (cause : Cause), taking s h → namesJob s hd k →
    let j := s.job k
    j.orphaned = false → j.owner = h ∧ cause = .byOwner ∨ j.owner ≠ h ∧ s.su.holder = some h ∧ cause = .byLeaseHolder →
    partlySent j = true →
    let cancelled (t : State) : State := { s with
      ports := t.ports, eus := t.eus,
      jm := { s.jm with jobs := upd s.jm.jobs k { j with chain := [], queued := 0, state := .cancelling } },
      sp := { s.sp with
        free := (j.chain.map fun g => g.id) ++ s.sp.free, used := upd s.sp.used j.owner (s.used j.owner - j.chain.length),
        marks := t.sp.marks },
      du := { s.du with ready := s.du.ready.erase k, stack := s.du.stack.erase k },
      rr := { s.rr with routes := t.rr.routes },
      le := { s.le with abandon := s.le.abandon ++ [{ job := s.handle k, channel := j.channel, cause := cause }] } }
    let left (t : State) : State := { cancelled t with
      du := { (cancelled t).du with active := none }, le := { (cancelled t).le with dryTimer := none } }
    let answered (t : State) : Prop :=
      answeredWith s t h .ok [0x06#8] ∧ routeAborted s t k ∧ postedAheadOfSpace s t fun _ => []
    (s.du.active ≠ some k → s.le.link ≠ .idle → s.le.link ≠ .waiting ∨ nothingToDo s →
      ∃ t, exec (.cancel h hd) s = .next t ∧ answered t ∧ t = cancelled t) ∧
    (∀ n, s.du.active = some k → busyLink s → followedBy (left s) n →
      ∃ t, exec (.cancel h hd) s = .next t ∧ answered t ∧ t = passedTo (left t) n) ∧
    (s.le.link = .idle → nothingToDo s → forwardOpen s → s.du.active ≠ some k ∨ followedBy (left s) .nobody →
      ∃ t, exec (.cancel h hd) s = .next t ∧ answered t ∧
        (let u := if s.du.active = some k then left t else cancelled t;
          (s.le.current = some j.channel → t = offered u 0xF8#8 .control .abandon) ∧
          (s.le.current ≠ some j.channel → t = selectOffered u j.channel)))

/-- RELEASE (R2, R18, R98): BAD_STATE for a job that has not ENDED; else its slot is FREE with the next generation, its route is
FREE, its owner's owned-slot count falls by 1, and nothing else changes. (What the cleared record holds is the model's: log
entry 12.) -/
def Obligations.ReleaseFreesTheSlot : Prop :=
  ∀ (s : State) (h : HostId) (hd : Byte) (k : SlotId), taking s h → ownHandle s h hd k →
    ((s.job k).state ≠ .ended → refusedWith (.release h hd) s h .badState) ∧
    ((s.job k).state = .ended →
      ∃ t, exec (.release h hd) s = .next t ∧ answeredWith s t h .ok [] ∧ (t.job k).state = .free ∧
        (∀ r, t.route r = if (s.job k).route = some r then
          { state := .free, owner := none, buffer := [], truncated := false, timer := none } else s.route r) ∧
        t = { s with
          ports := t.ports,
          jm := { s.jm with
            jobs := upd s.jm.jobs k (t.job k), gens := upd s.jm.gens k (s.gen k + 1),
            owned := upd s.jm.owned h (s.owned h - 1) },
          rr := { s.rr with routes := t.rr.routes } })

/-- JOB_STATUS (R19, R180): any host is answered the fourteen bytes of any job's record, and nothing else changes. -/
def Obligations.JobStatusReportsTheRecord : Prop :=
  ∀ (s : State) (h : HostId) (hd : Byte) (k : SlotId), taking s h → namesJob s hd k →
    let j := s.job k
    let bit (b : Bool) (n : Nat) : Nat := if b then 2 ^ n else 0
    ∃ t, exec (.jobStatus h hd) s = .next t ∧ onlyPortsDiffer s t ∧
      answeredWith s t h .ok
        ([hd, jobStateByte j.state, BitVec.ofNat 8 j.owner.val, BitVec.ofNat 8 j.channel.val,
          BitVec.ofNat 8 j.priority.val,
          BitVec.ofNat 8 (bit j.stream 0 + bit j.reply 1 + bit j.closed 2 + bit j.begun 3 + bit j.orphaned 4)] ++
          big16 j.queued ++ big32 j.sent.toNat ++
          [match j.route with | none => 0xFF#8 | some r => BitVec.ofNat 8 r.val, endByte j])

/-! ## Replies, events, the lease and the settings (chapters 5, 6 and 8) -/

/-- R115, whole: READ_REPLY is refused with no effect in the first of its four cases that applies; in every job state it is
accepted for a job that has a route, with no bytes too. An accepted one (R116) takes up to its maximum from the head of the
buffer and returns them with the route, its state, TRUNCATED and the number of bytes left; nothing else changes. -/
def Obligations.ReadReplyReturnsTheHeadOrIsRefused : Prop :=
  ∀ (s : State) (h : HostId) (hd maximum : Byte), taking s h →
    let c := Instr.readReply h hd maximum
    let legal := 1 ≤ maximum.toNat ∧ maximum.toNat ≤ 240
    ((∀ k, ¬ namesJob s hd k) → refusedWith c s h .badJob) ∧
    (∀ k, namesJob s hd k →
      ((s.job k).owner ≠ h ∨ (s.job k).orphaned = true → refusedWith c s h .notOwner) ∧
      ((s.job k).owner = h → (s.job k).orphaned = false →
        (¬ legal → refusedWith c s h .badArg) ∧
        (legal → (s.job k).route = none → refusedWith c s h .badState) ∧
        (∀ r, legal → (s.job k).route = some r →
          ∃ t, exec c s = .next t ∧
            answeredWith s t h .ok
              ([BitVec.ofNat 8 r.val, routeStateByte (s.route r).state, if (s.route r).truncated then 0x01#8 else 0x00#8,
                BitVec.ofNat 8 ((s.route r).buffer.length - maximum.toNat)] ++ (s.route r).buffer.take maximum.toNat) ∧
            t = { s with
              ports := t.ports,
              rr := { s.rr with
                routes := upd s.rr.routes r
                  { s.route r with buffer := (s.route r).buffer.drop maximum.toNat } } })))

/-- FETCH_EVENT (R123, R125, R181): the oldest record is answered with the number left and leaves the queue; an empty queue is
answered EMPTY and LAPSED is cleared. The attention line follows, and nothing else changes. -/
def Obligations.FetchEventReturnsTheOldest : Prop :=
  ∀ (s : State) (h : HostId), taking s h →
    (∀ e es, (s.eu h).queue = e :: es →
      ∃ t, exec (.fetchEvent h) s = .next t ∧
        answeredWith s t h .ok
          [eventKindByte e.kind, match e.handle with | none => 0xFF#8 | some x => BitVec.ofNat 8 (32 * x.gen.val + x.slot.val),
            match e.route with | none => 0xFF#8 | some r => BitVec.ofNat 8 r.val, e.code, BitVec.ofNat 8 es.length] ∧
        t = { s with
          ports := t.ports,
          eus := upd s.eus h { s.eu h with
            queue := es, attn := (s.eu h).enable && (decide (es ≠ []) || (s.eu h).lapsed) } }) ∧
    ((s.eu h).queue = [] →
      ∃ t, exec (.fetchEvent h) s = .next t ∧ answeredWith s t h .empty [] ∧
        t = { s with ports := t.ports, eus := upd s.eus h { s.eu h with lapsed := false, attn := false } })

/-- R124, whole: SUBSCRIBE is refused BAD_ARG, with no effect, for a bit outside its three flags; else the three parts of the
subscription take the three flags whatever they were, the attention line follows at once (R125), the answer carries the
subscription, and neither queue, LAPSED nor any other host's unit changes. -/
def Obligations.SubscribeSetsTheSubscription : Prop :=
  ∀ (s : State) (h : HostId) (flags : Byte), taking s h →
    (7 < flags.toNat → refusedWith (.subscribe h flags) s h .badArg) ∧
    (flags.toNat ≤ 7 →
      ∃ t, exec (.subscribe h flags) s = .next t ∧ answeredWith s t h .ok [flags] ∧
        t = { s with
          ports := t.ports,
          eus := upd s.eus h { s.eu h with
            enable := flags.getLsbD 0, linkGroup := flags.getLsbD 1, statusGroup := flags.getLsbD 2,
            attn := flags.getLsbD 0 && (decide ((s.eu h).queue ≠ []) || (s.eu h).lapsed) } })

/-- LEASE_TAKE (R156, R157): granted with no holder and renewed for the holder, the term starting with LEASE_TERM and carried in
ms; from any other host it is answered LEASE_HELD with a remaining term, which within one term never rises from one answer to the
next and in a sound lease is no longer than the term, and with the host's place in the waiter list, which it joins at the tail
unless it is on it. (How far the remaining term has fallen is a free value, and `termLeft` holds the last one: log entry 2.) -/
def Obligations.LeaseTakeGrantsOrQueues : Prop :=
  ∀ (s : State) (h : HostId), taking s h →
    (s.su.holder = none ∨ s.su.holder = some h →
      ∃ t, exec (.leaseTake h) s = .next t ∧ answeredWith s t h .ok (big16 (s.su.settings.leaseTerm * 100)) ∧
        t = { s with
          ports := t.ports
          su := { s.su with
            holder := some h, term := some s.su.settings.leaseTerm, termLeft := s.su.settings.leaseTerm * 100 } }) ∧
    (∀ x, s.su.holder = some x → x ≠ h →
      ∃ t ms, exec (.leaseTake h) s = .next t ∧ ms ≤ s.su.termLeft ∧
        (∀ units, leaseSound s → s.su.term = some units → ms ≤ units * 100) ∧
        (h ∉ s.su.waiters →
          answeredWith s t h .leaseHeld (big16 ms ++ [BitVec.ofNat 8 (s.su.waiters.length + 1)]) ∧
          t = { s with
            ports := t.ports, su := { s.su with termLeft := ms, waiters := s.su.waiters ++ [h] }, draws := t.draws }) ∧
        (h ∈ s.su.waiters →
          answeredWith s t h .leaseHeld (big16 ms ++ [BitVec.ofNat 8 (s.su.waiters.idxOf h + 1)]) ∧
          t = { s with ports := t.ports, su := { s.su with termLeft := ms }, draws := t.draws }))

/-- The end of a holding (R156, R158, R159): LEASE_DROP by the holder, and the expiry of its term, which posts it LEASE_EXPIRED. The
head waiter becomes the holder with a new term and is posted LEASE_GRANTED; with no waiter there is no holder and the timer
stops. LEASE_DROP by a waiter takes it off the list, and by any other host is refused NO_LEASE. (That an expiry with no term
running, or with no holder, changes nothing is the model's reading, log entry 4.) -/
def Obligations.HoldingsEndInHandover : Prop :=
  ∀ (s : State) (h : HostId),
    (taking s h → s.su.holder = some h → s.su.waiters = [] →
      ∃ t, exec (.leaseDrop h) s = .next t ∧ answeredWith s t h .ok [] ∧
        t = { s with ports := t.ports, su := { s.su with holder := none, term := none, termLeft := 0 } }) ∧
    (taking s h → s.su.holder = some h → ∀ w ws, s.su.waiters = w :: ws →
      ∃ t, exec (.leaseDrop h) s = .next t ∧ answeredWith s t h .ok [] ∧
        postedTo s t w (plainEvent .leaseGranted 0) ∧
        t = { s with
          ports := t.ports, eus := t.eus,
          su := { s.su with
            holder := some w, term := some s.su.settings.leaseTerm,
            termLeft := s.su.settings.leaseTerm * 100, waiters := ws } }) ∧
    (taking s h → s.su.holder ≠ some h → h ∈ s.su.waiters →
      ∃ t, exec (.leaseDrop h) s = .next t ∧ answeredWith s t h .ok [] ∧
        t = { s with ports := t.ports, su := { s.su with waiters := s.su.waiters.erase h } }) ∧
    (taking s h → s.su.holder ≠ some h → h ∉ s.su.waiters → refusedWith (.leaseDrop h) s h .noLease) ∧
    (s.su.term ≠ none → s.su.holder = some h → s.su.waiters = [] →
      ∃ t, exec .leaseTermExpiry s = .next t ∧ postedTo s t h (plainEvent .leaseExpired 0) ∧
        t = { s with eus := t.eus, su := { s.su with holder := none, term := none, termLeft := 0 } }) ∧
    (s.su.term ≠ none → s.su.holder = some h → ∀ w ws, s.su.waiters = w :: ws → w ≠ h →
      ∃ t, exec .leaseTermExpiry s = .next t ∧
        (∀ x, t.eu x = unitAfter s x
          (if x = h then [plainEvent .leaseExpired 0] else if x = w then [plainEvent .leaseGranted 0] else [])) ∧
        t = { s with
          eus := t.eus,
          su := { s.su with
            holder := some w, term := some s.su.settings.leaseTerm,
            termLeft := s.su.settings.leaseTerm * 100, waiters := ws } }) ∧
    (s.su.term = none ∨ s.su.holder = none → exec .leaseTermExpiry s = .next s)

/-- SET (R37, R38, R150 to R154): NO_LEASE from any host but the holder, then BAD_ARG for a name or a value outside the tables, then
BAD_STATE for a JOB_LIMIT below what the host owns or reserves that do not fit; else exactly the named value of the record
changes, and the answer carries it. A change of a reserve is followed by an evaluation of the space waiters; nothing else
changes. -/
def Obligations.SetReplacesOneValue : Prop :=
  ∀ (s : State) (h : HostId) (i n : Byte) (v : BitVec 16), taking s h →
    let c := Instr.setSetting h i n v
    (s.su.holder ≠ some h → refusedWith c s h .noLease) ∧
    (s.su.holder = some h → (∀ x, ¬ namesSetting i n x) ∨ ¬ inTableRange i v.toNat → refusedWith c s h .badArg) ∧
    (∀ x, s.su.holder = some h → namesSetting i n x → inTableRange i v.toNat →
      (i.toNat = 11 → v.toNat < s.owned x → refusedWith c s h .badState) ∧
      (i.toNat = 12 → ¬ reserveFits s x v.toNat → refusedWith c s h .badState) ∧
      ((i.toNat = 11 → s.owned x ≤ v.toNat) → (i.toNat = 12 → reserveFits s x v.toNat) →
        ∃ t, exec c s = .next t ∧ answeredWith s t h .ok (i :: n :: big16 v.toNat) ∧
          (∀ i' x', recordValue t.su.settings i' x' =
            if i' = i ∧ (i.toNat ≤ 10 ∨ x' = x) then v.toNat else recordValue s.su.settings i' x') ∧
          (i.toNat = 12 → postedAheadOfSpace s t fun _ => []) ∧
          (i.toNat ≠ 12 → t.eus = s.eus ∧ t.sp.marks = s.sp.marks) ∧
          t = { s with
            ports := t.ports, eus := t.eus, sp := { s.sp with marks := t.sp.marks },
            su := { s.su with settings := t.su.settings } }))

/-- R155, whole: GET from any host is refused BAD_ARG, with no effect, for an unknown identifier, a host number above 3, or one
other than 0 for a setting that is not per host; else it is answered OK with identifier, host number and the value as it
stands, and no state changes. -/
def Obligations.GetReportsTheValue : Prop :=
  ∀ (s : State) (h : HostId) (i n : Byte), taking s h →
    ((i.toNat = 0 ∨ 12 < i.toNat) ∨ 3 < n.toNat ∨ n.toNat ≠ 0 ∧ i.toNat ≤ 10 →
      refusedWith (.getSetting h i n) s h .badArg) ∧
    (∀ x : HostId, 1 ≤ i.toNat → i.toNat ≤ 12 → n.toNat = x.val → (i.toNat ≤ 10 → n.toNat = 0) →
      ∃ t, exec (.getSetting h i n) s = .next t ∧ onlyPortsDiffer s t ∧
        answeredWith s t h .ok (i :: n :: big16 (recordValue s.su.settings i x)))

/-- LINK_STATUS (R174, section 10.3): any host is answered the seventeen bytes of one state of the part, and nothing else
changes. -/
def Obligations.LinkStatusIsASnapshot : Prop :=
  ∀ (s : State) (h : HostId), taking s h → stackSound s →
    let byteOf (k : SlotId) : Byte := BitVec.ofNat 8 (32 * (s.gen k).val + k.val)
    ∃ t, exec (.linkStatus h) s = .next t ∧ onlyPortsDiffer s t ∧
      answeredWith s t h .ok
        ([linkStateByte s.le.link,
          match s.le.current with | none => 0xFF#8 | some c => BitVec.ofNat 8 c.val,
          match s.du.active with | none => 0xFF#8 | some a => byteOf a,
          BitVec.ofNat 8 s.du.stack.length] ++
          s.du.stack.map byteOf ++ List.replicate (3 - s.du.stack.length) 0xFF#8 ++
          [BitVec.ofNat 8 s.le.abandon.length] ++ big16 s.sp.free.length ++ big16 (sharedFree s) ++ big16 (allowance s h) ++
          [match s.le.lastStatus with | none => 0xFF#8 | some n => BitVec.ofNat 8 n.val,
            match s.le.lastFault with | .none => 0x00#8 | .ackTimeout => 0x01#8 | .resetRequested => 0x02#8,
            match s.su.holder with | none => 0xFF#8 | some x => BitVec.ofNat 8 x.val])

/-- The evaluation of the space waiters (R36, R37): each marked host whose need its allowance meets loses its mark and is posted
SPACE; every other mark stays; nothing else changes. -/
def Obligations.EvaluationServesTheSpaceWaiters : Prop :=
  ∀ s : State,
    evaluateSpace s = { s with
      eus := (evaluateSpace s).eus, sp := { s.sp with marks := (evaluateSpace s).sp.marks } } ∧
    ∀ h,
      (∀ need, s.mark h = some need → need ≤ allowance s h →
        (evaluateSpace s).mark h = none ∧ (evaluateSpace s).eu h = unitAfter s h [plainEvent .space 0]) ∧
      (∀ need, s.mark h = some need → allowance s h < need →
        (evaluateSpace s).mark h = s.mark h ∧ (evaluateSpace s).eu h = s.eu h) ∧
      (s.mark h = none → (evaluateSpace s).mark h = none ∧ (evaluateSpace s).eu h = s.eu h)

/-! ## Link reset (chapter 7) -/

/-- LINK_RESET and ACKNOWLEDGE_TIMEOUT (R76, R138, R140, R141, R143): the link is RESETTING with a new pulse, current channel,
latch, abandon list, stall and timers are cleared, claims, stack and active job too (and an open leaving decision, log entry 24),
the ready set keeps the jobs still READY, the lines stand as the table gives, and settings, lease and other ports stay. A
LINK_RESET of a host without the lease is refused NO_LEASE, and an acknowledge timer that is not running does not expire (log entry
4). -/
def Obligations.LinkResetsClearTheLink : Prop :=
  ∀ (s : State),
    (∀ c fault cause, resetsLink c s fault cause →
      ∃ t, exec c s = .next t ∧
        t.le = {
          link := .resetting, current := none, latch := none, abandon := [], stall := .none, ackTimer := none,
          stallTimer := none, dryTimer := none, wakeTimer := none, revIdleTimer := none, pulseTimer := some 100,
          lastStatus := s.le.lastStatus, lastFault := fault } ∧
        t.du = {
          ready := s.du.ready.filter fun k => decide ((t.job k).state = .ready), stack := [],
          claims := Vector.replicate 16 none, rotation := s.du.rotation, active := none, leaving := false } ∧
        t.pins = { s.pins with
          lrst := true, fstb := false, rgnt := false, rack := false, ld := 0, lkind := .data, ldDriven := true } ∧
        t.rr.selection = none ∧ t.rr.repeats = none ∧ t.su = s.su ∧ t.draws = s.draws ∧ t.jm.nextSeq = s.jm.nextSeq ∧
        t.sp.phase = s.sp.phase ∧
        (c = .acknowledgeTimeout → t.ports = s.ports) ∧ (∀ h, c = .linkReset h → answeredWith s t h .ok [])) ∧
    (∀ h, taking s h → s.su.holder ≠ some h → refusedWith (.linkReset h) s h .noLease) ∧
    (s.le.ackTimer = none → exec .acknowledgeTimeout s = .next s)

/-- The fates of the jobs at a link reset (R16, R22, R97, R139, R140, R149): each job the table ends has its outcome and cause, its
chain freed and its route ABORTED, or is released when ORPHANED; every other job is kept as it was; and each host is posted first
LINK_FAULT, if in the LINK group, then the JOB_ENDED records of its jobs in ascending slot order, and last SPACE, if it is a space
waiter whose need is then met. -/
def Obligations.LinkResetsDecideEveryJobsFate : Prop :=
  ∀ (s : State) (c : Instr) (fault : LastFault) (cause : Cause), resetsLink c s fault cause →
    ∃ t, exec c s = .next t ∧
      (∀ k o ca, resetEnds s k cause o ca →
        ((s.job k).orphaned = false → t.job k = endedJob (s.job k) o ca ∧ t.gen k = s.gen k ∧
          ∀ r, (s.job k).route = some r → (∀ z, z ≠ k → (s.job z).route ≠ some r) →
            t.route r = { s.route r with state := .aborted, buffer := [], timer := none }) ∧
        ((s.job k).orphaned = true → (t.job k).state = .free ∧ t.gen k = s.gen k + 1)) ∧
      (∀ k, resetKeeps s k → t.job k = s.job k ∧ t.gen k = s.gen k) ∧
      postedAheadOfSpace s t fun h =>
        (if (s.eu h).linkGroup then
          [{ kind := .linkFault, handle := none, route := none,
             code := if fault = .ackTimeout then 0x01#8 else 0x02#8 }] else []) ++
        allSlots.filterMap fun k =>
          if (s.job k).owner = h ∧ (s.job k).orphaned = false then
            (resetFate s.le.abandon cause (s.handle k) (s.job k)).map fun f =>
              endedRecord s k (outcomeCauseByte f.1 f.2)
          else none

/-! ## The forward link (chapters 3, 4 and 7) -/

/-- ACKNOWLEDGEMENT of a SELECT (R26, R45, R74, R75, R78, R81, R84, R89, R99, R135): the timer stops, the latch empties, the channel
becomes current, and the order of work is applied: a reverse request is granted; forward work that PRDY or PFLT holds off starts
a stall with STALL_TIME; the head abandon entry has ABANDON offered; the active job's next entry is taken and offered, its first
one setting BEGUN and taking the claim; with no work the link is IDLE. With no offer outstanding the change of FACK is ignored. -/
def Obligations.AcknowledgedSelectsMakeTheChannelCurrent : Prop :=
  ∀ (s : State),
    (s.le.latch = none →
      exec .acknowledgement s = .next { s with pins := { s.pins with fack := !s.pins.fack } }) ∧
    (∀ o c, s.le.latch = some o → o.origin = .select c →
      let u : State := { acknowledged s with le := { (acknowledged s).le with current := some c } }
      (s.pins.rreq = true → exec .acknowledgement s = .next (granted u)) ∧
      (noWork s → exec .acknowledgement s = .next { u with le := { u.le with link := .idle } }) ∧
      (s.pins.rreq = false → forwardWork s = true → (∀ a, activeHead s ≠ some (a, .brk)) → noStall s →
        s.pins.prdy = false ∨ s.pins.pflt = true →
        exec .acknowledgement s = .next { u with
          le := { u.le with link := .waiting, stall := .timing, stallTimer := some s.su.settings.stallTime } }) ∧
      (∀ e es, (∀ a, activeHead s ≠ some (a, .brk)) → s.le.abandon = e :: es → e.channel = c → forwardOpen s →
        exec .acknowledgement s = .next (offered u 0xF8#8 .control .abandon)) ∧
      (∀ a kind b, s.du.active = some a → (s.job a).channel = c → s.le.abandon = [] → forwardOpen s →
        headEntry s a = some (entryOf kind b) →
        ∃ t, exec .acknowledgement s = .next t ∧ headTaken s t a (fun _ => []) ∧
          t = offered
            { u with
              eus := t.eus, sp := t.sp,
              jm := { s.jm with
                jobs := upd s.jm.jobs a { s.job a with
                  chain := (t.job a).chain, queued := (s.job a).queued - 1, begun := true } },
              du := { s.du with claims := if (s.job a).begun then s.du.claims else upd s.du.claims c (some a) } }
            b kind (.entry (s.handle a))))

/-- ACKNOWLEDGEMENT of an entry (R6, R26, R54 to R57, R62, R74, R85, R86, R92, R132): the sent and turn counts of the ACTIVE job
rise. Its next entry is taken and offered, or is a BREAK entry that is taken and decided on, for the next entry of the same job,
for the best job that preempts it, or, its turn budget spent, for the first of its rivals. The last entry of a CLOSED job completes
it: it ends DONE with no route or a COMPLETE one, or awaits its reply, and the link passes to its successor. The last entry of a
stream job not CLOSED starts the dry wait, in which the best job preempts it, or the first rival has its turn. Of a CANCELLING job
only the sent count rises, the abandon sequence following. -/
def Obligations.AcknowledgedEntriesAreCounted : Prop :=
  ∀ (s : State) (o : Offer) (x : Handle), s.le.latch = some o → o.origin = .entry x →
    let k := x.slot
    let j := s.job k
    let counted := { j with sent := j.sent + 1, turn := if j.turn < 65535 then j.turn + 1 else j.turn }
    let u (j' : Job) : State := { acknowledged s with jm := { s.jm with jobs := upd s.jm.jobs k j' } }
    (j.state = .active → s.du.active = some k → j.begun = true → s.le.current = some j.channel → s.le.abandon = [] →
      forwardOpen s →
      (∀ kind b, headEntry s k = some (entryOf kind b) →
        ∃ t, exec .acknowledgement s = .next t ∧ headTaken s t k (fun _ => []) ∧
          t = offered
            { u { counted with chain := (t.job k).chain, queued := j.queued - 1 } with eus := t.eus, sp := t.sp }
            b kind (.entry (s.handle k))) ∧
      (∀ g gs kind b e es, j.chain = g :: gs → g.entries = .brk :: entryOf kind b :: e :: es →
        staysOn s k counted.turn →
        exec .acknowledgement s = .next
          (offered
            (u { counted with chain := { g with taken := g.taken + 2, entries := e :: es } :: gs, queued := j.queued - 2 })
            b kind (.entry (s.handle k)))) ∧
      (∀ g gs e es m kind b, j.chain = g :: gs → g.entries = .brk :: e :: es → headEntry s m = some (entryOf kind b) →
        let v := u { counted with
          chain := { g with taken := g.taken + 1, entries := e :: es } :: gs, queued := j.queued - 1 }
        (urgent s k m → exec .acknowledgement s = .next (selectOffered (takesLink (suspends v k) m) (s.job m).channel)) ∧
        ((∀ z, ¬ urgent s k z) → spent s counted.turn → firstRival s k m → s.le.current ≠ some (s.job m).channel →
          recovering s = false →
          exec .acknowledgement s = .next (selectOffered (yields v k m) (s.job m).channel)))) ∧
    (j.state = .active → s.du.active = some k → j.chain = [] → j.queued = 0 →
      let left (j' : Job) : State := { u j' with
        du := { s.du with active := none, claims := claimsWithout s k },
        le := { (u j').le with dryTimer := none } }
      let unheld (n : Successor) : Prop := s.pins.rreq = true ∨ n = .nobody ∧ s.le.abandon = [] ∧ noStall s
      (∀ n, j.closed = true → j.route = none ∨ (∃ r, j.route = some r ∧ (s.route r).state = .complete) →
        j.orphaned = false → followedBy (left (endedJob counted .done .none)) n → unheld n →
        ∃ t, exec .acknowledgement s = .next t ∧ postedAheadOfSpace s t (postsTo j.owner [endedRecord s k 0x10#8]) ∧
          (∀ r, t.route r = if j.route = some r then { s.route r with timer := none } else s.route r) ∧
          t = grantedOrIdle { passedTo (left (endedJob counted .done .none)) n with
            eus := t.eus, sp := { s.sp with marks := t.sp.marks }, rr := { s.rr with routes := t.rr.routes } }) ∧
      (∀ n r, j.closed = true → j.route = some r → (s.route r).state = .opened →
        followedBy (left { counted with state := .awaitReply }) n → unheld n →
        exec .acknowledgement s = .next (grantedOrIdle { passedTo (left { counted with state := .awaitReply }) n with
          rr := { s.rr with
            routes := upd s.rr.routes r { s.route r with timer := some s.su.settings.replyTime } } })) ∧
      (j.closed = false → j.stream = true →
        (staysOn s k counted.turn → unheld .nobody →
          exec .acknowledgement s = .next (grantedOrIdle { u counted with
            le := { (u counted).le with dryTimer := some s.su.settings.starveTime } })) ∧
        (∀ m, headEntry s m ≠ none → s.pins.rreq = true →
          (urgent s k m → exec .acknowledgement s = .next (granted (takesLink (suspends (u counted) k) m))) ∧
          ((∀ z, ¬ urgent s k z) → spent s counted.turn → firstRival s k m → recovering s = false →
            exec .acknowledgement s = .next (granted (yields (u counted) k m)))))) ∧
    (∀ e es, j.state = .cancelling → (∀ a, activeHead s ≠ some (a, .brk)) → s.le.abandon = e :: es →
      s.le.current = some e.channel → forwardOpen s →
      exec .acknowledgement s = .next (offered (u { j with sent := j.sent + 1 }) 0xF8#8 .control .abandon))

/-- ACKNOWLEDGEMENT of ABANDON (R16, R22, R44, R46, R136): the head entry leaves the abandon list, its channel's claim is released and
its job ends CANCELLED with the cause the entry holds, JOB_ENDED ahead of the SPACE of any host whose need is met, or is released
with no event when ORPHANED. Then the next entry's turn comes, or the link is IDLE. Where a READY job on the released channel has
become eligible, the Dispatch Unit answers at once, among all the candidates: it waits, selects the best, whose first entry follows
where the link is open, preempts a job in a dry wait, or makes the decision that the expiry of one, taken first, has started (R64).
(The job has no chain, as every CANCELLING job.) -/
def Obligations.AcknowledgedAbandonEndsTheJob : Prop :=
  ∀ (s : State) (o : Offer) (e : AbandonEntry) (rest : List AbandonEntry), s.le.latch = some o → o.origin = .abandon →
    s.le.abandon = e :: rest → (s.job e.job.slot).chain = [] →
    let k := e.job.slot
    let j := s.job k
    let alone := s.du.active = none ∧ ∀ m ∈ s.du.ready, (s.job m).channel = e.channel →
      (s.job m).state ≠ .ready ∨ (s.job m).priority = 0
    (j.orphaned = false →
      let u (t : State) : State := { acknowledged s with
        eus := t.eus, jm := { s.jm with jobs := upd s.jm.jobs k (endedJob j .cancelled e.cause) },
        sp := { s.sp with marks := t.sp.marks },
        du := { s.du with claims := upd s.du.claims e.channel none },
        le := { (acknowledged s).le with abandon := rest },
        rr := { s.rr with routes := t.rr.routes } }
      let served (t : State) : Prop :=
        postedAheadOfSpace s t (postsTo j.owner [endedRecord s k (outcomeCauseByte .cancelled e.cause)]) ∧
        ∀ r, t.route r = if j.route = some r then { s.route r with timer := none } else s.route r
      (alone → s.pins.rreq = false → noStall s →
        (rest = [] →
          ∃ t, exec .acknowledgement s = .next t ∧ served t ∧ t = { u t with le := { (u t).le with link := .idle } }) ∧
        (∀ e' es', rest = e' :: es' → s.le.current ≠ some e'.channel → s.pins.prdy = true → s.pins.pflt = false →
          ∃ t, exec .acknowledgement s = .next t ∧ served t ∧ t = selectOffered (u t) e'.channel)) ∧
      (∀ p r, p ∈ s.du.ready → p ≠ k → (s.job p).state = .ready → (s.job p).channel = e.channel → (s.job p).priority ≠ 0 →
        respondsWith (u s) r → (∀ z, r.holder = some z → headEntry s z ≠ none) →
        (s.pins.rreq = true →
          ∃ t, exec .acknowledgement s = .next t ∧ served t ∧ t = granted (responded (u t) r)) ∧
        (∀ m g gs kind b e' es, r.holder = some m → (s.job m).channel = e.channel → (s.job m).begun = false →
          (s.job m).chain = g :: gs → g.entries = entryOf kind b :: e' :: es → rest = [] → s.le.current = some e.channel →
          forwardOpen s →
          ∃ t, exec .acknowledgement s = .next t ∧ served t ∧
            (let v := responded (u t) r;
              t = offered
                { v with
                  jm := { v.jm with
                    jobs := upd v.jm.jobs m { v.job m with
                      begun := true, queued := (s.job m).queued - 1,
                      chain := { g with taken := g.taken + 1, entries := e' :: es } :: gs } },
                  du := { v.du with claims := upd v.du.claims e.channel (some m) } }
                b kind (.entry (s.handle m)))))) ∧
    (j.orphaned = true → alone → rest = [] → s.pins.rreq = false → noStall s →
      ∃ t, exec .acknowledgement s = .next t ∧ (t.job k).state = .free ∧
        (∀ r, t.route r = if j.route = some r then
          { state := .free, owner := none, buffer := [], truncated := false, timer := none } else s.route r) ∧
        postedAheadOfSpace s t (fun _ => []) ∧
        t = { acknowledged s with
          eus := t.eus,
          jm := { s.jm with
            jobs := upd s.jm.jobs k (t.job k), gens := upd s.jm.gens k (s.gen k + 1),
            owned := upd s.jm.owned j.owner (s.owned j.owner - 1) },
          sp := { s.sp with marks := t.sp.marks },
          du := { s.du with claims := upd s.du.claims e.channel none }, rr := { s.rr with routes := t.rr.routes },
          le := { (acknowledged s).le with link := .idle, abandon := [] } })

/-- RREQ_RISE, RREQ_FALL, PRDY_FALL and PFLT_CHANGE (R77, R80, R88, R99): a rise of RREQ in IDLE or WAITING is granted a reverse
phase; a fall of PFLT in WAITING, PRDY being high, lets the head abandon entry out and ends the stall (R90); elsewhere, and
where no work waits on it, only the level changes. A line that stands at its new level is no event (log entry 15). -/
def Obligations.LineLevelsAreReadAtBoundaries : Prop :=
  ∀ (s : State),
    (s.pins.rreq = true → exec .rreqRise s = .next s) ∧
    (s.pins.rreq = false → s.le.link = .idle ∨ s.le.link = .waiting →
      exec .rreqRise s = .next { s with
        le := { s.le with link := .reverse, revIdleTimer := some s.su.settings.revIdle },
        rr := { s.rr with selection := none, repeats := none, orphanPosted := false },
        pins := { s.pins with rreq := true, rgnt := true, ldDriven := false } }) ∧
    (s.pins.rreq = false → s.le.link ≠ .idle → s.le.link ≠ .waiting →
      exec .rreqRise s = .next { s with pins := { s.pins with rreq := true } }) ∧
    (s.pins.rreq = false → exec .rreqFall s = .next s) ∧
    (s.pins.rreq = true → s.le.link ≠ .idle → s.le.link ≠ .waiting →
      exec .rreqFall s = .next { s with pins := { s.pins with rreq := false } }) ∧
    (s.pins.prdy = false → exec .prdyFall s = .next s) ∧
    (s.pins.prdy = true → nothingToDo s → exec .prdyFall s = .next { s with pins := { s.pins with prdy := false } }) ∧
    (nothingToDo s → s.le.link ≠ .waiting ∨ s.pins.prdy = false ∨ s.pins.pflt = false →
      exec .pfltChange s = .next { s with pins := { s.pins with pflt := !s.pins.pflt } }) ∧
    (∀ e es, s.le.link = .waiting → s.pins.rreq = false → s.pins.prdy = true → s.pins.pflt = true → s.du.active = none →
      s.le.abandon = e :: es → s.le.current = some e.channel →
      ∃ t, exec .pfltChange s = .next t ∧
        (s.le.stall = .reported → postedToLinkGroup s t (plainEvent .linkStall 0)) ∧
        (s.le.stall ≠ .reported → t.eus = s.eus) ∧
        t = { s with
          eus := t.eus,
          le := { s.le with
            link := .sending, ackTimer := some s.su.settings.ackTime, stall := .none, stallTimer := none,
            latch := some { byte := 0xF8#8, kind := .control, origin := .abandon } },
          pins := { s.pins with pflt := false, ld := 0xF8#8, lkind := .control, fstb := !s.pins.fstb } })

/-- PRDY_RISE (R26, R37, R51, R70, R77, R80, R82, R88, R90, R144 to R146): in DOWN a new pulse starts; in WAKING the link enters
IDLE, LINK_UP is posted and the best of the candidates is made ACTIVE, a reverse request being granted or the job's SELECT offered;
in WAITING held work goes out and the stall ends; elsewhere, and where no work waits on it, only the level changes. (That a command
which finds PRDY high changes nothing is the model's reading, log entry 15; that a SPACE the taken entry brings stands ahead of the
LINK_STALL is the model's choice, log entry 10.) -/
def Obligations.PrdyRiseResumesTheLink : Prop :=
  ∀ (s : State),
    let risen : State := { s with pins := { s.pins with prdy := true } }
    (s.pins.prdy = true → exec .prdyRise s = .next s) ∧
    (s.pins.prdy = false →
      (s.le.link = .resetting ∨ s.le.link = .sending ∨ s.le.link = .reverse ∨ s.le.link = .idle ∧ nothingToDo s ∨
          s.le.link = .waiting ∧ nothingToDo s ∧ s.pins.pflt = true →
        exec .prdyRise s = .next risen) ∧
      (s.le.link = .down → exec .prdyRise s = .next { s with
        le := { s.le with link := .resetting, pulseTimer := some 100 },
        pins := { s.pins with prdy := true, lrst := true, fstb := false, rgnt := false, rack := false } }) ∧
      (∀ r, s.le.link = .waking →
        let up : State := { risen with le := { s.le with link := .idle, wakeTimer := none } }
        respondsWith up r → (∀ z, r.holder = some z → headEntry s z ≠ none) →
        let after (t : State) : State := responded { up with eus := t.eus } r
        (s.pins.rreq = true →
          ∃ t, exec .prdyRise s = .next t ∧ postedToLinkGroup s t (plainEvent .linkUp 0) ∧ t = granted (after t)) ∧
        (s.pins.rreq = false → s.le.abandon = [] → noStall s → s.du.active = none → r.holder = none →
          ∃ t, exec .prdyRise s = .next t ∧ postedToLinkGroup s t (plainEvent .linkUp 0) ∧ t = after t) ∧
        (∀ m kind b, s.le.abandon = [] → s.pins.rreq = false → s.pins.pflt = false → noStall s → r.holder = some m →
          headEntry s m = some (entryOf kind b) → s.le.current ≠ some (s.job m).channel →
          ∃ t, exec .prdyRise s = .next t ∧ postedToLinkGroup s t (plainEvent .linkUp 0) ∧
            t = selectOffered (after t) (s.job m).channel)) ∧
      (∀ a kind b, s.le.link = .waiting → s.pins.rreq = false → s.pins.pflt = false → s.le.abandon = [] →
        s.du.active = some a → headEntry s a = some (entryOf kind b) → (s.job a).begun = true →
        s.le.current = some (s.job a).channel →
        ∃ t, exec .prdyRise s = .next t ∧
          headTaken s t a (fun h =>
            if s.le.stall = .reported ∧ (s.eu h).linkGroup = true then [plainEvent .linkStall 0] else []) ∧
          t = offered
            { risen with
              eus := t.eus, sp := t.sp,
              jm := { s.jm with
                jobs := upd s.jm.jobs a { s.job a with chain := (t.job a).chain, queued := (s.job a).queued - 1 } },
              le := { s.le with stall := .none, stallTimer := none } }
            b kind (.entry (s.handle a))))

/-- STALL_TIMER_EXPIRY and REV_IDLE_EXPIRY (R89, R99, R101): a stall is REPORTED and LINK_STALL code 1 posted to the LINK group; a
silent reverse phase ends, RGNT falls, the data lines are driven, LINK_PROTOCOL REV_TIMEOUT is posted, and a link without work
is IDLE, or granted anew while RREQ is high. A timer that is not running does not expire (log entry 4). -/
def Obligations.StallsAndSilentPhasesAreReported : Prop :=
  ∀ (s : State),
    (s.le.stallTimer = none → exec .stallTimerExpiry s = .next s) ∧
    (s.le.stallTimer ≠ none →
      ∃ t, exec .stallTimerExpiry s = .next t ∧ postedToLinkGroup s t (plainEvent .linkStall 1) ∧
        t = { s with eus := t.eus, le := { s.le with stall := .reported, stallTimer := none } }) ∧
    (s.le.revIdleTimer = none → exec .revIdleExpiry s = .next s) ∧
    (s.le.revIdleTimer ≠ none → noWork s →
      ∃ t, exec .revIdleExpiry s = .next t ∧ postedToLinkGroup s t (plainEvent .linkProtocol 0x04#8) ∧
        t = { s with
          eus := t.eus, le := { s.le with link := .idle, revIdleTimer := none },
          rr := { s.rr with selection := none, repeats := none },
          pins := { s.pins with rgnt := false, ldDriven := true } }) ∧
    (s.le.revIdleTimer ≠ none → s.pins.rreq = true →
      ∃ t, exec .revIdleExpiry s = .next t ∧ postedToLinkGroup s t (plainEvent .linkProtocol 0x04#8) ∧
        t = { s with
          eus := t.eus, le := { s.le with link := .reverse, revIdleTimer := some s.su.settings.revIdle },
          rr := { s.rr with selection := none, repeats := none, orphanPosted := false },
          pins := { s.pins with rgnt := true, ldDriven := false } })

/-- DRY_WAIT_EXPIRY and REPLY_TIMER_EXPIRY (R16, R59 to R61, R64, R65, R97, R114): a job whose dry wait runs out is STARVED, leaves
the link and is posted JOB_STARVED, and the link passes to its successor, whose SELECT is offered on an IDLE link. Where the expiry
is taken first and an event falls together with it that makes a job eligible or raises an eligible job's priority, the decision is
left to that event, which judges the job in it: shown with SET_PRIORITY, and told of the other events where they are stated. (That
the command which waits next is the one that falls together with the expiry is the model's choice, log entry 24.) A job whose reply
does not come ends FAILED with REPLY_TIMEOUT, its route ABORTED, and is posted JOB_ENDED, ahead of the SPACE of any host whose need
is met. A timer that is not running does not expire (log entry 4). -/
def Obligations.DryWaitsAndRepliesRunOut : Prop :=
  ∀ (s : State),
    (s.le.dryTimer = none ∨ s.du.active = none → exec .dryWaitExpiry s = .next s) ∧
    (∀ a, s.le.dryTimer ≠ none → s.du.active = some a →
      let j := s.job a
      let notice : Event := { kind := .jobStarved, handle := some (s.handle a), route := j.route, code := 0 }
      let left : State := { s with
        eus := upd s.eus j.owner (takePost (s.port j.owner).detached notice (s.eu j.owner)),
        jm := { s.jm with jobs := upd s.jm.jobs a { j with state := .starved } },
        du := { s.du with active := none }, le := { s.le with dryTimer := none } }
      let opened : State := { left with du := { left.du with leaving := true } }
      (∀ n, ¬ fallsTogether opened a → followedBy left n →
        (busyLink s ∨ n = .nobody ∧ j.chain = [] ∧ nothingToDo s → exec .dryWaitExpiry s = .next (passedTo left n)) ∧
        (∀ m kind b, n.holder = some m → headEntry s m = some (entryOf kind b) → s.le.link = .idle → j.chain = [] →
          nothingToDo s → forwardOpen s → s.le.current ≠ some (s.job m).channel →
          exec .dryWaitExpiry s = .next (selectOffered (passedTo left n) (s.job m).channel))) ∧
      (fallsTogether opened a → busyLink s ∨ j.chain = [] ∧ nothingToDo s → exec .dryWaitExpiry s = .next opened) ∧
      (∀ h hd k n rest, ∀ p : Fin 8, s.pending = .setPriority h hd (BitVec.ofNat 8 p.val) :: rest → taking s h →
        ownHandle s h hd k → k ≠ a → (s.job k).state = .ready → (s.job k).priority < p → j.chain = [] →
        let raised (t : State) : State := { left with
          pending := rest, ports := t.ports, jm := { left.jm with jobs := upd left.jm.jobs k { s.job k with priority := p } } }
        (s.job k).priority = 0 ∨ openChannel s k → followedBy (raised s) n → busyLink s →
        exec .dryWaitExpiry s = .next opened ∧
          ∃ t, step opened = .next t ∧ answeredWith s t h .ok [] ∧ t = passedTo (decided (raised t)) n)) ∧
    (∀ r, (s.route r).timer = none ∨ (s.route r).owner = none → exec (.replyTimerExpiry r) s = .next s) ∧
    (∀ r x, (s.route r).timer ≠ none → (s.route r).owner = some x → (s.job x.slot).route = some r →
      (s.job x.slot).orphaned = false → (s.job x.slot).chain = [] →
      ∃ t, exec (.replyTimerExpiry r) s = .next t ∧
        postedAheadOfSpace s t (postsTo (s.job x.slot).owner [endedRecord s x.slot 0x25#8]) ∧
        t = { s with
          eus := t.eus, jm := { s.jm with jobs := upd s.jm.jobs x.slot (endedJob (s.job x.slot) .failed .replyTimeout) },
          sp := { s.sp with marks := t.sp.marks },
          rr := { s.rr with
            routes := upd s.rr.routes r { s.route r with state := .aborted, buffer := [], timer := none } } })

/-! ## Reverse phases (chapter 5) -/

/-- REVERSE_BYTE with a DATA byte (R100, R105, R106, R107, R113): the pending repeat is used up and the byte acknowledged; an OPEN
route stores the copies that fit in 256 bytes, TRUNCATED telling of the others, restarts its reply timer, and from empty posts
REPLY_ARRIVED to the job's owner; an ABORTED route discards in silence; with no route selected, or one FREE or COMPLETE, the
byte is discarded with one ORPHAN notice a phase. With no phase granted a byte of either kind is ignored. -/
def Obligations.ReverseDataReachesTheSelectedRoute : Prop :=
  ∀ (s : State) (b : Byte),
    (∀ kind, s.le.link ≠ .reverse →
      exec (.reverseByte kind b) s = .next { s with pins := { s.pins with rstb := !s.pins.rstb } }) ∧
    (s.le.link = .reverse →
      let le := { s.le with revIdleTimer := some s.su.settings.revIdle }
      let pins := { s.pins with rstb := !s.pins.rstb, rack := !s.pins.rack }
      let stray := s.rr.selection = none ∨
        ∃ r, s.rr.selection = some r ∧ ((s.route r).state = .free ∨ (s.route r).state = .complete)
      (stray → s.rr.orphanPosted = true → exec (.reverseByte .data b) s = .next { s with
        le := le, rr := { s.rr with repeats := none }, pins := pins }) ∧
      (stray → s.rr.orphanPosted = false →
        ∃ t, exec (.reverseByte .data b) s = .next t ∧
          postedToLinkGroup s t { kind := .linkProtocol, handle := none, route := s.rr.selection, code := 0x02#8 } ∧
          t = { s with
            eus := t.eus, le := le, rr := { s.rr with repeats := none, orphanPosted := true }, pins := pins }) ∧
      (∀ r, s.rr.selection = some r → (s.route r).state = .aborted →
        exec (.reverseByte .data b) s = .next { s with
          le := le, rr := { s.rr with repeats := none }, pins := pins }) ∧
      (∀ r copies, s.rr.selection = some r → (s.route r).state = .opened → (s.route r).buffer.length ≤ 256 →
        s.rr.repeats = none ∧ copies = 1 ∨ s.rr.repeats = some copies ∧ 1 ≤ copies →
        ∃ t, exec (.reverseByte .data b) s = .next t ∧
          ((s.route r).buffer ≠ [] → t.eus = s.eus) ∧
          (∀ x, (s.route r).buffer = [] → (s.route r).owner = some x → (s.job x.slot).orphaned = false →
            postedTo s t (s.job x.slot).owner
              { kind := .replyArrived, handle := some x, route := some r, code := 0 }) ∧
          t = { s with
            eus := t.eus, le := le, pins := pins,
            rr := { s.rr with
              repeats := none,
              routes := upd s.rr.routes r { s.route r with
                buffer := ((s.route r).buffer ++ List.replicate copies b).take 256,
                truncated := (s.route r).truncated || decide (256 < (s.route r).buffer.length + copies),
                timer := (s.route r).timer.map fun _ => s.su.settings.replyTime } } }))

/-- REVERSE_BYTE with REPEAT, ROUTE, STATUS or YIELD (R99, R100, R102, R104, R105, R111): a repeat count of 2 to 65 becomes pending;
the route is selected; the status is stored and posted to the STATUS group; the phase ends at YIELD, for an IDLE link or a new
grant. Each is acknowledged; and each, finding a repeat pending, first breaks it, with REPEAT_BROKEN to the LINK group. -/
def Obligations.ReverseControlSteersThePhase : Prop :=
  ∀ (s : State) (b : Byte), s.le.link = .reverse →
    let u (t : State) : State := { s with
      eus := t.eus, le := { s.le with revIdleTimer := some s.su.settings.revIdle },
      rr := { s.rr with repeats := none },
      pins := { s.pins with rstb := !s.pins.rstb, rack := !s.pins.rack } }
    let broken (t : State) : Prop := ∀ h, t.eu h = unitAfter s h (brokenRepeat s h)
    (0x40 ≤ b.toNat → b.toNat ≤ 0x7F →
      ∃ t, exec (.reverseByte .control b) s = .next t ∧ broken t ∧
        t = { u t with rr := { s.rr with repeats := some (b.toNat - 0x40 + 2) } }) ∧
    (∀ r : RouteId, b.toNat = 0x80 + r.val →
      ∃ t, exec (.reverseByte .control b) s = .next t ∧ broken t ∧
        t = { u t with rr := { s.rr with repeats := none, selection := some r } }) ∧
    (∀ n : Fin 16, b.toNat = 0x90 + n.val →
      ∃ t, exec (.reverseByte .control b) s = .next t ∧
        (∀ h, t.eu h = unitAfter s h (brokenRepeat s h ++
          if (s.eu h).statusGroup then [plainEvent .periphStatus (BitVec.ofNat 8 n.val)] else [])) ∧
        t = { u t with le := { (u t).le with lastStatus := some n } }) ∧
    (b = 0xF1#8 → s.pins.rreq = true ∨ noWork s →
      ∃ t, exec (.reverseByte .control b) s = .next t ∧ broken t ∧
        t = grantedOrIdle { u t with
          le := { s.le with revIdleTimer := none },
          rr := { s.rr with selection := none, repeats := none },
          pins := { (u t).pins with rgnt := false, ldDriven := true } })

/-- REVERSE_BYTE with END (R16, R105, R108, R109): END breaks a pending repeat first, with REPEAT_BROKEN to the LINK group, and the
selection becomes none in every case; an OPEN route becomes COMPLETE and REPLY_END with the TRUNCATED bit goes to the owner; a job
in AWAIT_REPLY then ends DONE, JOB_ENDED ahead of the SPACE of any host whose need is met; an ABORTED route stays as it is; with no
route selected, or one FREE or COMPLETE, one ORPHAN notice a phase is posted. -/
def Obligations.ReverseEndCompletesTheRoute : Prop :=
  ∀ (s : State), s.le.link = .reverse →
    let command := Instr.reverseByte .control 0xF0#8
    let u (t : State) : State := { s with
      eus := t.eus, le := { s.le with revIdleTimer := some s.su.settings.revIdle },
      rr := { s.rr with selection := none, repeats := none },
      pins := { s.pins with rstb := !s.pins.rstb, rack := !s.pins.rack } }
    let stray := s.rr.selection = none ∨
      ∃ r, s.rr.selection = some r ∧ ((s.route r).state = .free ∨ (s.route r).state = .complete)
    let notice : Event := { kind := .linkProtocol, handle := none, route := s.rr.selection, code := 0x02#8 }
    (stray →
      ∃ t, exec command s = .next t ∧
        (∀ h, t.eu h = unitAfter s h (brokenRepeat s h ++
          if s.rr.orphanPosted = false ∧ (s.eu h).linkGroup = true then [notice] else [])) ∧
        t = { u t with rr := { (u t).rr with orphanPosted := true } }) ∧
    (∀ r, s.rr.selection = some r → (s.route r).state = .aborted →
      ∃ t, exec command s = .next t ∧ (∀ h, t.eu h = unitAfter s h (brokenRepeat s h)) ∧ t = u t) ∧
    (∀ r x, s.rr.selection = some r → (s.route r).state = .opened → (s.route r).owner = some x →
      (s.job x.slot).orphaned = false →
      let replyEnd : Event :=
        { kind := .replyEnd, handle := some x, route := some r, code := if (s.route r).truncated then 0x01#8 else 0x00#8 }
      ((s.job x.slot).state ≠ .awaitReply →
        ∃ t, exec command s = .next t ∧
          (∀ h, t.eu h = unitAfter s h (brokenRepeat s h ++ postsTo (s.job x.slot).owner [replyEnd] h)) ∧
          t = { u t with
            rr := { (u t).rr with routes := upd s.rr.routes r { s.route r with state := .complete } } }) ∧
      ((s.job x.slot).state = .awaitReply → (s.job x.slot).route = some r → (s.job x.slot).chain = [] →
        ∃ t, exec command s = .next t ∧
          postedAheadOfSpace s t (fun h =>
            brokenRepeat s h ++ postsTo (s.job x.slot).owner [replyEnd, endedRecord s x.slot 0x10#8] h) ∧
          t = { u t with
            jm := { s.jm with jobs := upd s.jm.jobs x.slot (endedJob (s.job x.slot) .done .none) },
            sp := { s.sp with marks := t.sp.marks },
            rr := { (u t).rr with
              routes := upd s.rr.routes r { s.route r with state := .complete, timer := none } } }))

/-- R112, whole: a CONTROL byte outside the five is discarded and posts its own LINK_PROTOCOL MALFORMED to the LINK group, after
REPEAT_BROKEN where it breaks a pending repeat (R105); the selection stays, the byte is acknowledged and the phase goes on. -/
def Obligations.MalformedBytesAreReported : Prop :=
  ∀ (s : State) (b : Byte), s.le.link = .reverse →
    b.toNat ≤ 0x3F ∨ 0xA0 ≤ b.toNat ∧ b.toNat ≤ 0xEF ∨ 0xF2 ≤ b.toNat →
    ∃ t, exec (.reverseByte .control b) s = .next t ∧
      (∀ h, t.eu h = unitAfter s h
        (if (s.eu h).linkGroup then
          (if s.rr.repeats = none then [] else
            [{ kind := .linkProtocol, handle := none, route := none, code := 0x03#8 }]) ++
            [{ kind := .linkProtocol, handle := none, route := none, code := 0x01#8 }]
        else [])) ∧
      t = { s with
        eus := t.eus, le := { s.le with revIdleTimer := some s.su.settings.revIdle },
        rr := { s.rr with repeats := none },
        pins := { s.pins with rstb := !s.pins.rstb, rack := !s.pins.rack } }

/-! ## Decisions of the Dispatch Unit and the Link Engine -/

/-- Selection (R43, R48): a READY job is a candidate when its priority is 1–7, its channel is unclaimed or claimed by itself, and no
job on the stack, nor the job being pushed, has that channel. The best admissible job is there whenever the ready set holds a
candidate; it is one of them, of the highest priority among them, of the first host in rotation with a job of that priority, and
of that host's the earliest. -/
def Obligations.SelectionIsByPriorityRotationAndAge : Prop :=
  ∀ (s : State) (pushed : Option SlotId),
    let isCandidate (k : SlotId) : Prop :=
      (s.job k).state = .ready ∧ 1 ≤ (s.job k).priority.val ∧
        (s.claim (s.job k).channel = none ∨ s.claim (s.job k).channel = some k) ∧
        ∀ j, j ∈ s.du.stack ∨ pushed = some j → (s.job j).channel ≠ (s.job k).channel
    (bestAdmissible s pushed = none ↔ ∀ z ∈ s.du.ready, ¬ isCandidate z) ∧
    (∀ k, bestAdmissible s pushed = some k →
      k ∈ s.du.ready ∧ isCandidate k ∧
      ∀ z ∈ s.du.ready, isCandidate z →
        (s.job z).priority ≤ (s.job k).priority ∧
        ((s.job z).priority = (s.job k).priority →
          turnsAfter s.du.rotation (s.job k).owner ≤ turnsAfter s.du.rotation (s.job z).owner ∧
          ((s.job z).owner = (s.job k).owner → s.du.ready.idxOf k ≤ s.du.ready.idxOf z)))

/-- Break points of the active job, whole (R48, R49, R50, R52, R54 to R57, R70). Where the best admissible job meets the three
conditions of R55 it preempts: the active job is pushed onto the stack and the other takes the link. Where none does, but the
turn budget is on and reached and a candidate of the same priority belongs to another host, the active job goes back to the ready
set and such a job takes the link, of the first of those hosts counted from the host after the yielding job's, and of that
host's the earliest. Where neither test succeeds, and in recovery, the active job continues. -/
def Obligations.BreakPointsYieldToUrgencyOrTurn : Prop :=
  ∀ (s : State) (a : SlotId), s.du.active = some a →
    (recovering s = true → breakPoint s a = none) ∧
    (recovering s = false →
      (∀ k, urgent s a k → breakPoint s a = some (takesLink (suspends s a) k)) ∧
      ((∀ k, ¬ urgent s a k) → spent s (s.job a).turn → (∃ k, rival s a k) →
        ∃ k, firstRival s a k ∧ breakPoint s a = some (yields s a k)) ∧
      (staysOn s a (s.job a).turn → breakPoint s a = none))

/-- The leaving decision (R43, R48, R59, R60, R61, R70), with no job active: during recovery nothing; with the stack empty the best of
the candidates, if there is one, becomes ACTIVE; with a stack its top resumes and the rotation stays, unless the best of the candidates
is above the top's priority and at the floor and enters ahead of it. Each way the whole state is as the rules give it. -/
def Obligations.LeavingSelectsOrResumes : Prop :=
  ∀ (s : State), s.du.active = none →
    let t := leavingDecision s
    (recovering s = true → t = s) ∧
    (recovering s = false →
      (t.du.active = none ↔ s.du.stack = [] ∧ bestAdmissible s none = none) ∧
      (t.du.active = none → t = s) ∧
      (∀ k, t.du.active = some k → (t.job k).state = .active ∧ (t.job k).turn = 0 ∧
        ((bestAdmissible s none = some k ∧ k ∈ s.du.ready ∧ candidate s none k ∧ t.du.stack = s.du.stack ∧
            t.du.ready = s.du.ready.erase k ∧ t.du.rotation = (s.job k).owner ∧ t = takesLink s k ∧
            ∀ top, s.du.stack.getLast? = some top → (s.job top).priority < (s.job k).priority ∧
              s.su.settings.preemptFloor ≤ (s.job k).priority.val) ∨
          (s.du.stack = t.du.stack ++ [k] ∧ t.du.ready = s.du.ready ∧ t.du.rotation = s.du.rotation ∧ t = resumes s k ∧
            ∀ m, bestAdmissible s none = some m →
              (s.job m).priority ≤ (s.job k).priority ∨ (s.job m).priority.val < s.su.settings.preemptFloor))))

/-- What the chain of the active job brings about is done at once (R50, R57, R61, R62, R85, R92): afterwards there is no active job,
or it has an entry to send or in an offer, or it is a stream job not CLOSED in its dry wait, or a whole job not CLOSED. -/
def Obligations.DryActiveJobsAreSettled : Prop :=
  ∀ (s : State) (a : SlotId), (settled s).du.active = some a →
    headEntry (settled s) a ≠ none ∨ entryOffered (settled s) a = true ∨
      ((settled s).job a).closed = false ∧
        (((settled s).job a).stream = true → (settled s).le.dryTimer ≠ none)

/-- The order of work leaves nothing undone (R77, R78, R79, R102): after an event that brings the link to a boundary, or changes what it
reads there, the link is not at a boundary, or IDLE with nothing to do, or WAITING with work held off and a stall in progress. The
events are those of the lines and the timers, a reverse byte of a granted phase (YIELD ends it), and the accepted host requests and
port resets that change the work there is. -/
def Obligations.LinkEventsLeaveNothingToDo : Prop :=
  ∀ (c : Instr) (s t : State), exec c s = .next t →
    (c = .acknowledgement ∧ s.le.latch ≠ none) ∨ (c = .rreqRise ∧ s.pins.rreq = false) ∨
      (c = .rreqFall ∧ s.pins.rreq = true) ∨ (c = .prdyRise ∧ s.pins.prdy = false) ∨
      (c = .prdyFall ∧ s.pins.prdy = true) ∨ c = .pfltChange ∨ (c = .revIdleExpiry ∧ s.le.revIdleTimer ≠ none) ∨
      (c = .dryWaitExpiry ∧ s.le.dryTimer ≠ none ∧ s.du.active ≠ none) ∨ (c = .lrstPulseEnd ∧ s.le.pulseTimer ≠ none) ∨
      (∃ kind b, c = .reverseByte kind b ∧ s.le.link = .reverse) ∨
      (∃ h hd payload, taking s h ∧ answeredWith s t h .ok payload ∧
        ((∃ kind flags bytes, c = .append h hd kind flags bytes) ∨ c = .close h hd ∨ (∃ p, c = .setPriority h hd p) ∨
          c = .cancel h hd)) ∨
      (∃ h, c = .portReset h ∧ (s.port h).hrst = false) →
    nothingToDo t

/-! ## What every step keeps -/

/-- After reset every invariant below holds (R1, R40, R42, R93, R95, R117, R150, R156, R178; the input lines' levels are the model's
choice, log entry 8). -/
def Obligations.ResetStateIsSound : Prop :=
  unitsSound State.reset ∧ portsSound State.reset ∧ leaseSound State.reset ∧ buffersSound State.reset ∧
    linkSound State.reset ∧ poolSound State.reset ∧ chainsSound State.reset ∧ limitsSound State.reset ∧
    stackSound State.reset ∧ settingsSound State.reset ∧ tablesSound State.reset

/-- Every step keeps the ports, event units, route buffers and the lease sound (R95, R119, R125, R127, R156, R176, R177, R178). -/
def Obligations.StepsKeepPortsEventsAndLeaseSound : Prop :=
  ∀ (s t : State), step s = .next t →
    (unitsSound s → unitsSound t) ∧ (portsSound s → portsSound t) ∧ (leaseSound s → leaseSound t) ∧
      (buffersSound s → buffersSound t)

/-- Every step keeps the link sound: offers, timers, grants, LRST and the data lines go with the link state (R72, R76, R93, R94, R99,
R140, R143, R144). -/
def Obligations.StepsKeepTheLinkSound : Prop :=
  ∀ (s t : State), step s = .next t → portsSound s → linkSound s → linkSound t

/-- Every step keeps the pool and its chains sound: the segments on the free list and in the chains are 384 together and no segment is
there twice, used counts are the segments of each host's chains, every segment of a chain but the tail is full, and queued counts
are exact (R24 to R28, R38, R40, section 1.4). -/
def Obligations.StepsKeepThePoolSound : Prop :=
  ∀ (s t : State), step s = .next t → poolSound s → poolSound t ∧ (chainsSound s → chainsSound t)

/-- Every step keeps the settings in their ranges, the hosts within their JOB_LIMIT and the stack within three jobs (R10, R52,
R153, section 8.1), and no command makes a job ACTIVE in recovery (R70). From a sound link, every step keeps the tables in
agreement: owned-slot counts are the slots of each host (R1), claims are held exactly by begun jobs on their channels (R45), the
ready set is exactly the READY jobs in age order (R47), the stack exactly the SUSPENDED ones, strictly rising to the active job
(R52), the abandon list exactly the CANCELLING ones, one for each channel (R134), routes and jobs name each other and reply timers
run for jobs in AWAIT_REPLY (R95, R113); and no candidate is left waiting while no job is active, no leaving decision is open and
the link is up (R44, R51). -/
def Obligations.StepsKeepSettingsLimitsAndStackSound : Prop :=
  ∀ (s t : State), step s = .next t →
    (settingsSound s → settingsSound t) ∧ (limitsSound s → limitsSound t) ∧ (stackSound s → stackSound t) ∧
      (recovering s = true → recovering t = true → s.du.active = none → t.du.active = none) ∧
      (linkSound s → tablesSound s → tablesSound t)

/-- Who may change what (R138, R141, R148, R156 to R162, R175, R178): only a port's own pins and requests, and the two part-wide
resets, change the port; only the lease holder's SET and PART_RESET change the settings; the holder changes only by LEASE_TAKE of
a free lease, the holder's LEASE_DROP, its port reset, the term's expiry and PART_RESET; the term timer is started or stopped only
by those and the holder's renewal, and nothing else can raise what is left on it; and the last fault changes only by link resets
and PART_RESET. -/
def Obligations.ChangesComeOnlyFromThoseEntitled : Prop :=
  ∀ (c : Instr) (s t : State), exec c s = .next t →
    (∀ h, t.port h ≠ s.port h → c = .partReset ∨ c = .rstRelease ∨ commandPort c = some h) ∧
    (t.su.settings ≠ s.su.settings →
      c = .partReset ∨ ∃ h i n v, c = .setSetting h i n v ∧ s.su.holder = some h) ∧
    (t.su.holder ≠ s.su.holder →
      c = .partReset ∨ (∃ h, c = .leaseTake h ∧ s.su.holder = none ∧ t.su.holder = some h) ∨
        (∃ h, (c = .leaseDrop h ∨ c = .portReset h) ∧ s.su.holder = some h) ∨ c = .leaseTermExpiry) ∧
    (t.su.term ≠ s.su.term ∨ s.su.termLeft < t.su.termLeft →
      c = .partReset ∨ (∃ h, c = .leaseTake h ∧ (s.su.holder = none ∨ s.su.holder = some h) ∧ t.su.holder = some h) ∨
        (∃ h, (c = .leaseDrop h ∨ c = .portReset h) ∧ s.su.holder = some h) ∨ c = .leaseTermExpiry) ∧
    (t.le.lastFault ≠ s.le.lastFault →
      c = .partReset ∨ (∃ h, c = .linkReset h ∧ s.su.holder = some h) ∨ c = .acknowledgeTimeout)
end

