-- ==== Sys2Proof/Laws/State.lean ====
section
/-! SUPPORT. What each update of the state leaves and sets, one lemma per field, and what each table reads after it. -/

namespace Sys2Proof.Machine

variable (s : State)

/-! ## setPort -/

@[simp] theorem State.setPort_pending (h : HostId) (p : Port) : (s.setPort h p).pending = s.pending := rfl
@[simp] theorem State.setPort_eus (h : HostId) (p : Port) : (s.setPort h p).eus = s.eus := rfl
@[simp] theorem State.setPort_jm (h : HostId) (p : Port) : (s.setPort h p).jm = s.jm := rfl
@[simp] theorem State.setPort_sp (h : HostId) (p : Port) : (s.setPort h p).sp = s.sp := rfl
@[simp] theorem State.setPort_du (h : HostId) (p : Port) : (s.setPort h p).du = s.du := rfl
@[simp] theorem State.setPort_le (h : HostId) (p : Port) : (s.setPort h p).le = s.le := rfl
@[simp] theorem State.setPort_rr (h : HostId) (p : Port) : (s.setPort h p).rr = s.rr := rfl
@[simp] theorem State.setPort_su (h : HostId) (p : Port) : (s.setPort h p).su = s.su := rfl
@[simp] theorem State.setPort_pins (h : HostId) (p : Port) : (s.setPort h p).pins = s.pins := rfl
@[simp] theorem State.setPort_draws (h : HostId) (p : Port) : (s.setPort h p).draws = s.draws := rfl
@[simp] theorem State.setPort_eu (h : HostId) (p : Port) (z : HostId) : (s.setPort h p).eu z = s.eu z := rfl
@[simp] theorem State.setPort_job (h : HostId) (p : Port) (z : SlotId) : (s.setPort h p).job z = s.job z := rfl
@[simp] theorem State.setPort_gen (h : HostId) (p : Port) (z : SlotId) : (s.setPort h p).gen z = s.gen z := rfl
@[simp] theorem State.setPort_owned (h : HostId) (p : Port) (z : HostId) : (s.setPort h p).owned z = s.owned z := rfl
@[simp] theorem State.setPort_used (h : HostId) (p : Port) (z : HostId) : (s.setPort h p).used z = s.used z := rfl
@[simp] theorem State.setPort_mark (h : HostId) (p : Port) (z : HostId) : (s.setPort h p).mark z = s.mark z := rfl
@[simp] theorem State.setPort_route (h : HostId) (p : Port) (z : RouteId) : (s.setPort h p).route z = s.route z := rfl
@[simp] theorem State.setPort_claim (h : HostId) (p : Port) (z : ChannelId) : (s.setPort h p).claim z = s.claim z := rfl
@[simp] theorem State.setPort_handle (h : HostId) (p : Port) (z : SlotId) : (s.setPort h p).handle z = s.handle z := rfl
theorem State.setPort_port (h : HostId) (p : Port) (z : HostId) : (s.setPort h p).port z = if h = z then p else s.port z := upd_get ..
@[simp] theorem State.setPort_port_same (h : HostId) (p : Port) : (s.setPort h p).port h = p := upd_same ..
theorem State.setPort_port_ne (h : HostId) (p : Port) (z : HostId) (hz : h ≠ z) : (s.setPort h p).port z = s.port z := upd_ne _ _ hz

/-! ## setEu -/

@[simp] theorem State.setEu_pending (h : HostId) (u : EventUnit) : (s.setEu h u).pending = s.pending := rfl
@[simp] theorem State.setEu_ports (h : HostId) (u : EventUnit) : (s.setEu h u).ports = s.ports := rfl
@[simp] theorem State.setEu_jm (h : HostId) (u : EventUnit) : (s.setEu h u).jm = s.jm := rfl
@[simp] theorem State.setEu_sp (h : HostId) (u : EventUnit) : (s.setEu h u).sp = s.sp := rfl
@[simp] theorem State.setEu_du (h : HostId) (u : EventUnit) : (s.setEu h u).du = s.du := rfl
@[simp] theorem State.setEu_le (h : HostId) (u : EventUnit) : (s.setEu h u).le = s.le := rfl
@[simp] theorem State.setEu_rr (h : HostId) (u : EventUnit) : (s.setEu h u).rr = s.rr := rfl
@[simp] theorem State.setEu_su (h : HostId) (u : EventUnit) : (s.setEu h u).su = s.su := rfl
@[simp] theorem State.setEu_pins (h : HostId) (u : EventUnit) : (s.setEu h u).pins = s.pins := rfl
@[simp] theorem State.setEu_draws (h : HostId) (u : EventUnit) : (s.setEu h u).draws = s.draws := rfl
@[simp] theorem State.setEu_port (h : HostId) (u : EventUnit) (z : HostId) : (s.setEu h u).port z = s.port z := rfl
@[simp] theorem State.setEu_job (h : HostId) (u : EventUnit) (z : SlotId) : (s.setEu h u).job z = s.job z := rfl
@[simp] theorem State.setEu_gen (h : HostId) (u : EventUnit) (z : SlotId) : (s.setEu h u).gen z = s.gen z := rfl
@[simp] theorem State.setEu_owned (h : HostId) (u : EventUnit) (z : HostId) : (s.setEu h u).owned z = s.owned z := rfl
@[simp] theorem State.setEu_used (h : HostId) (u : EventUnit) (z : HostId) : (s.setEu h u).used z = s.used z := rfl
@[simp] theorem State.setEu_mark (h : HostId) (u : EventUnit) (z : HostId) : (s.setEu h u).mark z = s.mark z := rfl
@[simp] theorem State.setEu_route (h : HostId) (u : EventUnit) (z : RouteId) : (s.setEu h u).route z = s.route z := rfl
@[simp] theorem State.setEu_claim (h : HostId) (u : EventUnit) (z : ChannelId) : (s.setEu h u).claim z = s.claim z := rfl
@[simp] theorem State.setEu_handle (h : HostId) (u : EventUnit) (z : SlotId) : (s.setEu h u).handle z = s.handle z := rfl
theorem State.setEu_eu (h : HostId) (u : EventUnit) (z : HostId) : (s.setEu h u).eu z = if h = z then u else s.eu z := upd_get ..
@[simp] theorem State.setEu_eu_same (h : HostId) (u : EventUnit) : (s.setEu h u).eu h = u := upd_same ..
theorem State.setEu_eu_ne (h : HostId) (u : EventUnit) (z : HostId) (hz : h ≠ z) : (s.setEu h u).eu z = s.eu z := upd_ne _ _ hz

/-! ## setJob -/

@[simp] theorem State.setJob_pending (k : SlotId) (j : Job) : (s.setJob k j).pending = s.pending := rfl
@[simp] theorem State.setJob_ports (k : SlotId) (j : Job) : (s.setJob k j).ports = s.ports := rfl
@[simp] theorem State.setJob_eus (k : SlotId) (j : Job) : (s.setJob k j).eus = s.eus := rfl
@[simp] theorem State.setJob_sp (k : SlotId) (j : Job) : (s.setJob k j).sp = s.sp := rfl
@[simp] theorem State.setJob_du (k : SlotId) (j : Job) : (s.setJob k j).du = s.du := rfl
@[simp] theorem State.setJob_le (k : SlotId) (j : Job) : (s.setJob k j).le = s.le := rfl
@[simp] theorem State.setJob_rr (k : SlotId) (j : Job) : (s.setJob k j).rr = s.rr := rfl
@[simp] theorem State.setJob_su (k : SlotId) (j : Job) : (s.setJob k j).su = s.su := rfl
@[simp] theorem State.setJob_pins (k : SlotId) (j : Job) : (s.setJob k j).pins = s.pins := rfl
@[simp] theorem State.setJob_draws (k : SlotId) (j : Job) : (s.setJob k j).draws = s.draws := rfl
@[simp] theorem State.setJob_jm_gens (k : SlotId) (j : Job) : (s.setJob k j).jm.gens = s.jm.gens := rfl
@[simp] theorem State.setJob_jm_owned (k : SlotId) (j : Job) : (s.setJob k j).jm.owned = s.jm.owned := rfl
@[simp] theorem State.setJob_jm_nextSeq (k : SlotId) (j : Job) : (s.setJob k j).jm.nextSeq = s.jm.nextSeq := rfl
@[simp] theorem State.setJob_port (k : SlotId) (j : Job) (z : HostId) : (s.setJob k j).port z = s.port z := rfl
@[simp] theorem State.setJob_eu (k : SlotId) (j : Job) (z : HostId) : (s.setJob k j).eu z = s.eu z := rfl
@[simp] theorem State.setJob_gen (k : SlotId) (j : Job) (z : SlotId) : (s.setJob k j).gen z = s.gen z := rfl
@[simp] theorem State.setJob_owned (k : SlotId) (j : Job) (z : HostId) : (s.setJob k j).owned z = s.owned z := rfl
@[simp] theorem State.setJob_used (k : SlotId) (j : Job) (z : HostId) : (s.setJob k j).used z = s.used z := rfl
@[simp] theorem State.setJob_mark (k : SlotId) (j : Job) (z : HostId) : (s.setJob k j).mark z = s.mark z := rfl
@[simp] theorem State.setJob_route (k : SlotId) (j : Job) (z : RouteId) : (s.setJob k j).route z = s.route z := rfl
@[simp] theorem State.setJob_claim (k : SlotId) (j : Job) (z : ChannelId) : (s.setJob k j).claim z = s.claim z := rfl
@[simp] theorem State.setJob_handle (k : SlotId) (j : Job) (z : SlotId) : (s.setJob k j).handle z = s.handle z := rfl
theorem State.setJob_job (k : SlotId) (j : Job) (z : SlotId) : (s.setJob k j).job z = if k = z then j else s.job z := upd_get ..
@[simp] theorem State.setJob_job_same (k : SlotId) (j : Job) : (s.setJob k j).job k = j := upd_same ..
theorem State.setJob_job_ne (k : SlotId) (j : Job) (z : SlotId) (hz : k ≠ z) : (s.setJob k j).job z = s.job z := upd_ne _ _ hz

/-! ## setOwned -/

@[simp] theorem State.setOwned_pending (h : HostId) (n : Nat) : (s.setOwned h n).pending = s.pending := rfl
@[simp] theorem State.setOwned_ports (h : HostId) (n : Nat) : (s.setOwned h n).ports = s.ports := rfl
@[simp] theorem State.setOwned_eus (h : HostId) (n : Nat) : (s.setOwned h n).eus = s.eus := rfl
@[simp] theorem State.setOwned_sp (h : HostId) (n : Nat) : (s.setOwned h n).sp = s.sp := rfl
@[simp] theorem State.setOwned_du (h : HostId) (n : Nat) : (s.setOwned h n).du = s.du := rfl
@[simp] theorem State.setOwned_le (h : HostId) (n : Nat) : (s.setOwned h n).le = s.le := rfl
@[simp] theorem State.setOwned_rr (h : HostId) (n : Nat) : (s.setOwned h n).rr = s.rr := rfl
@[simp] theorem State.setOwned_su (h : HostId) (n : Nat) : (s.setOwned h n).su = s.su := rfl
@[simp] theorem State.setOwned_pins (h : HostId) (n : Nat) : (s.setOwned h n).pins = s.pins := rfl
@[simp] theorem State.setOwned_draws (h : HostId) (n : Nat) : (s.setOwned h n).draws = s.draws := rfl
@[simp] theorem State.setOwned_jm_jobs (h : HostId) (n : Nat) : (s.setOwned h n).jm.jobs = s.jm.jobs := rfl
@[simp] theorem State.setOwned_jm_gens (h : HostId) (n : Nat) : (s.setOwned h n).jm.gens = s.jm.gens := rfl
@[simp] theorem State.setOwned_jm_nextSeq (h : HostId) (n : Nat) : (s.setOwned h n).jm.nextSeq = s.jm.nextSeq := rfl
@[simp] theorem State.setOwned_port (h : HostId) (n : Nat) (z : HostId) : (s.setOwned h n).port z = s.port z := rfl
@[simp] theorem State.setOwned_eu (h : HostId) (n : Nat) (z : HostId) : (s.setOwned h n).eu z = s.eu z := rfl
@[simp] theorem State.setOwned_job (h : HostId) (n : Nat) (z : SlotId) : (s.setOwned h n).job z = s.job z := rfl
@[simp] theorem State.setOwned_gen (h : HostId) (n : Nat) (z : SlotId) : (s.setOwned h n).gen z = s.gen z := rfl
@[simp] theorem State.setOwned_used (h : HostId) (n : Nat) (z : HostId) : (s.setOwned h n).used z = s.used z := rfl
@[simp] theorem State.setOwned_mark (h : HostId) (n : Nat) (z : HostId) : (s.setOwned h n).mark z = s.mark z := rfl
@[simp] theorem State.setOwned_route (h : HostId) (n : Nat) (z : RouteId) : (s.setOwned h n).route z = s.route z := rfl
@[simp] theorem State.setOwned_claim (h : HostId) (n : Nat) (z : ChannelId) : (s.setOwned h n).claim z = s.claim z := rfl
@[simp] theorem State.setOwned_handle (h : HostId) (n : Nat) (z : SlotId) : (s.setOwned h n).handle z = s.handle z := rfl
theorem State.setOwned_owned (h : HostId) (n : Nat) (z : HostId) : (s.setOwned h n).owned z = if h = z then n else s.owned z := upd_get ..
@[simp] theorem State.setOwned_owned_same (h : HostId) (n : Nat) : (s.setOwned h n).owned h = n := upd_same ..
theorem State.setOwned_owned_ne (h : HostId) (n : Nat) (z : HostId) (hz : h ≠ z) : (s.setOwned h n).owned z = s.owned z := upd_ne _ _ hz

/-! ## setMark -/

@[simp] theorem State.setMark_pending (h : HostId) (m : Option Nat) : (s.setMark h m).pending = s.pending := rfl
@[simp] theorem State.setMark_ports (h : HostId) (m : Option Nat) : (s.setMark h m).ports = s.ports := rfl
@[simp] theorem State.setMark_eus (h : HostId) (m : Option Nat) : (s.setMark h m).eus = s.eus := rfl
@[simp] theorem State.setMark_jm (h : HostId) (m : Option Nat) : (s.setMark h m).jm = s.jm := rfl
@[simp] theorem State.setMark_du (h : HostId) (m : Option Nat) : (s.setMark h m).du = s.du := rfl
@[simp] theorem State.setMark_le (h : HostId) (m : Option Nat) : (s.setMark h m).le = s.le := rfl
@[simp] theorem State.setMark_rr (h : HostId) (m : Option Nat) : (s.setMark h m).rr = s.rr := rfl
@[simp] theorem State.setMark_su (h : HostId) (m : Option Nat) : (s.setMark h m).su = s.su := rfl
@[simp] theorem State.setMark_pins (h : HostId) (m : Option Nat) : (s.setMark h m).pins = s.pins := rfl
@[simp] theorem State.setMark_draws (h : HostId) (m : Option Nat) : (s.setMark h m).draws = s.draws := rfl
@[simp] theorem State.setMark_sp_phase (h : HostId) (m : Option Nat) : (s.setMark h m).sp.phase = s.sp.phase := rfl
@[simp] theorem State.setMark_sp_initTimer (h : HostId) (m : Option Nat) : (s.setMark h m).sp.initTimer = s.sp.initTimer := rfl
@[simp] theorem State.setMark_sp_free (h : HostId) (m : Option Nat) : (s.setMark h m).sp.free = s.sp.free := rfl
@[simp] theorem State.setMark_sp_used (h : HostId) (m : Option Nat) : (s.setMark h m).sp.used = s.sp.used := rfl
@[simp] theorem State.setMark_port (h : HostId) (m : Option Nat) (z : HostId) : (s.setMark h m).port z = s.port z := rfl
@[simp] theorem State.setMark_eu (h : HostId) (m : Option Nat) (z : HostId) : (s.setMark h m).eu z = s.eu z := rfl
@[simp] theorem State.setMark_job (h : HostId) (m : Option Nat) (z : SlotId) : (s.setMark h m).job z = s.job z := rfl
@[simp] theorem State.setMark_gen (h : HostId) (m : Option Nat) (z : SlotId) : (s.setMark h m).gen z = s.gen z := rfl
@[simp] theorem State.setMark_owned (h : HostId) (m : Option Nat) (z : HostId) : (s.setMark h m).owned z = s.owned z := rfl
@[simp] theorem State.setMark_used (h : HostId) (m : Option Nat) (z : HostId) : (s.setMark h m).used z = s.used z := rfl
@[simp] theorem State.setMark_route (h : HostId) (m : Option Nat) (z : RouteId) : (s.setMark h m).route z = s.route z := rfl
@[simp] theorem State.setMark_claim (h : HostId) (m : Option Nat) (z : ChannelId) : (s.setMark h m).claim z = s.claim z := rfl
@[simp] theorem State.setMark_handle (h : HostId) (m : Option Nat) (z : SlotId) : (s.setMark h m).handle z = s.handle z := rfl
theorem State.setMark_mark (h : HostId) (m : Option Nat) (z : HostId) : (s.setMark h m).mark z = if h = z then m else s.mark z := upd_get ..
@[simp] theorem State.setMark_mark_same (h : HostId) (m : Option Nat) : (s.setMark h m).mark h = m := upd_same ..
theorem State.setMark_mark_ne (h : HostId) (m : Option Nat) (z : HostId) (hz : h ≠ z) : (s.setMark h m).mark z = s.mark z := upd_ne _ _ hz

/-! ## setRoute -/

@[simp] theorem State.setRoute_pending (r : RouteId) (x : Route) : (s.setRoute r x).pending = s.pending := rfl
@[simp] theorem State.setRoute_ports (r : RouteId) (x : Route) : (s.setRoute r x).ports = s.ports := rfl
@[simp] theorem State.setRoute_eus (r : RouteId) (x : Route) : (s.setRoute r x).eus = s.eus := rfl
@[simp] theorem State.setRoute_jm (r : RouteId) (x : Route) : (s.setRoute r x).jm = s.jm := rfl
@[simp] theorem State.setRoute_sp (r : RouteId) (x : Route) : (s.setRoute r x).sp = s.sp := rfl
@[simp] theorem State.setRoute_du (r : RouteId) (x : Route) : (s.setRoute r x).du = s.du := rfl
@[simp] theorem State.setRoute_le (r : RouteId) (x : Route) : (s.setRoute r x).le = s.le := rfl
@[simp] theorem State.setRoute_su (r : RouteId) (x : Route) : (s.setRoute r x).su = s.su := rfl
@[simp] theorem State.setRoute_pins (r : RouteId) (x : Route) : (s.setRoute r x).pins = s.pins := rfl
@[simp] theorem State.setRoute_draws (r : RouteId) (x : Route) : (s.setRoute r x).draws = s.draws := rfl
@[simp] theorem State.setRoute_rr_selection (r : RouteId) (x : Route) : (s.setRoute r x).rr.selection = s.rr.selection := rfl
@[simp] theorem State.setRoute_rr_repeats (r : RouteId) (x : Route) : (s.setRoute r x).rr.repeats = s.rr.repeats := rfl
@[simp] theorem State.setRoute_rr_orphanPosted (r : RouteId) (x : Route) : (s.setRoute r x).rr.orphanPosted = s.rr.orphanPosted := rfl
@[simp] theorem State.setRoute_port (r : RouteId) (x : Route) (z : HostId) : (s.setRoute r x).port z = s.port z := rfl
@[simp] theorem State.setRoute_eu (r : RouteId) (x : Route) (z : HostId) : (s.setRoute r x).eu z = s.eu z := rfl
@[simp] theorem State.setRoute_job (r : RouteId) (x : Route) (z : SlotId) : (s.setRoute r x).job z = s.job z := rfl
@[simp] theorem State.setRoute_gen (r : RouteId) (x : Route) (z : SlotId) : (s.setRoute r x).gen z = s.gen z := rfl
@[simp] theorem State.setRoute_owned (r : RouteId) (x : Route) (z : HostId) : (s.setRoute r x).owned z = s.owned z := rfl
@[simp] theorem State.setRoute_used (r : RouteId) (x : Route) (z : HostId) : (s.setRoute r x).used z = s.used z := rfl
@[simp] theorem State.setRoute_mark (r : RouteId) (x : Route) (z : HostId) : (s.setRoute r x).mark z = s.mark z := rfl
@[simp] theorem State.setRoute_claim (r : RouteId) (x : Route) (z : ChannelId) : (s.setRoute r x).claim z = s.claim z := rfl
@[simp] theorem State.setRoute_handle (r : RouteId) (x : Route) (z : SlotId) : (s.setRoute r x).handle z = s.handle z := rfl
theorem State.setRoute_route (r : RouteId) (x : Route) (z : RouteId) : (s.setRoute r x).route z = if r = z then x else s.route z := upd_get ..
@[simp] theorem State.setRoute_route_same (r : RouteId) (x : Route) : (s.setRoute r x).route r = x := upd_same ..
theorem State.setRoute_route_ne (r : RouteId) (x : Route) (z : RouteId) (hz : r ≠ z) : (s.setRoute r x).route z = s.route z := upd_ne _ _ hz

/-! ## setClaim -/

@[simp] theorem State.setClaim_pending (c : ChannelId) (k : Option SlotId) : (s.setClaim c k).pending = s.pending := rfl
@[simp] theorem State.setClaim_ports (c : ChannelId) (k : Option SlotId) : (s.setClaim c k).ports = s.ports := rfl
@[simp] theorem State.setClaim_eus (c : ChannelId) (k : Option SlotId) : (s.setClaim c k).eus = s.eus := rfl
@[simp] theorem State.setClaim_jm (c : ChannelId) (k : Option SlotId) : (s.setClaim c k).jm = s.jm := rfl
@[simp] theorem State.setClaim_sp (c : ChannelId) (k : Option SlotId) : (s.setClaim c k).sp = s.sp := rfl
@[simp] theorem State.setClaim_le (c : ChannelId) (k : Option SlotId) : (s.setClaim c k).le = s.le := rfl
@[simp] theorem State.setClaim_rr (c : ChannelId) (k : Option SlotId) : (s.setClaim c k).rr = s.rr := rfl
@[simp] theorem State.setClaim_su (c : ChannelId) (k : Option SlotId) : (s.setClaim c k).su = s.su := rfl
@[simp] theorem State.setClaim_pins (c : ChannelId) (k : Option SlotId) : (s.setClaim c k).pins = s.pins := rfl
@[simp] theorem State.setClaim_draws (c : ChannelId) (k : Option SlotId) : (s.setClaim c k).draws = s.draws := rfl
@[simp] theorem State.setClaim_du_ready (c : ChannelId) (k : Option SlotId) : (s.setClaim c k).du.ready = s.du.ready := rfl
@[simp] theorem State.setClaim_du_stack (c : ChannelId) (k : Option SlotId) : (s.setClaim c k).du.stack = s.du.stack := rfl
@[simp] theorem State.setClaim_du_rotation (c : ChannelId) (k : Option SlotId) : (s.setClaim c k).du.rotation = s.du.rotation := rfl
@[simp] theorem State.setClaim_du_active (c : ChannelId) (k : Option SlotId) : (s.setClaim c k).du.active = s.du.active := rfl
@[simp] theorem State.setClaim_du_leaving (c : ChannelId) (k : Option SlotId) : (s.setClaim c k).du.leaving = s.du.leaving := rfl
@[simp] theorem State.setClaim_port (c : ChannelId) (k : Option SlotId) (z : HostId) : (s.setClaim c k).port z = s.port z := rfl
@[simp] theorem State.setClaim_eu (c : ChannelId) (k : Option SlotId) (z : HostId) : (s.setClaim c k).eu z = s.eu z := rfl
@[simp] theorem State.setClaim_job (c : ChannelId) (k : Option SlotId) (z : SlotId) : (s.setClaim c k).job z = s.job z := rfl
@[simp] theorem State.setClaim_gen (c : ChannelId) (k : Option SlotId) (z : SlotId) : (s.setClaim c k).gen z = s.gen z := rfl
@[simp] theorem State.setClaim_owned (c : ChannelId) (k : Option SlotId) (z : HostId) : (s.setClaim c k).owned z = s.owned z := rfl
@[simp] theorem State.setClaim_used (c : ChannelId) (k : Option SlotId) (z : HostId) : (s.setClaim c k).used z = s.used z := rfl
@[simp] theorem State.setClaim_mark (c : ChannelId) (k : Option SlotId) (z : HostId) : (s.setClaim c k).mark z = s.mark z := rfl
@[simp] theorem State.setClaim_route (c : ChannelId) (k : Option SlotId) (z : RouteId) : (s.setClaim c k).route z = s.route z := rfl
@[simp] theorem State.setClaim_handle (c : ChannelId) (k : Option SlotId) (z : SlotId) : (s.setClaim c k).handle z = s.handle z := rfl
theorem State.setClaim_claim (c : ChannelId) (k : Option SlotId) (z : ChannelId) : (s.setClaim c k).claim z = if c = z then k else s.claim z := upd_get ..
@[simp] theorem State.setClaim_claim_same (c : ChannelId) (k : Option SlotId) : (s.setClaim c k).claim c = k := upd_same ..
theorem State.setClaim_claim_ne (c : ChannelId) (k : Option SlotId) (z : ChannelId) (hz : c ≠ z) : (s.setClaim c k).claim z = s.claim z := upd_ne _ _ hz

end Sys2Proof.Machine
end

