-- ==== Sys2Proof/Laws/Internal.lean ====
section
/-! SUPPORT. What the operations inside a command can change. `Internal s t` holds of every operation of the blocks on one another:
it says what no such operation touches, how event units move, and which facts about pool, chains, stack and counts they keep. -/

namespace Sys2Proof.Machine

/-! ## Sums over the slots -/

theorem allSlots_sum (f : SlotId → Nat) : (allSlots.map f).sum = ∑ k, f k := by
  rw [allSlots, Fin.sum_univ_def]

/-- Two sums over the slots that differ at `k` only. -/
theorem slot_sum_move {f g : SlotId → Nat} (k : SlotId) (h : ∀ z, z ≠ k → f z = g z) :
    (allSlots.map f).sum + g k = (allSlots.map g).sum + f k := by
  have e : ∑ z ∈ Finset.univ.erase k, f z = ∑ z ∈ Finset.univ.erase k, g z :=
    Finset.sum_congr rfl fun z hz => h z (Finset.ne_of_mem_erase hz)
  have a := Finset.add_sum_erase Finset.univ f (Finset.mem_univ k)
  have b := Finset.add_sum_erase Finset.univ g (Finset.mem_univ k)
  rw [allSlots_sum, allSlots_sum, ← a, ← b, e]
  omega

theorem slot_le_sum (f : SlotId → Nat) (k : SlotId) : f k ≤ (allSlots.map f).sum := by
  rw [allSlots_sum]
  exact Finset.single_le_sum (fun _ _ => Nat.zero_le _) (Finset.mem_univ k)

/-! ## Event units -/

/-- A unit after a run of posts. -/
abbrev takePosts (detached : Bool) (es : List Event) (u : EventUnit) : EventUnit :=
  es.foldl (fun u e => takePost detached e u) u

theorem takePost_detached (e : Event) (u : EventUnit) : takePost true e u = u := rfl

theorem takePosts_detached (es : List Event) (u : EventUnit) : takePosts true es u = u := by
  induction es with
  | nil => rfl
  | cons e es ih => exact ih

/-! ## The relation -/

/-- From `s` to `t` an operation of the blocks on one another has acted. -/
structure Internal (s t : State) : Prop where
  pending : t.pending = s.pending
  ports : t.ports = s.ports
  su : t.su = s.su
  draws : t.draws = s.draws
  rst : t.pins.rst = s.pins.rst
  fack : t.pins.fack = s.pins.fack
  rreq : t.pins.rreq = s.pins.rreq
  rstb : t.pins.rstb = s.pins.rstb
  prdy : t.pins.prdy = s.pins.prdy
  pflt : t.pins.pflt = s.pins.pflt
  phase : t.sp.phase = s.sp.phase
  initTimer : t.sp.initTimer = s.sp.initTimer
  eus : ∀ h, ∃ es, t.eu h = takePosts (s.port h).detached es (s.eu h)
  buffers : ∀ r, (t.route r).buffer = (s.route r).buffer ∨ (t.route r).buffer = []
  stack : s.du.stack.length ≤ Config.stackDepth → t.du.stack.length ≤ Config.stackDepth
  owned : ∀ h, t.owned h ≤ s.owned h
  used : ∀ h, t.used h ≤ s.used h
  counts : poolCounts s → poolCounts t
  empty : noChains s → noChains t
  chains : chainsSound s → chainsSound t
  entries : poolEntries t ≤ poolEntries s

namespace Internal

variable {s t u : State}

theorem refl (s : State) : Internal s s :=
  ⟨rfl, rfl, rfl, rfl, rfl, rfl, rfl, rfl, rfl, rfl, rfl, rfl, fun _ => ⟨[], rfl⟩, fun _ => .inl rfl, id, fun _ => le_refl _,
    fun _ => le_refl _, id, id, id, le_refl _⟩

theorem trans (a : Internal s t) (b : Internal t u) : Internal s u where
  pending := b.pending.trans a.pending
  ports := b.ports.trans a.ports
  su := b.su.trans a.su
  draws := b.draws.trans a.draws
  rst := b.rst.trans a.rst
  fack := b.fack.trans a.fack
  rreq := b.rreq.trans a.rreq
  rstb := b.rstb.trans a.rstb
  prdy := b.prdy.trans a.prdy
  pflt := b.pflt.trans a.pflt
  phase := b.phase.trans a.phase
  initTimer := b.initTimer.trans a.initTimer
  eus h := by
    obtain ⟨es, he⟩ := a.eus h
    obtain ⟨fs, hf⟩ := b.eus h
    refine ⟨es ++ fs, ?_⟩
    rw [hf, he, State.port, a.ports]
    simp [takePosts, State.port, List.foldl_append]
  buffers r := by
    rcases b.buffers r with h | h
    · exact (a.buffers r).imp (h.trans ·) (h.trans ·)
    · exact .inr h
  stack h := b.stack (a.stack h)
  owned h := (b.owned h).trans (a.owned h)
  used h := (b.used h).trans (a.used h)
  counts h := b.counts (a.counts h)
  empty h := b.empty (a.empty h)
  chains h := b.chains (a.chains h)
  entries := b.entries.trans a.entries

/-- An update that leaves jobs, owned counts, pool, routes, units, ports, settings, queue and input lines alone. -/
theorem of_outer (hp : t.pending = s.pending) (hq : t.ports = s.ports) (he : t.eus = s.eus) (hu : t.su = s.su)
    (hd : t.draws = s.draws) (hsp : t.sp = s.sp) (hj : t.jm.jobs = s.jm.jobs) (ho : t.jm.owned = s.jm.owned)
    (hr : t.rr.routes = s.rr.routes)
    (hi : t.pins.rst = s.pins.rst ∧ t.pins.fack = s.pins.fack ∧ t.pins.rreq = s.pins.rreq ∧ t.pins.rstb = s.pins.rstb ∧
      t.pins.prdy = s.pins.prdy ∧ t.pins.pflt = s.pins.pflt)
    (hs : s.du.stack.length ≤ Config.stackDepth → t.du.stack.length ≤ Config.stackDepth) : Internal s t := by
  obtain ⟨h1, h2, h3, h4, h5, h6⟩ := hi
  have job : ∀ k, t.job k = s.job k := fun k => by simp [State.job, hj]
  have eu : ∀ h, t.eu h = s.eu h := fun h => by simp [State.eu, he]
  have route : ∀ r, t.route r = s.route r := fun r => by simp [State.route, hr]
  have own : ∀ h, t.owned h = s.owned h := fun h => by simp [State.owned, ho]
  have use : ∀ h, t.used h = s.used h := fun h => by simp [State.used, hsp]
  exact ⟨hp, hq, hu, hd, h1, h2, h3, h4, h5, h6, by rw [hsp], by rw [hsp], fun h => ⟨[], eu h⟩,
    fun r => .inl (by rw [route]), hs, fun h => (own h).le, fun h => (use h).le,
    by simp only [poolCounts, segmentsHeld, segmentsOf, heldIds, job, use, hsp]; exact id, by simp only [noChains, job]; exact id,
    by simp only [chainsSound, job]; exact id, by simp only [poolEntries, job]; exact le_refl _⟩

/-- A unit takes a post. -/
theorem ofPost (h : HostId) (e : Event) (s : State) : Internal s (post h e s) := by
  refine ⟨rfl, rfl, rfl, rfl, rfl, rfl, rfl, rfl, rfl, rfl, rfl, rfl, fun x => ?_, fun _ => .inl rfl, id, fun _ => le_refl _,
    fun _ => le_refl _, id, id, id, le_refl _⟩
  by_cases hx : h = x
  · subst hx; exact ⟨[e], by simp [post, takePosts]⟩
  · exact ⟨[], by simp [post, takePosts, State.setEu_eu_ne, hx]⟩

theorem ofMark (h : HostId) (m : Option Nat) (s : State) : Internal s (s.setMark h m) :=
  ⟨rfl, rfl, rfl, rfl, rfl, rfl, rfl, rfl, rfl, rfl, rfl, rfl, fun _ => ⟨[], rfl⟩, fun _ => .inl rfl, id, fun _ => le_refl _,
    fun _ => le_refl _, id, id, id, le_refl _⟩

theorem ofClaim (c : ChannelId) (k : Option SlotId) (s : State) : Internal s (s.setClaim c k) :=
  of_outer rfl rfl rfl rfl rfl rfl rfl rfl rfl ⟨rfl, rfl, rfl, rfl, rfl, rfl⟩ id

/-- A route record changes, its buffer kept or emptied. -/
theorem ofRoute (r : RouteId) (x : Route) (s : State) (h : x.buffer = (s.route r).buffer ∨ x.buffer = []) :
    Internal s (s.setRoute r x) := by
  refine ⟨rfl, rfl, rfl, rfl, rfl, rfl, rfl, rfl, rfl, rfl, rfl, rfl, fun _ => ⟨[], rfl⟩, fun z => ?_, id, fun _ => le_refl _,
    fun _ => le_refl _, id, id, id, le_refl _⟩
  by_cases hz : r = z
  · subst hz; simpa using h
  · simp [State.setRoute_route_ne, hz]

/-- A job record changes, its owner, chain and queued entries kept; it enters FREE or ENDED with no chain only. -/
theorem ofJob (k : SlotId) (j : Job) (s : State) (ho : j.owner = (s.job k).owner) (hc : j.chain = (s.job k).chain)
    (hq : j.queued = (s.job k).queued)
    (hs : j.state = .free ∨ j.state = .ended → (s.job k).state = j.state ∨ j.chain = []) : Internal s (s.setJob k j) := by
  have own : ∀ z, ((s.setJob k j).job z).owner = (s.job z).owner := fun z => by
    rw [State.setJob_job]; split <;> simp_all
  have cha : ∀ z, ((s.setJob k j).job z).chain = (s.job z).chain := fun z => by
    rw [State.setJob_job]; split <;> simp_all
  have que : ∀ z, ((s.setJob k j).job z).queued = (s.job z).queued := fun z => by
    rw [State.setJob_job]; split <;> simp_all
  refine ⟨rfl, rfl, rfl, rfl, rfl, rfl, rfl, rfl, rfl, rfl, rfl, rfl, fun _ => ⟨[], rfl⟩, fun _ => .inl rfl, id, fun _ => le_refl _,
    fun _ => le_refl _, ?_, by simp only [noChains, cha]; exact id, by simp only [chainsSound, cha, que]; exact id,
    by simp only [poolEntries, cha]; exact le_refl _⟩
  simp only [poolCounts, segmentsHeld, segmentsOf, heldIds, own, cha]
  rintro ⟨h1, h2, h4, h3⟩
  refine ⟨h1, h2, h4, fun z hz => ?_⟩
  rw [State.setJob_job] at hz
  by_cases hk : k = z
  · subst hk
    rw [if_pos rfl] at hz
    rcases hs hz with e | e
    · exact h3 k (by rw [e]; exact hz)
    · rw [← hc]; exact e
  · rw [if_neg hk] at hz
    exact h3 z hz

end Internal

end Sys2Proof.Machine
end

