-- ==== Sys2Proof/Laws/Ops.lean ====
section
/-! SUPPORT. What each operation of Machine/Ops.lean can do, once: that it is `Internal`, and what it does to the one record it
is about. -/

namespace Sys2Proof.Machine

variable {s t : State}

/-- A run of operations over a list. -/
theorem Internal.foldl {α : Type} {f : State → α → State} (h : ∀ s x, Internal s (f s x)) (l : List α) (s : State) :
    Internal s (l.foldl f s) := by
  induction l generalizing s with
  | nil => exact .refl s
  | cons x l ih => exact (h s x).trans (ih (f s x))

/-! ## Events -/

theorem postLinkGroup_internal (e : Event) (s : State) : Internal s (postLinkGroup e s) :=
  .foldl (fun s h => by split; exacts [.ofPost h e s, .refl s]) _ s

theorem postStatusGroup_internal (e : Event) (s : State) : Internal s (postStatusGroup e s) :=
  .foldl (fun s h => by split; exacts [.ofPost h e s, .refl s]) _ s

theorem post_eu (h : HostId) (e : Event) (s : State) (x : HostId) :
    (post h e s).eu x = if h = x then takePost (s.port x).detached e (s.eu x) else s.eu x := by
  rw [post, State.setEu_eu]
  split
  · next hx => subst hx; rfl
  · rfl

/-- A post leaves everything but the units as it is. -/
theorem post_frame (h : HostId) (e : Event) (s : State) : post h e s = { s with eus := (post h e s).eus } := rfl

/-- A fold of posts to the members of a group leaves everything but the units as it is, and each member takes one post. -/
theorem postGroup_spec (m : EventUnit → Bool) (e : Event) (s : State) :
    let t := allHosts.foldl (fun s h => if m (s.eu h) then post h e s else s) s
    t = { s with eus := t.eus } ∧
      ∀ h, t.eu h = if m (s.eu h) then takePost (s.port h).detached e (s.eu h) else s.eu h := by
  have step : ∀ (u : State) (h : HostId), (if m (u.eu h) then post h e u else u) =
      { u with eus := (if m (u.eu h) then post h e u else u).eus } ∧
      ∀ x, (if m (u.eu h) then post h e u else u).eu x =
        if h = x ∧ m (u.eu x) then takePost (u.port x).detached e (u.eu x) else u.eu x := by
    intro u h
    split
    · next hm =>
      refine ⟨rfl, fun x => ?_⟩
      rw [post_eu]
      by_cases hx : h = x
      · subst hx; simp [hm]
      · simp [hx]
    · next hm =>
      refine ⟨rfl, fun x => ?_⟩
      by_cases hx : h = x
      · subst hx; simp [hm]
      · simp [hx]
  have run : ∀ (l : List HostId) (u : State), l.Nodup →
      (l.foldl (fun s h => if m (s.eu h) then post h e s else s) u =
        { u with eus := (l.foldl (fun s h => if m (s.eu h) then post h e s else s) u).eus }) ∧
      ∀ x, (l.foldl (fun s h => if m (s.eu h) then post h e s else s) u).eu x =
        if x ∈ l ∧ m (u.eu x) then takePost (u.port x).detached e (u.eu x) else u.eu x := by
    intro l
    induction l with
    | nil => intro u _; exact ⟨rfl, fun x => by simp⟩
    | cons h l ih =>
      intro u hn
      obtain ⟨hh, hl⟩ := List.nodup_cons.mp hn
      obtain ⟨f, g⟩ := step u h
      obtain ⟨f', g'⟩ := ih (if m (u.eu h) then post h e u else u) hl
      rw [List.foldl_cons]
      refine ⟨?_, fun x => ?_⟩
      · rw [f', f]
      · rw [g', g]
        have hp : (if m (u.eu h) then post h e u else u).port x = u.port x := by rw [f]; rfl
        rw [hp]
        by_cases hx : h = x
        · subst hx; simp [hh]
        · have : x ≠ h := fun e => hx e.symm
          simp [hx, this]
  obtain ⟨a, b⟩ := run allHosts s (by decide)
  refine ⟨a, fun h => ?_⟩
  rw [b h]
  have : h ∈ allHosts := by revert h; decide
  simp [this]

theorem postLinkGroup_frame (e : Event) (s : State) :
    postLinkGroup e s = { s with eus := (postLinkGroup e s).eus } :=
  (postGroup_spec (fun u => u.linkGroup) e s).1

theorem postLinkGroup_eu (e : Event) (s : State) (h : HostId) :
    (postLinkGroup e s).eu h = if (s.eu h).linkGroup then takePost (s.port h).detached e (s.eu h) else s.eu h :=
  (postGroup_spec (fun u => u.linkGroup) e s).2 h

theorem postStatusGroup_frame (e : Event) (s : State) :
    postStatusGroup e s = { s with eus := (postStatusGroup e s).eus } :=
  (postGroup_spec (fun u => u.statusGroup) e s).1

theorem postStatusGroup_eu (e : Event) (s : State) (h : HostId) :
    (postStatusGroup e s).eu h = if (s.eu h).statusGroup then takePost (s.port h).detached e (s.eu h) else s.eu h :=
  (postGroup_spec (fun u => u.statusGroup) e s).2 h

/-! ## Space waiters -/

theorem evaluateMark_internal (s : State) (h : HostId) : Internal s (evaluateMark s h) := by
  rw [evaluateMark]
  split
  · exact .refl s
  · split
    · exact (Internal.ofMark h none s).trans (.ofPost ..)
    · exact .refl s

theorem evaluateSpace_internal (s : State) : Internal s (evaluateSpace s) := .foldl evaluateMark_internal _ s

/-- The evaluation of a mark changes units and marks only. -/
theorem evaluateMark_frame (s : State) (h : HostId) :
    evaluateMark s h =
      { s with eus := (evaluateMark s h).eus, sp := { s.sp with marks := (evaluateMark s h).sp.marks } } := by
  rw [evaluateMark]
  split
  · rfl
  · split <;> rfl

/-- The evaluation of the space waiters changes units and marks only (R37). -/
theorem evaluateSpace_frame (s : State) :
    evaluateSpace s =
      { s with eus := (evaluateSpace s).eus, sp := { s.sp with marks := (evaluateSpace s).sp.marks } } := by
  have run : ∀ (l : List HostId) (u : State), l.foldl evaluateMark u =
      { u with eus := (l.foldl evaluateMark u).eus, sp := { u.sp with marks := (l.foldl evaluateMark u).sp.marks } } := by
    intro l
    induction l with
    | nil => intro u; rfl
    | cons h l ih => intro u; rw [List.foldl_cons, ih, evaluateMark_frame]
  exact run allHosts s

/-- With no mark there is nothing to evaluate. -/
theorem evaluateSpace_unmarked (s : State) (h : ∀ x, s.mark x = none) : evaluateSpace s = s := by
  have run : ∀ l : List HostId, l.foldl evaluateMark s = s := by
    intro l
    induction l with
    | nil => rfl
    | cons x l ih => rw [List.foldl_cons, evaluateMark, h x]; exact ih
  exact run allHosts

/-! ## Chains -/

/-- Counts over the slots when the record of one slot changes. -/
theorem held_move {k : SlotId} (h : ∀ z, z ≠ k → t.job z = s.job z) :
    segmentsHeld t + (s.job k).chain.length = segmentsHeld s + (t.job k).chain.length :=
  slot_sum_move (f := fun z => (t.job z).chain.length) (g := fun z => (s.job z).chain.length) k
    fun z hz => by simp only [h z hz]

theorem segmentsOf_move {k : SlotId} (h : ∀ z, z ≠ k → t.job z = s.job z) (x : HostId) :
    segmentsOf t x + (if (s.job k).owner = x then (s.job k).chain.length else 0) =
      segmentsOf s x + (if (t.job k).owner = x then (t.job k).chain.length else 0) :=
  slot_sum_move (f := fun z => if (t.job z).owner = x then (t.job z).chain.length else 0)
    (g := fun z => if (s.job z).owner = x then (s.job z).chain.length else 0) k fun z hz => by simp only [h z hz]

theorem entries_move {k : SlotId} (h : ∀ z, z ≠ k → t.job z = s.job z) :
    poolEntries t + chainEntries (s.job k).chain = poolEntries s + chainEntries (t.job k).chain :=
  slot_sum_move (f := fun z => chainEntries (t.job z).chain) (g := fun z => chainEntries (s.job z).chain) k
    fun z hz => by simp only [h z hz]

theorem heldIds_move {k : SlotId} (h : ∀ z, z ≠ k → t.job z = s.job z) (i : SegmentId) :
    (heldIds t).count i + ((s.job k).chain.map fun g => g.id).count i =
      (heldIds s).count i + ((t.job k).chain.map fun g => g.id).count i := by
  have e : ∀ u : State, (heldIds u).count i =
      (allSlots.map fun z => ((u.job z).chain.map fun g => g.id).count i).sum := fun u => by
    simp [List.count_flatten, Function.comp_def]
  have m := slot_sum_move (f := fun z => ((t.job z).chain.map fun g => g.id).count i)
    (g := fun z => ((s.job z).chain.map fun g => g.id).count i) k fun z hz => by simp only [h z hz]
  rw [← e t, ← e s] at m
  exact m

/-- No segment is there twice after a change of one slot's chain that brings no segment in. -/
theorem nodup_move {k : SlotId} (h : ∀ z, z ≠ k → t.job z = s.job z)
    (hf : ∀ i, t.sp.free.count i + ((t.job k).chain.map fun g => g.id).count i ≤
      s.sp.free.count i + ((s.job k).chain.map fun g => g.id).count i)
    (hs : (s.sp.free ++ heldIds s).Nodup) : (t.sp.free ++ heldIds t).Nodup := by
  refine List.nodup_iff_count_le_one.mpr fun i => ?_
  have a := List.nodup_iff_count_le_one.mp hs i
  have m := heldIds_move h i
  have f := hf i
  rw [List.count_append] at a ⊢
  generalize (heldIds t).count i = x at *
  generalize (heldIds s).count i = y at *
  omega

theorem length_le_segmentsOf (s : State) (k : SlotId) : (s.job k).chain.length ≤ segmentsOf s (s.job k).owner := by
  have := slot_le_sum (fun z => if (s.job z).owner = (s.job k).owner then (s.job z).chain.length else 0) k
  simpa using this

theorem entries_le_poolEntries (s : State) (k : SlotId) : chainEntries (s.job k).chain ≤ poolEntries s :=
  slot_le_sum (fun z => chainEntries (s.job z).chain) k

/-- The record of the job in slot `k` after its chain is discarded. -/
theorem discardChain_job (k z : SlotId) (s : State) :
    (discardChain k s).job z = if k = z then { s.job k with chain := [], queued := 0 } else s.job z :=
  State.setJob_job ..

theorem discardChain_used (k : SlotId) (s : State) (h : HostId) :
    (discardChain k s).used h =
      if (s.job k).owner = h then s.used (s.job k).owner - (s.job k).chain.length else s.used h := by
  show (upd s.sp.used (s.job k).owner
      (s.used (s.job k).owner - ((s.job k).chain.map fun g => g.id).length))[h] = _
  rw [upd_get, List.length_map]
  rfl

theorem discardChain_internal (k : SlotId) (s : State) : Internal s (discardChain k s) := by
  have other : ∀ z, z ≠ k → (discardChain k s).job z = s.job z := fun z hz => by
    rw [discardChain_job, if_neg (Ne.symm hz)]
  have self : (discardChain k s).job k = { s.job k with chain := [], queued := 0 } := by rw [discardChain_job, if_pos rfl]
  refine ⟨rfl, rfl, rfl, rfl, rfl, rfl, rfl, rfl, rfl, rfl, rfl, rfl, fun _ => ⟨[], rfl⟩, fun _ => .inl rfl, id, fun _ => le_refl _,
    fun h => ?_, ?_, ?_, ?_, ?_⟩
  · rw [discardChain_used]
    split
    · next e => subst e; exact Nat.sub_le ..
    · exact le_refl _
  · rintro ⟨h1, hn, h2, h3⟩
    refine ⟨?_, nodup_move other (fun i => ?_) hn, fun h => ?_, fun z hz => ?_⟩
    · have e := held_move other
      have f : (discardChain k s).sp.free.length = (s.job k).chain.length + s.sp.free.length := by
        simp [discardChain, freeSegments]
      rw [self] at e
      simp only [List.length_nil] at e
      omega
    · rw [self]
      simp [discardChain, freeSegments, List.count_append, Nat.add_comm]
    · have e := segmentsOf_move other h
      have l := length_le_segmentsOf s k
      rw [discardChain_used]
      rw [self] at e
      simp only [List.length_nil, ite_self] at e
      have := h2 h
      by_cases o : (s.job k).owner = h
      · subst o
        rw [if_pos rfl] at e ⊢
        omega
      · rw [if_neg o] at e ⊢
        omega
    · rw [discardChain_job] at hz ⊢
      split
      · rfl
      · next hk => rw [if_neg hk] at hz; exact h3 z hz
  · intro h z
    rw [discardChain_job]
    split
    · rfl
    · exact h z
  · intro h z
    rw [discardChain_job]
    split
    · simp [chainSound, chainEntries]
    · exact h z
  · have e := entries_move other
    rw [self] at e
    simp only [chainEntries, List.map_nil, List.sum_nil] at e
    omega

/-- The taking of a head entry: nothing when there is none, else the record loses its first entry. -/
theorem takeHead_internal (k : SlotId) (s : State) : Internal s (takeHead k s) := by
  rw [takeHead]
  split
  · exact .refl s
  · next g gs hc =>
    split
    · exact .refl s
    · next e he =>
      refine Internal.trans ?_ (evaluateSpace_internal _)
      set t := freeSegments (s.job k).owner [g.id]
        (s.setJob k { s.job k with chain := gs, queued := (s.job k).queued - 1 }) with ht
      have job : ∀ z, t.job z = if k = z then { s.job k with chain := gs, queued := (s.job k).queued - 1 } else s.job z :=
        fun z => State.setJob_job ..
      have other : ∀ z, z ≠ k → t.job z = s.job z := fun z hz => by rw [job, if_neg (Ne.symm hz)]
      have self : t.job k = { s.job k with chain := gs, queued := (s.job k).queued - 1 } := by rw [job, if_pos rfl]
      have used : ∀ h, t.used h = if (s.job k).owner = h then s.used (s.job k).owner - 1 else s.used h := fun h => by
        show (upd s.sp.used (s.job k).owner (s.used (s.job k).owner - 1))[h] = _
        rw [upd_get]; rfl
      refine ⟨rfl, rfl, rfl, rfl, rfl, rfl, rfl, rfl, rfl, rfl, rfl, rfl, fun _ => ⟨[], rfl⟩, fun _ => .inl rfl, id,
        fun _ => le_refl _, fun h => ?_, ?_, ?_, ?_, ?_⟩
      · rw [used]
        split
        · next o => subst o; exact Nat.sub_le ..
        · exact le_refl _
      · rintro ⟨h1, hn, h2, h3⟩
        refine ⟨?_, nodup_move other (fun i => ?_) hn, fun h => ?_, fun z hz => ?_⟩
        · have m := held_move other
          have f : t.sp.free.length = s.sp.free.length + 1 := by simp [ht, freeSegments]
          rw [self, hc] at m
          simp only [List.length_cons] at m
          omega
        · rw [self, hc]
          simp [ht, freeSegments, List.count_cons]
          omega
        · have m := segmentsOf_move other h
          have l := length_le_segmentsOf s k
          rw [used]
          rw [self] at m
          rw [hc] at m l
          simp only [List.length_cons] at m l
          have := h2 h
          by_cases o : (s.job k).owner = h
          · subst o
            simp only [if_true] at m ⊢
            omega
          · simp only [if_neg o] at m ⊢
            omega
        · rw [job] at hz ⊢
          split
          · next hk =>
            subst hk
            rw [if_pos rfl] at hz
            have := h3 k hz
            rw [hc] at this
            cases this
          · next hk => rw [if_neg hk] at hz; exact h3 z hz
      · intro h z
        have := h k
        rw [hc] at this
        cases this
      · intro h z
        rw [job]
        split
        · obtain ⟨⟨a, b⟩, c⟩ := h k
          rw [hc] at a b c
          refine ⟨⟨fun x hx => a x (List.mem_cons_of_mem _ hx), fun x hx => b x ?_⟩, ?_⟩
          · cases gs with
            | nil => cases hx
            | cons y ys => rw [List.dropLast_cons_of_ne_nil (List.cons_ne_nil _ _)]; exact List.mem_cons_of_mem _ hx
          · simp only [chainEntries, List.map_cons, List.sum_cons, he, List.length_singleton] at c ⊢
            omega
        · exact h z
      · have m := entries_move other
        rw [self, hc] at m
        simp only [chainEntries, List.map_cons, List.sum_cons, he, List.length_singleton] at m
        have : poolEntries t + 1 = poolEntries s := by unfold poolEntries chainEntries at *; omega
        omega
    · next e es hne he =>
      set t := s.setJob k { s.job k with
        chain := { g with taken := g.taken + 1, entries := es } :: gs, queued := (s.job k).queued - 1 } with ht
      have job : ∀ z, t.job z = if k = z then { s.job k with
          chain := { g with taken := g.taken + 1, entries := es } :: gs, queued := (s.job k).queued - 1 } else s.job z :=
        fun z => State.setJob_job ..
      have other : ∀ z, z ≠ k → t.job z = s.job z := fun z hz => by rw [job, if_neg (Ne.symm hz)]
      have self : t.job k = { s.job k with
          chain := { g with taken := g.taken + 1, entries := es } :: gs, queued := (s.job k).queued - 1 } := by
        rw [job, if_pos rfl]
      refine ⟨rfl, rfl, rfl, rfl, rfl, rfl, rfl, rfl, rfl, rfl, rfl, rfl, fun _ => ⟨[], rfl⟩, fun _ => .inl rfl, id,
        fun _ => le_refl _, fun _ => le_refl _, ?_, ?_, ?_, ?_⟩
      · rintro ⟨h1, hn, h2, h3⟩
        refine ⟨?_, nodup_move other (fun i => ?_) hn, fun h => ?_, fun z hz => ?_⟩
        · have m := held_move other
          rw [self, hc] at m
          simp only [List.length_cons] at m
          have f : t.sp.free = s.sp.free := rfl
          rw [f]
          omega
        · rw [self, hc]
          exact le_refl _
        · have m := segmentsOf_move other h
          rw [self, hc] at m
          simp only [List.length_cons] at m
          have f : t.used h = s.used h := rfl
          rw [f, h2 h]
          omega
        · rw [job] at hz ⊢
          split
          · next hk =>
            subst hk
            rw [if_pos rfl] at hz
            have := h3 k hz
            rw [hc] at this
            cases this
          · next hk => rw [if_neg hk] at hz; exact h3 z hz
      · intro h z
        have := h k
        rw [hc] at this
        cases this
      · intro h z
        rw [job]
        split
        · obtain ⟨⟨a, b⟩, c⟩ := h k
          rw [hc] at a b c
          have w : written { g with taken := g.taken + 1, entries := es } = written g := by
            simp only [written, he, List.length_cons]; omega
          refine ⟨⟨fun x hx => ?_, fun x hx => ?_⟩, ?_⟩
          · rcases List.mem_cons.mp hx with rfl | hx
            · exact ⟨fun e' => hne (by simpa using e'), by rw [w]; exact (a g List.mem_cons_self).2⟩
            · exact a x (List.mem_cons_of_mem _ hx)
          · cases gs with
            | nil => cases hx
            | cons y ys =>
              rw [List.dropLast_cons_of_ne_nil (List.cons_ne_nil _ _)] at hx b
              rcases List.mem_cons.mp hx with rfl | hx
              · rw [w]; exact b g List.mem_cons_self
              · exact b x (List.mem_cons_of_mem _ hx)
          · simp only [chainEntries, List.map_cons, List.sum_cons, he, List.length_cons] at c ⊢
            omega
        · exact h z
      · have m := entries_move other
        rw [self, hc] at m
        simp only [chainEntries, List.map_cons, List.sum_cons, he, List.length_cons] at m
        unfold poolEntries chainEntries at *
        omega

/-! ## Routes -/

theorem abortRoute_internal (k : SlotId) (s : State) : Internal s (abortRoute k s) := by
  rw [abortRoute]
  split
  · exact .refl s
  · exact .ofRoute _ _ _ (.inr rfl)

theorem freeRouteOf_internal (k : SlotId) (s : State) : Internal s (freeRouteOf k s) := by
  rw [freeRouteOf]
  split
  · exact .refl s
  · exact .ofRoute _ _ _ (.inr rfl)

theorem stopReplyTimer_internal (k : SlotId) (s : State) : Internal s (stopReplyTimer k s) := by
  rw [stopReplyTimer]
  split
  · exact .refl s
  · exact .ofRoute _ _ _ (.inl rfl)

/-- An operation on a job's route changes the route table only. -/
theorem abortRoute_frame (k : SlotId) (s : State) :
    abortRoute k s = { s with rr := { s.rr with routes := (abortRoute k s).rr.routes } } := by
  rw [abortRoute]; split <;> rfl

theorem freeRouteOf_frame (k : SlotId) (s : State) :
    freeRouteOf k s = { s with rr := { s.rr with routes := (freeRouteOf k s).rr.routes } } := by
  rw [freeRouteOf]; split <;> rfl

theorem stopReplyTimer_frame (k : SlotId) (s : State) :
    stopReplyTimer k s = { s with rr := { s.rr with routes := (stopReplyTimer k s).rr.routes } } := by
  rw [stopReplyTimer]; split <;> rfl

/-! ## Release and end -/

theorem releaseSlot_job (k z : SlotId) (s : State) :
    (releaseSlot k s).job z = if k = z then freeJob else s.job z := by
  have f := freeRouteOf_frame k s
  show (upd ((freeRouteOf k s).setOwned _ _).jm.jobs k freeJob)[z] = _
  rw [upd_get]
  split
  · rfl
  · rw [f]; rfl

theorem releaseSlot_gen (k z : SlotId) (s : State) :
    (releaseSlot k s).gen z = if k = z then s.gen k + 1 else s.gen z := by
  have f := freeRouteOf_frame k s
  show (upd ((freeRouteOf k s).setOwned _ _).jm.gens k (((freeRouteOf k s).setOwned _ _).gen k + 1))[z] = _
  rw [upd_get]
  split
  · rw [f]; rfl
  · rw [f]; rfl

theorem releaseSlot_owned (k : SlotId) (s : State) (h : HostId) :
    (releaseSlot k s).owned h = if (s.job k).owner = h then s.owned h - 1 else s.owned h := by
  have f := freeRouteOf_frame k s
  show (((freeRouteOf k s).setOwned (s.job k).owner ((freeRouteOf k s).owned (s.job k).owner - 1))).owned h = _
  rw [State.setOwned_owned]
  split
  · next e => subst e; rw [f]; rfl
  · rw [f]; rfl

/-- The release of a slot changes the job table and the route table only. -/
theorem releaseSlot_frame (k : SlotId) (s : State) :
    releaseSlot k s = { s with
      jm := { (releaseSlot k s).jm with nextSeq := s.jm.nextSeq }
      rr := { s.rr with routes := (releaseSlot k s).rr.routes } } := by
  show _ = _
  simp only [releaseSlot]
  rw [freeRouteOf_frame k s]
  rfl

/-- A slot that holds no chain is released. -/
theorem releaseSlot_internal (k : SlotId) (s : State) (hc : poolCounts s → (s.job k).chain = []) :
    Internal s (releaseSlot k s) := by
  have f := releaseSlot_frame k s
  have other : ∀ z, z ≠ k → (releaseSlot k s).job z = s.job z := fun z hz => by
    rw [releaseSlot_job, if_neg (Ne.symm hz)]
  have self : (releaseSlot k s).job k = freeJob := by rw [releaseSlot_job, if_pos rfl]
  have use : ∀ h, (releaseSlot k s).used h = s.used h := fun h => by rw [f]; rfl
  refine ⟨by rw [f], by rw [f], by rw [f], by rw [f], by rw [f], by rw [f], by rw [f], by rw [f], by rw [f], by rw [f],
    by rw [f], by rw [f], fun h => ⟨[], by rw [f]; rfl⟩, fun r => ?_, by rw [f]; exact id, fun h => ?_,
    fun h => (use h).le, ?_, ?_, ?_, ?_⟩
  · have e : (releaseSlot k s).route r = (freeRouteOf k s).route r := rfl
    rw [e]
    exact (freeRouteOf_internal k s).buffers r
  · rw [releaseSlot_owned]
    split
    · exact Nat.sub_le ..
    · exact le_refl _
  · intro c
    have hc := hc c
    obtain ⟨h1, hn, h2, h3⟩ := c
    refine ⟨?_, nodup_move other (fun i => ?_) hn, fun h => ?_, fun z hz => ?_⟩
    · have m := held_move other
      have e : (releaseSlot k s).sp.free = s.sp.free := by rw [f]
      rw [self, hc] at m
      simp only [freeJob, List.length_nil] at m
      rw [e]
      omega
    · have e : (releaseSlot k s).sp.free = s.sp.free := by rw [f]
      rw [self, hc, e]
      exact le_refl _
    · have m := segmentsOf_move other h
      have z0 : (if freeJob.owner = h then freeJob.chain.length else 0) = 0 := by split <;> rfl
      rw [self, hc, z0] at m
      simp only [List.length_nil, ite_self] at m
      rw [use, h2 h]
      omega
    · rw [releaseSlot_job] at hz ⊢
      split
      · rfl
      · next hk => rw [if_neg hk] at hz; exact h3 z hz
  · intro h z
    rw [releaseSlot_job]
    split
    · rfl
    · exact h z
  · intro h z
    rw [releaseSlot_job]
    split
    · simp [freeJob, chainSound, chainEntries]
    · exact h z
  · have m := entries_move other
    rw [self] at m
    simp only [freeJob, chainEntries, List.map_nil, List.sum_nil] at m
    unfold poolEntries chainEntries at *
    omega

/-- What `endJob` leaves in the slot: the ended record, or the cleared record of an orphan. -/
theorem endJob_job (k z : SlotId) (o : JobOutcome) (c : Cause) (s : State) :
    (endJob k o c s).job z =
      if k = z then
        if (s.job k).orphaned then freeJob
        else { s.job k with
          chain := [], queued := 0, state := .ended, outcome := some o, cause := some c, readySeq := none }
      else s.job z := by
  have f := stopReplyTimer_frame k (discardChain k s)
  have j : ∀ x, (stopReplyTimer k (discardChain k s)).job x = (discardChain k s).job x := fun x => by rw [f]; rfl
  simp only [endJob]
  rw [j k, discardChain_job, if_pos rfl]
  dsimp only
  split
  · rw [releaseSlot_job]
    split
    · rfl
    · next h => rw [State.setJob_job_ne _ _ _ _ h, j, discardChain_job, if_neg h]
  · rw [post_frame]
    show (State.setJob _ _ _).job z = _
    by_cases h : k = z
    · subst h; rw [State.setJob_job_same, if_pos rfl]
    · rw [State.setJob_job_ne _ _ _ _ h, j, discardChain_job, if_neg h, if_neg h]

theorem endJob_internal (k : SlotId) (o : JobOutcome) (c : Cause) (s : State) : Internal s (endJob k o c s) := by
  have j : (stopReplyTimer k (discardChain k s)).job k = { s.job k with chain := [], queued := 0 } := by
    rw [stopReplyTimer_frame]
    show (discardChain k s).job k = _
    rw [discardChain_job, if_pos rfl]
  have base := (discardChain_internal k s).trans (stopReplyTimer_internal k _)
  have ended : Internal s ((stopReplyTimer k (discardChain k s)).setJob k
      { (stopReplyTimer k (discardChain k s)).job k with
        state := .ended, outcome := some o, cause := some c, readySeq := none }) :=
    base.trans (.ofJob k _ _ rfl rfl rfl fun _ => .inr (by rw [j]))
  rw [endJob]
  split
  · exact ended.trans (releaseSlot_internal k _ fun _ => by rw [State.setJob_job_same, j])
  · exact ended.trans (.ofPost ..)

theorem endJobAlone_internal (k : SlotId) (o : JobOutcome) (c : Cause) (s : State) :
    Internal s (endJobAlone k o c s) :=
  (endJob_internal k o c s).trans (evaluateSpace_internal _)

end Sys2Proof.Machine
end

