-- ==== Sys2Proof/Laws/Dispatch.lean ====
section
/-! SUPPORT. What the Dispatch Unit's operations can do. `OffLink s t` adds to `Internal` that the link is not touched: of the Link
Engine only the dry-wait timer and the abandon list, of the Reply Router only the route table, and no job is made ACTIVE in
recovery. -/

namespace Sys2Proof.Machine

variable {s t u : State}

/-- From `s` to `t` the job table, the pool, the event units and the Dispatch Unit have acted, and the link has not. -/
structure OffLink (s t : State) : Prop extends Internal s t where
  pins : t.pins = s.pins
  le : t.le = { s.le with dryTimer := t.le.dryTimer, abandon := t.le.abandon }
  rr : t.rr = { s.rr with routes := t.rr.routes }
  idle : recovering s = true → s.du.active = none → t.du.active = none

namespace OffLink

theorem refl (s : State) : OffLink s s := ⟨.refl s, rfl, rfl, rfl, fun _ h => h⟩

theorem link (a : OffLink s t) : t.le.link = s.le.link := by rw [a.le]

theorem recovering (a : OffLink s t) : Machine.recovering t = Machine.recovering s := by
  rw [Machine.recovering, a.link]; rfl

theorem trans (a : OffLink s t) (b : OffLink t u) : OffLink s u where
  toInternal := a.toInternal.trans b.toInternal
  pins := b.pins.trans a.pins
  le := by rw [b.le, a.le]
  rr := by rw [b.rr, a.rr]
  idle h e := b.idle (a.recovering.trans h) (a.idle h e)

/-- An internal operation that leaves the Dispatch Unit, the Link Engine, the lines and all of RR but the routes alone. -/
theorem of_internal (a : Internal s t) (hd : t.du = s.du) (hl : t.le = s.le) (hp : t.pins = s.pins)
    (hr : t.rr = { s.rr with routes := t.rr.routes }) : OffLink s t :=
  ⟨a, hp, by rw [hl], hr, fun _ h => by rw [hd]; exact h⟩

/-- An update of the Dispatch Unit, the dry-wait timer, the abandon list and the next ordering number. -/
theorem of_du (hp : t.pending = s.pending) (hq : t.ports = s.ports) (he : t.eus = s.eus) (hu : t.su = s.su)
    (hd : t.draws = s.draws) (hsp : t.sp = s.sp) (hj : t.jm.jobs = s.jm.jobs) (ho : t.jm.owned = s.jm.owned)
    (hr : t.rr = s.rr) (hi : t.pins = s.pins)
    (hl : t.le = { s.le with dryTimer := t.le.dryTimer, abandon := t.le.abandon })
    (hs : s.du.stack.length ≤ Config.stackDepth → t.du.stack.length ≤ Config.stackDepth)
    (ha : Machine.recovering s = true → s.du.active = none → t.du.active = none) : OffLink s t :=
  ⟨.of_outer hp hq he hu hd hsp hj ho (by rw [hr]) (by rw [hi]; exact ⟨rfl, rfl, rfl, rfl, rfl, rfl⟩) hs, hi, hl,
    by rw [hr], ha⟩

theorem foldl {α : Type} {f : State → α → State} (h : ∀ s x, OffLink s (f s x)) (l : List α) (s : State) :
    OffLink s (l.foldl f s) := by
  induction l generalizing s with
  | nil => exact .refl s
  | cons x l ih => exact (h s x).trans (ih (f s x))

theorem ofJob (k : SlotId) (j : Job) (s : State) (ho : j.owner = (s.job k).owner) (hc : j.chain = (s.job k).chain)
    (hq : j.queued = (s.job k).queued)
    (hs : j.state = .free ∨ j.state = .ended → (s.job k).state = j.state ∨ j.chain = []) : OffLink s (s.setJob k j) :=
  of_internal (.ofJob k j s ho hc hq hs) rfl rfl rfl rfl

end OffLink

/-! ## The operations of Machine/Ops.lean, off the link -/

theorem post_offLink (h : HostId) (e : Event) (s : State) : OffLink s (post h e s) :=
  .of_internal (.ofPost h e s) rfl rfl rfl rfl

theorem postLinkGroup_offLink (e : Event) (s : State) : OffLink s (postLinkGroup e s) :=
  .of_internal (postLinkGroup_internal e s) (by rw [postLinkGroup_frame]) (by rw [postLinkGroup_frame])
    (by rw [postLinkGroup_frame]) (by rw [postLinkGroup_frame])

theorem postStatusGroup_offLink (e : Event) (s : State) : OffLink s (postStatusGroup e s) :=
  .of_internal (postStatusGroup_internal e s) (by rw [postStatusGroup_frame]) (by rw [postStatusGroup_frame])
    (by rw [postStatusGroup_frame]) (by rw [postStatusGroup_frame])

theorem evaluateSpace_offLink (s : State) : OffLink s (evaluateSpace s) :=
  .of_internal (evaluateSpace_internal s) (by rw [evaluateSpace_frame]) (by rw [evaluateSpace_frame])
    (by rw [evaluateSpace_frame]) (by rw [evaluateSpace_frame])

theorem discardChain_offLink (k : SlotId) (s : State) : OffLink s (discardChain k s) :=
  .of_internal (discardChain_internal k s) rfl rfl rfl rfl

theorem takeHead_offLink (k : SlotId) (s : State) : OffLink s (takeHead k s) := by
  have a := takeHead_internal k s
  have f : (takeHead k s).du = s.du ∧ (takeHead k s).le = s.le ∧ (takeHead k s).pins = s.pins ∧ (takeHead k s).rr = s.rr := by
    rw [takeHead]
    split
    · exact ⟨rfl, rfl, rfl, rfl⟩
    · split
      · exact ⟨rfl, rfl, rfl, rfl⟩
      · rw [evaluateSpace_frame]; exact ⟨rfl, rfl, rfl, rfl⟩
      · exact ⟨rfl, rfl, rfl, rfl⟩
  exact .of_internal a f.1 f.2.1 f.2.2.1 (by rw [f.2.2.2])

theorem abortRoute_offLink (k : SlotId) (s : State) : OffLink s (abortRoute k s) :=
  .of_internal (abortRoute_internal k s) (by rw [abortRoute_frame]) (by rw [abortRoute_frame]) (by rw [abortRoute_frame])
    (by rw [abortRoute_frame])

theorem releaseSlot_offLink (k : SlotId) (s : State) (hc : poolCounts s → (s.job k).chain = []) :
    OffLink s (releaseSlot k s) :=
  .of_internal (releaseSlot_internal k s hc) (by rw [releaseSlot_frame]) (by rw [releaseSlot_frame])
    (by rw [releaseSlot_frame]) (by rw [releaseSlot_frame])

/-- The end of a job changes the job table, the pool, the route table and the units only. -/
theorem endJob_frame (k : SlotId) (o : JobOutcome) (c : Cause) (s : State) :
    endJob k o c s = { s with
      eus := (endJob k o c s).eus
      jm := { (endJob k o c s).jm with nextSeq := s.jm.nextSeq }
      sp := { (endJob k o c s).sp with phase := s.sp.phase, initTimer := s.sp.initTimer, marks := s.sp.marks }
      rr := { s.rr with routes := (endJob k o c s).rr.routes } } := by
  simp only [endJob]
  split
  · rw [releaseSlot_frame, stopReplyTimer_frame]; rfl
  · rw [post_frame, stopReplyTimer_frame]; rfl

theorem endJob_offLink (k : SlotId) (o : JobOutcome) (c : Cause) (s : State) : OffLink s (endJob k o c s) :=
  .of_internal (endJob_internal k o c s) (by rw [endJob_frame]) (by rw [endJob_frame]) (by rw [endJob_frame])
    (by rw [endJob_frame])

theorem endJobAlone_offLink (k : SlotId) (o : JobOutcome) (c : Cause) (s : State) : OffLink s (endJobAlone k o c s) :=
  (endJob_offLink k o c s).trans (evaluateSpace_offLink _)

/-! ## Changes of the active job -/

/-- A job becomes ACTIVE outside recovery. -/
theorem makeActive_offLink (k : SlotId) (s : State) (h : recovering s = false) : OffLink s (makeActive k s) :=
  (OffLink.ofJob k { s.job k with state := .active, turn := 0, readySeq := none } s rfl rfl rfl (by simp)).trans
    (.of_du rfl rfl rfl rfl rfl rfl rfl rfl rfl rfl rfl id fun e => by
      rw [show recovering (s.setJob k _) = recovering s from rfl, h] at e; cases e)

theorem resumeTop_offLink (k : SlotId) (s : State) (h : recovering s = false) : OffLink s (resumeTop k s) :=
  (OffLink.ofJob k { s.job k with state := .active, turn := 0 } s rfl rfl rfl (by simp)).trans
    (.of_du rfl rfl rfl rfl rfl rfl rfl rfl rfl rfl rfl
      (fun l => (List.length_dropLast.trans_le (Nat.sub_le ..)).trans l) fun e => by
      rw [show recovering (s.setJob k _) = recovering s from rfl, h] at e; cases e)

theorem joinReady_offLink (k : SlotId) (s : State) : OffLink s (joinReady k s) :=
  (OffLink.ofJob k { s.job k with state := .ready, readySeq := some s.jm.nextSeq, seqTaken := some s.jm.nextSeq } s
    rfl rfl rfl (by simp)).trans
    (.of_du rfl rfl rfl rfl rfl rfl rfl rfl rfl rfl rfl id fun _ h => h)

theorem dropActive_offLink (s : State) : OffLink s (dropActive s) :=
  .of_du rfl rfl rfl rfl rfl rfl rfl rfl rfl rfl rfl id fun _ _ => rfl

theorem releaseClaim_offLink (k : SlotId) (s : State) : OffLink s (releaseClaim k s) := by
  rw [releaseClaim]
  split
  · exact .of_du rfl rfl rfl rfl rfl rfl rfl rfl rfl rfl rfl id fun _ h => h
  · exact .refl s

theorem startDryWait_offLink (s : State) : OffLink s (startDryWait s) :=
  .of_du rfl rfl rfl rfl rfl rfl rfl rfl rfl rfl rfl id fun _ h => h

/-- A push, with room on the stack. -/
theorem pushActive_offLink (a : SlotId) (s : State) (h : s.du.stack.length < Config.stackDepth) :
    OffLink s (pushActive a s) :=
  (OffLink.ofJob a { s.job a with state := .suspended } s rfl rfl rfl (by simp)).trans
    (.of_du rfl rfl rfl rfl rfl rfl rfl rfl rfl rfl rfl
      (fun _ => (by simpa using h : (s.du.stack ++ [a]).length ≤ _)) fun _ _ => rfl)

/-! ## Decisions -/

/-- A preemption makes the preemptor ACTIVE over the pushed job (R55). -/
theorem preempt_spec {a : SlotId} (h : preempt s a = some t) :
    ∃ k, preemptor s a = some k ∧ bestAdmissible s (some a) = some k ∧ s.du.stack.length < 3 ∧
      (s.job a).priority < (s.job k).priority ∧ s.su.settings.preemptFloor ≤ (s.job k).priority.val ∧
      t = makeActive k (pushActive a s) := by
  rw [preempt, Option.map_eq_some_iff] at h
  obtain ⟨k, hk, rfl⟩ := h
  refine ⟨k, hk, ?_⟩
  rw [preemptor] at hk
  split at hk
  · cases hk
  · next k' hb =>
    split at hk
    · next c => cases hk; exact ⟨hb, c.1, c.2.1, c.2.2, rfl⟩
    · cases hk

theorem preempt_offLink {a : SlotId} (h : preempt s a = some t) (hr : recovering s = false) : OffLink s t := by
  obtain ⟨k, -, -, l, -, -, rfl⟩ := preempt_spec h
  exact (pushActive_offLink a s l).trans (makeActive_offLink k _ hr)

theorem yieldTurn_offLink {a : SlotId} (h : yieldTurn s a = some t) (hr : recovering s = false) : OffLink s t := by
  rw [yieldTurn, Option.map_eq_some_iff] at h
  obtain ⟨k, -, rfl⟩ := h
  have stop : OffLink (joinReady a s) { joinReady a s with le := { (joinReady a s).le with dryTimer := none } } :=
    .of_du rfl rfl rfl rfl rfl rfl rfl rfl rfl rfl rfl id fun _ h => h
  exact ((joinReady_offLink a s).trans stop).trans (makeActive_offLink k _ hr)

theorem breakPoint_offLink {a : SlotId} (h : breakPoint s a = some t) : OffLink s t := by
  rw [breakPoint] at h
  split at h
  · cases h
  · next hr =>
    have hr : recovering s = false := by simpa using hr
    split at h
    · next hp => cases h; exact preempt_offLink hp hr
    · exact yieldTurn_offLink h hr

theorem awaitReply_offLink (k : SlotId) (r : RouteId) (s : State) : OffLink s (awaitReply k r s) :=
  (OffLink.ofJob k { s.job k with state := .awaitReply } s rfl rfl rfl (by simp)).trans
    (.of_internal (.ofRoute r _ _ (.inl rfl)) rfl rfl rfl rfl)

theorem completeTransmission_offLink (k : SlotId) (s : State) : OffLink s (completeTransmission k s) := by
  have a := (releaseClaim_offLink k s).trans (dropActive_offLink _)
  rw [completeTransmission]
  split
  · exact a.trans (endJobAlone_offLink ..)
  · split
    · exact a.trans (awaitReply_offLink ..)
    · exact a.trans (endJobAlone_offLink ..)

theorem leavingDecision_offLink (s : State) : OffLink s (leavingDecision s) := by
  rw [leavingDecision]
  split
  · exact .refl s
  · next h =>
    have h : recovering s = false := by simpa using h
    split
    · exact .refl s
    · exact makeActive_offLink _ s h
    · exact resumeTop_offLink _ s h
    · split
      · exact makeActive_offLink _ s h
      · exact resumeTop_offLink _ s h

theorem settle_offLink (n : Nat) (s : State) : OffLink s (settle n s) := by
  induction n generalizing s with
  | zero => exact .refl s
  | succ n ih =>
    rw [settle]
    split
    · exact .refl s
    · split
      · exact .refl s
      · split
        · exact ((completeTransmission_offLink _ s).trans (leavingDecision_offLink _)).trans (ih _)
        · split
          · dsimp only
            split
            · exact startDryWait_offLink s
            · next h => exact ((startDryWait_offLink s).trans (breakPoint_offLink h)).trans (ih _)
          · exact .refl s

theorem settled_offLink (s : State) : OffLink s (settled s) := settle_offLink _ s

theorem leaveLink_offLink (s : State) : OffLink s (leaveLink s) := (leavingDecision_offLink s).trans (settled_offLink _)

theorem closeDecision_offLink (s : State) : OffLink s (closeDecision s) :=
  .of_du rfl rfl rfl rfl rfl rfl rfl rfl rfl rfl rfl id fun _ h => h

theorem respondEligible_offLink (s : State) : OffLink s (respondEligible s) := by
  rw [respondEligible]
  split
  · exact .refl s
  · next h =>
    have h : recovering s = false := by simpa using h
    split
    · split
      · exact (closeDecision_offLink s).trans (leaveLink_offLink _)
      · split
        · exact .refl s
        · exact (makeActive_offLink _ s h).trans (settled_offLink _)
    · split
      · split
        · exact .refl s
        · next hp => exact (preempt_offLink hp h).trans (settled_offLink _)
      · exact .refl s

theorem enterReady_offLink (k : SlotId) (s : State) : OffLink s (enterReady k s) := by
  rw [enterReady]
  split
  · exact joinReady_offLink k s
  · exact (joinReady_offLink k s).trans (respondEligible_offLink _)

/-! ## Closing and cancelling -/

theorem removeFromDispatch_offLink (k : SlotId) (s : State) : OffLink s (removeFromDispatch k s) := by
  have cut : ∀ u : State, OffLink u { u with du := { u.du with ready := u.du.ready.erase k, stack := u.du.stack.erase k } } :=
    fun u => .of_du rfl rfl rfl rfl rfl rfl rfl rfl rfl rfl rfl (fun l => List.length_erase_le.trans l) fun _ h => h
  rw [removeFromDispatch]
  split
  · exact (dropActive_offLink s).trans (cut _)
  · exact cut s

theorem endUnused_offLink (k : SlotId) (s : State) : OffLink s (endUnused k s) := by
  have cut : OffLink s { s with du := { s.du with ready := s.du.ready.erase k } } :=
    .of_du rfl rfl rfl rfl rfl rfl rfl rfl rfl rfl rfl id fun _ h => h
  exact (cut.trans (abortRoute_offLink k _)).trans (endJobAlone_offLink ..)

theorem closeJob_offLink (k : SlotId) (s : State) : OffLink s (closeJob k s) := by
  have close : OffLink s (s.setJob k { s.job k with closed := true }) := .ofJob k _ s rfl rfl rfl fun _ => .inl rfl
  rw [closeJob]
  refine close.trans ?_
  split
  · split
    · exact endUnused_offLink ..
    · exact enterReady_offLink ..
  · split
    · exact endUnused_offLink ..
    · exact enterReady_offLink ..
  · split
    · exact endUnused_offLink ..
    · exact .refl _
  · exact settled_offLink _
  all_goals exact .refl _

theorem cancelJob_offLink (k : SlotId) (c : Cause) (s : State) : OffLink s (cancelJob k c s) := by
  have out := (removeFromDispatch_offLink k s).trans (abortRoute_offLink k _)
  rw [cancelJob]
  split
  · have gone := out.trans (discardChain_offLink k _)
    have mark := gone.trans (OffLink.ofJob k { (discardChain k (abortRoute k (removeFromDispatch k s))).job k with
      state := .cancelling } _ rfl rfl rfl (by simp))
    exact mark.trans (.of_du rfl rfl rfl rfl rfl rfl rfl rfl rfl rfl rfl id fun _ h => h)
  · exact out.trans (endJob_offLink ..)

end Sys2Proof.Machine
end

