-- ==== Sys2Proof/Laws/Link.lean ====
section
/-! SUPPORT. What the Link Engine's operations at a forward boundary can do: that they are `Internal`, that they leave the link's
own items in step with the link state, and that the order of work leaves nothing to do. -/

namespace Sys2Proof.Machine

variable {s t : State}

/-- What holds of the link's items at a forward boundary: no offer, no phase, no recovery, RST released. -/
structure AtBoundary (s : State) : Prop where
  latch : s.le.latch = none
  ack : s.le.ackTimer = none
  rgnt : s.pins.rgnt = false
  rev : s.le.revIdleTimer = none
  lrst : s.pins.lrst = false
  wake : s.le.wakeTimer = none
  pulse : s.le.pulseTimer = none
  stall : s.le.stallTimer.isSome = true ↔ s.le.stall = .timing
  ld : s.pins.ldDriven = true
  rst : s.pins.rst = false

theorem AtBoundary.offLink (b : AtBoundary s) (a : OffLink s t) : AtBoundary t := by
  obtain ⟨h1, h2, h3, h4, h5, h6, h7, h8, h9, h10⟩ := b
  constructor <;> (try rw [a.le]) <;> (try rw [a.pins]) <;> assumption

/-! ## Offers, stalls and grants -/

/-- The end of a stall touches stall record, stall timer and event units only (R90). -/
theorem endStall_frame (s : State) :
    endStall s = { s with eus := (endStall s).eus, le := { s.le with stall := .none, stallTimer := none } } := by
  rw [endStall]
  split
  · rfl
  · rfl
  · rw [postLinkGroup_frame]

theorem endStall_internal (s : State) : Internal s (endStall s) := by
  have cut : Internal s { s with le := { s.le with stall := .none, stallTimer := none } } :=
    .of_outer rfl rfl rfl rfl rfl rfl rfl rfl rfl ⟨rfl, rfl, rfl, rfl, rfl, rfl⟩ id
  rw [endStall]
  split
  · exact cut
  · exact cut
  · exact cut.trans (postLinkGroup_internal _ _)

theorem makeOffer_internal (o : Offer) (s : State) : Internal s (makeOffer o s) :=
  (endStall_internal s).trans (.of_outer rfl rfl rfl rfl rfl rfl rfl rfl rfl ⟨rfl, rfl, rfl, rfl, rfl, rfl⟩ id)

/-- What an offer does to the link and the lines (R73). -/
theorem makeOffer_link (o : Offer) (s : State) :
    (makeOffer o s).le = { s.le with
        link := .sending, latch := some o, ackTimer := some s.su.settings.ackTime, stall := .none, stallTimer := none } ∧
      (makeOffer o s).pins = { s.pins with ld := o.byte, lkind := o.kind, fstb := !s.pins.fstb } := by
  rw [makeOffer, endStall_frame]
  exact ⟨rfl, rfl⟩

theorem makeOffer_linkSound (o : Offer) (b : AtBoundary s) : linkSound (makeOffer o s) := by
  obtain ⟨h1, h2, h3, h4, h5, h6, h7, h8, h9, h10⟩ := b
  obtain ⟨e, f⟩ := makeOffer_link o s
  rw [linkSound, e, f]
  simp [h3, h4, h5, h6, h7, h9, h10]

theorem beginJob_offLink (k : SlotId) (s : State) : OffLink s (beginJob k s) := by
  rw [beginJob]
  split
  · exact .refl s
  · exact (OffLink.ofJob k { s.job k with begun := true } s rfl rfl rfl fun _ => .inl rfl).trans
      (.of_du rfl rfl rfl rfl rfl rfl rfl rfl rfl rfl rfl id fun _ h => h)

theorem offerEntry_offLink (k : SlotId) (s : State) : OffLink s (beginJob k (takeHead k s)) :=
  (takeHead_offLink k s).trans (beginJob_offLink k _)

theorem offerEntry_internal (k : SlotId) (kind : ByteKind) (b : Byte) (s : State) : Internal s (offerEntry k kind b s) :=
  (offerEntry_offLink k s).toInternal.trans (makeOffer_internal _ _)

theorem grantReverse_internal (s : State) : Internal s (grantReverse s) :=
  .of_outer rfl rfl rfl rfl rfl rfl rfl rfl rfl ⟨rfl, rfl, rfl, rfl, rfl, rfl⟩ id

theorem grantReverse_linkSound (b : AtBoundary s) : linkSound (grantReverse s) := by
  obtain ⟨h1, h2, h3, h4, h5, h6, h7, h8, h9, h10⟩ := b
  simp [linkSound, grantReverse, h1, h2, h5, h6, h7, h8, h10]

theorem holdOff_internal (s : State) : Internal s (holdOff s) := by
  rw [holdOff]
  split <;> exact .of_outer rfl rfl rfl rfl rfl rfl rfl rfl rfl ⟨rfl, rfl, rfl, rfl, rfl, rfl⟩ id

theorem holdOff_linkSound (b : AtBoundary s) : linkSound (holdOff s) := by
  obtain ⟨h1, h2, h3, h4, h5, h6, h7, h8, h9, h10⟩ := b
  simp only [holdOff]
  split <;> rename_i hs <;> simp [linkSound, h1, h2, h3, h4, h5, h6, h7, h8, h9, h10, hs]

theorem goIdle_internal (s : State) : Internal s (goIdle s) :=
  (endStall_internal s).trans (.of_outer rfl rfl rfl rfl rfl rfl rfl rfl rfl ⟨rfl, rfl, rfl, rfl, rfl, rfl⟩ id)

/-- What going idle does: the stall ends and the link is IDLE (R78 step 6, R90). -/
theorem goIdle_frame (s : State) :
    goIdle s = { s with
      eus := (goIdle s).eus, le := { s.le with link := .idle, stall := .none, stallTimer := none } } := by
  simp only [goIdle]
  rw [endStall_frame]

theorem goIdle_linkSound (b : AtBoundary s) : linkSound (goIdle s) := by
  obtain ⟨h1, h2, h3, h4, h5, h6, h7, h8, h9, h10⟩ := b
  rw [goIdle_frame]
  simp [linkSound, h1, h2, h3, h4, h5, h6, h7, h9, h10]

/-- With nothing in progress, going idle in IDLE changes nothing. -/
theorem goIdle_idle (s : State) (h : s.le.link = .idle) (hs : s.le.stall = .none) (ht : s.le.stallTimer = none) :
    goIdle s = s := by
  obtain ⟨_, _, _, _, _, _, le, _, _, _, _⟩ := s
  obtain ⟨⟩ := le
  simp only at h hs ht
  subst h hs ht
  rfl

/-! ## The order of work -/

theorem takeBreak_offLink (a : SlotId) (s : State) : OffLink s (takeBreak a s) := by
  simp only [takeBreak]
  split
  · exact (takeHead_offLink a s).trans (settled_offLink _)
  · next h => exact ((takeHead_offLink a s).trans (breakPoint_offLink h)).trans (settled_offLink _)

theorem sendForward_internal (s : State) : Internal s (sendForward s) := by
  rw [sendForward]
  split
  · split <;> exact makeOffer_internal ..
  · split
    · split
      · exact offerEntry_internal ..
      · exact makeOffer_internal ..
    · split
      · exact offerEntry_internal ..
      · exact makeOffer_internal ..
    · exact goIdle_internal s
    · exact goIdle_internal s

theorem offerEntry_linkSound (k : SlotId) (kind : ByteKind) (b : Byte) (h : AtBoundary s) :
    linkSound (offerEntry k kind b s) :=
  makeOffer_linkSound _ (h.offLink (offerEntry_offLink k s))

theorem sendForward_linkSound (b : AtBoundary s) : linkSound (sendForward s) := by
  rw [sendForward]
  split
  · split <;> exact makeOffer_linkSound _ b
  · split
    · split
      · exact offerEntry_linkSound _ _ _ b
      · exact makeOffer_linkSound _ b
    · split
      · exact offerEntry_linkSound _ _ _ b
      · exact makeOffer_linkSound _ b
    · exact goIdle_linkSound b
    · exact goIdle_linkSound b

theorem orderOfWork_internal (n : Nat) (s : State) : Internal s (orderOfWork n s) := by
  induction n generalizing s with
  | zero => exact goIdle_internal s
  | succ n ih =>
    rw [orderOfWork]
    split
    · exact grantReverse_internal s
    · split
      · exact (takeBreak_offLink _ s).toInternal.trans (ih _)
      all_goals
        split
        · split
          · exact holdOff_internal s
          · exact sendForward_internal s
        · exact goIdle_internal s

theorem orderOfWork_linkSound (n : Nat) (b : AtBoundary s) : linkSound (orderOfWork n s) := by
  induction n generalizing s with
  | zero => exact goIdle_linkSound b
  | succ n ih =>
    rw [orderOfWork]
    split
    · exact grantReverse_linkSound b
    · split
      · exact ih (b.offLink (takeBreak_offLink _ s))
      all_goals
        split
        · split
          · exact holdOff_linkSound b
          · exact sendForward_linkSound b
        · exact goIdle_linkSound b

theorem applyOrder_internal (s : State) : Internal s (applyOrder s) := orderOfWork_internal _ s

theorem applyOrder_linkSound (b : AtBoundary s) : linkSound (applyOrder s) := orderOfWork_linkSound _ b

theorem boundaryWork_internal (s : State) : Internal s (boundaryWork s) := by
  rw [boundaryWork]
  split
  · exact applyOrder_internal s
  · exact applyOrder_internal s
  all_goals exact .refl s

/-- A sound link in IDLE or WAITING is at a boundary. -/
theorem linkSound.atBoundary (h : linkSound s) (l : s.le.link = .idle ∨ s.le.link = .waiting) : AtBoundary s := by
  obtain ⟨h1, h2, h3, h4, h5, h6, h7, h8, h9, h10, h11⟩ := h
  have hr : s.pins.rst = false := by
    by_contra c
    have := h11 (by simpa using c)
    rcases l with e | e <;> rw [e] at this <;> cases this
  rcases l with e | e <;> rw [e] at h1 h2 h3 h4 h5 h6 h7 h10 <;> simp [hr] at h1 h2 h3 h4 h5 h6 h7 h10 <;>
    exact ⟨h1, h2, h3, h4, h5, h6, h7, h8, h10, hr⟩

theorem boundaryWork_linkSound (h : linkSound s) : linkSound (boundaryWork s) := by
  rw [boundaryWork]
  split
  · next l => exact applyOrder_linkSound (h.atBoundary (.inl l))
  · next l => exact applyOrder_linkSound (h.atBoundary (.inr l))
  all_goals exact h

/-! ## Nothing is left to do -/

/-- The taking of a head entry leaves the pool one entry fewer (R26). -/
theorem takeHead_entries {k : SlotId} {e : Entry} (h : headEntry s k = some e) :
    poolEntries (takeHead k s) + 1 = poolEntries s := by
  rw [headEntry] at h
  split at h
  · cases h
  · next g gs hc =>
    simp only [takeHead, hc]
    split
    · next he => rw [he] at h; cases h
    · next x he =>
      have f : ∀ u : State, poolEntries (evaluateSpace u) = poolEntries u := fun u => by rw [evaluateSpace_frame]; rfl
      rw [f]
      have m := entries_move (k := k) (s := s) (t := freeSegments (s.job k).owner [g.id]
        (s.setJob k { s.job k with chain := gs, queued := (s.job k).queued - 1 })) fun z hz =>
          State.setJob_job_ne _ _ _ _ (Ne.symm hz)
      rw [show (freeSegments (s.job k).owner [g.id]
        (s.setJob k { s.job k with chain := gs, queued := (s.job k).queued - 1 })).job k =
          { s.job k with chain := gs, queued := (s.job k).queued - 1 } from State.setJob_job_same .., hc] at m
      simp only [chainEntries, List.map_cons, List.sum_cons, he, List.length_singleton] at m
      unfold poolEntries chainEntries at *
      omega
    · next x es _ he =>
      have m := entries_move (k := k) (s := s) (t := s.setJob k { s.job k with
        chain := { g with taken := g.taken + 1, entries := es } :: gs, queued := (s.job k).queued - 1 }) fun z hz =>
          State.setJob_job_ne _ _ _ _ (Ne.symm hz)
      rw [State.setJob_job_same, hc] at m
      simp only [chainEntries, List.map_cons, List.sum_cons, he, List.length_cons] at m
      unfold poolEntries chainEntries at *
      omega

theorem takeBreak_entries {a : SlotId} {e : Entry} (h : headEntry s a = some e) :
    poolEntries (takeBreak a s) + 1 ≤ poolEntries s := by
  have m := takeHead_entries h
  have l : poolEntries (takeBreak a s) ≤ poolEntries (takeHead a s) := by
    simp only [takeBreak]
    split
    · exact (settled_offLink _).entries
    · next hb => exact ((breakPoint_offLink hb).trans (settled_offLink _)).entries
  omega

/-- The order of work, given one round more than there are entries, leaves nothing to do (R77, R78). -/
theorem orderOfWork_done (n : Nat) (h : poolEntries s < n) : nothingToDo (orderOfWork n s) := by
  induction n generalizing s with
  | zero => omega
  | succ n ih =>
    rw [orderOfWork]
    split
    · left; simp [grantReverse]
    · next hr =>
      have idle : forwardWork s = false → nothingToDo (goIdle s) := fun hf => by
        simp only [forwardWork, Bool.or_eq_false_iff, Bool.not_eq_false', List.isEmpty_iff,
          Option.isSome_eq_false_iff, Option.isNone_iff_eq_none] at hf
        right; left
        rw [goIdle_frame]
        exact ⟨rfl, by simpa using hr, hf.1, hf.2, rfl, rfl⟩
      have hold : ∀ (_ : forwardWork s = true) (_ : (!s.pins.prdy || s.pins.pflt) = true)
          (_ : ∀ a, activeHead s ≠ some (a, .brk)), nothingToDo (holdOff s) := fun hf hp hb => by
        right; right
        have p : s.pins.prdy = false ∨ s.pins.pflt = true := by simpa using hp
        have q : s.pins.rreq = false := by simpa using hr
        rw [holdOff]
        split <;> rename_i hs
        · exact ⟨rfl, q, hb, hf, p, by simp⟩
        · exact ⟨rfl, q, hb, hf, p, by rw [hs]; simp⟩
        · exact ⟨rfl, q, hb, hf, p, by rw [hs]; simp⟩
      have send : ∀ (_ : forwardWork s = true) (_ : ∀ a, activeHead s ≠ some (a, .brk)), nothingToDo (sendForward s) :=
        fun hf hb => by
        have off : ∀ (o : Offer) (u : State), nothingToDo (makeOffer o u) := fun o u => by
          left; rw [(makeOffer_link o u).1]; simp
        rw [sendForward]
        split
        · split <;> exact off ..
        · next ha =>
          split
          · split
            · exact off ..
            · exact off ..
          · split
            · exact off ..
            · exact off ..
          · next e => exact absurd e (hb _)
          · next e => simp [forwardWork, ha, e] at hf
      split
      · next a e =>
        refine ih ?_
        have he : headEntry s a = some .brk := by
          rw [activeHead] at e
          split at e
          · cases e
          · rw [Option.map_eq_some_iff] at e
            obtain ⟨x, hx, hy⟩ := e
            cases hy
            exact hx
        have := takeBreak_entries he
        omega
      all_goals
        next e =>
        have hb : ∀ a, activeHead s ≠ some (a, .brk) := fun a c => by rw [e] at c; cases c
        split
        · next hf =>
          split
          · next hp => exact hold hf hp hb
          · exact send hf hb
        · next hf => exact idle (by simpa using hf)

theorem applyOrder_done (s : State) : nothingToDo (applyOrder s) := orderOfWork_done _ (Nat.lt_succ_self _)

/-- The order of work changes nothing where it has nothing to do. -/
theorem boundaryWork_of_nothingToDo (h : nothingToDo s) : boundaryWork s = s := by
  obtain ⟨h1, h2⟩ | ⟨hl, hr, ha, hh, hs, ht⟩ | ⟨hl, hr, hb, hf, hp, hs⟩ := h
  · rw [boundaryWork]
    split
    · contradiction
    · contradiction
    all_goals rfl
  · have hf : forwardWork s = false := by simp [forwardWork, ha, hh]
    rw [boundaryWork, hl, applyOrder, orderOfWork, hr, hh, hf]
    exact goIdle_idle s hl hs ht
  · have hw : holdOff s = s := by
      obtain ⟨_, _, _, _, _, _, le, _, _, _, _⟩ := s
      obtain ⟨l, _, _, _, st, _, _, _, _, _, _, _, _⟩ := le
      cases hl
      cases st
      · exact absurd rfl hs
      · rfl
      · rfl
    have hq : (!s.pins.prdy || s.pins.pflt) = true := by
      obtain hp | hp := hp <;> simp [hp]
    rw [boundaryWork, hl, applyOrder, orderOfWork, hr]
    cases hh : activeHead s with
    | none => simp [hf, hq, hw]
    | some x =>
      obtain ⟨a, e⟩ := x
      cases e with
      | brk => exact absurd hh (hb a)
      | data b => simp [hf, hq, hw]
      | control b => simp [hf, hq, hw]

end Sys2Proof.Machine
end

