-- ==== Sys2Proof/Laws/Requests.lean ====
section
/-! SUPPORT. What serving a request, a handover of the lease, the storing of reply bytes and the job fates of a link reset can do. -/

namespace Sys2Proof.Machine

variable {s t : State}

/-! ## Serving a request -/

/-- An answer changes its own port and nothing else. -/
theorem answer_frame (h : HostId) (code : AnswerCode) (payload : List Byte) (store : Bool) (s : State) :
    answer h code payload store s = { s with ports := (answer h code payload store s).ports } := rfl

/-- The port after an answer: in ANSWER with the frame just built, stored when asked. -/
theorem answer_port (h : HostId) (code : AnswerCode) (payload : List Byte) (store : Bool) (s : State) (x : HostId) :
    (answer h code payload store s).port x =
      if h = x then { s.port h with
        framing := .answer (builtAnswer s h code payload)
        stored := if store then some (builtAnswer s h code payload) else (s.port h).stored }
      else s.port x :=
  State.setPort_port ..

theorem listening_of_taking {h : HostId} (c : taking s h) : listening s h = true := by
  simp [listening, c.1, c.2.1]

/-- A request taken by a listening port of a READY part is judged by its block and answered. -/
theorem serve_taking {h : HostId} (c : taking s h) (body : State → Reply) :
    serve h body s = .next (answer h (body s).code (body s).payload true (body s).state) := by
  rw [serve, listening_of_taking c, if_pos rfl, c.2.2]

/-- A request taken by a listening port of a READY part, in the words of the statements: its port answers as the block judged,
and the rest of the part is as the block left it. -/
theorem serve_answered {h : HostId} {body : State → Reply} (c : taking s h) (r : Reply) (e : body s = r)
    (p : r.state.ports = s.ports) :
    ∃ t, serve h body s = .next t ∧ answeredWith s t h r.code r.payload ∧ t = { r.state with ports := t.ports } := by
  subst e
  refine ⟨_, serve_taking c body, ?_, rfl⟩
  simp only [answer, State.setPort, p, State.port, answeredWith, frameIn, builtAnswer, State.eu, if_true]

/-- A refusal, in the words of the statements. -/
theorem serve_refused {c : Instr} {h : HostId} {body : State → Reply} {code : AnswerCode} (k : taking s h)
    (x : exec c s = serve h body s) (e : body s = refuse s code) : refusedWith c s h code := by
  obtain ⟨t, e1, e2, e3⟩ := serve_answered k _ e rfl
  exact ⟨t, x.trans e1, e2, e3⟩

/-- All that serving a request can do (R164, R170, R171). -/
theorem serve_cases {h : HostId} {body : State → Reply} (e : serve h body s = .next t) :
    (listening s h = false ∧ t = s) ∨
      (listening s h = true ∧ s.sp.phase = .init ∧ t = answer h .notReady [] false s) ∨
      (listening s h = true ∧ s.sp.phase = .ready ∧
        t = answer h (body s).code (body s).payload true (body s).state) := by
  rw [serve] at e
  split at e
  · next l =>
    split at e
    · next p => cases e; exact .inr (.inl ⟨l, p, rfl⟩)
    · next p => cases e; exact .inr (.inr ⟨l, p, rfl⟩)
  · next l => cases e; exact .inl ⟨by simpa using l, rfl⟩

/-- Every request is answered with a next state. -/
theorem serve_next (h : HostId) (body : State → Reply) (s : State) : ∃ t, serve h body s = .next t := by
  rw [serve]
  split
  · split <;> exact ⟨_, rfl⟩
  · exact ⟨_, rfl⟩

/-- A handle byte is found exactly when it names the slot and generation of a job (R3). -/
theorem findJob_eq_some {b : Byte} {k : SlotId} :
    findJob s b = some k ↔
      handleSlot b = k.val ∧ handleGen b = (s.gen k).val ∧ (s.job k).state ≠ .free := by
  rw [findJob]
  constructor
  · intro h
    split at h
    · next l =>
      dsimp only at h
      split at h
      · next c => cases h; exact ⟨rfl, c.2.symm, c.1⟩
      · cases h
    · cases h
  · rintro ⟨h1, h2, h3⟩
    have l : handleSlot b < 24 := h1 ▸ k.isLt
    have e : (⟨handleSlot b, l⟩ : SlotId) = k := Fin.ext h1
    rw [dif_pos l]
    dsimp only
    rw [e, if_pos ⟨h3, h2.symm⟩]

/-- A request about a job of the requester's own reaches its judgement. -/
theorem withOwnJob_own {h : HostId} {b : Byte} {k : SlotId} (o : ownHandle s h b k) (body : SlotId → Reply) :
    withOwnJob h b s body = body k := by
  obtain ⟨h1, h2, h3, h4, h5⟩ := o
  rw [withOwnJob, findJob_eq_some.mpr ⟨h1, h2, h3⟩]
  simp [ownsJob, h4, h5]

/-! ## The lease -/

/-- A handover changes the lease and one event unit only (R158). -/
theorem handover_frame (s : State) : handover s = { s with eus := (handover s).eus, su := (handover s).su } := by
  rw [handover]
  split
  · rfl
  · rw [post_frame]; rfl

/-- The lease after a handover. -/
theorem handover_su (s : State) :
    (handover s).su = { s.su with
      holder := s.su.waiters.head?, waiters := s.su.waiters.tail
      term := s.su.waiters.head?.map fun _ => s.su.settings.leaseTerm
      termLeft := (s.su.waiters.head?.map fun _ => termMs s.su.settings.leaseTerm).getD 0 } := by
  rw [handover]
  split
  · next e => simp [e]
  · next e => rw [post_frame]; simp [grantLease, e]

/-- The remaining term of a LEASE_HELD answer is never above what can be left (R157). -/
theorem remainingTerm_le (s : State) : remainingTerm s ≤ s.su.termLeft := Nat.min_le_right _ _

/-- All that LEASE_TAKE can do when judged (R157): a grant or renewal, or LEASE_HELD with the remaining term that is the most that
can be left from then on. -/
theorem judgeLeaseTake_spec (h : HostId) (s : State) :
    ((s.su.holder = none ∨ s.su.holder = some h) ∧
        judgeLeaseTake h s =
          { state := grantLease h s, code := .ok, payload := twoBytes (termMs s.su.settings.leaseTerm) }) ∨
      (∃ x ms waiters, s.su.holder = some x ∧ x ≠ h ∧ ms ≤ s.su.termLeft ∧
        waiters = (if h ∈ s.su.waiters then s.su.waiters else s.su.waiters ++ [h]) ∧
        judgeLeaseTake h s =
          { state := { s with su := { s.su with waiters := waiters, termLeft := ms }, draws := s.draws + 1 }
            code := .leaseHeld, payload := twoBytes ms ++ [oneByte (waiters.idxOf h + 1)] }) := by
  by_cases e : s.su.holder = none ∨ s.su.holder = some h
  · exact .inl ⟨e, by simp [judgeLeaseTake, e]⟩
  · obtain ⟨n, m⟩ := not_or.mp e
    obtain ⟨x, hx⟩ := Option.ne_none_iff_exists'.mp n
    exact .inr ⟨x, remainingTerm s, _, hx, fun q => m (q ▸ hx), remainingTerm_le s, rfl, by
      simp only [judgeLeaseTake, if_neg e]; rfl⟩

/-! ## Reply bytes -/

/-- The copies of a byte fill a buffer to 256 bytes, and set TRUNCATED when one does not fit (R107). -/
theorem storeCopies_spec (b : Byte) (n : Nat) (x : Route) (h : x.buffer.length ≤ 256) :
    (storeCopies b n x).buffer = x.buffer ++ List.replicate (min n (256 - x.buffer.length)) b ∧
      (storeCopies b n x).truncated = (x.truncated || decide (256 < x.buffer.length + n)) ∧
      (storeCopies b n x).state = x.state ∧ (storeCopies b n x).owner = x.owner ∧
      (storeCopies b n x).timer = x.timer := by
  induction n generalizing x with
  | zero => simp [storeCopies, h]
  | succ n ih =>
    rw [storeCopies]
    by_cases c : x.buffer.length < 256
    · have e : storeCopy b x = { x with buffer := x.buffer ++ [b] } := by
        rw [storeCopy, Config.routeBuffer, if_pos c]
      have l : (storeCopy b x).buffer.length = x.buffer.length + 1 := by rw [e]; simp
      obtain ⟨h1, h2, h3, h4, h5⟩ := ih (storeCopy b x) (by omega)
      have m : min (n + 1) (256 - x.buffer.length) = min n (256 - (x.buffer.length + 1)) + 1 := by omega
      refine ⟨?_, ?_, ?_, ?_, ?_⟩
      · rw [h1, l, e, m, List.replicate_succ, List.append_assoc, List.singleton_append]
      · have d : x.buffer.length + 1 + n = x.buffer.length + (n + 1) := by omega
        rw [h2, l, d, e]
      · rw [h3, e]
      · rw [h4, e]
      · rw [h5, e]
    · have f : x.buffer.length = 256 := by omega
      have e : storeCopy b x = { x with truncated := true } := by
        rw [storeCopy, Config.routeBuffer, if_neg c]
      obtain ⟨h1, h2, h3, h4, h5⟩ := ih (storeCopy b x) (by rw [e]; exact h)
      rw [e] at h1 h2 h3 h4 h5 ⊢
      refine ⟨?_, ?_, h3, h4, h5⟩
      · rw [h1]; simp [f]
      · rw [h2]; simp [f]

/-! ## Link reset -/

/-- The fate of one slot, and nothing of any other (R139). -/
theorem meetFate_job (entries : List AbandonEntry) (c : Cause) (s : State) (k z : SlotId) :
    (meetFate entries c s k).job z =
      match resetFate entries c (s.handle z) (s.job z) with
      | none => s.job z
      | some (o, d) =>
        if k = z then
          if (s.job z).orphaned then freeJob
          else { s.job z with
            chain := [], queued := 0, state := .ended, outcome := some o, cause := some d, readySeq := none }
        else s.job z := by
  have j : ∀ x, (abortRoute k s).job x = s.job x := fun x => by rw [abortRoute_frame]; rfl
  rw [meetFate]
  by_cases h : k = z
  · subst h
    cases resetFate entries c (s.handle k) (s.job k) with
    | none => rfl
    | some f => simp only [endJob_job, if_true, j]
  · cases resetFate entries c (s.handle k) (s.job k) <;> cases resetFate entries c (s.handle z) (s.job z) <;>
      simp [endJob_job, h, j]

theorem meetFate_offLink (entries : List AbandonEntry) (c : Cause) (s : State) (k : SlotId) :
    OffLink s (meetFate entries c s k) := by
  rw [meetFate]
  split
  · exact .refl s
  · exact (abortRoute_offLink k s).trans (endJob_offLink ..)

end Sys2Proof.Machine
end

