-- ==== Sys2Proof/Laws/Quiet.lean ====
section
/-! SUPPORT. The decisions of the Dispatch Unit and the order of work in the plain cases: nothing ready, nothing to send, one thing
to send. Each operation becomes an explicit update of the state. -/

namespace Sys2Proof.Machine

variable {s t : State}

/-- Writing back what stands there changes nothing. -/
theorem upd_self {α : Type} {n : Nat} (v : Vector α n) (i : Fin n) : upd v i v[i] = v := by
  apply Vector.ext
  intro j hj
  simp only [upd, Vector.getElem_set]
  split
  · next h => subst h; rfl
  · rfl

/-- Of two writes to one place the second stands. -/
theorem upd_upd {α : Type} {n : Nat} (v : Vector α n) (i : Fin n) (x y : α) : upd (upd v i x) i y = upd v i y := by
  simp [upd]

/-! ## The Dispatch Unit with nothing to do -/

/-- With nothing READY no job is admissible. -/
theorem bestAdmissible_none (p : Option SlotId) (h : s.du.ready = []) : bestAdmissible s p = none := by
  simp [bestAdmissible, h, choose, hostsAfter]

/-- With nothing READY no preemption takes place. -/
theorem preempt_none (a : SlotId) (h : s.du.ready = []) : preempt s a = none := by
  simp [preempt, preemptor, bestAdmissible_none _ h]

/-- With nothing READY no turn ends. -/
theorem yieldTurn_none (a : SlotId) (h : s.du.ready = []) : yieldTurn s a = none := by
  simp [yieldTurn, yieldSuccessor, h, choose, hostsAfter]

/-- With nothing READY a break point changes nothing. -/
theorem breakPoint_none (a : SlotId) (h : s.du.ready = []) : breakPoint s a = none := by
  rw [breakPoint, preempt_none a h, yieldTurn_none a h, ite_self]

/-- With nothing READY and no stack nothing takes the link. -/
theorem leavingDecision_nothing (hr : s.du.ready = []) (hs : s.du.stack = []) : leavingDecision s = s := by
  rw [leavingDecision, hs, bestAdmissible_none _ hr]
  exact ite_self s

/-- With no active job nothing is settled. -/
theorem settled_inactive (h : s.du.active = none) : settled s = s := by
  simp [settled, settleFuel, settle, h]

/-- An active job with an entry to send, or in an offer, is left alone. -/
theorem settled_busy {a : SlotId} (h : s.du.active = some a) (b : headEntry s a ≠ none ∨ entryOffered s a = true) :
    settled s = s := by
  have c : ((headEntry s a).isSome || entryOffered s a) = true := by
    obtain b | b := b
    · rw [Option.isSome_iff_ne_none.mpr b]; rfl
    · rw [b, Bool.or_true]
  simp [settled, settleFuel, settle, h, c]

/-- A dry stream job that is not CLOSED begins its dry wait when nothing is READY. -/
theorem settled_dry {a : SlotId} (h : s.du.active = some a) (e : headEntry s a = none) (o : entryOffered s a = false)
    (c : (s.job a).closed = false) (m : (s.job a).stream = true) (r : s.du.ready = []) : settled s = startDryWait s := by
  rw [settled, settleFuel, settle, h]
  simp only [e, o, c, m, Option.isSome_none, Bool.or_self, Bool.false_eq_true, if_false, if_true]
  rw [breakPoint_none a (s := startDryWait s) r]

/-- A dry CLOSED job completes its transmission, and nothing takes the link when nothing is READY and the stack is empty. -/
theorem settled_completed {a : SlotId} (h : s.du.active = some a) (e : headEntry s a = none) (o : entryOffered s a = false)
    (c : (s.job a).closed = true) (r : (completeTransmission a s).du.ready = [])
    (k : (completeTransmission a s).du.stack = []) (n : (completeTransmission a s).du.active = none) :
    settled s = completeTransmission a s := by
  rw [settled, settleFuel, settle, h]
  simp only [e, o, c, Option.isSome_none, Bool.or_self, Bool.false_eq_true, if_false, if_true]
  rw [leavingDecision_nothing r k, settle, n]

/-- DU's response, row by row (R44, R51, R64, R70). -/
theorem respondEligible_eq {r : Response} (h : respondsWith s r) :
    respondEligible s = match r with
      | .waits => s
      | .selected m => settled (makeActive m s)
      | .preempts a m => settled (makeActive m (pushActive a s))
      | .decides _ => leaveLink (closeDecision s) := by
  rw [respondEligible]
  cases r with
  | waits =>
    change _ = s
    split
    · rfl
    · next up =>
      obtain h | ⟨a, ha, h⟩ | ⟨ha, hl, hb⟩ := h
      · contradiction
      · rw [ha]
        obtain h | h := h
        · simp [h]
        · have : preempt s a = none := by
            rw [preempt, Option.map_eq_none_iff, preemptor]
            split
            · rfl
            · next k hk => exact if_neg fun c => h k ⟨by simpa using up, hk, c⟩
          simp [this]
      · simp [ha, hl, hb]
  | selected m =>
    obtain ⟨up, ha, hl, hb⟩ := h
    simp [up, ha, hl, hb]
  | preempts a m =>
    obtain ⟨ha, hd, up, hb, c⟩ := h
    have hp : preempt s a = some (makeActive m (pushActive a s)) := by
      rw [preempt, preemptor, hb]
      exact congrArg (Option.map _) (if_pos c)
    simp [up, ha, hp, Option.isSome_iff_ne_none.mpr hd]
  | decides n =>
    obtain ⟨up, ha, hl, -⟩ := h
    simp [up, ha, hl]

/-- Nothing responds when nothing is READY and no leaving decision is open. -/
theorem respondEligible_nothing (h : s.du.ready = []) (l : s.du.leaving = false) : respondEligible s = s := by
  refine respondEligible_eq (r := .waits) ?_
  rcases e : s.du.active with _ | a
  · exact .inr (.inr ⟨e, l, bestAdmissible_none _ h⟩)
  · exact .inr (.inl ⟨a, e, .inr fun m u => by simpa [bestAdmissible_none _ h] using u.2.1⟩)

/-- Nothing responds in recovery, or beside an active job that is not in a dry wait. -/
theorem respondEligible_silent (h : recovering s = true ∨ s.du.active ≠ none ∧ s.le.dryTimer = none) :
    respondEligible s = s := by
  refine respondEligible_eq (r := .waits) ?_
  obtain h | ⟨h, d⟩ := h
  · exact .inl h
  · obtain ⟨a, e⟩ := Option.ne_none_iff_exists'.mp h
    exact .inr (.inl ⟨a, e, .inl d⟩)

/-! ## The order of work with one thing to do -/

/-- A reverse request goes first (R78). -/
theorem applyOrder_grant (h : s.pins.rreq = true) : applyOrder s = grantReverse s := by
  rw [applyOrder, orderOfWork, if_pos h]

/-- With nothing to send and no stall the link is IDLE (R78, R79). -/
theorem applyOrder_idle (h : noWork { s with du := { s.du with active := none } }) (a : activeHead s = none) :
    applyOrder s = { s with le := { s.le with link := .idle } } := by
  obtain ⟨-, h1, h2, h3, h4⟩ := h
  have h1 : s.le.abandon = [] := h1
  have h2 : s.pins.rreq = false := h2
  have h3 : s.le.stall = .none := h3
  have h4 : s.le.stallTimer = none := h4
  have hf : forwardWork s = false := by simp [forwardWork, h1, a]
  rw [applyOrder, orderOfWork, h2, a, hf]
  simp only [Bool.false_eq_true, if_false, goIdle, endStall, h3, ← h4]

/-- An offer where no stall is in progress (R73). -/
theorem makeOffer_noStall (o : Offer) (h : noStall s) : makeOffer o s = { s with
    le := { s.le with link := .sending, latch := some o, ackTimer := some s.su.settings.ackTime },
    pins := { s.pins with ld := o.byte, lkind := o.kind, fstb := !s.pins.fstb } } := by
  simp only [makeOffer, endStall, h.1, ← h.2]

/-- An offer that ends a stall, reported or not (R90). -/
theorem makeOffer_stalled (o : Offer) (s : State) : ∃ t, makeOffer o s = t ∧
    (s.le.stall = .reported → postedToLinkGroup s t (plainEvent .linkStall 0)) ∧
    (s.le.stall ≠ .reported → t.eus = s.eus) ∧
    t = { s with
      eus := t.eus,
      le := { s.le with
        link := .sending, latch := some o, ackTimer := some s.su.settings.ackTime, stall := .none, stallTimer := none },
      pins := { s.pins with ld := o.byte, lkind := o.kind, fstb := !s.pins.fstb } } := by
  refine ⟨_, rfl, ?_, ?_, ?_⟩
  · intro h x
    simp only [makeOffer, endStall, h]
    exact postLinkGroup_eu ..
  · intro h
    simp only [makeOffer, endStall]
    split
    · rfl
    · rfl
    · contradiction
  · simp only [makeOffer, endStall]
    split
    · rfl
    · rfl
    · rw [postLinkGroup_frame]

/-- With PRDY high and PFLT low the head abandon entry goes ahead of the active job (R78, R135). -/
theorem applyOrder_abandon {e : AbandonEntry} {es : List AbandonEntry} (r : s.pins.rreq = false) (p : s.pins.prdy = true)
    (f : s.pins.pflt = false) (a : s.le.abandon = e :: es) (b : ∀ x, activeHead s ≠ some (x, .brk)) :
    applyOrder s = if s.le.current = some e.channel then offerAbandon s else offerSelect e.channel s := by
  have hf : forwardWork s = true := by simp [forwardWork, a]
  have hs : orderOfWork (poolEntries s + 1) s = sendForward s := by
    rw [orderOfWork, r, p, f, hf]
    simp only [Bool.false_eq_true, if_false]
    split
    · next x h => exact absurd h (b x)
    all_goals rfl
  rw [applyOrder, hs, sendForward, a]

/-- With no abandon entry the head entry of the active job goes out, behind a SELECT of its channel where that is needed (R78,
R82, R84). -/
theorem applyOrder_entry {a : SlotId} {e : Entry} {k : ByteKind} {b : Byte} (r : s.pins.rreq = false)
    (p : s.pins.prdy = true) (f : s.pins.pflt = false) (n : s.le.abandon = []) (h : activeHead s = some (a, e))
    (w : e = .data b ∧ k = .data ∨ e = .control b ∧ k = .control) :
    applyOrder s =
      if s.le.current = some (s.job a).channel then offerEntry a k b s else offerSelect (s.job a).channel s := by
  have hf : forwardWork s = true := by simp [forwardWork, h]
  obtain ⟨rfl, rfl⟩ | ⟨rfl, rfl⟩ := w <;>
  · rw [applyOrder, orderOfWork, r, h, p, f, hf]
    simp only [Bool.false_eq_true, if_false, if_true, Bool.not_true, Bool.or_self]
    rw [sendForward, n, h]

/-! ## Where the order of work still has nothing to do -/

/-- The order of work reads the link state, the stall, the abandon list, the levels, and the head entry of the active job. -/
theorem nothingToDo_of_same (l : t.le.link = s.le.link) (b : t.le.abandon = s.le.abandon) (u : t.le.stall = s.le.stall)
    (v : t.le.stallTimer = s.le.stallTimer) (p : t.pins = s.pins) (h : activeHead t = activeHead s) (n : nothingToDo s) :
    nothingToDo t := by
  have f : forwardWork t = forwardWork s := by rw [forwardWork, forwardWork, h, b]
  simp only [nothingToDo, l, b, u, v, p, h, f]
  exact n

/-- A change of jobs other than the active one, and of the active job beside its chain, keeps the head entry. -/
theorem activeHead_of_same (a : t.du.active = s.du.active)
    (c : ∀ x, s.du.active = some x → (t.job x).chain = (s.job x).chain) : activeHead t = activeHead s := by
  rw [activeHead, activeHead, a]
  cases h : s.du.active with
  | none => rfl
  | some x => simp only [headEntry, c x h]

/-- The order of work has nothing to do where a change has left all it reads. -/
theorem boundaryWork_of_same (l : t.le.link = s.le.link) (b : t.le.abandon = s.le.abandon) (u : t.le.stall = s.le.stall)
    (v : t.le.stallTimer = s.le.stallTimer) (p : t.pins = s.pins) (a : t.du.active = s.du.active)
    (c : ∀ x, s.du.active = some x → (t.job x).chain = (s.job x).chain) (n : nothingToDo s) : boundaryWork t = t :=
  boundaryWork_of_nothingToDo (nothingToDo_of_same l b u v p (activeHead_of_same a c) n)

/-- The order of work has nothing to do on a link that is not at a boundary. -/
theorem boundaryWork_elsewhere (i : s.le.link ≠ .idle) (w : s.le.link ≠ .waiting) : boundaryWork s = s :=
  boundaryWork_of_nothingToDo (.inl ⟨i, w⟩)

/-! ## Becoming READY and closing where the Dispatch Unit has nothing to do -/

/-- A job that becomes READY joins the ready set and nothing more where the Dispatch Unit does not respond (R12, R44). -/
theorem enterReady_silent (k : SlotId) (h : recovering s = true ∨ s.du.active ≠ none ∧ s.le.dryTimer = none) :
    enterReady k s = joinReady k s := by
  have e : respondEligible (joinReady k s) = joinReady k s := respondEligible_silent h
  rw [enterReady, e, ite_self]

/-- The record of a job that joins the ready set. -/
theorem joinReady_job (k : SlotId) (s : State) :
    (joinReady k s).job k = { s.job k with state := .ready, readySeq := some s.jm.nextSeq, seqTaken := some s.jm.nextSeq } := upd_same ..

/-- The record of a job just marked CLOSED. -/
theorem closed_job (k : SlotId) (s : State) :
    (s.setJob k { s.job k with closed := true }).job k = { s.job k with closed := true } := upd_same ..

/-- CLOSE of a FILLING or STARVED job with something to send makes it READY (R13). -/
theorem closeJob_waiting {k : SlotId} (w : (s.job k).state = .filling ∨ (s.job k).state = .starved)
    (u : (s.job k).queued ≠ 0 ∨ (s.job k).begun = true)
    (h : recovering s = true ∨ s.du.active ≠ none ∧ s.le.dryTimer = none) :
    closeJob k s = joinReady k (s.setJob k { s.job k with closed := true }) := by
  have e : enterReady k (s.setJob k { s.job k with closed := true }) =
      joinReady k (s.setJob k { s.job k with closed := true }) := enterReady_silent k h
  have n : (decide ((s.job k).queued = 0) && !(s.job k).begun) = false := by
    obtain u | u := u
    · rw [decide_eq_false u]; rfl
    · rw [u]; simp
  rw [closeJob]
  simp only [closed_job, n]
  split
  all_goals first | exact e | (next q => rw [q] at w; obtain w | w := w <;> cases w)

/-- CLOSE of a SUSPENDED job, or of a READY job with something to send, only marks it (R13, R53). -/
theorem closeJob_marks {k : SlotId}
    (w : (s.job k).state = .suspended ∨ (s.job k).state = .ready ∧ ((s.job k).queued ≠ 0 ∨ (s.job k).begun = true)) :
    closeJob k s = s.setJob k { s.job k with closed := true } := by
  rw [closeJob]
  simp only [closed_job]
  obtain w | ⟨w, u⟩ := w
  · split
    all_goals first | rfl | (next q => rw [q] at w; cases w)
  · have n : (decide ((s.job k).queued = 0) && !(s.job k).begun) = false := by
      obtain u | u := u
      · rw [decide_eq_false u]; rfl
      · rw [u]; simp
    simp only [n]
    split
    all_goals first | rfl | (next q => rw [q] at w; cases w)

/-! ## Taking a head entry and ending a job, in full -/

/-- A job that has begun begins no more (R5, R45). -/
theorem beginJob_begun {k : SlotId} (h : (s.job k).begun = true) : beginJob k s = s := if_pos h

/-- The head entry is taken from a segment that holds another (R26). -/
theorem takeHead_two {k : SlotId} {g : Segment} {gs : List Segment} {x y : Entry} {es : List Entry}
    (h : (s.job k).chain = g :: gs) (e : g.entries = x :: y :: es) :
    takeHead k s = s.setJob k { s.job k with
      chain := { g with taken := g.taken + 1, entries := y :: es } :: gs, queued := (s.job k).queued - 1 } := by
  rw [takeHead]
  simp only
  rw [h]
  simp only
  rw [e]

/-- The head entry is taken: the job's chain and count change, and, with the segment that may go back, the free list, the used
counts, and the marks and units of the space waiters (R26, R37). -/
theorem takeHead_spec {k : SlotId} {x : Entry} (h : headEntry s k = some x) :
    ∃ c, takeHead k s = { s with
        eus := (takeHead k s).eus,
        jm := { s.jm with jobs := upd s.jm.jobs k { s.job k with chain := c, queued := (s.job k).queued - 1 } },
        sp := { s.sp with
          free := (takeHead k s).sp.free, used := (takeHead k s).sp.used, marks := (takeHead k s).sp.marks } } ∧
      chainList (s.job k).chain = x :: chainList c := by
  rw [headEntry] at h
  split at h
  · cases h
  · next g gs hc =>
    rw [takeHead]
    simp only
    rw [hc]
    simp only
    cases he : g.entries with
    | nil => rw [he] at h; cases h
    | cons y ys =>
      rw [he] at h
      cases h
      cases ys with
      | nil =>
        simp only
        rw [evaluateSpace_frame]
        exact ⟨gs, rfl, by simp [chainList, he]⟩
      | cons z zs => exact ⟨_, rfl, by simp [chainList, he]⟩

/-- A job that is not ORPHANED ends (R16): its record, its segments, its reply timer and its owner's event unit. -/
theorem endJob_kept {k : SlotId} (o : JobOutcome) (c : Cause) (h : (s.job k).orphaned = false) : endJob k o c s = { s with
    eus := upd s.eus (s.job k).owner
      (takePost (s.port (s.job k).owner).detached (jobEndedEvent s k o c) (s.eu (s.job k).owner)),
    jm := { s.jm with jobs := upd s.jm.jobs k (endedJob (s.job k) o c) },
    sp := { s.sp with
      free := ((s.job k).chain.map fun g => g.id) ++ s.sp.free,
      used := upd s.sp.used (s.job k).owner (s.used (s.job k).owner - (s.job k).chain.length) },
    rr := (stopReplyTimer k s).rr } := by
  have e : (stopReplyTimer k (discardChain k s)) = { discardChain k s with rr := (stopReplyTimer k s).rr } := by
    rw [stopReplyTimer_frame]
    have q : ((discardChain k s).job k).route = (s.job k).route := by rw [discardChain_job, if_pos rfl]
    rw [stopReplyTimer, stopReplyTimer, q]
    cases (s.job k).route <;> rfl
  have j : (discardChain k s).job k = { s.job k with chain := [], queued := 0 } := by rw [discardChain_job, if_pos rfl]
  have j' : ({ discardChain k s with rr := (stopReplyTimer k s).rr } : State).job k =
      { s.job k with chain := [], queued := 0 } := j
  rw [endJob, e]
  simp only [j', h, Bool.false_eq_true, if_false]
  simp only [post, jobEndedEvent, discardChain, freeSegments, State.setJob, State.setEu, State.job, State.handle, State.gen,
    upd_same, upd_upd, List.length_map, endedJob, show s.jm.jobs[k].orphaned = false from h]
  rfl

end Sys2Proof.Machine
end

