-- ==== Sys2Proof/Laws/Append.lean ====
section
/-! SUPPORT. What an APPEND does to a chain: the entries stand at its tail in order, in the segments it had and the fresh ones. -/

namespace Sys2Proof.Machine

variable {s t : State}

theorem chainList_append (a b : List Segment) : chainList (a ++ b) = chainList a ++ chainList b := by
  simp [chainList]

/-- Writing into the tail adds the entries at the end, where there is a tail (R25). -/
theorem writeTail_list (es : List Entry) (c : List Segment) (h : c ≠ [] ∨ es = []) :
    chainList (writeTail es c) = chainList c ++ es := by
  induction c using writeTail.induct with
  | case1 => obtain h | h := h <;> simp_all [writeTail, chainList]
  | case2 g => simp [writeTail, chainList]
  | case3 g g' gs ih =>
    have := ih (.inl (by simp))
    simp only [chainList, writeTail, List.map_cons, List.flatten_cons] at this ⊢
    rw [this]; simp

/-- Writing into the tail keeps the segments. -/
theorem writeTail_ids (es : List Entry) (c : List Segment) :
    ((writeTail es c).map fun g => g.id) = c.map fun g => g.id := by
  induction c using writeTail.induct with
  | case1 => rfl
  | case2 g => rfl
  | case3 g g' gs ih => simp only [writeTail, List.map_cons, ih]

/-- Writing into the tail changes the tail only. -/
theorem writeTail_eq (es : List Entry) (c : List Segment) (g : Segment) :
    writeTail es (c ++ [g]) = c ++ [{ g with entries := g.entries ++ es }] := by
  induction c with
  | nil => rfl
  | cons x c ih =>
    cases c with
    | nil => rfl
    | cons y c => simp only [List.cons_append, writeTail] at ih ⊢; rw [ih]

/-- Fresh segments hold the entries when there are enough of them (R25). -/
theorem writeFresh_list (is : List SegmentId) (es : List Entry) (h : es.length ≤ 32 * is.length) :
    chainList (writeFresh is es) = es := by
  induction is generalizing es with
  | nil => simp_all [writeFresh, chainList]
  | cons i is ih =>
    have := ih (es.drop 32) (by simp at h ⊢; omega)
    simp only [chainList, writeFresh, List.map_cons, List.flatten_cons, Config.segmentPositions] at this ⊢
    rw [this, List.take_append_drop]

theorem writeFresh_ids (is : List SegmentId) (es : List Entry) :
    ((writeFresh is es).map fun g => g.id) = is := by
  induction is generalizing es with
  | nil => rfl
  | cons i is ih => simp [writeFresh, ih]

theorem writeFresh_length (is : List SegmentId) (es : List Entry) : (writeFresh is es).length = is.length := by
  simpa using congrArg List.length (writeFresh_ids is es)

/-- As many fresh segments as the entries need are sound, and each but the last is full (R24, R25). -/
theorem writeFresh_sound (is : List SegmentId) (es : List Entry) (h : is.length = (es.length + 31) / 32) :
    chainSound (writeFresh is es) := by
  induction is generalizing es with
  | nil => simp [writeFresh, chainSound]
  | cons i is ih =>
    have hl : (es.drop 32).length = es.length - 32 := List.length_drop
    obtain ⟨s1, s2⟩ := ih (es.drop 32) (by simp at h ⊢; omega)
    have e0 : es ≠ [] := by rintro rfl; simp at h
    have e1 : es.take 32 ≠ [] := by simp [e0]
    simp only [chainSound, writeFresh, Config.segmentPositions, List.mem_cons, forall_eq_or_imp]
    refine ⟨⟨⟨e1, by simp [written]⟩, s1⟩, ?_⟩
    cases is with
    | nil => simp [writeFresh]
    | cons i' is =>
      have : ∀ x y : Segment, ∀ l : List Segment, (x :: y :: l).dropLast = x :: (y :: l).dropLast := fun _ _ _ => rfl
      simp only [writeFresh, Config.segmentPositions] at s2 ⊢
      rw [this]
      simp only [List.mem_cons, forall_eq_or_imp]
      refine ⟨?_, s2⟩
      simp only [List.length_cons] at h
      simp only [written, List.length_take]
      omega

/-- An APPEND whose segments are on the free list (R25, R27, R28, R33): the entries are added at the tail, the fresh segments are
the first of the free list, and a sound chain stays sound. -/
theorem appendEntries_spec (k : SlotId) (es : List Entry) (s : State)
    (h : newSegments es.length (s.job k).chain ≤ s.sp.free.length) :
    ∃ c, appendEntries k es s = { s with
        jm := { s.jm with jobs := upd s.jm.jobs k { s.job k with chain := c, queued := (s.job k).queued + es.length } },
        sp := poolTook s (s.job k).owner (newSegments es.length (s.job k).chain) } ∧
      chainList c = chainList (s.job k).chain ++ es ∧
      (c.map fun g => g.id) =
        ((s.job k).chain.map fun g => g.id) ++ s.sp.free.take (newSegments es.length (s.job k).chain) ∧
      (chainSound (s.job k).chain → chainSound c) := by
  set c0 := (s.job k).chain with hc0
  set n := newSegments es.length c0 with hn
  have hn' : n = (es.length - tailSpace c0 + 31) / 32 := hn
  have ids : (s.sp.free.take n).length = n := by simp [h]
  have dl : (es.drop (tailSpace c0)).length = es.length - tailSpace c0 := List.length_drop
  refine ⟨writeTail (es.take (tailSpace c0)) c0 ++ writeFresh (s.sp.free.take n) (es.drop (tailSpace c0)), rfl, ?_, ?_, ?_⟩
  · rw [chainList_append, writeFresh_list _ _ (by rw [ids, dl]; omega)]
    by_cases e : c0 = []
    · have : tailSpace c0 = 0 := by rw [e]; rfl
      rw [this, e]; simp [writeTail, chainList]
    · rw [writeTail_list _ _ (.inl e), List.append_assoc, List.take_append_drop]
  · rw [List.map_append, writeTail_ids, writeFresh_ids]
  · rintro ⟨q1, q2⟩
    have fs := writeFresh_sound (s.sp.free.take n) (es.drop (tailSpace c0)) (by rw [ids, dl, hn'])
    obtain e | ⟨c1, g, e⟩ := c0.eq_nil_or_concat
    · have : tailSpace c0 = 0 := by rw [e]; rfl
      have w : writeTail (es.take (tailSpace c0)) c0 = [] := by rw [e]; rfl
      rw [w, List.nil_append]
      exact fs
    · rw [List.concat_eq_append] at e
      rw [e] at q1 q2
      have hg := q1 g (by simp)
      have ts : tailSpace c0 = 32 - written g := by rw [e]; simp [tailSpace, Config.segmentPositions]
      have we : writeTail (es.take (tailSpace c0)) c0 =
          c1 ++ [{ g with entries := g.entries ++ es.take (tailSpace c0) }] := by
        generalize es.take (tailSpace c0) = xs
        rw [e, writeTail_eq]
      rw [we]
      have w : written { g with entries := g.entries ++ es.take (tailSpace c0) } =
          written g + min (tailSpace c0) es.length := by
        simp [written]; omega
      have q1' : ∀ x ∈ c1 ++ [{ g with entries := g.entries ++ es.take (tailSpace c0) }],
          x.entries ≠ [] ∧ written x ≤ 32 := by
        intro x hx
        rw [List.mem_append, List.mem_singleton] at hx
        obtain hx | rfl := hx
        · exact q1 x (by simp [hx])
        · refine ⟨by simp [hg.1], ?_⟩
          rw [w, ts]; have := hg.2; omega
      have q2' : ∀ x ∈ c1, written x = 32 := by
        intro x hx; exact q2 x (by simpa using hx)
      refine ⟨?_, ?_⟩
      · intro x hx
        rw [List.mem_append] at hx
        obtain hx | hx := hx
        · exact q1' x hx
        · exact fs.1 x hx
      · by_cases z : n = 0
        · have hz : s.sp.free.take n = [] := by rw [z]; rfl
          rw [hz, writeFresh, List.append_nil, List.dropLast_concat]
          exact q2'
        · intro x hx
          have hne : writeFresh (s.sp.free.take n) (es.drop (tailSpace c0)) ≠ [] := by
            intro q
            have := congrArg List.length q
            rw [writeFresh_length, ids] at this
            exact z this
          rw [List.dropLast_append_of_ne_nil hne, List.mem_append, List.mem_append, List.mem_singleton] at hx
          obtain (hx | rfl) | hx := hx
          · exact q2' x hx
          · rw [w, ts]; have := hg.2; omega
          · exact fs.2 x hx

end Sys2Proof.Machine
end

