-- ==== Sys2Proof/Tests/Slice0.lean ====
section
/-! SUPPORT. Tests of the model against the spec's own examples, and for every statement that has hypotheses a state and operands
that meet them, clause by clause. -/

namespace Sys2Proof.Tests

set_option Elab.async false
set_option synthInstance.maxSize 1000

open Sys2Proof Sys2Proof.Machine

/-! ## Small states -/

/-- The state after a command. -/
def after (c : Instr) (s : State) : State :=
  match exec c s with
  | .next t => t
  | .fault _ => s
  | .refused _ => s

/-- The frame a port is answering with. -/
def answerOf (s : State) (h : HostId) : List Byte :=
  match (s.port h).framing with
  | .answer f => f
  | .idle | .request | .draining => []

/-- A part in use: every port in REQUEST, the pool READY with a few segments free, the link in `link`, PRDY high. -/
def base (link : LinkState) : State :=
  { State.reset with
    ports := Vector.replicate 4 { framing := .request, stored := none, detached := false, cs := true, hrst := false },
    sp := { resetSegmentPool with phase := .ready, free := [10, 11, 12, 13, 14, 15, 16, 17, 18, 19] },
    le := { resetLinkEngine with link := link },
    pins := { State.reset.pins with rst := false, lrst := false, prdy := true, ldDriven := true } }

/-- A job of host `h` on channel 15 with priority 7 and these entries, whose chain is one segment. -/
def jobIn (h : HostId) (st : JobState) (es : List Entry) : Job :=
  { freeJob with
    owner := h, channel := 15, priority := 7, state := st, queued := es.length,
    chain := if es.isEmpty then [] else [{ id := 1, taken := 0, entries := es }] }

/-- The state with a job in slot 23 at generation 7, the last handle byte there is: F7h. -/
def with23 (s : State) (j : Job) : State :=
  { s with jm := { s.jm with jobs := upd s.jm.jobs 23 j, gens := upd s.jm.gens 23 7 } }

/-- The state with the job in slot 23 as the active job, on the current channel. -/
def active23 (s : State) (j : Job) : State :=
  { with23 s j with du := { s.du with active := some 23 }, le := { s.le with current := some 15 } }

/-- The state with this offer in the latch. -/
def offering (s : State) (b : Byte) (kind : ByteKind) (o : Origin) : State :=
  { s with le := { s.le with latch := some { byte := b, kind := kind, origin := o }, ackTimer := some 50 } }

/-- The state with this abandon list. -/
def abandoning (s : State) (l : List AbandonEntry) : State := { s with le := { s.le with abandon := l } }

/-- The state with these levels of RREQ, PRDY and PFLT. -/
def lines (s : State) (rreq prdy pflt : Bool) : State :=
  { s with pins := { s.pins with rreq := rreq, prdy := prdy, pflt := pflt } }

/-- The state with route 15 as given. -/
def route15 (s : State) (st : RouteState) (owner : Option Handle) (buffer : List Byte) (timer : Timer) : State :=
  s.setRoute 15 { state := st, owner := owner, buffer := buffer, truncated := false, timer := timer }

/-- The state with host `h` holding the lease, its whole term left, and these hosts waiting. -/
def leased (s : State) (h : HostId) (waiters : List HostId) : State :=
  { s with su := { s.su with holder := some h, term := some 20, termLeft := 2000, waiters := waiters } }

/-- The same near the end of the term: no more than 7 ms can be left. -/
def nearlyOver (h : HostId) (waiters : List HostId) : State :=
  { leased (base .idle) h waiters with su := { (leased (base .idle) h waiters).su with termLeft := 7 } }

/-- The handle of the job in slot 23. -/
def h23 : Handle := { slot := 23, gen := 7 }

/-- The abandon entry of the job in slot 23. -/
def entry23 : AbandonEntry := { job := h23, channel := 15, cause := .byOwner }

/-- A state in INIT with RST released and both periods running. -/
def starting : State := after .rstRelease State.reset

/-- A part in WAKING with the wake timer running and PRDY as given. -/
def waking (prdy : Bool) : State :=
  lines { base .waking with le := { (base .waking).le with wakeTimer := some 20 } } false prdy false

/-- A part in RESETTING with the pulse running. -/
def pulsing (rreq prdy : Bool) : State :=
  lines { base .resetting with le := { (base .resetting).le with pulseTimer := some 100 } } rreq prdy false

/-- The state with port 3 as given. -/
def port3 (framing : Framing) (detached cs hrst : Bool) : State :=
  (base .idle).setPort 3 { framing := framing, stored := none, detached := detached, cs := cs, hrst := hrst }

/-- A busy link with a job of host 3 in slot 23. -/
def busyWith (st : JobState) (begun : Bool) : State :=
  with23 (base .sending) { jobIn 3 st (if st = .cancelling then [] else [.data 1]) with begun := begun }

/-- Port 3 in REQUEST while the pool is in INIT. -/
def inInit : State := { base .resetting with sp := resetSegmentPool }

/-- Every slot but the last is taken by another host. -/
def lastSlotFree : State :=
  { base .idle with jm := { (base .idle).jm with
    jobs := upd (Vector.replicate 24 (jobIn 0 .filling [])) 23 freeJob, owned := #v[8, 8, 7, 7] } }

/-- Every slot is taken. -/
def noSlotFree : State :=
  { base .idle with jm := { (base .idle).jm with jobs := Vector.replicate 24 (jobIn 0 .filling []), owned := #v[8, 8, 8, 0] } }

/-- Every route is taken but, when asked, the last. -/
def routesTaken (lastFree : Bool) (s : State) : State :=
  let x : Route := { freeRoute with state := .opened }
  { s with rr := { s.rr with routes := upd (Vector.replicate 16 x) 15 (if lastFree then freeRoute else x) } }

/-- A stream job of host 3 in slot 23, with one entry, on a link of this state. -/
def streaming (link : LinkState) (st : JobState) : State :=
  with23 (base link) { jobIn 3 st [.data 1] with stream := true }

/-- The state with START_THRESHOLD as given. -/
def thresholdAt (n : Nat) (s : State) : State :=
  { s with su := { s.su with settings := { s.su.settings with startThreshold := n } } }

/-- Host 3 has used all it may. -/
def poolSpent : State :=
  let s := streaming .sending .ready
  { s with sp := { s.sp with used := #v[288, 32, 32, 32], free := [] } }

/-- An ACTIVE job of host 3 that has run dry, with its route as given, on an IDLE link. -/
def dryJob (route : Option RouteId) : State :=
  route15 (active23 (base .idle) { jobIn 3 .active [] with stream := true, begun := true, route := route }) .opened
    (some h23) [] none

/-- A begun, SUSPENDED job of host 3. -/
def suspended (link : LinkState) (current : Option ChannelId) : State :=
  let s := with23 (base link) { jobIn 3 .suspended [.data 1] with begun := true }
  { s with le := { s.le with current := current } }

/-- An ACTIVE job of host 3 with a DATA, a CONTROL and a DATA entry left, an offer of the given origin outstanding. -/
def sending (o : Origin) (es : List Entry) : State :=
  offering (active23 (base .sending) { jobIn 3 .active es with begun := true }) 1 .data o

/-- An abandon entry is held off: WAITING with a stall of this record. -/
def heldOff (stall : StallRecord) (prdy pflt : Bool) : State :=
  let s := abandoning (lines (base .waiting) false prdy pflt) [entry23]
  { s with le := { s.le with current := some 15, stall := stall, stallTimer := if stall = .timing then some 100 else none } }

/-- One READY job waits in WAKING. -/
def readyInWaking : State :=
  let s := with23 (waking false) (jobIn 3 .ready [.data 7])
  { s with du := { s.du with ready := [23] } }

/-- A dry wait on a busy link, with the job in slot 0 on the stack. -/
def dryOverStack : State :=
  let s := active23 (base .sending) { jobIn 3 .active [] with stream := true, begun := true }
  { s with
    jm := { s.jm with jobs := upd s.jm.jobs 0 (jobIn 0 .suspended [.data 1]) },
    du := { s.du with stack := [0] }, le := { s.le with dryTimer := some 20 } }

/-- A reverse phase with route 15 selected, in this state, holding this many bytes, for the job in slot 23 in this state. -/
def selected15 (st : RouteState) (n : Nat) (job : JobState) (repeats : Option Nat) : State :=
  let s := route15 (with23 (base .reverse) { jobIn 3 job [] with route := some 15 }) st (some h23) (List.replicate n 0) none
  { s with rr := { s.rr with selection := some 15, repeats := repeats } }

/-- The state with a READY job of host 0 in slot 0, on channel 0, with this priority and these entries. -/
def ready0 (p : Fin 8) (es : List Entry) (s : State) : State :=
  { s with
    jm := { s.jm with
      jobs := upd s.jm.jobs 0 { jobIn 0 .ready es with channel := 0, priority := p }, nextSeq := 1 },
    du := { s.du with ready := [0] } }

/-- The state with a READY job of host 2 in slot 2, on channel 2, with this priority, behind those in the ready set. -/
def ready2 (p : Fin 8) (s : State) : State :=
  { s with
    jm := { s.jm with jobs := upd s.jm.jobs 2 { jobIn 2 .ready [.data 1] with channel := 2, priority := p } },
    du := { s.du with ready := s.du.ready ++ [2] } }

/-- The state with PREEMPT_FLOOR as given. -/
def floorAt (n : Nat) (s : State) : State :=
  { s with su := { s.su with settings := { s.su.settings with preemptFloor := n } } }

/-- The state with the decision open that a dry-wait expiry has started. -/
def undecided (s : State) : State := { s with du := { s.du with leaving := true } }

/-- The state with a SUSPENDED job of host 1 in slot 1, on channel 1, with priority 1. -/
def under1 (s : State) : State :=
  { s with
    jm := { s.jm with jobs := upd s.jm.jobs 1 { jobIn 1 .suspended [.data 1] with channel := 1, priority := 1 } },
    du := { s.du with stack := [1] } }

/-- The state with a job of host 0 in slot 0, ACTIVE on channel 0 with priority 1, in a dry wait. -/
def dry0 (s : State) : State :=
  { s with
    jm := { s.jm with
      jobs := upd s.jm.jobs 0 { jobIn 0 .active [] with channel := 0, priority := 1, stream := true, begun := true } },
    du := { s.du with active := some 0, claims := upd s.du.claims 0 (some 0) }, le := { s.le with dryTimer := some 20 } }

/-- The state with the job in slot 23 in the ready set too. -/
def ready23 (s : State) : State := { s with du := { s.du with ready := s.du.ready ++ [23] } }

/-- The state with no job active, the claim of the job in slot 23 gone and the job in slot 23 in this state. -/
def left23 (st : JobState) (s : State) : State :=
  { s.setJob 23 { s.job 23 with state := st } with
    du := { s.du with active := none, claims := upd s.du.claims 15 none }, le := { s.le with dryTimer := none } }

/-- The job in slot 23 is ACTIVE, begun, with these entries, on a link of this state. -/
def running (link : LinkState) (es : List Entry) : State :=
  let s := active23 (base link) { jobIn 3 .active es with begun := true, stream := true }
  { s with du := { s.du with claims := upd s.du.claims 15 (some 23) } }

/-- Four ways the link of the job in slot 23 can pass on: to nobody, to the best of two READY jobs, to the top of the stack, the best
READY job being below the floor, and to the best of two ahead of the stack. -/
def passings (s : State) : List (State × Successor) :=
  [(s, .nobody), (ready2 3 (ready0 1 [.data 1] s), .selected 2), (ready2 5 (under1 s), .resumed 1),
    (ready2 7 (ready0 6 [.data 1] (under1 s)), .selected 2)]

/-- A WAITING link held off, an abandon entry at its head, and a begun STARVED job of host 3. -/
def waitingStarved : State :=
  with23 (abandoning (heldOff .reported false true) [{ entry23 with channel := 0 }])
    { jobIn 3 .starved [.data 1] with begun := true }

/-- What an APPEND to the job in slot 23 by host 3 has to meet. -/
abbrev appends (s : State) (flags : Byte) (bytes : List Byte) : Prop :=
  taking s 3 ∧ ownHandle s 3 0xF7 23 ∧ appendLegal 0x00#8 flags bytes ∧ (s.job 23).closed = false ∧
    appendHasRoom s 3 23 (appended 0x00#8 flags bytes).length

/-- The job in slot 23 made READY by an APPEND of DATA bytes with these flags. -/
abbrev joined23 (s : State) (flags : Byte) (bytes : List Byte) : State :=
  let n := (appended 0x00#8 flags bytes).length
  joins { s with sp := poolTook s 3 (newSegments n (s.job 23).chain) } 23
    { s.job 23 with queued := (s.job 23).queued + n, closed := flags.getLsbD 1 }

/-- DU answers in this way when the job in slot 23 has become READY in `s`. -/
abbrev readied (s : State) (r : Response) : Prop := answersTo s 23 ((s.job 23).priority ≠ 0) r

/-- The dry wait of the job in slot 23 has run out, and the decision is open. -/
abbrev starved23 (s : State) : State :=
  let notice : Event := { kind := .jobStarved, handle := some (s.handle 23), route := (s.job 23).route, code := 0 }
  { s with
    eus := upd s.eus 3 (takePost (s.port 3).detached notice (s.eu 3)),
    jm := { s.jm with jobs := upd s.jm.jobs 23 { s.job 23 with state := .starved } },
    du := { s.du with active := none, leaving := true }, le := { s.le with dryTimer := none } }

/-- A dry wait of the job in slot 23 on a busy link, over a suspended job, with a READY job of host 0 at priority 0 and these
commands waiting. -/
def dryWith (cs : List Instr) : State :=
  let s := ready2 1 (ready0 0 [.data 1] (under1 (running .sending [])))
  { s with le := { s.le with dryTimer := some 20 }, pending := cs }

/-- The entries of an ACTIVE job are held off in WAITING with a stall of this record. -/
def entriesHeldOff (stall : StallRecord) (es : List Entry) : State :=
  let s := active23 (lines (base .waiting) false false false) { jobIn 3 .active es with begun := true }
  { s with le := { s.le with stall := stall, stallTimer := if stall = .timing then some 100 else none } }

/-- The same with two entries left. -/
def jobHeldOff (stall : StallRecord) : State := entriesHeldOff stall [.data 7, .data 8]

/-- An ACTIVE stream job of host 3 that has run dry on an IDLE link. -/
def runDry (current : Option ChannelId) : State :=
  let s := active23 (base .idle) { jobIn 3 .active [] with stream := true, begun := true }
  { s with le := { s.le with current := current, dryTimer := some 20 } }

/-- The last entry of an ACTIVE job is being offered. -/
def lastOffered (stream closed : Bool) : State :=
  offering (active23 (base .sending) { jobIn 3 .active [] with begun := true, stream := stream, closed := closed }) 1 .data
    (.entry h23)

/-- An entry of the running job in slot 23 is being offered, and these entries are left. -/
def offered23 (es : List Entry) : State := offering (running .sending es) 1 .data (.entry h23)

/-- ABANDON is being offered for the job in slot 23. -/
def abandonOffered (orphaned : Bool) (rest : List AbandonEntry) : State :=
  abandoning (offering (with23 (base .sending) { jobIn 3 .cancelling [] with begun := true, orphaned := orphaned }) 0xF8
    .control .abandon) (entry23 :: rest)

/-- ABANDON is being offered for the job in slot 23, and a READY job waits for its channel; RREQ as given. -/
def waitingForChannel (p : Fin 8) (rreq : Bool) : State :=
  let s := (lines (ready0 p [.data 7, .data 8] (abandonOffered false [])) rreq true false).setClaim 15 (some 23)
  { s.setJob 0 { s.job 0 with channel := 15 } with le := { s.le with current := some 15 } }

/-- The job in slot 0 is ACTIVE at this priority and turn count, and the job in slot 23, of priority 7, is READY. -/
def contested (p : Fin 8) (turn : Nat) : State :=
  let s := with23 (base .sending) (jobIn 3 .ready [.data 7])
  { s with
    jm := { s.jm with jobs := upd s.jm.jobs 0 { jobIn 0 .active [.data 1] with channel := 0, priority := p, turn := turn } },
    du := { s.du with active := some 0, ready := [23] } }

/-- The reset state with RST_RELEASE waiting. -/
def aboutToStart : State := { State.reset with pending := [.rstRelease] }

/-- A part in use whose pool and chains are sound: one job holds one of the 384 segments. -/
def poolInUse : State :=
  let s := with23 (base .idle) (jobIn 3 .filling [.data 1])
  { s with sp := { s.sp with free := allSegments.erase 1, used := #v[0, 0, 0, 1] }, pending := [.close 3 0xF7] }

/-- A part in use whose tables agree: a dry wait over a suspended job, a READY job, a CANCELLING one and one that awaits its
reply, with an APPEND to the READY job waiting. -/
def tablesInUse : State :=
  let s := ready0 7 [.data 1] (under1 (running .idle []))
  let s := route15 (s.setJob 2 { jobIn 2 .cancelling [] with channel := 2, begun := true }) .opened
    (some { slot := 3, gen := 0 }) [] (some 50)
  let s := s.setJob 3 { jobIn 3 .awaitReply [] with channel := 15, route := some 15 }
  let s := (s.setJob 0 { s.job 0 with readySeq := some 0, seqTaken := some 0, channel := 15 }).setClaim 2 (some 2)
  { s with
    jm := { s.jm with owned := #v[1, 1, 1, 2] },
    le := { s.le with abandon := [{ job := { slot := 2, gen := 0 }, channel := 2, cause := .byOwner }] },
    pending := [.close 0 0x00] }

/-! ## Which terms are commands -/

theorem test_append_245_bytes_fits : (Instr.append 0 0 0 0 (List.replicate 245 0)).wellFormed = true := by decide +kernel
theorem test_append_246_bytes_refused : (Instr.append 0 0 0 0 (List.replicate 246 0)).wellFormed = false := by
  decide +kernel
theorem test_faulty_frame_fits : (Instr.framingFault 1 [0x16, 0x01, 0x05, 0xE5]).wellFormed = true := by decide +kernel
theorem test_incomplete_frame_refused : (Instr.framingFault 1 [0x16, 0x02, 0x05, 0x00]).wellFormed = false := by
  decide +kernel
theorem test_intact_frame_refused : (Instr.framingFault 1 [0x16, 0x01, 0x05, 0xE4]).wellFormed = false := by
  decide +kernel

/-! ## Frames the spec writes out (section 9.8) -/

theorem test_job_status_frame : decodeRequest 1 [0x16, 0x01, 0x05, 0xE4] = some (.jobStatus 1 0x05) := by decide +kernel
theorem test_last_frame : decodeRequest 1 [0x02, 0x00, 0xFE] = some (.last 1) := by decide +kernel
theorem test_frame_with_bad_sum : decodeRequest 1 [0x16, 0x01, 0x05, 0xE5] = none := by decide +kernel
theorem test_frame_with_bad_len : decodeRequest 1 [0x16, 0x02, 0x05, 0x00, 0xE3] = none := by decide +kernel
theorem test_frame_with_unknown_opcode : decodeRequest 1 [0x60, 0x00, 0xA0] = none := by decide +kernel
theorem test_link_reset_encodes : encodeRequest (.linkReset 0) = some [0x51, 0x00, 0xAF] := by decide +kernel
theorem test_no_table_word_decodes : decodeTableWord 8 0x16 = none := by decide

/-! ## Resets and ports -/

/-- Section 8.1: the defaults return. -/
theorem test_part_reset_defaults :
    (after .partReset { base .idle with su := { (base .idle).su with settings := { defaultSettings with ackTime := 9 } } }).su =
      resetSettingsUnit := by decide +kernel
theorem test_rst_release_starts_periods :
    (after .rstRelease State.reset).sp.initTimer = some 80 ∧ (after .rstRelease State.reset).le.pulseTimer = some 100 := by
  decide +kernel
theorem test_pool_init_end_frees_384 :
    (after .poolInitEnd (after .rstRelease State.reset)).sp.free.length = 384 := by decide +kernel
/-- Section 7.6 and 11.6 step 2: the pulse ends with PRDY low. -/
theorem test_pulse_end_wakes : (after .lrstPulseEnd (after .rstRelease State.reset)).le.link = .waking := by
  decide +kernel
theorem test_port_reset_detaches : ((after (.portReset 3) (base .idle)).port 3).detached = true := by decide +kernel
theorem test_hkrst_release_attaches :
    ((after (.hkrstRelease 3) (after (.portReset 3) (base .idle))).port 3).detached = false := by decide +kernel
theorem test_chip_select_begins :
    ((after (.chipSelectAssert 0) (after (.chipSelectRelease 0) (base .idle))).port 0).framing = .request := by
  decide +kernel
theorem test_chip_select_release_ends : ((after (.chipSelectRelease 0) (base .idle)).port 0).framing = .idle := by
  decide +kernel
theorem test_answer_sent_drains :
    ((after (.answerSent 0) (after (.ident 0) (base .idle))).port 0).framing = .draining := by decide +kernel
/-- Section 9.8, transaction 1: STATUS 02h, LEN 00h, CHECK FEh. -/
theorem test_framing_fault_answer :
    answerOf (after (.framingFault 1 [0x16, 0x01, 0x05, 0xE5]) (base .idle)) 1 = [0x02, 0x00, 0xFE] := by decide +kernel
/-- Section 9.8, transaction 5: the stored BAD_JOB answer. -/
theorem test_last_repeats :
    answerOf (after (.last 1) ((base .idle).setPort 1
      { (base .idle).port 1 with stored := some [0x04, 0x00, 0xFC] })) 1 = [0x04, 0x00, 0xFC] := by decide +kernel
/-- R173: part code 4120h, revision 01h, port 2, READY. -/
theorem test_ident_answer :
    (answerOf (after (.ident 2) (base .idle)) 2).take 7 = [0x00, 0x05, 0x41, 0x20, 0x01, 0x02, 0x01] := by decide +kernel

/-! ## Jobs -/

/-- Section 1.9, step 9: with slots 0 to 4 taken, slot 5 at generation 3 is opened: handle 65h, route FFh. -/
theorem test_open_takes_slot_five :
    (answerOf (after (.openJob 1 0 2 0) { base .idle with jm := { (base .idle).jm with
      jobs := (List.range 5).foldl (fun v k => upd v (Fin.ofNat 24 k) (jobIn 0 .filling [])) (base .idle).jm.jobs,
      gens := upd (base .idle).jm.gens 5 3 } }) 1).take 4 = [0x00, 0x02, 0x65, 0xFF] := by decide +kernel
/-- Section 9.8, transaction 2: slot 5 is FREE. -/
theorem test_job_status_of_free_slot : answerOf (after (.jobStatus 1 0x05) (base .idle)) 1 = [0x04, 0x00, 0xFC] := by
  decide +kernel
/-- Section 6.10, step 8: ENDED DONE NONE is 10h, in the last byte of fourteen. -/
theorem test_job_status_of_ended_job :
    ((answerOf (after (.jobStatus 0 0xF7) (with23 (base .idle)
      { jobIn 0 .ended [] with outcome := some .done, cause := some .none })) 0).drop 15).head? = some 0x10 := by
  decide +kernel
/-- Section 1.9, step 2: 40 DATA bytes are queued, 0028h. -/
theorem test_append_counts_entries :
    (answerOf (after (.append 0 0xF7 0 0 (List.replicate 40 0)) (with23 (base .idle) (jobIn 0 .filling []))) 0).take 5 =
      [0x00, 0x05, 0x01, 0x00, 0x28] := by decide +kernel
/-- R14: an unused job closed ends at once; JOB_ENDED carries DONE, 10h. -/
theorem test_close_of_unused_job :
    ((after (.close 0 0xF7) (with23 (base .idle) (jobIn 0 .filling []))).eu 0).queue.map (fun e => e.code) = [0x10] := by
  decide +kernel
theorem test_set_priority_to_zero :
    ((after (.setPriority 0 0xF7 0) (with23 (base .idle) (jobIn 0 .filling []))).job 23).priority = 0 := by decide +kernel
/-- Section 11.4, step 9: a cancelled job that has not begun ends with code 31h. -/
theorem test_cancel_of_unbegun_job :
    ((after (.cancel 0 0xF7) (with23 (base .idle) (jobIn 0 .filling []))).eu 0).queue.map (fun e => e.code) = [0x31] := by
  decide +kernel
/-- Section 11.2, step 1: CANCEL of a begun job answers CANCELLING, 06h, with check F9h. -/
theorem test_cancel_of_begun_job :
    answerOf (after (.cancel 2 0xF7) (with23 (base .sending) { jobIn 2 .suspended [] with begun := true })) 2 =
      [0x00, 0x01, 0x06, 0xF9] := by decide +kernel
/-- Section 1.9, step 7: the generation advances, and 7 is followed by 0. -/
theorem test_release_advances_generation :
    (after (.release 0 0xF7) (with23 (base .idle) (jobIn 0 .ended []))).gen 23 = 0 := by decide +kernel
/-- Section 6.10, step 9: one byte, none left, COMPLETE. -/
theorem test_read_reply_answer :
    answerOf (after (.readReply 0 0xF7 240) (route15 (with23 (base .idle) { jobIn 0 .ended [] with route := some 15 })
      .complete (some h23) [0x52] none)) 0 = [0x00, 0x05, 0x0F, 0x02, 0x00, 0x00, 0x52, 0x98] := by decide +kernel

/-! ## Events, lease, settings and link status -/

/-- Section 6.10, step 4: 16 records and LAPSED: OK with both status bits, 15 left. -/
theorem test_fetch_event_answer :
    let f := answerOf (after (.fetchEvent 0) ((base .idle).setEu 0
      { emptyEventUnit with queue := List.replicate 16 (plainEvent .linkUp 0), lapsed := true })) 0
    f.head? = some 0xC0 ∧ (f.drop 6).head? = some 0x0F := by decide +kernel
/-- Section 6.10, step 7: EMPTY clears LAPSED. -/
theorem test_fetch_event_empty :
    answerOf (after (.fetchEvent 0) ((base .idle).setEu 0 { emptyEventUnit with lapsed := true })) 0 =
      [0x0D, 0x00, 0xF3] := by decide +kernel
/-- Section 6.10, step 5: the attention line falls with records queued. -/
theorem test_subscribe_lowers_attention :
    ((after (.subscribe 0 4) ((base .idle).setEu 0
      { emptyEventUnit with queue := [plainEvent .linkUp 0], enable := true, attn := true })).eu 0).attn = false := by
  decide +kernel
/-- Section 11.5, time 0.0: 2000 ms. -/
theorem test_lease_take_answer :
    (answerOf (after (.leaseTake 1) (base .idle)) 1).take 4 = [0x00, 0x02, 0x07, 0xD0] := by decide +kernel
/-- R157: a renewal starts the term anew from the full LEASE_TERM of 2000 ms. -/
theorem test_lease_take_renews : (after (.leaseTake 1) (nearlyOver 1 [3])).su.termLeft = 2000 := by decide +kernel
/-- Section 11.5, time 5.0: H3 drops, H1 takes over. -/
theorem test_lease_drop_hands_over :
    (after (.leaseDrop 3) (leased (base .idle) 3 [1])).su.holder = some 1 := by decide +kernel
/-- Section 11.5, time 3.9, expiry first: H3 holds and H0 waits. -/
theorem test_lease_term_expiry :
    (after .leaseTermExpiry (leased (base .idle) 1 [3, 0])).su =
      { resetSettingsUnit with holder := some 3, term := some 20, termLeft := 2000, waiters := [0] } := by decide +kernel
/-- Section 11.5, times 1.2 and 4.0: SET by the holder, and by another host. -/
theorem test_set_stall_time :
    (after (.setSetting 1 0x02 0 200) (leased (base .idle) 1 [])).su.settings.stallTime = 200 := by decide +kernel
theorem test_set_without_lease :
    (answerOf (after (.setSetting 1 0x05 0 80) (leased (base .idle) 3 [])) 1).head? = some 0x0B := by decide +kernel
/-- Section 8.1: ACK_TIME is 50 by default. -/
theorem test_get_ack_time :
    (answerOf (after (.getSetting 1 0x01 0) (base .idle)) 1).take 6 = [0x00, 0x04, 0x01, 0x00, 0x00, 0x32] := by
  decide +kernel
/-- Section 11.6, between steps 4 and 5: LINK_DOWN in STATUS, link state 02h. -/
theorem test_link_status_when_down :
    (answerOf (after (.linkStatus 1) (base .down)) 1).take 3 = [0x20, 0x11, 0x02] := by decide +kernel
theorem test_link_reset_by_holder :
    (after (.linkReset 2) (leased (base .idle) 2 [])).le.lastFault = .resetRequested := by decide +kernel

/-! ## The link -/

/-- Section 11.1, step 3: the acknowledged SELECT E1h makes channel 1 current. -/
theorem test_select_acknowledged :
    (after .acknowledgement (offering (base .sending) 0xE1 .control (.select 1))).le.current = some 1 := by decide +kernel
/-- Section 11.6, step 1: the active job ends with code 23h. -/
theorem test_acknowledge_timeout_code :
    ((after .acknowledgeTimeout (offering (active23 (base .sending) (jobIn 0 .active [.data 1])) 1 .data
      (.entry h23))).eu 0).queue.map (fun e => e.code) = [0x23] := by decide +kernel
/-- Section 4.10, step 4: the grant is given although PRDY is low. -/
theorem test_rreq_rise_is_granted : (after .rreqRise (lines (base .idle) false false false)).pins.rgnt = true := by
  decide +kernel
theorem test_rreq_fall_in_phase : (after .rreqFall (lines (base .reverse) true true false)).le.link = .reverse := by
  decide +kernel
/-- Section 11.6, step 5: a rise of PRDY in DOWN starts a new pulse. -/
theorem test_prdy_rise_in_down : (after .prdyRise (lines (base .down) false false false)).le.link = .resetting := by
  decide +kernel
theorem test_prdy_fall_in_idle : (after .prdyFall (base .idle)).le.link = .idle := by decide +kernel
theorem test_pflt_change_toggles : (after .pfltChange (base .idle)).pins.pflt = true := by decide +kernel
/-- Section 5.9, steps 3 and 4: REPEAT 43h asks for 5 copies, and five copies of 20h join the one byte there is. -/
theorem test_repeat_count : (after (.reverseByte .control 0x43) (base .reverse)).rr.repeats = some 5 := by decide +kernel
theorem test_repeated_byte_is_stored :
    let s := route15 (base .reverse) .opened none [0x31] none
    ((after (.reverseByte .data 0x20) { s with rr := { s.rr with selection := some 15, repeats := some 5 } }).route 15).buffer =
      [0x31, 0x20, 0x20, 0x20, 0x20, 0x20] := by decide +kernel
theorem test_rev_idle_expiry_lowers_grant :
    (after .revIdleExpiry { base .reverse with le := { (base .reverse).le with revIdleTimer := some 50 } }).pins.rgnt =
      false := by decide +kernel
/-- Section 4.10, step 3. -/
theorem test_stall_is_reported :
    (after .stallTimerExpiry { base .waiting with
      le := { (base .waiting).le with stall := .timing, stallTimer := some 100 } }).le.stall = .reported := by
  decide +kernel
/-- R64: with the expiry first, the job raised to priority 7 is judged in the leaving decision, ahead of the suspended job; without it
the suspended job resumes. -/
theorem test_expiry_taken_first_counts_the_raised_job :
    (after (.setPriority 0 0 7) (after .dryWaitExpiry (dryWith [.setPriority 0 0 7]))).du.active = some 0 ∧
      (after .dryWaitExpiry (dryWith [])).du.active = some 1 := by decide +kernel
/-- Section 3.13, step 6. -/
theorem test_dry_wait_expiry_starves :
    ((after .dryWaitExpiry (active23 { base .sending with le := { (base .sending).le with dryTimer := some 20 } }
      { jobIn 1 .active [] with stream := true, begun := true })).job 23).state = .starved := by decide +kernel
/-- Section 11.6, step 4. -/
theorem test_wake_timer_expiry :
    (after .wakeTimerExpiry (lines { base .waking with le := { (base .waking).le with wakeTimer := some 20 } }
      false false false)).le.link = .down := by decide +kernel
/-- Sections 5.7 and 10.2: FAILED with REPLY_TIMEOUT is 25h. -/
theorem test_reply_timer_expiry :
    ((after (.replyTimerExpiry 15) (route15 (with23 (base .idle) { jobIn 1 .awaitReply [] with route := some 15 })
      .opened (some h23) [] (some 50))).eu 1).queue.map (fun e => e.code) = [0x25] := by decide +kernel

/-! ## Witnesses: the hypotheses of each statement can be met -/

theorem witness_StepRunsTheFrontCommand :
    { base .idle with pending := [.prdyRise] }.pending = .prdyRise :: [] ∧ (base .idle).pending = [] := by
  constructorm* _ ∧ _ <;> decide +kernel

theorem witness_RequestFramesEncodeAndDecode :
    (requestHost (.append 3 0 0 0 (List.replicate 245 0)) = some 3 ∧
      (Instr.append 3 0 0 0 (List.replicate 245 0)).wellFormed = true) ∧
    (frameComplete (withCheck (0x11 :: 248 :: List.replicate 248 0)) = true ∧
      frameFaulty (withCheck (0x11 :: 248 :: List.replicate 248 0)) = false) := by
  constructorm* _ ∧ _ <;> decide +kernel

theorem witness_RstReleaseStartsThePart : State.reset.pins.rst = true ∧ (base .idle).pins.rst = false := by
  constructorm* _ ∧ _ <;> decide +kernel

theorem witness_PoolInitEndMakesThePoolReady :
    (starting.sp.initTimer ≠ none ∧ starting.su.settings.reserve = #v[32, 32, 32, 32]) ∧
    (base .idle).sp.initTimer = none := by
  constructorm* _ ∧ _ <;> decide +kernel

theorem witness_RecoveryTimersMoveTheLink :
    ((waking false).le.wakeTimer ≠ none ∧ (waking false).pins.prdy = false) ∧ (waking true).pins.prdy = true ∧
    (base .idle).le.pulseTimer = none ∧ (base .idle).le.wakeTimer = none ∧
    ((pulsing false false).le.pulseTimer ≠ none ∧ (pulsing false false).pins.prdy = false) ∧
    (let up (s : State) : State := { s with
        le := { s.le with link := .idle, pulseTimer := none, wakeTimer := none }, pins := { s.pins with lrst := false } };
      (∀ rreq, (pulsing rreq true).le.pulseTimer ≠ none ∧ (pulsing rreq true).pins.prdy = true ∧
        respondsWith (up (pulsing rreq true)) .waits ∧ (pulsing rreq true).du.active = none ∧
        (pulsing rreq true).le.abandon = [] ∧ noStall (pulsing rreq true) ∧ (pulsing rreq true).pins.rreq = rreq) ∧
      (let s := ready2 7 (ready23 (with23 (pulsing false true) (jobIn 3 .ready [.data 7])));
        respondsWith (up s) (.selected 2) ∧ headEntry s 2 = some (entryOf .data 1) ∧ forwardOpen s ∧
        s.le.current ≠ some (s.job 2).channel ∧
        (let s := abandoning s [entry23];
          respondsWith (up s) (.selected 2) ∧ s.le.abandon = entry23 :: [] ∧ s.le.current ≠ some entry23.channel ∧
          ∀ z, (responded (up s) (.selected 2)).du.active = some z → headEntry s z ≠ some .brk))) := by
  constructorm* _ ∧ _ <;> decide +kernel

theorem witness_PortLinesFrameTransactions :
    (((port3 .idle false false false).port 3).cs = false ∧ ((port3 .idle false false false).port 3).detached = false ∧
      ((port3 .idle false false false).port 3).framing = .idle) ∧
    (((port3 .idle true false true).port 3).cs = false ∧ ((port3 .idle true false true).port 3).detached = true) ∧
    ((port3 .idle true false true).port 3).hrst = true ∧
    (((port3 .request false true false).port 3).cs = true ∧ ((port3 .request false true false).port 3).hrst = false) ∧
    ((port3 (.answer [2, 0, 254]) false true false).port 3).framing = .answer [2, 0, 254] := by
  constructorm* _ ∧ _ <;> decide +kernel

theorem witness_answerless_port : ∀ frame, ((port3 .request false true false).port 3).framing ≠ .answer frame :=
  fun _ h => Framing.noConfusion h

theorem witness_PortResetDropsTheHost :
    ((port3 .idle true false true).port 3).hrst = true ∧
    (((base .idle).port 3).hrst = false ∧ (base .idle).su.holder ≠ some 3) ∧
    (((leased (base .idle) 3 [0, 1]).port 3).hrst = false ∧ (leased (base .idle) 3 [0, 1]).su.holder = some 3 ∧
      ((leased (base .idle) 3 [0, 1]).su.waiters.filter fun x => decide (x ≠ 3)) = 0 :: [1]) ∧
    ((leased (base .idle) 3 []).su.holder = some 3 ∧
      ((leased (base .idle) 3 []).su.waiters.filter fun x => decide (x ≠ 3)) = []) := by
  constructorm* _ ∧ _ <;> decide +kernel

theorem witness_PortResetEndsOrOrphansTheJobs :
    (∀ st begun, (st, begun) ∈ [(JobState.filling, false), (.ready, true), (.cancelling, true)] →
      ((busyWith st begun).port 3).hrst = false ∧ (busyWith st begun).le.link ≠ .idle ∧
      (busyWith st begun).le.link ≠ .waiting ∧
      (∀ a, (busyWith st begun).du.active = some a → ((busyWith st begun).job a).owner ≠ 3) ∧
      ((busyWith st begun).job 23).owner = 3) ∧
    (((busyWith .filling false).job 23).state ≠ .free ∧ ((busyWith .filling false).job 23).state ≠ .cancelling ∧
      partlySent ((busyWith .filling false).job 23) = false) ∧
    partlySent ((busyWith .ready true).job 23) = true ∧ ((busyWith .cancelling true).job 23).state = .cancelling ∧
    ((busyWith .ready true).job 0).state = .free := by
  refine ⟨?_, ?_⟩
  · intro st begun h
    simp only [List.mem_cons, Prod.mk.injEq, List.not_mem_nil, or_false] at h
    rcases h with ⟨rfl, rfl⟩ | ⟨rfl, rfl⟩ | ⟨rfl, rfl⟩ <;> decide +kernel
  · decide +kernel

theorem witness_port_reset_at_a_boundary :
    (nothingToDo (with23 (base .idle) (jobIn 3 .filling [.data 1])) ∧
      allSlots.filter (fun k => decide (((with23 (base .idle) (jobIn 3 .filling [.data 1])).job k).owner = 3) &&
        partlySent ((with23 (base .idle) (jobIn 3 .filling [.data 1])).job k)) = []) ∧
    (nothingToDo waitingStarved ∧ waitingStarved.le.link = .waiting ∧ partlySent (waitingStarved.job 23) = true ∧
      waitingStarved.du.ready.Nodup ∧ waitingStarved.du.stack = []) ∧
    (∀ current, current ∈ [none, some (15 : ChannelId)] → let s := suspended .idle current;
      (allSlots.filter fun k => decide ((s.job k).owner = 3) && partlySent (s.job k)).head? = some 23 ∧
      s.le.link = .idle ∧ nothingToDo s ∧ forwardOpen s ∧ s.le.current = current ∧ s.du.active = none) := by
  constructorm* _ ∧ _ <;> decide +kernel

theorem witness_port_reset_of_the_active_host :
    ∀ p ∈ passings (running .sending [.data 1]),
      (p.1.port 3).hrst = false ∧ p.1.du.ready.Nodup ∧ p.1.du.stack.Nodup ∧
      (∀ z ∈ p.1.du.stack, (p.1.job z).state = .suspended) ∧ p.1.du.active = some 23 ∧ (p.1.job 23).state = .active ∧
      (p.1.job 23).owner = 3 ∧ busyLink p.1 ∧
      followedBy { p.1 with du := { p.1.du with ready := p.1.du.ready.diff [23], stack := p.1.du.stack.diff [23], active := none } }
        p.2 := by
  rw [passings]
  simp only [List.forall_mem_cons, List.not_mem_nil, IsEmpty.forall_iff, implies_true, and_true]
  constructorm* _ ∧ _ <;> decide +kernel

theorem witness_FramingFaultIsAnsweredFrame :
    (((base .idle).port 3).detached = false ∧ ((base .idle).port 3).framing = .request ∧
      frameComplete [0x60, 0x00, 0xA0] = true ∧ frameFaulty [0x60, 0x00, 0xA0] = true) ∧
    ((State.reset).port 3).detached = true ∧ frameFaulty [0x02, 0x00, 0xFE] = false := by
  constructorm* _ ∧ _ <;> decide +kernel

theorem witness_IdentNamesThePart :
    ((base .idle).port 3).detached = false ∧ ((base .idle).port 3).framing = .request := by
  constructorm* _ ∧ _ <;> decide +kernel

theorem witness_LastRepeatsTheStoredAnswer :
    (((base .idle).port 3).detached = false ∧ ((base .idle).port 3).framing = .request ∧
      ((base .idle).port 3).stored = none) ∧
    (((base .idle).setPort 3 { (base .idle).port 3 with stored := some [4, 0, 252] }).port 3).stored = some [4, 0, 252] := by
  constructorm* _ ∧ _ <;> decide +kernel

theorem witness_RequestsReachNoBlockOutsideTheirTime :
    (requestHost (.linkStatus 3) = some 3 ∧ Instr.linkStatus 3 ≠ .ident 3 ∧ Instr.linkStatus 3 ≠ .last 3 ∧
      (inInit.port 3).detached = false ∧ (inInit.port 3).framing = .request ∧ inInit.sp.phase = .init) ∧
    (State.reset.port 3).detached = true := by
  constructorm* _ ∧ _ <;> decide +kernel

theorem witness_HandleAndOwnershipAreCheckedFirst :
    (requestHost (.release 3 0xF7) = some 3 ∧ requestHandle (.release 3 0xF7) = some 0xF7 ∧ taking (base .idle) 3 ∧
      ∀ k, ¬ namesJob (base .idle) 0xF7 k) ∧
    (taking (with23 (base .idle) (jobIn 2 .ended [])) 3 ∧ Instr.release 3 0xF7 ≠ .jobStatus 3 0xF7 ∧
      Instr.release 3 0xF7 ≠ .cancel 3 0xF7 ∧ namesJob (with23 (base .idle) (jobIn 2 .ended [])) 0xF7 23 ∧
      ((with23 (base .idle) (jobIn 2 .ended [])).job 23).owner ≠ 3) ∧
    (requestHandle (.cancel 3 0xF7) = some 0xF7 ∧ (with23 (base .idle) (jobIn 2 .ended [])).su.holder ≠ some 3) := by
  constructorm* _ ∧ _ <;> decide +kernel

theorem witness_OpenCreatesTheLowestFreeJob :
    (taking lastSlotFree 3 ∧ (0x01#8).toNat < 4 ∧ lastSlotFree.owned 3 < lastSlotFree.su.settings.jobLimit[(3 : HostId)] ∧
      (lastSlotFree.job 23).state = .free ∧ (∀ z < 23, (lastSlotFree.job z).state ≠ .free) ∧ (0x01#8).getLsbD 1 = false) ∧
    ((0x03#8).toNat < 4 ∧ (0x03#8).getLsbD 1 = true ∧ taking (routesTaken true lastSlotFree) 3 ∧
      ((routesTaken true lastSlotFree).route 15).state = .free ∧
      ∀ z < 15, ((routesTaken true lastSlotFree).route z).state ≠ .free) := by
  constructorm* _ ∧ _ <;> decide +kernel

theorem witness_OpenIsRefusedInOrder :
    (taking (base .idle) 3 ∧ ¬ ((16#8).toNat ≤ 15 ∧ (7#8).toNat ≤ 7 ∧ (3#8).toNat < 4)) ∧
    ((15#8).toNat ≤ 15 ∧ (7#8).toNat ≤ 7 ∧ (3#8).toNat < 4) ∧
    (taking lastSlotFree 1 ∧ lastSlotFree.owned 1 = lastSlotFree.su.settings.jobLimit[(1 : HostId)]) ∧
    (taking noSlotFree 3 ∧ noSlotFree.owned 3 < noSlotFree.su.settings.jobLimit[(3 : HostId)] ∧
      ∀ k, (noSlotFree.job k).state ≠ .free) ∧
    (lastSlotFree.owned 3 < lastSlotFree.su.settings.jobLimit[(3 : HostId)] ∧ (lastSlotFree.job 23).state = .free ∧
      (3#8).getLsbD 1 = true ∧ (∀ r, ((routesTaken false lastSlotFree).route r).state ≠ .free) ∧
      ((routesTaken true lastSlotFree).route 15).state = .free) := by
  constructorm* _ ∧ _ <;> decide +kernel

theorem witness_AppendJoinsTheChain :
    (let s := streaming .sending .starved;
      (appended 0x01#8 0x01#8 [0xDF#8]).length = 2 ∧ taking s 3 ∧ ownHandle s 3 0xF7 23 ∧
        appendLegal 0x01#8 0x01#8 [0xDF#8] ∧ (0x01#8).getLsbD 1 = false ∧ (s.job 23).closed = false ∧
        ((s.job 23).state = .filling ∨ (s.job 23).state = .starved) ∧
        (s.job 23).queued + 61 < s.su.settings.startThreshold ∧ appendHasRoom s 3 23 2 ∧ undisturbed s 23) ∧
    ((0x02#8).getLsbD 1 = true ∧ (0x03#8).getLsbD 1 = true) ∧
    (∀ st, st ∈ [JobState.suspended, .ready] → let s := streaming .sending st;
      appends s 0x02#8 [] ∧ (s.job 23).state = st ∧ (s.job 23).queued + 0 ≠ 0 ∧ undisturbed s 23) ∧
    (∀ es, es ∈ [[], [Entry.data 1]] → let s := running .sending es;
      appends s 0x03#8 [] ∧ s.du.active = some 23 ∧ ((s.job 23).chain = [] ∨ headEntry s 23 ≠ none) ∧
      undisturbed s 23) := by
  constructorm* _ ∧ _ <;> decide +kernel

theorem witness_append_on_a_waiting_link :
    (let s := jobHeldOff .timing;
      appends s 0x01#8 [0xFF] ∧ (s.job 23).state = .active ∧ s.le.link = .waiting ∧ nothingToDo s ∧
      headEntry s 23 ≠ none) ∧
    (let s := abandoning { running .waiting [] with
        le := { (running .waiting []).le with stall := .reported, dryTimer := some 20 },
        pins := { (base .waiting).pins with pflt := true } } [{ entry23 with channel := 0 }];
      appends s 0x00#8 [0xFF] ∧ (s.job 23).state = .active ∧ s.le.link = .waiting ∧ nothingToDo s ∧
      (s.job 23).chain = [] ∧ (appended 0x00#8 0x00#8 [0xFF]).head? ≠ some .brk) := by
  constructorm* _ ∧ _ <;> decide +kernel

theorem witness_append_that_ends_an_unused_job :
    ∀ st, st ∈ [JobState.filling, .starved, .ready] → let s := with23 (base .idle) (jobIn 3 st []);
      taking s 3 ∧ ownHandle s 3 0xF7 23 ∧ appendLegal 0x00#8 0x02#8 [] ∧ (s.job 23).closed = false ∧
      (s.job 23).queued = 0 ∧ (s.job 23).begun = false ∧ (s.job 23).chain = [] ∧ (s.job 23).stream = false ∧
      appendHasRoom s 3 23 0 ∧ undisturbed s 23 := by
  decide +kernel

/-- The answers of the Dispatch Unit to the job in slot 23: in recovery, behind a running job, held at priority 0, with a foreign claim on
its channel, in a dry wait below the floor and with its channel on the stack it waits; with a foreign claim it yet prompts the retest by
which another job preempts; the better of two is selected, or preempts a job in a dry
wait; and an open leaving decision is made, for the better of two or for the top of the stack. -/
theorem witness_responses :
    let joined (s : State) : State := joins s 23 (s.job 23)
    let s := streaming .sending .filling
    readied (joined (streaming .resetting .filling)) .waits ∧
    readied (joined { dry0 s with le := (base .sending).le }) .waits ∧
    readied (joined ((s.setClaim 15 (some 1)).setJob 23 { s.job 23 with priority := 0 })) .waits ∧
    readied (joined (s.setClaim 15 (some 1))) .waits ∧
    readied (joined (dry0 (ready2 6 (s.setClaim 15 (some 1))))) (.preempts 0 2) ∧
    readied (joined (floorAt 8 (dry0 s))) .waits ∧
    readied (joined ((under1 s).setJob 1 { jobIn 1 .suspended [.data 1] with priority := 1 })) .waits ∧
    readied (joined s) (.selected 23) ∧ readied (joined (ready2 7 s)) (.selected 2) ∧
    readied (joined (dry0 s)) (.preempts 0 23) ∧ readied (joined (ready2 7 (dry0 s))) (.preempts 0 2) ∧
    readied (joined (undecided (ready2 6 (under1 s)))) (.decides (.selected 23)) ∧
    readied (joined (undecided (floorAt 8 (under1 s)))) (.decides (.resumed 1)) := by
  intro joined s
  constructorm* _ ∧ _ <;> decide +kernel

theorem witness_AppendMakesItsJobReady :
    (∀ link, link ∈ [LinkState.resetting, .sending] → let s := thresholdAt 3 (streaming link .filling)
      appends s 0x00#8 [1, 2] ∧ (s.job 23).state = .filling ∧ (s.job 23).stream = true ∧
        s.su.settings.startThreshold ≤ (s.job 23).queued + (appended 0x00#8 0x00#8 [1, 2]).length ∧
        (s.job 23).queued + 2 ≠ 0 ∧ nothingToDo s ∧ headEntry s 23 ≠ none ∧
        (link = .resetting → readied (joined23 s 0x00 [1, 2]) .waits) ∧
        (link = .sending → busyLink s ∧ readied (joined23 s 0x00 [1, 2]) (.selected 23) ∧
          readied (joined23 (ready2 7 s) 0x00 [1, 2]) (.selected 2) ∧ headEntry (ready2 7 s) 2 ≠ none ∧
          readied (joined23 (undecided s) 0x00 [1, 2]) (.decides (.selected 23)))) ∧
    (let s := dry0 (streaming .sending .starved);
      appends s 0x02#8 [1] ∧ (s.job 23).state = .starved ∧ (0x02#8).getLsbD 1 = true ∧ busyLink s ∧
        readied (joined23 s 0x02 [1]) (.preempts 0 23)) ∧
    (let s := with23 (base .idle) (jobIn 3 .filling []);
      appends s 0x02#8 [1] ∧ (s.job 23).state = .filling ∧ s.le.link = .idle ∧ nothingToDo s ∧ forwardOpen s ∧
        s.le.current ≠ some (s.job 23).channel ∧ (s.job 23).chain = [] ∧
        readied (joined23 s 0x02 [1]) (.selected 23) ∧ nothingToDo (dry0 s) ∧
        readied (joined23 (dry0 s) 0x02 [1]) (.preempts 0 23) ∧
        readied (joined23 (ready2 7 (dry0 s)) 0x02 [1]) (.preempts 0 2) ∧ headEntry (ready2 7 (dry0 s)) 2 = some (entryOf .data 1)) := by
  constructorm* _ ∧ _ <;> decide +kernel

theorem witness_AppendInADryWaitIsOffered :
    (∀ current, current ∈ [none, some (15 : ChannelId)] → ∀ flags, flags ∈ [0x00#8, 0x01#8] → let s := runDry current;
      appends s flags [0xFF] ∧ flags.getLsbD 1 = false ∧ (s.job 23).state = .active ∧ s.du.active = some 23 ∧
      (s.job 23).chain = [] ∧ s.le.link = .idle ∧ s.le.abandon = [] ∧ forwardOpen s) ∧
    (appended 0x00#8 0x00#8 [0xFF]).length = 1 ∧ (appended 0x00#8 0x01#8 [0xFF]).length = 2 ∧
    (runDry (some 15)).le.current = some ((runDry (some 15)).job 23).channel ∧
    (runDry none).le.current ≠ some ((runDry none).job 23).channel := by
  constructorm* _ ∧ _ <;> decide +kernel

theorem witness_AppendIsRefusedInOrder :
    (taking poolSpent 3 ∧ ownHandle poolSpent 3 0xF7 23) ∧ ¬ appendLegal 0x01#8 0x00#8 [0xE0] ∧
    ¬ appendLegal 0x00#8 0x00#8 [] ∧
    (appendLegal 0x00#8 0x01#8 (List.replicate 240 0) ∧ (poolSpent.job 23).closed = false ∧
      (poolSpent.job 23).state = .ready ∧
      allowance poolSpent 3 < newSegments (appended 0x00#8 0x01#8 (List.replicate 240 0)).length (poolSpent.job 23).chain) ∧
    (taking (streaming .sending .ended) 3 ∧ ownHandle (streaming .sending .ended) 3 0xF7 23 ∧
      ((streaming .sending .ended).job 23).state = .ended) := by
  constructorm* _ ∧ _ <;> decide +kernel

theorem witness_CloseMovesTheJob :
    (taking (streaming .sending .ended) 3 ∧ ownHandle (streaming .sending .ended) 3 0xF7 23) ∧
    (let s := with23 (base .idle) (jobIn 3 .filling []);
      taking s 3 ∧ ownHandle s 3 0xF7 23 ∧ (s.job 23).closed = false ∧ (s.job 23).queued = 0 ∧ (s.job 23).begun = false ∧
      (s.job 23).chain = [] ∧ undisturbed s 23) ∧
    (∀ link, link ∈ [LinkState.resetting, .sending] → let s := streaming link .filling;
      taking s 3 ∧ ownHandle s 3 0xF7 23 ∧ (s.job 23).closed = false ∧ (s.job 23).state = .filling ∧
      let joined (s : State) : State := joins s 23 { s.job 23 with closed := true };
      (s.job 23).queued ≠ 0 ∧ nothingToDo s ∧ headEntry s 23 ≠ none ∧ (link = .resetting → readied (joined s) .waits) ∧
      (link = .sending → busyLink s ∧ readied (joined s) (.selected 23) ∧
        readied (joined (ready2 7 s)) (.selected 2) ∧ readied (joined (dry0 s)) (.preempts 0 23) ∧
        readied (joined (undecided s)) (.decides (.selected 23)))) ∧
    (let s := dry0 (streaming .idle .filling);
      let joined (s : State) : State := joins s 23 { s.job 23 with closed := true };
      taking s 3 ∧ ownHandle s 3 0xF7 23 ∧ (s.job 23).closed = false ∧ (s.job 23).state = .filling ∧ (s.job 23).queued ≠ 0 ∧
      readied (joined s) (.preempts 0 23) ∧ readied (joined (ready2 7 s)) (.preempts 0 2) ∧
      headEntry s 23 = some (entryOf .data 1) ∧ headEntry (ready2 7 s) 2 = some (entryOf .data 1) ∧ s.le.link = .idle ∧
      nothingToDo s ∧ forwardOpen s ∧ s.le.current = none) ∧
    (let s := streaming .sending .suspended;
      taking s 3 ∧ ownHandle s 3 0xF7 23 ∧ (s.job 23).closed = false ∧ nothingToDo s ∧ (s.job 23).state = .suspended) ∧
    (let s := active23 (base .sending) (jobIn 3 .active [.data 1]);
      ownHandle s 3 0xF7 23 ∧ nothingToDo s ∧ s.du.active = some 23 ∧ headEntry s 23 ≠ none) ∧
    (∀ route, route ∈ [none, some (15 : RouteId)] → let s := dryJob route;
      taking s 3 ∧ ownHandle s 3 0xF7 23 ∧ (s.job 23).closed = false ∧ nothingToDo s ∧ (s.job 23).state = .active ∧
      s.du.active = some 23 ∧ (s.job 23).chain = [] ∧ (s.job 23).queued = 0 ∧ entryOffered s 23 = false ∧
      followedBy (left23 .ended s) .nobody ∧ followedBy (left23 .awaitReply s) .nobody ∧ (s.job 23).route = route) ∧
    ((dryJob (some 15)).route 15).state = .opened := by
  constructorm* _ ∧ _ <;> decide +kernel

theorem witness_close_that_passes_the_link :
    ∀ st, st ∈ [JobState.ended, .awaitReply] → ∀ p ∈ passings (running .sending []),
      taking p.1 3 ∧ ownHandle p.1 3 0xF7 23 ∧ (p.1.job 23).closed = false ∧ (p.1.job 23).state = .active ∧
      p.1.du.active = some 23 ∧ (p.1.job 23).chain = [] ∧ entryOffered p.1 23 = false ∧ busyLink p.1 ∧
      followedBy (left23 st p.1) p.2 := by
  rw [passings]
  simp only [List.forall_mem_cons, List.not_mem_nil, IsEmpty.forall_iff, implies_true, and_true]
  constructorm* _ ∧ _ <;> decide +kernel

/-- On an IDLE link a CLOSE, a CANCEL or the expiry of a dry wait gives the link to the better of two READY jobs or to the top of the
stack, with a DATA entry on another channel. -/
theorem witness_idle_link_that_passes_on :
    ∀ st, st ∈ [JobState.ended, .awaitReply, .starved] → ∀ p ∈ (passings (runDry none)).tail, ∀ m, p.2.holder = some m →
      taking p.1 3 ∧ ownHandle p.1 3 0xF7 23 ∧ (p.1.job 23).closed = false ∧ (p.1.job 23).state = .active ∧
      p.1.du.active = some 23 ∧ (p.1.job 23).chain = [] ∧ entryOffered p.1 23 = false ∧ p.1.le.link = .idle ∧
      partlySent { p.1.job 23 with begun := false } = false ∧ p.1.le.dryTimer ≠ none ∧ nothingToDo p.1 ∧ forwardOpen p.1 ∧
      headEntry p.1 m = some (entryOf .data 1) ∧ p.1.le.current ≠ some (p.1.job m).channel ∧
      followedBy (left23 st p.1) p.2 := by
  rw [passings]
  simp only [List.tail_cons, List.forall_mem_cons, List.not_mem_nil, IsEmpty.forall_iff, implies_true, and_true, Successor.holder,
    Option.some.injEq, forall_eq']
  constructorm* _ ∧ _ <;> decide +kernel

theorem witness_SetPriorityChangesThePriority :
    (taking (streaming .sending .filling) 3 ∧ ownHandle (streaming .sending .filling) 3 0xF7 23 ∧ 7 < (8#8).toNat) ∧
    (ownHandle (streaming .sending .suspended) 3 0xF7 23 ∧ ((streaming .sending .suspended).job 23).state = .suspended) ∧
    (undisturbed (streaming .sending .filling) 23 ∧ ((streaming .sending .filling).job 23).state = .filling) ∧
    (undisturbed (streaming .sending .ready) 23 ∧ (0 : Fin 8) ≤ ((streaming .sending .ready).job 23).priority) := by
  constructorm* _ ∧ _ <;> decide +kernel

theorem witness_priority_of_a_ready_job :
    let low (link : LinkState) : State := ready23 (with23 (base link) { jobIn 3 .ready [.data 1] with priority := 0 })
    let high (s : State) : State := s.setJob 23 { s.job 23 with priority := 7 }
    let raised (s : State) (r : Response) : Prop :=
      answersTo (high s) 23 ((s.job 23).priority = 0 ∨ openChannel s 23) r
    (∀ link, link ∈ [LinkState.resetting, .sending] →
      taking (low link) 3 ∧ ownHandle (low link) 3 0xF7 23 ∧ undisturbed (low link) 23 ∧ 23 ∈ (low link).du.ready ∧
      ((low link).job 23).state = .ready ∧ ((low link).job 23).priority < 7 ∧ headEntry (low link) 23 ≠ none) ∧
    raised (low .resetting) .waits ∧ busyLink (low .sending) ∧
    raised ((low .sending).setClaim 15 (some 1)) .waits ∧
    raised ((dry0 (ready2 6 (low .sending))).setClaim 15 (some 1)) (.preempts 0 2) ∧
    raised (((low .sending).setJob 23 { (low .sending).job 23 with priority := 6 }).setClaim 15 (some 1)) .waits ∧
    (let s := dry0 (low .idle);
      raised s (.preempts 0 23) ∧ headEntry s 23 = some (entryOf .data 1) ∧ s.le.link = .idle ∧ nothingToDo s ∧ forwardOpen s ∧
      s.le.current = none) ∧
    raised (low .sending) (.selected 23) ∧ raised (ready2 7 (low .sending)) (.selected 2) ∧
    raised (dry0 (low .sending)) (.preempts 0 23) ∧
    raised (undecided (under1 (low .sending))) (.decides (.selected 23)) := by
  constructorm* _ ∧ _ <;> decide +kernel

theorem witness_CancelEndsAJobWithoutPartialOutput :
    (let s := streaming .sending .ended;
      taking s 3 ∧ namesJob s 0xF7 23 ∧ (s.job 23).orphaned = false ∧ (s.job 23).owner = 3 ∧ (s.job 23).state = .ended) ∧
    (∀ h : HostId, h ∈ [3, 0] → let s := leased (streaming .sending .filling) 0 [];
      taking s h ∧ namesJob s 0xF7 23 ∧ (s.job 23).orphaned = false ∧
      ((s.job 23).owner = h ∨ (s.job 23).owner ≠ h ∧ s.su.holder = some h) ∧
      (s.job 23).state ≠ .cancelling ∧ (s.job 23).state ≠ .ended ∧ partlySent (s.job 23) = false ∧ undisturbed s 23 ∧
      s.du.active ≠ some 23) := by
  constructorm* _ ∧ _ <;> decide +kernel

/-- An ACTIVE job that has not begun is cancelled without partial output, a begun one with it: its claim stays. -/
theorem witness_cancel_of_the_active_job :
    ∀ p ∈ passings (running .sending [.data 1]), ∀ h : HostId, h ∈ [3, 2] → let s := leased p.1 2 [];
      taking s h ∧ namesJob s 0xF7 23 ∧ (s.job 23).orphaned = false ∧ s.du.active = some 23 ∧ busyLink s ∧
      ((s.job 23).owner = h ∨ (s.job 23).owner ≠ h ∧ s.su.holder = some h) ∧ partlySent (s.job 23) = true ∧
      partlySent { s.job 23 with begun := false } = false ∧
      (let t := s.setJob 23 { s.job 23 with state := .cancelling };
        followedBy { t with
          du := { t.du with ready := t.du.ready.erase 23, stack := t.du.stack.erase 23, active := none } } p.2) ∧
      followedBy (left23 .ended s) p.2 := by
  rw [passings]
  simp only [List.forall_mem_cons, List.not_mem_nil, IsEmpty.forall_iff, implies_true, and_true]
  constructorm* _ ∧ _ <;> decide +kernel

theorem witness_CancelOfAPartlySentJobJoinsTheAbandonList :
    (∀ link, link ∈ [LinkState.sending, .reverse, .down] → let s := suspended link none;
      taking s 3 ∧ ownHandle s 3 0xF7 23 ∧ partlySent (s.job 23) = true ∧ s.le.link ≠ .idle ∧
      s.le.link ≠ .waiting ∧ s.du.active ≠ some 23) ∧
    (taking waitingStarved 3 ∧ ownHandle waitingStarved 3 0xF7 23 ∧ nothingToDo waitingStarved ∧
      waitingStarved.le.link = .waiting ∧ partlySent (waitingStarved.job 23) = true ∧ waitingStarved.du.active = none) ∧
    (∀ current, current ∈ [none, some (15 : ChannelId)] → let s := suspended .idle current;
      taking s 3 ∧ ownHandle s 3 0xF7 23 ∧ partlySent (s.job 23) = true ∧ s.le.link = .idle ∧ nothingToDo s ∧
      forwardOpen s ∧ s.du.active ≠ some 23 ∧ s.le.current = current) ∧
    (∀ current, current ∈ [none, some (15 : ChannelId)] → let s := runDry current;
      taking s 3 ∧ ownHandle s 3 0xF7 23 ∧ partlySent (s.job 23) = true ∧ s.le.link = .idle ∧ nothingToDo s ∧
      forwardOpen s ∧ s.du.active = some 23 ∧ followedBy (left23 .cancelling s) .nobody) := by
  constructorm* _ ∧ _ <;> decide +kernel

theorem witness_ReleaseFreesTheSlot :
    (taking (streaming .sending .ended) 3 ∧ ownHandle (streaming .sending .ended) 3 0xF7 23 ∧
      ((streaming .sending .ended).job 23).state = .ended) ∧
    (ownHandle (streaming .sending .ready) 3 0xF7 23 ∧ ((streaming .sending .ready).job 23).state ≠ .ended) := by
  constructorm* _ ∧ _ <;> decide +kernel

theorem witness_JobStatusReportsTheRecord :
    taking (streaming .sending .ended) 0 ∧ namesJob (streaming .sending .ended) 0xF7 23 := by
  constructorm* _ ∧ _ <;> decide +kernel

theorem witness_ReadReplyReturnsTheHeadOrIsRefused :
    (taking (base .idle) 3 ∧ ∀ k, ¬ namesJob (base .idle) 0xF7 k) ∧
    (namesJob (dryJob none) 0xF7 23 ∧ ((dryJob none).job 23).owner ≠ 0) ∧
    (taking (dryJob none) 3 ∧ ((dryJob none).job 23).owner = 3 ∧ ((dryJob none).job 23).orphaned = false ∧
      ((dryJob none).job 23).route = none ∧ ((dryJob (some 15)).job 23).route = some 15) ∧
    (¬ (1 ≤ (0#8).toNat) ∧ ¬ ((241#8).toNat ≤ 240) ∧ (240#8).toNat ≤ 240 ∧ 1 ≤ (1#8).toNat) := by
  constructorm* _ ∧ _ <;> decide +kernel

theorem witness_FetchEventReturnsTheOldest :
    (taking (base .idle) 3 ∧ ((base .idle).eu 3).queue = []) ∧
    (((base .idle).setEu 3 { emptyEventUnit with queue := [plainEvent .space 0] }).eu 3).queue =
      plainEvent .space 0 :: [] := by
  constructorm* _ ∧ _ <;> decide +kernel

theorem witness_SubscribeSetsTheSubscription :
    taking (base .idle) 3 ∧ 7 < (8#8).toNat ∧ (7#8).toNat ≤ 7 := by
  constructorm* _ ∧ _ <;> decide +kernel

theorem witness_LeaseTakeGrantsOrQueues :
    (taking (base .idle) 3 ∧ (base .idle).su.holder = none) ∧ (leased (base .idle) 3 []).su.holder = some 3 ∧
    (taking (leased (base .idle) 0 [1, 2]) 3 ∧ (leased (base .idle) 0 [1, 2]).su.holder = some 0 ∧
      leaseSound (leased (base .idle) 0 [1, 2]) ∧ (leased (base .idle) 0 [1, 2]).su.term = some 20 ∧
      3 ∉ (leased (base .idle) 0 [1, 2]).su.waiters) ∧
    (taking (nearlyOver 0 [1, 3]) 3 ∧ leaseSound (nearlyOver 0 [1, 3]) ∧ 3 ∈ (nearlyOver 0 [1, 3]).su.waiters) := by
  constructorm* _ ∧ _ <;> decide +kernel

theorem witness_HoldingsEndInHandover :
    (taking (leased (base .idle) 3 []) 3 ∧ (leased (base .idle) 3 []).su.holder = some 3 ∧
      (leased (base .idle) 3 []).su.waiters = []) ∧
    (taking (leased (base .idle) 3 [0, 1]) 3 ∧ (leased (base .idle) 3 [0, 1]).su.waiters = 0 :: [1]) ∧
    (taking (leased (base .idle) 0 [3]) 3 ∧ (leased (base .idle) 0 [3]).su.holder ≠ some 3 ∧
      3 ∈ (leased (base .idle) 0 [3]).su.waiters) ∧
    ((leased (base .idle) 0 []).su.holder ≠ some 3 ∧ 3 ∉ (leased (base .idle) 0 []).su.waiters) ∧
    ((leased (base .idle) 3 [0, 1]).su.term ≠ none ∧ (leased (base .idle) 3 [0, 1]).su.holder = some 3) ∧
    (base .idle).su.term = none := by
  constructorm* _ ∧ _ <;> decide +kernel

theorem witness_SetReplacesOneValue :
    (taking (base .idle) 3 ∧ (base .idle).su.holder ≠ some 3) ∧
    (taking (leased (base .idle) 3 []) 3 ∧ (leased (base .idle) 3 []).su.holder = some 3) ∧
    (∀ x, ¬ namesSetting 13 0 x) ∧ (∀ x, ¬ namesSetting 10 1 x) ∧ namesSetting 10 0 0 ∧ namesSetting 11 3 3 ∧
    namesSetting 12 3 3 ∧ (noSlotFree.owned 2 = 8 ∧ (7#16).toNat < noSlotFree.owned 2) ∧
    reserveFits (base .idle) 3 96 ∧
    ¬ reserveFits { base .idle with sp := { (base .idle).sp with used := #v[288, 0, 0, 0] } } 3 33 := by
  constructorm* _ ∧ _ <;> decide +kernel

/-- A space waiter that a larger reserve serves, and one that it does not. -/
theorem witness_set_that_serves_a_space_waiter :
    let s := ((leased (base .idle) 3 []).setMark 3 (some 288)).setMark 0 (some 289)
    taking s 3 ∧ s.su.holder = some 3 ∧ reserveFits s 3 96 ∧ spaceDue s (after (.setSetting 3 12 3 96) s) 3 = true ∧
      spaceDue s (after (.setSetting 3 12 3 96) s) 0 = false := by
  constructorm* _ ∧ _ <;> decide +kernel

theorem witness_ranges_of_settings :
    inTableRange 9 0 ∧ ¬ inTableRange 9 255 ∧ inTableRange 9 256 ∧ inTableRange 10 8 ∧ ¬ inTableRange 10 9 ∧
      inTableRange 11 24 ∧ ¬ inTableRange 11 0 ∧ inTableRange 12 96 ∧ ¬ inTableRange 12 97 := by
  simp [inTableRange]

theorem witness_GetReportsTheValue :
    taking (base .idle) 3 ∧ 12 < (13#8).toNat ∧ 3 < (4#8).toNat ∧ ((1#8).toNat ≠ 0 ∧ (10#8).toNat ≤ 10) ∧
      (12#8).toNat ≤ 12 ∧ (3#8).toNat = (3 : HostId).val := by
  constructorm* _ ∧ _ <;> decide +kernel

theorem witness_LinkStatusIsASnapshot :
    taking { base .idle with du := { (base .idle).du with stack := [1, 2, 3] } } 3 ∧
      stackSound { base .idle with du := { (base .idle).du with stack := [1, 2, 3] } } := by
  constructorm* _ ∧ _ <;> decide +kernel

theorem witness_EvaluationServesTheSpaceWaiters :
    ((base .idle).setMark 3 (some 288)).mark 3 = some 288 ∧ 288 ≤ allowance ((base .idle).setMark 3 (some 288)) 3 ∧
      allowance ((base .idle).setMark 3 (some 289)) 3 < 289 := by
  constructorm* _ ∧ _ <;> decide +kernel

theorem witness_LinkResetsClearTheLink :
    (taking (leased (base .idle) 3 []) 3 ∧ (leased (base .idle) 3 []).su.holder = some 3) ∧
    (sending (.entry h23) [.data 1]).le.ackTimer ≠ none ∧ (base .idle).su.holder ≠ some 3 ∧
    (base .idle).le.ackTimer = none := by
  constructorm* _ ∧ _ <;> decide +kernel

theorem witness_resets_of_the_link :
    resetsLink (.linkReset 3) (leased (base .idle) 3 []) .resetRequested .linkReset ∧
      resetsLink .acknowledgeTimeout (sending (.entry h23) [.data 1]) .ackTimeout .linkFault :=
  ⟨.inl ⟨3, rfl, by decide +kernel, by decide +kernel, rfl, rfl⟩, .inr ⟨rfl, by decide +kernel, rfl, rfl⟩⟩

theorem witness_LinkResetsDecideEveryJobsFate :
    resetEnds (sending (.entry h23) [.data 1]) 23 .linkFault .failed .linkFault ∧
      resetKeeps (sending (.entry h23) [.data 1]) 0 ∧
      ((sending (.entry h23) [.data 1]).job 23).orphaned = false :=
  ⟨.inl ⟨by decide +kernel, rfl, rfl⟩, by decide +kernel, by decide +kernel⟩

theorem witness_AcknowledgedSelectsMakeTheChannelCurrent :
    (base .idle).le.latch = none ∧
    (let s := lines (offering (base .sending) 0xEF .control (.select 15)) true true false;
      s.le.latch = some { byte := 0xEF, kind := .control, origin := .select 15 } ∧ s.pins.rreq = true) ∧
    noWork (offering (base .sending) 0xEF .control (.select 15)) ∧
    (∀ prdy, let s := abandoning (lines (offering (base .sending) 0xEF .control (.select 15)) false prdy true) [entry23];
      s.pins.rreq = false ∧ forwardWork s = true ∧ (∀ a, activeHead s ≠ some (a, .brk)) ∧ noStall s ∧
      (s.pins.prdy = false ∨ s.pins.pflt = true)) ∧
    (let s := abandoning (offering (base .sending) 0xEF .control (.select 15)) [entry23];
      (∀ a, activeHead s ≠ some (a, .brk)) ∧ s.le.abandon = entry23 :: [] ∧ entry23.channel = 15 ∧ forwardOpen s) ∧
    (∀ es, es ∈ [[Entry.data 7, .data 8], [Entry.data 7]] → let s := sending (.select 15) es;
      s.du.active = some 23 ∧ (s.job 23).channel = 15 ∧ s.le.abandon = [] ∧ forwardOpen s ∧
      headEntry s 23 = some (entryOf .data 7) ∧ (s.job 23).chain = { id := 1, taken := 0, entries := es } :: []) := by
  constructorm* _ ∧ _ <;> decide +kernel

theorem witness_AcknowledgedEntriesAreCounted :
    (∀ es, es ∈ [[Entry.control 7, .brk], [.control 7], [.brk, .control 7, .data 1], [.brk, .data 1]] →
      let s := offered23 es;
      s.le.latch = some { byte := 1, kind := .data, origin := .entry h23 } ∧ (s.job 23).state = .active ∧
      s.du.active = some 23 ∧ (s.job 23).begun = true ∧ s.le.current = some (s.job 23).channel ∧ s.le.abandon = [] ∧
      forwardOpen s ∧ (s.job 23).chain = { id := 1, taken := 0, entries := es } :: [] ∧ staysOn (ready2 7 s) 23 1) ∧
    headEntry (offered23 [.control 7]) 23 = some (entryOf .control 7) ∧
    (let s := offering (ready0 7 [.data 1, .data 2] (active23 (base .sending)
          { jobIn 3 .active [.brk, .data 1] with begun := true, priority := 1 })) 1 .data (.entry h23);
      urgent s 23 0 ∧ headEntry s 0 = some (entryOf .data 1) ∧
      (s.job 23).begun = true ∧ s.le.current = some (s.job 23).channel ∧ s.le.abandon = [] ∧ forwardOpen s) ∧
    (let s := ready2 7 (ready0 7 [.data 1] (offered23 [.brk, .data 1]));
      (∀ z, ¬ urgent s 23 z) ∧ spent s 4096 ∧ ¬ spent s 4095 ∧ firstRival s 23 0 ∧ ¬ firstRival s 23 2 ∧
      headEntry s 0 = some (entryOf .data 1) ∧ s.le.current ≠ some (s.job 0).channel ∧ recovering s = false) ∧
    (let s := abandoning (offering (with23 { base .sending with le := { (base .sending).le with current := some 15 } }
        (jobIn 3 .cancelling [])) 1 .data (.entry h23)) [entry23];
      (s.job 23).state = .cancelling ∧ (∀ a, activeHead s ≠ some (a, .brk)) ∧ s.le.abandon = entry23 :: [] ∧
      s.le.current = some entry23.channel ∧ forwardOpen s) := by
  constructorm* _ ∧ _ <;> decide +kernel

theorem witness_acknowledged_last_entries :
    (∀ closed, let s := lastOffered true closed;
      s.le.latch = some { byte := 1, kind := .data, origin := .entry h23 } ∧ (s.job 23).state = .active ∧
      s.du.active = some 23 ∧ (s.job 23).chain = [] ∧ (s.job 23).queued = 0 ∧ staysOn s 23 1 ∧ s.le.abandon = [] ∧
      s.pins.rreq = false ∧ noStall s ∧ (s.job 23).closed = closed ∧ (s.job 23).route = none ∧
      (s.job 23).orphaned = false ∧ (s.job 23).stream = true ∧ followedBy (left23 .ended s) .nobody) ∧
    (let s := offering (ready0 7 [.data 1] (active23 (lines (base .sending) true true false)
          { jobIn 3 .active [] with begun := true, stream := true, priority := 1 })) 1 .data (.entry h23);
      s.pins.rreq = true ∧ urgent s 23 0 ∧ headEntry s 0 ≠ none ∧ (s.job 23).closed = false) ∧
    (let s := lines (ready0 7 [.data 1] (offered23 [])) true true false;
      s.pins.rreq = true ∧ (∀ z, ¬ urgent s 23 z) ∧ spent s 4096 ∧ firstRival s 23 0 ∧ headEntry s 0 ≠ none ∧
      recovering s = false ∧ (s.job 23).closed = false ∧ (s.job 23).stream = true) := by
  constructorm* _ ∧ _ <;> decide +kernel

theorem witness_completion_that_passes_the_link :
    ∀ st, st ∈ [RouteState.opened, .complete] → ∀ p ∈ passings (offered23 []),
      let s := route15 (lines (p.1.setJob 23 { p.1.job 23 with closed := true, route := some 15 }) true true false)
        st (some h23) [] none
      s.le.latch = some { byte := 1, kind := .data, origin := .entry h23 } ∧ (s.job 23).state = .active ∧
      s.du.active = some 23 ∧ (s.job 23).chain = [] ∧ (s.job 23).queued = 0 ∧ (s.job 23).closed = true ∧
      (s.job 23).route = some 15 ∧ (s.route 15).state = st ∧ (s.job 23).orphaned = false ∧ s.pins.rreq = true ∧
      followedBy (left23 .ended s) p.2 ∧ followedBy (left23 .awaitReply s) p.2 := by
  rw [passings]
  simp only [List.forall_mem_cons, List.not_mem_nil, IsEmpty.forall_iff, implies_true, and_true]
  constructorm* _ ∧ _ <;> decide +kernel

theorem witness_AcknowledgedAbandonEndsTheJob :
    (∀ orphaned rest, rest ∈ [[], [{ entry23 with channel := 0 }]] → let s := abandonOffered orphaned rest
      s.le.latch = some { byte := 0xF8, kind := .control, origin := .abandon } ∧ s.le.abandon = entry23 :: rest ∧
      (s.job entry23.job.slot).chain = [] ∧ s.du.ready = [] ∧ s.du.active = none ∧ s.pins.rreq = false ∧
      noStall s ∧ (s.job entry23.job.slot).orphaned = orphaned ∧ s.le.current ≠ some 0 ∧ s.pins.prdy = true ∧
      s.pins.pflt = false) := by
  decide +kernel

theorem witness_abandon_that_frees_a_channel :
    let freed (s : State) : State :=
      { s.setJob 23 (endedJob (s.job 23) .cancelled .byOwner) with
        du := { s.du with claims := upd s.du.claims 15 none }, le := { s.le with abandon := [] } }
    (∀ rreq, let s := waitingForChannel 7 rreq;
      0 ∈ s.du.ready ∧ (0 : SlotId) ≠ 23 ∧ (s.job 0).state = .ready ∧ (s.job 0).channel = entry23.channel ∧
      (s.job 0).priority ≠ 0 ∧ respondsWith (freed s) (.selected 0) ∧ headEntry s 0 ≠ none ∧ s.pins.rreq = rreq ∧ (s.job 0).begun = false ∧
      (s.job 0).chain = { id := 1, taken := 0, entries := [entryOf .data 7, .data 8] } :: [] ∧
      s.le.current = some entry23.channel) ∧
    forwardOpen (waitingForChannel 7 false) ∧
    (let s := ready2 7 (waitingForChannel 6 true);
      respondsWith (freed s) (.selected 2) ∧ headEntry s 2 ≠ none ∧
      respondsWith (freed (undecided s)) (.decides (.selected 2))) ∧
    (let s := waitingForChannel 7 true;
      let held : State := { s with
        jm := { s.jm with jobs := upd s.jm.jobs 1 { jobIn 1 .active [] with channel := 1, priority := 1, stream := true } },
        du := { s.du with active := some 1 } };
      respondsWith (freed held) .waits ∧ held.du.active ≠ none ∧ held.le.dryTimer = none ∧ 0 ∈ held.du.ready ∧
        (let dry : State := { held with le := { held.le with dryTimer := some 20 } };
          respondsWith (freed dry) (.preempts 1 0) ∧ headEntry dry 0 ≠ none ∧ dry.pins.rreq = true)) := by
  constructorm* _ ∧ _ <;> decide +kernel

theorem witness_LineLevelsAreReadAtBoundaries :
    (lines (base .idle) true true false).pins.rreq = true ∧
    ((base .waiting).pins.rreq = false ∧ (base .waiting).le.link = .waiting) ∧
    ((base .down).pins.rreq = false ∧ (base .down).le.link ≠ .idle ∧ (base .down).le.link ≠ .waiting) ∧
    ((lines (base .reverse) true true false).pins.rreq = true ∧ (base .reverse).le.link ≠ .idle ∧
      (base .reverse).le.link ≠ .waiting) ∧
    (lines (base .idle) false false false).pins.prdy = false ∧ ((base .idle).pins.prdy = true ∧ nothingToDo (base .idle)) ∧
    (nothingToDo (heldOff .timing false true) ∧ (heldOff .timing false true).pins.prdy = false) ∧
    (∀ stall, stall ∈ [StallRecord.timing, .reported] → let s := heldOff stall true true;
      s.le.link = .waiting ∧ s.pins.rreq = false ∧ s.pins.prdy = true ∧ s.pins.pflt = true ∧ s.du.active = none ∧
      s.le.abandon = entry23 :: [] ∧ s.le.current = some entry23.channel ∧ s.le.stall = stall) := by
  constructorm* _ ∧ _ <;> decide +kernel

theorem witness_PrdyRiseResumesTheLink :
    (base .idle).pins.prdy = true ∧
    ((lines (base .idle) false false false).pins.prdy = false ∧ nothingToDo (lines (base .idle) false false false)) ∧
    ((heldOff .timing false true).pins.prdy = false ∧ (heldOff .timing false true).le.link = .waiting ∧
      nothingToDo (heldOff .timing false true) ∧ (heldOff .timing false true).pins.pflt = true) ∧
    ((lines (base .down) false false false).pins.prdy = false ∧ (lines (base .down) false false false).le.link = .down) ∧
    (∀ rreq, let s := lines (waking false) rreq false false;
      s.pins.prdy = false ∧ s.le.link = .waking ∧ noWork (lines s false false false) ∧
      respondsWith { s with le := { s.le with link := .idle, wakeTimer := none } } .waits ∧ s.pins.rreq = rreq) ∧
    (let s := readyInWaking;
      let up (s : State) : State := { s with le := { s.le with link := .idle, wakeTimer := none } };
      s.pins.prdy = false ∧ s.le.link = .waking ∧ noWork s ∧ s.pins.pflt = false ∧ respondsWith (up s) (.selected 23) ∧
      headEntry s 23 = some (entryOf .data 7) ∧ s.le.current = none ∧
      respondsWith (up (ready2 7 s)) (.selected 2) ∧ headEntry (ready2 7 s) 2 = some (entryOf .data 1)) ∧
    (∀ stall, stall ∈ [StallRecord.timing, .reported] → ∀ es, es ∈ [[Entry.data 7, .data 8], [.data 7]] →
      let s := entriesHeldOff stall es;
      s.pins.prdy = false ∧ s.le.link = .waiting ∧ s.pins.rreq = false ∧ s.pins.pflt = false ∧ s.le.abandon = [] ∧
      s.du.active = some 23 ∧ headEntry s 23 = some (entryOf .data 7) ∧ (s.job 23).begun = true ∧
      s.le.current = some (s.job 23).channel ∧ s.le.stall = stall) := by
  constructorm* _ ∧ _ <;> decide +kernel

theorem witness_StallsAndSilentPhasesAreReported :
    (base .idle).le.stallTimer = none ∧ (heldOff .timing false true).le.stallTimer ≠ none ∧
    (base .idle).le.revIdleTimer = none ∧
    (let s : State := { base .reverse with le := { (base .reverse).le with revIdleTimer := some 50 } };
      s.le.revIdleTimer ≠ none ∧ noWork s ∧ (lines s true true false).pins.rreq = true) := by
  constructorm* _ ∧ _ <;> decide +kernel

theorem witness_DryWaitsAndRepliesRunOut :
    (base .idle).le.dryTimer = none ∧
    (let s := runDry none;
      s.le.dryTimer ≠ none ∧ s.du.active = some 23 ∧ (s.job 23).chain = [] ∧ nothingToDo s ∧
      followedBy { left23 .starved s with du := { s.du with active := none } } .nobody) ∧
    ((base .idle).route 15).timer = none ∧
    (let s := route15 (with23 (base .idle) { jobIn 3 .awaitReply [] with route := some 15 }) .opened (some h23) [] (some 50);
      (s.route 15).timer ≠ none ∧ (s.route 15).owner = some h23 ∧ (s.job h23.slot).route = some 15 ∧
      (s.job h23.slot).orphaned = false ∧ (s.job h23.slot).chain = []) := by
  constructorm* _ ∧ _ <;> decide +kernel

/-- With no command waiting, and with one that makes no job eligible, the decision is made at once. -/
theorem witness_expiry_that_falls_together_with_nothing :
    ¬ fallsTogether (starved23 (dryWith [])) 23 ∧ ¬ fallsTogether (starved23 (dryWith [.prdyRise])) 23 := by
  constructor <;> rintro ⟨c, rest, u, h, k, -⟩
  · cases h
  · obtain ⟨rfl, -⟩ := List.cons.inj h
    obtain k | ⟨_, _, _, _, _, k⟩ | ⟨_, _, k⟩ | ⟨_, _, _, k⟩ := k <;> cases k

/-- The priority of the READY job in slot 0 is raised from 0 to 7 as the dry wait runs out, the expiry first. -/
theorem witness_expiry_that_falls_together :
    let s := dryWith [.setPriority 0 0 7]
    fallsTogether (starved23 s) 23 ∧ s.le.dryTimer ≠ none ∧ s.du.active = some 23 ∧ busyLink s ∧ taking s 0 ∧
      ownHandle s 0 0 0 ∧ (s.job 0).state = .ready ∧ (s.job 0).priority < 7 ∧
      (let left := starved23 s;
        let raised : State := { left with
          pending := [], du := { left.du with leaving := false },
          jm := { left.jm with jobs := upd left.jm.jobs 0 { s.job 0 with priority := 7 } } };
        ((s.job 0).priority = 0 ∨ openChannel s 0) ∧ (s.job 23).chain = [] ∧ followedBy raised (.selected 0)) := by
  refine ⟨⟨_, _, _, rfl, .inr (.inr (.inr ⟨0, 0, 7, rfl⟩)), rfl, ?_⟩, ?_⟩
  · decide +kernel
  · constructorm* _ ∧ _ <;> decide +kernel

theorem witness_dry_wait_that_passes_the_link :
    ∀ p ∈ passings { running .sending [] with le := { (running .sending []).le with dryTimer := some 20 } },
      p.1.le.dryTimer ≠ none ∧ p.1.du.active = some 23 ∧ busyLink p.1 ∧
      followedBy { left23 .starved p.1 with du := { p.1.du with active := none } } p.2 := by
  rw [passings]
  simp only [List.forall_mem_cons, List.not_mem_nil, IsEmpty.forall_iff, implies_true, and_true]
  constructorm* _ ∧ _ <;> decide +kernel

theorem witness_ReverseDataReachesTheSelectedRoute :
    (base .idle).le.link ≠ .reverse ∧
    ((base .reverse).le.link = .reverse ∧ (base .reverse).rr.selection = none ∧ (base .reverse).rr.orphanPosted = false) ∧
    { base .reverse with rr := { (base .reverse).rr with orphanPosted := true } }.rr.orphanPosted = true ∧
    ((selected15 .complete 0 .ended none).rr.selection = some 15 ∧
      ((selected15 .complete 0 .ended none).route 15).state = .complete) ∧
    ((selected15 .aborted 0 .ended none).rr.selection = some 15 ∧
      ((selected15 .aborted 0 .ended none).route 15).state = .aborted) ∧
    (∀ n, n ∈ [0, 255, 256] → let s := selected15 .opened n .awaitReply (some 2);
      s.le.link = .reverse ∧ s.rr.selection = some 15 ∧ (s.route 15).state = .opened ∧ (s.route 15).buffer.length ≤ 256 ∧
      s.rr.repeats = some 2 ∧ (s.route 15).owner = some h23 ∧ (s.job h23.slot).orphaned = false) := by
  constructorm* _ ∧ _ <;> decide +kernel

theorem witness_ReverseControlSteersThePhase :
    ((base .reverse).le.link = .reverse ∧ noWork (base .reverse)) ∧
    (0x40 ≤ (0x40#8).toNat ∧ (0x7F#8).toNat ≤ 0x7F) ∧ (0x8F#8).toNat = 0x80 + (15 : RouteId).val ∧
    (0x9F#8).toNat = 0x90 + (15 : Fin 16).val ∧ (lines (base .reverse) true true false).pins.rreq = true := by
  constructorm* _ ∧ _ <;> decide +kernel

/-- A repeat is pending, hosts 0 and 3 being in the LINK group or not. -/
theorem witness_broken_repeats :
    let s := (selected15 .opened 0 .awaitReply (some 65)).setEu 3 { emptyEventUnit with linkGroup := true }
    s.le.link = .reverse ∧ brokenRepeat s 3 ≠ [] ∧ brokenRepeat s 0 = [] ∧ brokenRepeat (base .reverse) 3 = [] := by
  constructorm* _ ∧ _ <;> decide +kernel

theorem witness_ReverseEndCompletesTheRoute :
    ((base .reverse).le.link = .reverse ∧ (base .reverse).rr.selection = none ∧
      (base .reverse).rr.orphanPosted = false) ∧
    ((selected15 .free 0 .ended none).rr.selection = some 15 ∧
      ((selected15 .free 0 .ended none).route 15).state = .free) ∧
    ((selected15 .aborted 0 .ended none).route 15).state = .aborted ∧
    (∀ job, job ∈ [JobState.active, .awaitReply] → ∀ repeats, repeats ∈ [none, some 65] →
      let s := selected15 .opened 256 job repeats;
      s.le.link = .reverse ∧ s.rr.selection = some 15 ∧ (s.route 15).state = .opened ∧
      (s.route 15).owner = some h23 ∧ (s.job h23.slot).orphaned = false ∧ (s.job h23.slot).state = job ∧
      (s.job h23.slot).route = some 15 ∧ (s.job h23.slot).chain = []) := by
  constructorm* _ ∧ _ <;> decide +kernel

theorem witness_MalformedBytesAreReported :
    (base .reverse).le.link = .reverse ∧ (0x3F#8).toNat ≤ 0x3F ∧ (0xA0 ≤ (0xA0#8).toNat ∧ (0xEF#8).toNat ≤ 0xEF) ∧
      0xF2 ≤ (0xF2#8).toNat := by
  constructorm* _ ∧ _ <;> decide +kernel

theorem witness_SelectionIsByPriorityRotationAndAge :
    bestAdmissible (base .idle) none = none ∧ bestAdmissible readyInWaking none = some 23 ∧
      23 ∈ readyInWaking.du.ready ∧ candidate readyInWaking none 23 ∧ ¬ candidate readyInWaking (some 23) 23 := by
  constructorm* _ ∧ _ <;> decide +kernel

/-- PREEMPT_FLOOR is 6 and TURN_BUDGET 4096: priority 7 preempts 6 with two jobs on the stack, but not with three. -/
theorem witness_BreakPointsYieldToUrgencyOrTurn :
    (let s := ready2 6 { contested 6 0 with du := { (contested 6 0).du with stack := [1, 4] } };
      s.du.active = some 0 ∧ urgent s 0 23 ∧ ¬ urgent s 0 2) ∧
    (let s := { contested 6 0 with du := { (contested 6 0).du with stack := [1, 4, 5] } }; ∀ k, ¬ urgent s 0 k) ∧
    (let s := ready2 7 (contested 7 4096);
      s.du.active = some 0 ∧ recovering s = false ∧ (∀ k, ¬ urgent s 0 k) ∧ spent s (s.job 0).turn ∧ rival s 0 23 ∧
      firstRival s 0 2) ∧
    (let s := contested 7 4095;
      s.du.active = some 0 ∧ recovering s = false ∧ staysOn s 0 (s.job 0).turn) ∧
    (let s := { contested 6 0 with le := (base .down).le }; s.du.active = some 0 ∧ recovering s = true) := by
  constructorm* _ ∧ _ <;> decide +kernel

theorem witness_LeavingSelectsOrResumes :
    ((waking false).du.active = none ∧ recovering (waking false) = true) ∧
    ((base .idle).du.active = none ∧ recovering (base .idle) = false ∧ (leavingDecision (base .idle)).du.active = none) ∧
    (let s := ready2 6 { contested 6 0 with du := { (contested 6 0).du with active := none, stack := [0] } };
      s.du.active = none ∧ bestAdmissible s none = some 23 ∧ (leavingDecision s).du.active = some 23) ∧
    (let s := ready2 6 { contested 7 0 with du := { (contested 7 0).du with active := none, stack := [0] } };
      s.du.active = none ∧ bestAdmissible s none = some 23 ∧ (leavingDecision s).du.active = some 0) := by
  constructorm* _ ∧ _ <;> decide +kernel

theorem witness_no_segment_twice : (poolInUse.sp.free ++ heldIds poolInUse).Nodup := by
  have e : heldIds poolInUse = [1] := by decide +kernel
  have p : List.Perm (allSegments.erase 1 ++ [1]) allSegments :=
    List.perm_append_comm.trans (List.perm_cons_erase (by simp [allSegments])).symm
  rw [e]
  exact p.nodup_iff.mpr (List.nodup_finRange 384)

theorem witness_DryActiveJobsAreSettled : (settled (runDry none)).du.active = some 23 := by
  decide +kernel

theorem witness_LinkEventsLeaveNothingToDo :
    exec .acknowledgement (lastOffered true true) = .next (after .acknowledgement (lastOffered true true)) ∧
      (lastOffered true true).le.latch ≠ none ∧ (base .idle).pins.prdy = true ∧ (pulsing false true).le.pulseTimer ≠ none ∧
      ((runDry none).le.dryTimer ≠ none ∧ (runDry none).du.active ≠ none) := by
  refine ⟨rfl, ?_⟩
  decide +kernel

/-- YIELD on a phase with forward work waiting, an accepted APPEND, CLOSE, SET_PRIORITY and CANCEL, and a port reset. -/
theorem witness_requests_that_change_the_work :
    (exec (.reverseByte .control 0xF1) (running .reverse [.data 1]) =
        .next (after (.reverseByte .control 0xF1) (running .reverse [.data 1])) ∧ (running .reverse [.data 1]).le.link = .reverse) ∧
    (let s := runDry none;
      taking s 3 ∧
        answeredWith s (after (.append 3 0xF7 0 0 [7]) s) 3 .ok [0x03, 0x00, 0x01, 0x01, 0x1F]) ∧
    answeredWith (runDry none) (after (.close 3 0xF7) (runDry none)) 3 .ok [0x08] ∧
    answeredWith readyInWaking (after (.setPriority 3 0xF7 5) readyInWaking) 3 .ok [] ∧
    answeredWith (runDry none) (after (.cancel 3 0xF7) (runDry none)) 3 .ok [0x06] ∧ ((runDry none).port 3).hrst = false := by
  refine ⟨⟨rfl, ?_⟩, ?_⟩
  · decide +kernel
  · constructorm* _ ∧ _ <;> decide +kernel

theorem witness_StepsKeepPortsEventsAndLeaseSound :
    step aboutToStart = .next starting ∧ unitsSound aboutToStart ∧ portsSound aboutToStart ∧ leaseSound aboutToStart ∧
      buffersSound aboutToStart := by
  refine ⟨rfl, ?_⟩
  decide +kernel

theorem witness_StepsKeepTheLinkSound :
    step aboutToStart = .next starting ∧ portsSound aboutToStart ∧ linkSound aboutToStart := by
  refine ⟨rfl, ?_⟩
  decide +kernel

theorem witness_StepsKeepThePoolSound :
    step poolInUse = .next (after (.close 3 0xF7) { poolInUse with pending := [] }) ∧ poolSound poolInUse ∧
      chainsSound poolInUse := by
  refine ⟨rfl, ⟨fun _ => ⟨?_, witness_no_segment_twice, ?_, ?_⟩, ?_⟩, ?_⟩ <;> decide +kernel

theorem witness_StepsKeepSettingsLimitsAndStackSound :
    (step aboutToStart = .next starting ∧ limitsSound aboutToStart ∧ stackSound aboutToStart ∧
      recovering aboutToStart = true ∧ recovering starting = true ∧ aboutToStart.du.active = none) ∧
    (step tablesInUse = .next (after (.close 0 0x00) { tablesInUse with pending := [] }) ∧ linkSound tablesInUse ∧
      tablesSound tablesInUse) := by
  refine ⟨⟨rfl, ?_⟩, rfl, ?_⟩ <;> decide +kernel

theorem witness_settings_of_reset : settingsSound aboutToStart := by
  intro n
  cases n <;> first | rfl | (rename_i h; revert h; decide +kernel)

theorem witness_ChangesComeOnlyFromThoseEntitled :
    exec (.leaseTake 3) (base .idle) = .next (after (.leaseTake 3) (base .idle)) ∧
      (after (.leaseTake 3) (base .idle)).port 3 ≠ (base .idle).port 3 ∧
      (after (.leaseTake 3) (base .idle)).su.holder ≠ (base .idle).su.holder ∧
      (nearlyOver 3 []).su.termLeft < (after (.leaseTake 3) (nearlyOver 3 [])).su.termLeft ∧
      (after (.setSetting 3 1 0 9) (leased (base .idle) 3 [])).su.settings ≠ (base .idle).su.settings ∧
      (after (.linkReset 3) (leased (base .idle) 3 [])).le.lastFault ≠ (base .idle).le.lastFault := by
  refine ⟨rfl, ?_⟩
  decide +kernel

end Sys2Proof.Tests
end

section
/-! SUPPORT. OPEN judged case by case (R8, R9): when its parameters are legal, when a FREE slot and a FREE route exist, what the
judgement answers in each case of R8, and the statement that these are all its refusals. -/

namespace Sys2Proof.Machine

variable {s : State} {h : HostId} {channel priority flags : Byte}

/-! ## Parameters of OPEN -/

/-- No bit but 0 and 1 is set exactly in the bytes below 4. -/
theorem onlyBits_three_iff (b : Byte) : onlyBits 0x03#8 b = true ↔ b.toNat < 4 := by
  revert b
  decide +kernel

/-- The parameters OPEN takes: a channel, a priority, and no reserved flag (R8). -/
abbrev openLegal (channel priority flags : Byte) : Prop :=
  channel.toNat ≤ 15 ∧ priority.toNat ≤ 7 ∧ flags.toNat < 4

theorem openArgs_of_illegal (n : ¬ openLegal channel priority flags) : openArgs channel priority flags = none := by
  rw [openArgs]
  split
  · next r =>
    have f : ¬ onlyBits 0x03#8 flags = true := fun b =>
      n ⟨Nat.le_of_lt_succ r.1, Nat.le_of_lt_succ r.2, (onlyBits_three_iff flags).mp b⟩
    exact if_neg f
  · rfl

theorem openArgs_of_legal (l : openLegal channel priority flags) :
    ∃ c p, openArgs channel priority flags = some (c, p, flags.getLsbD 0, flags.getLsbD 1) := by
  obtain ⟨hc, hp, hf⟩ := l
  rw [openArgs, dif_pos ⟨Nat.lt_succ_of_le hc, Nat.lt_succ_of_le hp⟩, if_pos ((onlyBits_three_iff flags).mpr hf)]
  exact ⟨_, _, rfl⟩

/-! ## FREE slots and routes -/

theorem lowestFreeSlot_eq_none : lowestFreeSlot s = none ↔ ∀ k, (s.job k).state ≠ .free := by
  simp [lowestFreeSlot, allSlots]

theorem lowestFreeRoute_eq_none : lowestFreeRoute s = none ↔ ∀ r, (s.route r).state ≠ .free := by
  simp [lowestFreeRoute]

theorem lowestFreeSlot_of_exists (e : ∃ k, (s.job k).state = .free) : ∃ k, lowestFreeSlot s = some k := by
  obtain ⟨k, free⟩ := e
  exact Option.ne_none_iff_exists'.mp fun n => lowestFreeSlot_eq_none.mp n k free

theorem lowestFreeRoute_of_exists (e : ∃ r, (s.route r).state = .free) : ∃ r, lowestFreeRoute s = some r := by
  obtain ⟨r, free⟩ := e
  exact Option.ne_none_iff_exists'.mp fun n => lowestFreeRoute_eq_none.mp n r free

/-! ## The judgement of OPEN -/

theorem exec_openJob : exec (.openJob h channel priority flags) s = serve h (judgeOpen h channel priority flags) s := by
  rfl

theorem judgeOpen_badArg (n : ¬ openLegal channel priority flags) :
    judgeOpen h channel priority flags s = refuse s .badArg := by
  rw [judgeOpen, openArgs_of_illegal n]

theorem judgeOpen_limit (l : openLegal channel priority flags) (full : s.su.settings.jobLimit[h] ≤ s.owned h) :
    judgeOpen h channel priority flags s = refuse s .limit := by
  obtain ⟨c, p, e⟩ := openArgs_of_legal l
  simp only [judgeOpen, e, if_pos full]

theorem judgeOpen_noSlot (l : openLegal channel priority flags) (room : s.owned h < s.su.settings.jobLimit[h])
    (taken : ∀ k, (s.job k).state ≠ .free) : judgeOpen h channel priority flags s = refuse s .noSlot := by
  obtain ⟨c, p, e⟩ := openArgs_of_legal l
  simp only [judgeOpen, e, if_neg (Nat.not_le_of_lt room), lowestFreeSlot_eq_none.mpr taken]

theorem judgeOpen_noRoute (l : openLegal channel priority flags) (room : s.owned h < s.su.settings.jobLimit[h])
    (slot : ∃ k, (s.job k).state = .free) (reply : flags.getLsbD 1 = true)
    (taken : ∀ r, (s.route r).state ≠ .free) : judgeOpen h channel priority flags s = refuse s .noRoute := by
  obtain ⟨c, p, e⟩ := openArgs_of_legal l
  obtain ⟨k, ek⟩ := lowestFreeSlot_of_exists slot
  simp only [judgeOpen, e, if_neg (Nat.not_le_of_lt room), ek, if_pos reply, lowestFreeRoute_eq_none.mpr taken]

/-- Where no case of R8 applies, OPEN creates a job (R9). -/
theorem judgeOpen_creates (l : openLegal channel priority flags) (room : s.owned h < s.su.settings.jobLimit[h])
    (slot : ∃ k, (s.job k).state = .free) (route : flags.getLsbD 1 = true → ∃ r, (s.route r).state = .free) :
    ∃ k c p stream reply r, judgeOpen h channel priority flags s = createJob h k c p stream reply r s := by
  obtain ⟨c, p, e⟩ := openArgs_of_legal l
  obtain ⟨k, ek⟩ := lowestFreeSlot_of_exists slot
  by_cases reply : flags.getLsbD 1 = true
  · obtain ⟨r, er⟩ := lowestFreeRoute_of_exists (route reply)
    refine ⟨k, c, p, flags.getLsbD 0, true, some r, ?_⟩
    simp only [judgeOpen, e, if_neg (Nat.not_le_of_lt room), ek, if_pos reply, er]
  · refine ⟨k, c, p, flags.getLsbD 0, false, none, ?_⟩
    simp only [judgeOpen, e, if_neg (Nat.not_le_of_lt room), ek, if_neg reply]

/-- The creation of a job touches no port: the answer alone does. -/
theorem createJob_ports (k : SlotId) (c : ChannelId) (p : Fin 8) (stream reply : Bool) (r : Option RouteId) :
    (createJob h k c p stream reply r s).state.ports = s.ports := by
  cases r <;> rfl

/-- Settles O17: each refusal is the judgement's in its case of R8, and outside the four cases the judgement creates the job. -/
theorem openIsRefusedInOrder : Obligations.OpenIsRefusedInOrder := by
  intro s h channel priority flags port c legal room
  refine ⟨fun illegal => ?_, fun l full => ?_, fun l rm taken => ?_, fun l rm slot reply taken => ?_,
    fun l rm slot route => ?_⟩
  · exact serve_refused port exec_openJob (judgeOpen_badArg illegal)
  · exact serve_refused port exec_openJob (judgeOpen_limit l full.ge)
  · exact serve_refused port exec_openJob (judgeOpen_noSlot l rm taken)
  · exact serve_refused port exec_openJob (judgeOpen_noRoute l rm slot reply taken)
  · obtain ⟨k, ch, p, stream, rep, r, created⟩ := judgeOpen_creates l rm slot route
    obtain ⟨t, served, answered, -⟩ := serve_answered port _ created (createJob_ports k ch p stream rep r)
    exact ⟨t, _, exec_openJob.trans served, answered⟩

end Sys2Proof.Machine
end

section
/-! SUPPORT. The handle and ownership checks judged case by case (R3, R4), and READ_REPLY (R115, R116): what its judgement answers in
each case, and the statement that these are all. -/

namespace Sys2Proof.Machine

variable {s : State} {h : HostId} {hd maximum : Byte} {k : SlotId} {r : RouteId}

/-! ## Handles that are refused -/

/-- A handle byte is not found exactly when it names no job (R3). -/
theorem findJob_eq_none : findJob s hd = none ↔ ∀ k, ¬ namesJob s hd k := by
  constructor
  · intro none k named
    rw [findJob_eq_some.mpr named] at none
    cases none
  · intro unnamed
    exact Option.eq_none_iff_forall_ne_some.mpr fun k found => unnamed k (findJob_eq_some.mp found)

theorem withOwnJob_badJob (unnamed : ∀ k, ¬ namesJob s hd k) (body : SlotId → Reply) :
    withOwnJob h hd s body = refuse s .badJob := by
  rw [withOwnJob, findJob_eq_none.mpr unnamed]

theorem ownsJob_eq_false (other : (s.job k).owner ≠ h ∨ (s.job k).orphaned = true) : ownsJob s h k = false := by
  obtain owner | orphaned := other
  · simp [ownsJob, owner]
  · simp [ownsJob, orphaned]

theorem withOwnJob_notOwner (named : namesJob s hd k) (other : (s.job k).owner ≠ h ∨ (s.job k).orphaned = true)
    (body : SlotId → Reply) : withOwnJob h hd s body = refuse s .notOwner := by
  simp only [withOwnJob, findJob_eq_some.mpr named, ownsJob_eq_false other, Bool.false_eq_true, if_false]

/-! ## The judgement of READ_REPLY -/

/-- The number of bytes READ_REPLY takes at most (R115). -/
abbrev readLegal (maximum : Byte) : Prop := 1 ≤ maximum.toNat ∧ maximum.toNat ≤ 240

theorem exec_readReply : exec (.readReply h hd maximum) s = serve h (judgeReadReply h hd maximum) s := by
  rfl

theorem judgeReadReply_badArg (own : ownHandle s h hd k) (illegal : ¬ readLegal maximum) :
    judgeReadReply h hd maximum s = refuse s .badArg := by
  rw [judgeReadReply, withOwnJob_own own, if_neg illegal]

theorem judgeReadReply_badState (own : ownHandle s h hd k) (legal : readLegal maximum)
    (routeless : (s.job k).route = none) : judgeReadReply h hd maximum s = refuse s .badState := by
  rw [judgeReadReply, withOwnJob_own own, if_pos legal, routeless]

theorem judgeReadReply_reads (own : ownHandle s h hd k) (legal : readLegal maximum) (routed : (s.job k).route = some r) :
    judgeReadReply h hd maximum s = readRoute r maximum.toNat s := by
  rw [judgeReadReply, withOwnJob_own own, if_pos legal, routed]

/-- The payload of READ_REPLY (R116) in the words of the statement: TRUNCATED is bit 0 of its byte, and what is left is what the
buffer holds beyond the maximum. -/
theorem readRoute_payload (r : RouteId) (n : Nat) (s : State) :
    (readRoute r n s).payload =
      [BitVec.ofNat 8 r.val, routeStateByte (s.route r).state, if (s.route r).truncated then 0x01#8 else 0x00#8,
        BitVec.ofNat 8 ((s.route r).buffer.length - n)] ++ (s.route r).buffer.take n := by
  simp [readRoute, oneByte, flagBit]

/-- Settles O28: each refusal is the judgement's in its case of R115, and outside the four cases the judgement reads the route. -/
theorem readReplyReturnsTheHeadOrIsRefused : Obligations.ReadReplyReturnsTheHeadOrIsRefused := by
  intro s h hd maximum port c legal
  refine ⟨fun unnamed => ?_, fun k ⟨slot, gen, used⟩ => ⟨fun other => ?_, fun owner present => ?_⟩⟩
  · exact serve_refused port exec_readReply (withOwnJob_badJob unnamed _)
  · exact serve_refused port exec_readReply (withOwnJob_notOwner ⟨slot, gen, used⟩ other _)
  · have own : ownHandle s h hd k := ⟨slot, gen, used, owner, present⟩
    refine ⟨fun illegal => ?_, fun l routeless => ?_, fun r l routed => ?_⟩
    · exact serve_refused port exec_readReply (judgeReadReply_badArg own illegal)
    · exact serve_refused port exec_readReply (judgeReadReply_badState own l routeless)
    · obtain ⟨t, served, answered, rest⟩ := serve_answered port _ (judgeReadReply_reads own l routed) rfl
      rw [readRoute_payload] at answered
      exact ⟨t, exec_readReply.trans served, answered, rest⟩

end Sys2Proof.Machine
end

section
/-! SUPPORT. Reverse CONTROL bytes: how one arrives, what the breaking of a pending repeat does to the units and leaves unchanged
(R105), which bytes are malformed, and the statement that each of these is reported (R112). -/

namespace Sys2Proof.Machine

variable {s : State} {b : Byte}

/-! ## Runs of posts -/

/-- A post leaves the subscription's LINK part as it is. -/
theorem takePost_linkGroup (d : Bool) (e : Event) (u : EventUnit) : (takePost d e u).linkGroup = u.linkGroup := by
  rw [takePost]
  split
  · rfl
  · split <;> rfl

theorem unitAfter_linkGroup (s : State) (h : HostId) (es : List Event) :
    (unitAfter s h es).linkGroup = (s.eu h).linkGroup :=
  List.foldlRecOn (motive := fun u => u.linkGroup = (s.eu h).linkGroup) es _ rfl
    fun u same e _ => (takePost_linkGroup _ e u).trans same

/-- A post to the LINK group as a run of at most one post. -/
theorem postLinkGroup_unitAfter (e : Event) (s : State) (h : HostId) :
    (postLinkGroup e s).eu h = unitAfter s h (if (s.eu h).linkGroup then [e] else []) := by
  rw [postLinkGroup_eu]
  split <;> rfl

/-! ## A broken repeat -/

/-- A CONTROL byte leaves no repeat pending, and breaking one changes nothing else but the units (R105). -/
theorem breakRepeat_frame (s : State) :
    breakRepeat s = { s with eus := (breakRepeat s).eus, rr := { s.rr with repeats := none } } := by
  rw [breakRepeat]
  split
  · next idle => rw [← idle]
  · rw [postLinkGroup_frame]

/-- The units after a CONTROL byte has broken a pending repeat, if any (R105). -/
theorem breakRepeat_eu (s : State) (h : HostId) : (breakRepeat s).eu h = unitAfter s h (brokenRepeat s h) := by
  rw [breakRepeat]
  split
  · next idle => simp [brokenRepeat, idle]
  · next pending =>
    have posts : brokenRepeat s h =
        if (s.eu h).linkGroup then [plainEvent .linkProtocol repeatBrokenCode] else [] := by
      simp [brokenRepeat, pending, plainEvent, repeatBrokenCode]
    rw [posts]
    exact postLinkGroup_unitAfter ..

/-- A post to the LINK group behind a broken repeat: the group is as it was, so a member takes both records in order. -/
theorem postLinkGroup_breakRepeat_eu (e : Event) (s : State) (h : HostId) :
    (postLinkGroup e (breakRepeat s)).eu h =
      unitAfter s h (brokenRepeat s h ++ if (s.eu h).linkGroup then [e] else []) := by
  have port : (breakRepeat s).port h = s.port h := by rw [breakRepeat_frame]; rfl
  rw [postLinkGroup_unitAfter, unitAfter, port, breakRepeat_eu, unitAfter_linkGroup]
  exact List.foldl_append.symm

/-! ## The arrival of a CONTROL byte -/

/-- The part when a reverse byte of a granted phase has arrived: RSTB has changed and the reverse-idle timer restarts (R100). -/
abbrev byteArrived (s : State) : State :=
  { s with
    le := { s.le with revIdleTimer := some s.su.settings.revIdle }, pins := { s.pins with rstb := !s.pins.rstb } }

/-- In a granted phase a CONTROL byte first breaks a pending repeat and is then acted on as its class (R100, R105). -/
theorem exec_reverseControl (phase : s.le.link = .reverse) :
    exec (.reverseByte .control b) s =
      .next (reverseControlByte (reverseControl b) (breakRepeat (byteArrived s))) :=
  if_pos phase

/-- An acknowledgement posts nothing. -/
theorem acknowledgeByte_eu (s : State) (h : HostId) : (acknowledgeByte s).eu h = s.eu h := rfl

/-- The bytes outside the classes of the table of section 5.4 are malformed (R112). -/
theorem reverseControl_malformed (outside : b.toNat ≤ 0x3F ∨ 0xA0 ≤ b.toNat ∧ b.toNat ≤ 0xEF ∨ 0xF2 ≤ b.toNat) :
    reverseControl b = .malformed := by
  have noRepeat : ¬ (0x40 ≤ b.toNat ∧ b.toNat ≤ 0x7F) := by omega
  have noRoute : ¬ (0x80 ≤ b.toNat ∧ b.toNat ≤ 0x8F) := by omega
  have noStatus : ¬ (0x90 ≤ b.toNat ∧ b.toNat ≤ 0x9F) := by omega
  have noEnd : b.toNat ≠ 0xF0 := by omega
  have noYield : b.toNat ≠ 0xF1 := by omega
  rw [reverseControl, if_neg noRepeat, if_neg noRoute, if_neg noStatus, if_neg noEnd, if_neg noYield]

/-- A malformed byte changes the units, drops the pending repeat and is acknowledged; nothing else changes. -/
theorem malformed_frame (s : State) :
    reverseControlByte .malformed (breakRepeat s) =
      { s with
        eus := (reverseControlByte .malformed (breakRepeat s)).eus
        rr := { s.rr with repeats := none }
        pins := { s.pins with rack := !s.pins.rack } } := by
  rw [reverseControlByte, acknowledgeByte, postLinkGroup_frame, breakRepeat_frame]

/-- The units after a malformed byte: REPEAT_BROKEN, where it breaks a repeat, and then MALFORMED reach the LINK group. -/
theorem malformed_eu (s : State) (h : HostId) :
    (reverseControlByte .malformed (breakRepeat s)).eu h = unitAfter s h
      (if (s.eu h).linkGroup then
        (if s.rr.repeats = none then [] else [plainEvent .linkProtocol repeatBrokenCode]) ++
          [plainEvent .linkProtocol malformedCode]
      else []) := by
  rw [reverseControlByte, acknowledgeByte_eu, postLinkGroup_breakRepeat_eu]
  congr 1
  by_cases member : (s.eu h).linkGroup = true
  · simp [member, brokenRepeat, plainEvent, repeatBrokenCode]
  · simp [member, brokenRepeat]

/-- Settles O49: the byte's class is malformed, so it breaks the pending repeat, posts its own record behind REPEAT_BROKEN, and is
acknowledged. -/
theorem malformedBytesAreReported : Obligations.MalformedBytesAreReported := by
  intro s b phase outside
  have run := exec_reverseControl (b := b) phase
  rw [reverseControl_malformed outside] at run
  exact ⟨_, run, malformed_eu (byteArrived s), malformed_frame (byteArrived s)⟩

end Sys2Proof.Machine
end

section
/-! SUPPORT. SUBSCRIBE judged in its two cases (R124): which flag bytes it takes, what the subscription byte and the attention line of
the unit it sets are, and the statement that it sets all three parts at once. -/

namespace Sys2Proof.Machine

variable {s : State} {h : HostId} {flags : Byte}

/-! ## The flags of a subscription -/

/-- No bit but 0, 1 and 2 is set exactly in the bytes up to 7. -/
theorem onlyBits_seven_iff (b : Byte) : onlyBits 0x07#8 b = true ↔ b.toNat ≤ 7 := by
  revert b
  decide +kernel

/-- A byte of three flags is put together again from them. -/
theorem flagBits_of_le_seven (b : Byte) (legal : b.toNat ≤ 7) :
    flagBit (b.getLsbD 0) 0 ||| flagBit (b.getLsbD 1) 1 ||| flagBit (b.getLsbD 2) 2 = b := by
  revert b
  decide +kernel

/-- The unit with the three parts of its subscription set to the three flags, and nothing else changed. -/
abbrev subscribed (u : EventUnit) (flags : Byte) : EventUnit :=
  { u with enable := flags.getLsbD 0, linkGroup := flags.getLsbD 1, statusGroup := flags.getLsbD 2 }

/-- The subscription carried back is the one asked for. -/
theorem subscriptionByte_subscribed (u : EventUnit) (legal : flags.toNat ≤ 7) :
    subscriptionByte (subscribed u flags) = flags :=
  flagBits_of_le_seven flags legal

/-! ## The attention line -/

/-- R125 in the words of the statements: a record is queued, or LAPSED is set. -/
theorem attentionLevel_eq (u : EventUnit) :
    attentionLevel u = (u.enable && (decide (u.queue ≠ []) || u.lapsed)) := by
  rw [attentionLevel]
  cases u.queue <;> rfl

/-! ## The judgement of SUBSCRIBE -/

theorem exec_subscribe : exec (.subscribe h flags) s = serve h (judgeSubscribe h flags) s := by
  rfl

theorem judgeSubscribe_badArg (illegal : 7 < flags.toNat) : judgeSubscribe h flags s = refuse s .badArg := by
  have stray : ¬ onlyBits 0x07#8 flags = true := fun b => illegal.not_ge ((onlyBits_seven_iff flags).mp b)
  rw [judgeSubscribe, if_neg stray]

theorem judgeSubscribe_sets (legal : flags.toNat ≤ 7) :
    judgeSubscribe h flags s =
      { state := s.setEu h (driveAttention (subscribed (s.eu h) flags)), code := .ok, payload := [flags] } := by
  have carried := subscriptionByte_subscribed (s.eu h) legal
  rw [judgeSubscribe, if_pos ((onlyBits_seven_iff flags).mpr legal)]
  exact congrArg (fun b => Reply.mk (s.setEu h (driveAttention (subscribed (s.eu h) flags))) .ok [b]) carried

/-- Settles O30: a byte with a stray bit is refused; any other sets the parts of the requester's unit alone, whose attention line is
then the level of R125. -/
theorem subscribeSetsTheSubscription : Obligations.SubscribeSetsTheSubscription := by
  intro s h flags port
  refine ⟨fun illegal => ?_, fun legal => ?_⟩
  · exact serve_refused port exec_subscribe (judgeSubscribe_badArg illegal)
  · obtain ⟨t, served, answered, rest⟩ := serve_answered port _ (judgeSubscribe_sets legal) rfl
    rw [driveAttention, attentionLevel_eq] at rest
    exact ⟨t, exec_subscribe.trans served, answered, rest⟩

end Sys2Proof.Machine
end

section
/-! SUPPORT. GET judged in its two cases (R155): when an identifier and a host number name a value of the settings record, which value
that is, and the statement that GET reports it. -/

namespace Sys2Proof.Machine

variable {s : State} {h x : HostId} {i n : Byte}

/-! ## The name of a setting -/

/-- A host-number byte names the host of its value (section 10.3). -/
theorem hostNumber_eq_some : hostNumber n = some x ↔ n.toNat = x.val := by
  rw [hostNumber]
  split
  · simp [Fin.ext_iff]
  · next above => exact iff_of_false (Option.some_ne_none x).symm fun e => above (e ▸ x.isLt)

/-- An identifier and a host number that name no value have no name: no identifier of the table can be theirs (R152, R155). -/
theorem settingName_eq_none (unnamed : ∀ x, ¬ namesSetting i n x) : settingName i n = none := by
  rw [settingName]
  split
  · rfl
  · next x host =>
    have other : ∀ k : Byte, 1 ≤ k.toNat → k.toNat ≤ 12 → (k.toNat ≤ 10 → x = 0) → i ≠ k := by
      rintro k low high single rfl
      exact unnamed x ⟨low, high, hostNumber_eq_some.mp host, single⟩
    rw [if_neg (other 0x0B#8 (by decide) (by decide) fun global => absurd global (by decide)),
      if_neg (other 0x0C#8 (by decide) (by decide) fun global => absurd global (by decide))]
    split
    · rfl
    · next zero =>
      iterate 10 refine (if_neg (other _ (by decide) (by decide) fun _ => not_not.mp zero)).trans ?_
      rfl

/-- An identifier and a host number that name a value of the record have a name, and its value is that one: identifiers 1 to 10 at
host number 0, and 11 and 12 at every host. -/
theorem settingName_of_names (names : namesSetting i n x) :
    ∃ name, settingName i n = some name ∧ ∀ r, settingValue r name = recordValue r i x := by
  obtain ⟨low, high, host, single⟩ := names
  rw [settingName, hostNumber_eq_some.mpr host]
  have byte : i = BitVec.ofNat 8 i.toNat := (BitVec.ofNat_toNat 8 i).symm
  generalize i.toNat = v at *
  subst byte
  by_cases global : v ≤ 10
  · obtain rfl := single global
    interval_cases v <;> exact ⟨_, rfl, fun _ => rfl⟩
  · interval_cases v <;> exact ⟨_, rfl, fun _ => rfl⟩

/-! ## The payload of GET -/

/-- A count as two bytes, in the words of the statements: the upper byte is the quotient by 256 (R179). -/
theorem twoBytes_eq_big16 (v : Nat) : twoBytes v = big16 v := by
  have upper : (BitVec.ofNat 16 v).extractLsb' 8 8 = BitVec.ofNat 8 (v / 256) := by
    apply BitVec.eq_of_toNat_eq
    simp only [BitVec.extractLsb'_toNat, BitVec.toNat_ofNat, Nat.shiftRight_eq_div_pow]
    omega
  have lower : (BitVec.ofNat 16 v).extractLsb' 0 8 = BitVec.ofNat 8 v := by
    apply BitVec.eq_of_toNat_eq
    simp
  rw [twoBytes, bytesOf16, upper, lower]

/-! ## The judgement of GET -/

theorem exec_getSetting : exec (.getSetting h i n) s = serve h (judgeGet i n) s := by
  rfl

theorem judgeGet_badArg (unnamed : ∀ x, ¬ namesSetting i n x) : judgeGet i n s = refuse s .badArg := by
  rw [judgeGet, settingName_eq_none unnamed]

/-- GET of a named value leaves the part as it is and carries the value that stands in the record (R155). -/
theorem judgeGet_reports (names : namesSetting i n x) :
    judgeGet i n s = { state := s, code := .ok, payload := i :: n :: big16 (recordValue s.su.settings i x) } := by
  obtain ⟨name, named, value⟩ := settingName_of_names names
  rw [judgeGet, named, ← value, ← twoBytes_eq_big16]
  rfl

/-- Settles O34: where identifier and host number name no value, the refusal is the judgement's; where they name one, the judgement
carries that value and leaves every block as it is. -/
theorem getReportsTheValue : Obligations.GetReportsTheValue := by
  intro s h i n port
  refine ⟨fun outside => ?_, fun x low high host single => ?_⟩
  · have unnamed : ∀ x, ¬ namesSetting i n x := by
      rintro x ⟨low, high, host, zero⟩
      have bound := x.isLt
      have number : i.toNat ≤ 10 → n.toNat = 0 := fun global => host.trans (congrArg Fin.val (zero global))
      omega
    exact serve_refused port exec_getSetting (judgeGet_badArg unnamed)
  · have names : namesSetting i n x := ⟨low, high, host, fun global => Fin.ext (host.symm.trans (single global))⟩
    obtain ⟨t, served, answered, rest⟩ := serve_answered port _ (judgeGet_reports names) rfl
    exact ⟨t, exec_getSetting.trans served, rest, answered⟩

end Sys2Proof.Machine
end

section
/-! SUPPORT. What the events of the link and the timers and the requests about jobs can do beyond the answering port, once: they are
`Internal` from the state with the changed lines. -/

namespace Sys2Proof.Machine

variable {s t u : State}

/-- Two next states that are the same outcome are the same state. -/
theorem next_inj (e : (Host.Outcome.next s : Host.Outcome State Fault Refusal) = .next t) : s = t :=
  Host.Outcome.next.inj e

/-! ## Effects -/

/-- From `s` to `t` lines other than RST have changed, and the blocks have acted on one another. -/
def Effect (s t : State) : Prop := ∃ p : Pins, p.rst = s.pins.rst ∧ Internal { s with pins := p } t

theorem Internal.effect (a : Internal s t) : Effect s t := ⟨s.pins, rfl, a⟩

theorem Effect.refl (s : State) : Effect s s := (Internal.refl s).effect

/-- A change of the lines leaves the other blocks as they are, so it can be put ahead of what the blocks do. -/
theorem Internal.underPins (a : Internal s t) (p : Pins) : Internal { s with pins := p } { t with pins := p } where
  pending := a.pending
  ports := a.ports
  su := a.su
  draws := a.draws
  rst := rfl
  fack := rfl
  rreq := rfl
  rstb := rfl
  prdy := rfl
  pflt := rfl
  phase := a.phase
  initTimer := a.initTimer
  eus := a.eus
  buffers := a.buffers
  stack := a.stack
  owned := a.owned
  used := a.used
  counts := a.counts
  empty := a.empty
  chains := a.chains
  entries := a.entries

theorem Effect.trans (a : Effect s t) (b : Effect t u) : Effect s u := by
  obtain ⟨p, rst, ia⟩ := a
  obtain ⟨q, rst', ib⟩ := b
  exact ⟨q, rst'.trans (ia.rst.trans rst), (ia.underPins q).trans ib⟩

theorem Effect.internal (a : Effect s t) (b : Internal t u) : Effect s u := a.trans b.effect

/-- A change of lines other than RST, of the Link Engine, of the phase's items of the Reply Router, and of the Dispatch Unit with its
stack no higher than it was. -/
theorem Effect.outer (du : DispatchUnit) (le : LinkEngine) (rr : ReplyRouter) (p : Pins)
    (stack : du.stack.length ≤ s.du.stack.length) (routes : rr.routes = s.rr.routes) (rst : p.rst = s.pins.rst) :
    Effect s { s with du := du, le := le, rr := rr, pins := p } :=
  ⟨p, rst, .of_outer rfl rfl rfl rfl rfl rfl rfl rfl routes ⟨rfl, rfl, rfl, rfl, rfl, rfl⟩ stack.trans⟩

/-- A change of the link: the Link Engine, the phase's items and lines other than RST. -/
theorem Effect.link (le : LinkEngine) (rr : ReplyRouter) (p : Pins) (routes : rr.routes = s.rr.routes)
    (rst : p.rst = s.pins.rst) : Effect s { s with le := le, rr := rr, pins := p } :=
  .outer s.du le rr p le_rfl routes rst

/-! ## Recovery and link reset -/

theorem startPulse_effect (s : State) : Effect s (startPulse s) := .link _ s.rr _ rfl rfl

theorem clearLink_effect (s : State) : Effect s (clearLink s) := .outer _ _ _ _ (Nat.zero_le _) rfl rfl

theorem resetLink_effect (fault : LastFault) (c : Cause) (s : State) : Effect s (resetLink fault c s) := by
  have recorded : Effect s { s with le := { s.le with lastFault := fault } } := .link _ s.rr s.pins rfl rfl
  have posted := recorded.internal (postLinkGroup_internal (plainEvent .linkFault (lastFaultByte fault)) _)
  have fates (entries : List AbandonEntry) :=
    posted.internal (Internal.foldl (fun s k => (meetFate_offLink entries c s k).toInternal) allSlots _)
  exact ((fates _).trans (clearLink_effect _)).internal (evaluateSpace_internal _)

theorem enterIdle_effect (s : State) : Effect s (enterIdle s) := by
  have up : Effect s { s with le := { s.le with link := .idle, wakeTimer := none } } := .link _ s.rr s.pins rfl rfl
  have posted := up.internal (postLinkGroup_internal (plainEvent .linkUp 0) _)
  exact (posted.internal (respondEligible_offLink _).toInternal).internal (applyOrder_internal _)

theorem enterWaking_effect (s : State) : Effect s (enterWaking s) := by
  have waking : Effect s { s with
      le := { s.le with link := .waking, pulseTimer := none, wakeTimer := some s.su.settings.wakeTime }
      pins := { s.pins with lrst := false } } := .link _ s.rr _ rfl rfl
  rw [enterWaking]
  split
  · exact waking.trans (enterIdle_effect _)
  · exact waking

/-! ## The acknowledgement of an offer -/

theorem entryAcknowledged_offLink (x : Handle) (s : State) : OffLink s (entryAcknowledged x s) := by
  rw [entryAcknowledged]
  split
  · refine OffLink.trans ?_ (settled_offLink _)
    exact OffLink.ofJob x.slot _ s rfl rfl rfl fun _ => .inl rfl
  · exact OffLink.ofJob x.slot _ s rfl rfl rfl fun _ => .inl rfl
  all_goals exact .refl s

theorem abandonAcknowledged_offLink (s : State) : OffLink s (abandonAcknowledged s) := by
  rw [abandonAcknowledged]
  split
  · exact .refl s
  · next e es _ =>
    have left : OffLink s { s with le := { s.le with abandon := es } } :=
      .of_du rfl rfl rfl rfl rfl rfl rfl rfl rfl rfl rfl id fun _ h => h
    have cleared := left.trans (.of_du (t := ({ s with le := { s.le with abandon := es } } : State).setClaim e.channel none)
      rfl rfl rfl rfl rfl rfl rfl rfl rfl rfl rfl id fun _ h => h)
    have ended := cleared.trans (endJobAlone_offLink e.job.slot .cancelled e.cause _)
    dsimp only
    split
    · exact ended.trans (respondEligible_offLink _)
    · exact ended

theorem originAcknowledged_effect (o : Origin) (s : State) : Effect s (originAcknowledged o s) := by
  cases o with
  | entry x => exact (entryAcknowledged_offLink x s).toInternal.effect
  | select c => exact .link _ s.rr s.pins rfl rfl
  | abandon => exact (abandonAcknowledged_offLink s).toInternal.effect

/-! ## Requests about jobs -/

theorem onwards_internal (s : State) : Internal s (onwards s) := boundaryWork_internal s

/-- The change of a priority and DU's answer, ahead of the work of the link (R15, R44). -/
abbrev priorityChanged (k : SlotId) (p : Fin 8) (s : State) : State :=
  let t := s.setJob k { s.job k with priority := p }
  if raisePrompts k p s then respondEligible t else t

theorem changePriority_eq (k : SlotId) (p : Fin 8) (s : State) : changePriority k p s = onwards (priorityChanged k p s) := rfl

theorem priorityChanged_offLink (k : SlotId) (p : Fin 8) (s : State) : OffLink s (priorityChanged k p s) := by
  have set : OffLink s (s.setJob k { s.job k with priority := p }) := .ofJob k _ s rfl rfl rfl fun _ => .inl rfl
  rw [priorityChanged]
  split
  · exact set.trans (respondEligible_offLink _)
  · exact set

theorem changePriority_internal (k : SlotId) (p : Fin 8) (s : State) : Internal s (changePriority k p s) :=
  (priorityChanged_offLink k p s).toInternal.trans (onwards_internal _)

/-- A CANCEL acted on, ahead of the work of the link (R66, R130, R131). -/
abbrev cancelActed (k : SlotId) (c : Cause) (s : State) : State :=
  let t := evaluateSpace (cancelJob k c s)
  if s.du.active = some k then leaveLink t else t

theorem acceptCancel_eq (k : SlotId) (c : Cause) (s : State) : acceptCancel k c s = onwards (cancelActed k c s) := by
  simp only [acceptCancel, cancelActed, decide_eq_true_eq]

theorem cancelActed_offLink (k : SlotId) (c : Cause) (s : State) : OffLink s (cancelActed k c s) := by
  have acted := (cancelJob_offLink k c s).trans (evaluateSpace_offLink _)
  rw [cancelActed]
  split
  · exact acted.trans (leaveLink_offLink _)
  · exact acted

theorem acceptCancel_internal (k : SlotId) (c : Cause) (s : State) : Internal s (acceptCancel k c s) := by
  rw [acceptCancel_eq]
  exact (cancelActed_offLink k c s).toInternal.trans (onwards_internal _)

theorem releaseSlot_ended_offLink {k : SlotId} (h : (s.job k).state = .ended) : OffLink s (releaseSlot k s) :=
  releaseSlot_offLink k s fun c => c.2.2.2 k (.inr h)

theorem releaseSlot_ended_internal {k : SlotId} (h : (s.job k).state = .ended) : Internal s (releaseSlot k s) :=
  (releaseSlot_ended_offLink h).toInternal

theorem orphanSlot_offLink (h : HostId) (s : State) (k : SlotId) : OffLink s (orphanSlot h s k) := by
  have mark : OffLink s (s.setJob k { s.job k with orphaned := true }) := .ofJob k _ s rfl rfl rfl fun _ => .inl rfl
  rw [orphanSlot]
  split
  · split
    · exact .refl s
    · next e => exact releaseSlot_ended_offLink e
    · exact mark
    all_goals exact mark.trans (cancelJob_offLink k .byOwner _)
  · exact .refl s

theorem releaseEnded_offLink (h : HostId) (s : State) (k : SlotId) : OffLink s (releaseEnded h s k) := by
  rw [releaseEnded]
  split
  · next e => exact releaseSlot_ended_offLink e.2
  · exact .refl s

theorem orphanJobs_offLink (h : HostId) (s : State) : OffLink s (orphanJobs h s) := by
  have gone := (OffLink.foldl (releaseEnded_offLink h) allSlots s).trans
    (OffLink.foldl (orphanSlot_offLink h) allSlots _)
  have evaluated := gone.trans (evaluateSpace_offLink _)
  have left (lost : Bool) (u : State) (a : OffLink s u) : OffLink s (if lost then leaveLink u else u) := by
    cases lost
    · exact a
    · exact a.trans (leaveLink_offLink u)
  exact left _ _ evaluated

theorem orphanJobs_internal (h : HostId) (s : State) : Internal s (orphanJobs h s) := (orphanJobs_offLink h s).toInternal

/-! ## The judgements of requests -/

/-- The state a judgement leaves after the handle and ownership checks is that of a refusal or of the block's own judgement. -/
theorem withOwnJob_cases (h : HostId) (b : Byte) (s : State) (body : SlotId → Reply) :
    (withOwnJob h b s body).state = s ∨
      ∃ k, ownHandle s h b k ∧ withOwnJob h b s body = body k := by
  rw [withOwnJob]
  split
  · exact .inl rfl
  · next k found =>
    split
    · next own =>
      obtain ⟨slot, gen, there⟩ := findJob_eq_some.mp found
      simp only [ownsJob, Bool.and_eq_true, decide_eq_true_eq, Bool.not_eq_true'] at own
      exact .inr ⟨k, ⟨slot, gen, there, own.1, own.2⟩, rfl⟩
    · exact .inl rfl

/-- All that CLOSE can leave when judged (R13). -/
theorem judgeClose_cases (h : HostId) (b : Byte) (s : State) :
    (judgeClose h b s).state = s ∨
      ∃ k, ownHandle s h b k ∧ closable (s.job k) = true ∧ (judgeClose h b s).state = onwards (closeJob k s) := by
  rw [judgeClose]
  rcases withOwnJob_cases h b s _ with e | ⟨k, own, e⟩
  · exact .inl e
  · rw [e]
    split
    · next fits => exact .inr ⟨k, own, fits, rfl⟩
    · exact .inl rfl

/-- All that SET_PRIORITY can leave when judged (R15). -/
theorem judgeSetPriority_cases (h : HostId) (b p : Byte) (s : State) :
    (judgeSetPriority h b p s).state = s ∨
      ∃ k q, ownHandle s h b k ∧ (s.job k).state ∈ [JobState.filling, .ready, .starved] ∧
        (judgeSetPriority h b p s).state = changePriority k q s := by
  rw [judgeSetPriority]
  rcases withOwnJob_cases h b s _ with e | ⟨k, own, e⟩
  · exact .inl e
  · rw [e]
    split
    · exact .inl rfl
    · next q _ =>
      split
      · next state => exact .inr ⟨k, q, own, by simp [state], rfl⟩
      · next state => exact .inr ⟨k, q, own, by simp [state], rfl⟩
      · next state => exact .inr ⟨k, q, own, by simp [state], rfl⟩
      all_goals exact .inl rfl

/-- All that CANCEL can leave when judged (R129). -/
theorem judgeCancel_cases (h : HostId) (b : Byte) (s : State) :
    (judgeCancel h b s).state = s ∨
      ∃ k c, findJob s b = some k ∧ (s.job k).state ∉ [JobState.free, .cancelling, .ended] ∧
        (judgeCancel h b s).state = acceptCancel k c s := by
  rw [judgeCancel]
  split
  · exact .inl rfl
  · next k found =>
    dsimp only
    split
    · split
      · exact .inl rfl
      · exact .inl rfl
      · exact .inl rfl
      all_goals next state => exact .inr ⟨k, _, found, by simp [state], rfl⟩
    · exact .inl rfl

/-- All that RELEASE can leave when judged (R18). -/
theorem judgeRelease_cases (h : HostId) (b : Byte) (s : State) :
    (judgeRelease h b s).state = s ∨
      ∃ k, ownHandle s h b k ∧ (s.job k).state = .ended ∧ (judgeRelease h b s).state = releaseSlot k s := by
  rw [judgeRelease]
  rcases withOwnJob_cases h b s _ with e | ⟨k, own, e⟩
  · exact .inl e
  · rw [e]
    split
    · next ended => exact .inr ⟨k, own, ended, rfl⟩
    · exact .inl rfl

theorem judgeClose_internal (h : HostId) (b : Byte) (s : State) : Internal s (judgeClose h b s).state := by
  rcases judgeClose_cases h b s with e | ⟨k, -, -, e⟩
  · rw [e]; exact .refl s
  · rw [e]; exact (closeJob_offLink k s).toInternal.trans (onwards_internal _)

theorem judgeSetPriority_internal (h : HostId) (b p : Byte) (s : State) : Internal s (judgeSetPriority h b p s).state := by
  rcases judgeSetPriority_cases h b p s with e | ⟨k, q, -, -, e⟩
  · rw [e]; exact .refl s
  · rw [e]; exact changePriority_internal k q s

theorem judgeCancel_internal (h : HostId) (b : Byte) (s : State) : Internal s (judgeCancel h b s).state := by
  rcases judgeCancel_cases h b s with e | ⟨k, c, -, -, e⟩
  · rw [e]; exact .refl s
  · rw [e]; exact acceptCancel_internal k c s

theorem judgeRelease_internal (h : HostId) (b : Byte) (s : State) : Internal s (judgeRelease h b s).state := by
  rcases judgeRelease_cases h b s with e | ⟨k, -, ended, e⟩
  · rw [e]; exact .refl s
  · rw [e]; exact releaseSlot_ended_internal ended

theorem judgeJobStatus_state (b : Byte) (s : State) : (judgeJobStatus b s).state = s := by
  rw [judgeJobStatus]
  split <;> rfl

theorem judgeGet_state (i n : Byte) (s : State) : (judgeGet i n s).state = s := by
  rw [judgeGet]
  split <;> rfl

theorem judgeLinkReset_effect (h : HostId) (s : State) : Effect s (judgeLinkReset h s).state := by
  rw [judgeLinkReset]
  split
  · dsimp only
    exact resetLink_effect .resetRequested .linkReset s
  · exact .refl s

/-- A change of one byte of a reply buffer: READ_REPLY takes bytes away and changes nothing else (R116). -/
theorem judgeReadReply_cases (h : HostId) (b m : Byte) (s : State) :
    (judgeReadReply h b m s).state = s ∨
      ∃ r, (judgeReadReply h b m s).state =
        s.setRoute r { s.route r with buffer := (s.route r).buffer.drop m.toNat } := by
  rw [judgeReadReply]
  rcases withOwnJob_cases h b s _ with e | ⟨k, -, e⟩
  · exact .inl e
  · rw [e]
    split
    · split
      · exact .inl rfl
      · next r _ => exact .inr ⟨r, rfl⟩
    · exact .inl rfl

/-! ## Events of the link and the timers -/

/-- RREQ_RISE, RREQ_FALL, PRDY_FALL and PFLT_CHANGE set the level of their line, which the order of work reads in IDLE and WAITING
(R77), or change nothing (log entry 15). -/
theorem levelCommand_cases {c : Instr} (own : c ∈ [.rreqRise, .rreqFall, .prdyFall, .pfltChange]) (e : exec c s = .next t) :
    t = s ∨ ∃ rreq prdy pflt,
      t = boundaryWork { s with pins := { s.pins with rreq := rreq, prdy := prdy, pflt := pflt } } := by
  simp only [List.mem_cons, List.not_mem_nil, or_false] at own
  rcases own with rfl | rfl | rfl | rfl
  · change execRreqRise s = _ at e
    rw [execRreqRise] at e
    split at e <;> obtain rfl := next_inj e
    exacts [.inl rfl, .inr ⟨_, _, _, rfl⟩]
  · change execRreqFall s = _ at e
    rw [execRreqFall] at e
    split at e <;> obtain rfl := next_inj e
    exacts [.inr ⟨_, _, _, rfl⟩, .inl rfl]
  · change execPrdyFall s = _ at e
    rw [execPrdyFall] at e
    split at e <;> obtain rfl := next_inj e
    exacts [.inr ⟨_, _, _, rfl⟩, .inl rfl]
  · obtain rfl := next_inj e
    exact .inr ⟨_, _, _, rfl⟩

/-- All that a rise of PRDY can do (R77, R80, R144, R145). -/
theorem prdyRise_cases (e : execPrdyRise s = .next t) :
    let v : State := { s with pins := { s.pins with prdy := true } }
    t = s ∨ s.pins.prdy = false ∧
      ((s.le.link = .idle ∨ s.le.link = .waiting) ∧ t = applyOrder v ∨ s.le.link = .waking ∧ t = enterIdle v ∨
        s.le.link = .down ∧ t = startPulse v ∨ t = v) := by
  rw [execPrdyRise] at e
  split at e
  · exact .inl (next_inj e).symm
  · next low =>
    refine .inr ⟨by simpa using low, ?_⟩
    dsimp only at e
    split at e <;> obtain rfl := next_inj e
    · next idle => exact .inl ⟨.inl idle, rfl⟩
    · next waiting => exact .inl ⟨.inr waiting, rfl⟩
    · next waking => exact .inr (.inl ⟨waking, rfl⟩)
    · next down => exact .inr (.inr (.inl ⟨down, rfl⟩))
    all_goals exact .inr (.inr (.inr rfl))

theorem lrstPulseEnd_cases (e : execLrstPulseEnd s = .next t) :
    t = s ∨ s.le.pulseTimer.isSome = true ∧ t = enterWaking s := by
  rw [execLrstPulseEnd] at e
  split at e <;> obtain rfl := next_inj e
  · next running => exact .inr ⟨running, rfl⟩
  · exact .inl rfl

theorem acknowledgeTimeout_cases (e : execAcknowledgeTimeout s = .next t) :
    t = s ∨ s.le.ackTimer.isSome = true ∧ t = resetLink .ackTimeout .linkFault s := by
  rw [execAcknowledgeTimeout] at e
  split at e <;> obtain rfl := next_inj e
  · next running => exact .inr ⟨running, rfl⟩
  · exact .inl rfl

theorem stallTimerExpiry_cases (e : execStallTimerExpiry s = .next t) :
    t = s ∨ s.le.stallTimer.isSome = true ∧ t = postLinkGroup (plainEvent .linkStall 1)
      { s with le := { s.le with stall := .reported, stallTimer := none } } := by
  rw [execStallTimerExpiry] at e
  split at e <;> obtain rfl := next_inj e
  · next running => exact .inr ⟨running, rfl⟩
  · exact .inl rfl

theorem wakeTimerExpiry_cases (e : execWakeTimerExpiry s = .next t) :
    t = s ∨ s.le.wakeTimer.isSome = true ∧ t = postLinkGroup (plainEvent .linkDown 0)
      { s with le := { s.le with link := .down, wakeTimer := none } } := by
  rw [execWakeTimerExpiry] at e
  split at e <;> obtain rfl := next_inj e
  · next running => exact .inr ⟨running.1, rfl⟩
  · exact .inl rfl

theorem replyTimerExpiry_cases {r : RouteId} (e : execReplyTimerExpiry r s = .next t) :
    t = s ∨ ∃ x, (s.route r).timer.isSome = true ∧ (s.route r).owner = some x ∧
      t = endJobAlone x.slot .failed .replyTimeout (abortRoute x.slot s) := by
  rw [execReplyTimerExpiry] at e
  split at e <;> obtain rfl := next_inj e
  · next x timer owner => exact .inr ⟨x, by rw [timer]; rfl, owner, rfl⟩
  · exact .inl rfl

theorem revIdleExpiry_cases (e : execRevIdleExpiry s = .next t) :
    t = s ∨ s.le.revIdleTimer.isSome = true ∧
      t = applyOrder (postLinkGroup (plainEvent .linkProtocol revTimeoutCode) (endPhase s)) := by
  rw [execRevIdleExpiry] at e
  split at e <;> obtain rfl := next_inj e
  · next running => exact .inr ⟨running, rfl⟩
  · exact .inl rfl

theorem leaseTermExpiry_cases (e : execLeaseTermExpiry s = .next t) :
    t = s ∨ ∃ h, s.su.holder = some h ∧ t = handover (post h (plainEvent .leaseExpired 0) s) := by
  rw [execLeaseTermExpiry] at e
  split at e <;> obtain rfl := next_inj e
  · next h _ holder => exact .inr ⟨h, holder, rfl⟩
  · exact .inl rfl

/-- The part with no offer outstanding (R74). -/
abbrev offerTaken (s : State) : State :=
  { s with pins := { s.pins with fack := !s.pins.fack }, le := { s.le with latch := none, ackTimer := none } }

theorem acknowledgement_cases (e : execAcknowledgement s = .next t) :
    s.le.latch = none ∧ t = { s with pins := { s.pins with fack := !s.pins.fack } } ∨
      ∃ o, s.le.latch = some o ∧ t = applyOrder (originAcknowledged o.origin (offerTaken s)) := by
  rw [execAcknowledgement] at e
  dsimp only at e
  split at e <;> obtain rfl := next_inj e
  · next empty => exact .inl ⟨empty, rfl⟩
  · next o latched => exact .inr ⟨o, latched, rfl⟩

theorem acknowledgement_effect (e : execAcknowledgement s = .next t) : Effect s t := by
  rcases acknowledgement_cases e with ⟨-, rfl⟩ | ⟨o, -, rfl⟩
  · exact .link s.le s.rr _ rfl rfl
  · have taken : Effect s (offerTaken s) := .link _ s.rr _ rfl rfl
    exact (taken.trans (originAcknowledged_effect o.origin _)).internal (applyOrder_internal _)

theorem levelCommand_effect {c : Instr} (own : c ∈ [.rreqRise, .rreqFall, .prdyFall, .pfltChange])
    (e : exec c s = .next t) : Effect s t := by
  rcases levelCommand_cases own e with rfl | ⟨rreq, prdy, pflt, rfl⟩
  · exact .refl _
  · have level : Effect s { s with pins := { s.pins with rreq := rreq, prdy := prdy, pflt := pflt } } :=
      .link s.le s.rr _ rfl rfl
    exact level.internal (boundaryWork_internal _)

theorem lrstPulseEnd_effect (e : execLrstPulseEnd s = .next t) : Effect s t := by
  rcases lrstPulseEnd_cases e with rfl | ⟨-, rfl⟩
  · exact .refl _
  · exact enterWaking_effect s

theorem acknowledgeTimeout_effect (e : execAcknowledgeTimeout s = .next t) : Effect s t := by
  rcases acknowledgeTimeout_cases e with rfl | ⟨-, after⟩
  · exact .refl _
  · rw [after]
    exact resetLink_effect .ackTimeout .linkFault s

theorem stallTimerExpiry_effect (e : execStallTimerExpiry s = .next t) : Effect s t := by
  rcases stallTimerExpiry_cases e with rfl | ⟨-, rfl⟩
  · exact .refl _
  · exact (Effect.link _ s.rr s.pins rfl rfl).internal (postLinkGroup_internal ..)

theorem wakeTimerExpiry_effect (e : execWakeTimerExpiry s = .next t) : Effect s t := by
  rcases wakeTimerExpiry_cases e with rfl | ⟨-, rfl⟩
  · exact .refl _
  · exact (Effect.link _ s.rr s.pins rfl rfl).internal (postLinkGroup_internal ..)

theorem replyTimerExpiry_offLink {r : RouteId} (e : execReplyTimerExpiry r s = .next t) : OffLink s t := by
  rcases replyTimerExpiry_cases e with rfl | ⟨x, -, -, after⟩
  · exact .refl _
  · rw [after]
    exact (abortRoute_offLink ..).trans (endJobAlone_offLink ..)

theorem replyTimerExpiry_internal {r : RouteId} (e : execReplyTimerExpiry r s = .next t) : Internal s t :=
  (replyTimerExpiry_offLink e).toInternal

theorem prdyRise_effect (e : execPrdyRise s = .next t) : Effect s t := by
  have raised : Effect s { s with pins := { s.pins with prdy := true } } := .link s.le s.rr _ rfl rfl
  rcases prdyRise_cases e with rfl | ⟨-, ⟨-, rfl⟩ | ⟨-, rfl⟩ | ⟨-, rfl⟩ | rfl⟩
  · exact .refl _
  · exact raised.internal (applyOrder_internal _)
  · exact raised.trans (enterIdle_effect _)
  · exact raised.trans (startPulse_effect _)
  · exact raised

theorem endPhase_effect (s : State) : Effect s (endPhase s) := .link _ _ _ rfl rfl

theorem revIdleExpiry_effect (e : execRevIdleExpiry s = .next t) : Effect s t := by
  rcases revIdleExpiry_cases e with rfl | ⟨-, rfl⟩
  · exact .refl _
  · exact ((endPhase_effect s).internal (postLinkGroup_internal ..)).internal (applyOrder_internal _)

theorem openDecision_internal (s : State) : Internal s (openDecision s) := by
  have opened : Internal s { s with du := { s.du with leaving := true } } :=
    .of_outer rfl rfl rfl rfl rfl rfl rfl rfl rfl ⟨rfl, rfl, rfl, rfl, rfl, rfl⟩ id
  exact opened.trans (boundaryWork_internal _)

/-- The part when the dry wait of job `a` has run out, ahead of the leaving decision: the job is STARVED, off the link, and its
owner is told (R65). -/
abbrev starved (s : State) (a : SlotId) : State :=
  let t := dropActive (s.setJob a { s.job a with state := .starved })
  post (t.job a).owner { kind := .jobStarved, handle := some (t.handle a), route := (t.job a).route, code := 0 } t

theorem starved_offLink (s : State) (a : SlotId) : OffLink s (starved s a) :=
  ((OffLink.ofJob a { s.job a with state := .starved } s rfl rfl rfl (by simp)).trans (dropActive_offLink _)).trans
    (post_offLink ..)

/-- All that the expiry of a dry wait can do (R64, R65). -/
theorem dryWaitExpiry_cases (e : execDryWaitExpiry s = .next t) :
    t = s ∨ ∃ a, s.du.active = some a ∧ s.le.dryTimer.isSome = true ∧
      (t = openDecision (starved s a) ∧ nextPrompts a (openDecision (starved s a)) = true ∨
        t = boundaryWork (leaveLink (starved s a))) := by
  rw [execDryWaitExpiry] at e
  split at e
  · next n a timer active =>
    refine .inr ⟨a, active, by rw [timer]; rfl, ?_⟩
    cases e
    dsimp only
    split
    · next prompts => exact .inl ⟨rfl, prompts⟩
    · exact .inr rfl
  · cases e; exact .inl rfl

theorem dryWaitExpiry_internal (e : execDryWaitExpiry s = .next t) : Internal s t := by
  rcases dryWaitExpiry_cases e with rfl | ⟨a, -, -, ⟨rfl, -⟩ | rfl⟩
  · exact .refl t
  · exact (starved_offLink s a).toInternal.trans (openDecision_internal _)
  · exact ((starved_offLink s a).toInternal.trans (leaveLink_offLink _).toInternal).trans (boundaryWork_internal _)

/-! ## Reverse bytes -/

theorem postToRouteOwner_offLink (r : RouteId) (kind : EventKind) (code : Byte) (s : State) :
    OffLink s (postToRouteOwner r kind code s) := by
  rw [postToRouteOwner]
  split
  · exact .refl s
  · split
    · exact .refl s
    · exact post_offLink ..

theorem orphanNotice_effect (s : State) : Effect s (orphanNotice s) := by
  rw [orphanNotice]
  split
  · exact .refl s
  · exact (postLinkGroup_internal _ s).effect.trans (.link _ _ _ rfl rfl)

theorem breakRepeat_effect (s : State) : Effect s (breakRepeat s) := by
  rw [breakRepeat]
  split
  · exact .refl s
  · exact (Effect.link s.le { s.rr with repeats := none } s.pins rfl rfl).internal (postLinkGroup_internal ..)

theorem setRoute_offLink (r : RouteId) (x : Route) (s : State) (h : x.buffer = (s.route r).buffer ∨ x.buffer = []) :
    OffLink s (s.setRoute r x) :=
  .of_internal (.ofRoute r x s h) rfl rfl rfl rfl

theorem completeRoute_offLink (r : RouteId) (s : State) : OffLink s (completeRoute r s) := by
  have posted := (setRoute_offLink r { s.route r with state := .complete } s (.inl rfl)).trans
    (postToRouteOwner_offLink r .replyEnd (flagBit (s.route r).truncated 0) _)
  rw [completeRoute]
  split
  · exact posted
  · split
    · exact posted.trans (endJobAlone_offLink ..)
    · exact posted

theorem reverseEnd_effect (s : State) : Effect s (reverseEnd s) := by
  have deselected (u : State) : Effect u { u with rr := { u.rr with selection := none } } := .link u.le _ u.pins rfl rfl
  rw [reverseEnd]
  refine Effect.trans ?_ (deselected _)
  split
  · exact orphanNotice_effect s
  · split
    · exact orphanNotice_effect s
    · exact orphanNotice_effect s
    · exact .refl s
    · exact (completeRoute_offLink _ s).toInternal.effect

theorem acknowledgeByte_effect (s : State) : Effect s (acknowledgeByte s) := .link s.le s.rr _ rfl rfl

theorem reverseControlByte_effect (c : ReverseControl) (s : State) : Effect s (reverseControlByte c s) := by
  cases c with
  | repeats n => exact (Effect.link s.le { s.rr with repeats := some n } s.pins rfl rfl).trans (acknowledgeByte_effect _)
  | route r => exact (Effect.link s.le { s.rr with selection := some r } s.pins rfl rfl).trans (acknowledgeByte_effect _)
  | status n =>
    exact ((Effect.link { s.le with lastStatus := some n } s.rr s.pins rfl rfl).internal
      (postStatusGroup_internal ..)).trans (acknowledgeByte_effect _)
  | endReply => exact (reverseEnd_effect s).trans (acknowledgeByte_effect _)
  | malformed => exact (postLinkGroup_internal _ s).effect.trans (acknowledgeByte_effect _)
  | yieldPhase =>
    exact ((acknowledgeByte_effect s).trans (endPhase_effect _)).internal (applyOrder_internal _)

theorem storeData_cases (r : RouteId) (n : Nat) (b : Byte) (s : State) :
    ∃ x, ((s.route r).buffer.length ≤ 256 → x.buffer.length ≤ 256) ∧ OffLink (s.setRoute r x) (storeData r n b s) := by
  refine ⟨storeCopies b n (restartReplyTimer s.su.settings.replyTime (s.route r)), fun fits => ?_, ?_⟩
  · rw [(storeCopies_spec b n (restartReplyTimer s.su.settings.replyTime (s.route r)) fits).1]
    have same : (restartReplyTimer s.su.settings.replyTime (s.route r)).buffer = (s.route r).buffer := rfl
    rw [same, List.length_append, List.length_replicate]
    omega
  · rw [storeData]
    split
    · exact postToRouteOwner_offLink ..
    · exact .refl _

/-- A reverse byte that stores no data, or one whose copies join one route's buffer of 256 bytes at most (R107), acts on the blocks
as any event of the link does. -/
theorem reverseData_cases (b : Byte) (s : State) :
    Effect s (reverseData b s) ∨ ∃ v r x, Effect s v ∧ ((v.route r).buffer.length ≤ 256 → x.buffer.length ≤ 256) ∧
      Effect (v.setRoute r x) (reverseData b s) := by
  have used : Effect s { s with rr := { s.rr with repeats := none } } := .link s.le _ s.pins rfl rfl
  rw [reverseData]
  split
  · exact .inl (used.trans (orphanNotice_effect _))
  · next r _ =>
    split
    · exact .inl (used.trans (orphanNotice_effect _))
    · exact .inl (used.trans (orphanNotice_effect _))
    · exact .inl used
    · obtain ⟨x, fits, stored⟩ :=
        storeData_cases r (s.rr.repeats.getD 1) b { s with rr := { s.rr with repeats := none } }
      exact .inr ⟨_, r, x, used, fits, stored.toInternal.effect⟩

/-- All that a reverse byte can do (R100): with no phase granted its line changes, and that is all. -/
theorem reverseByte_cases {kind : ByteKind} {b : Byte} (e : execReverseByte kind b s = .next t) :
    s.le.link ≠ .reverse ∧ t = { s with pins := { s.pins with rstb := !s.pins.rstb } } ∨
      s.le.link = .reverse ∧
        (kind = .data ∧ t = acknowledgeByte (reverseData b (byteArrived s)) ∨
          kind = .control ∧ t = reverseControlByte (reverseControl b) (breakRepeat (byteArrived s))) := by
  rw [execReverseByte] at e
  dsimp only at e
  split at e <;> obtain rfl := next_inj e
  · next phase =>
    refine .inr ⟨phase, ?_⟩
    cases kind with
    | data => exact .inl ⟨rfl, rfl⟩
    | control => exact .inr ⟨rfl, rfl⟩
  · next none => exact .inl ⟨none, rfl⟩

theorem reverseByte_effect {kind : ByteKind} {b : Byte} (e : execReverseByte kind b s = .next t) :
    Effect s t ∨ ∃ v r x, Effect s v ∧ ((v.route r).buffer.length ≤ 256 → x.buffer.length ≤ 256) ∧
      Effect (v.setRoute r x) t := by
  have arrived : Effect s (byteArrived s) := .link _ s.rr _ rfl rfl
  rcases reverseByte_cases e with ⟨-, rfl⟩ | ⟨-, ⟨-, rfl⟩ | ⟨-, rfl⟩⟩
  · exact .inl (.link s.le s.rr _ rfl rfl)
  · rcases reverseData_cases b (byteArrived s) with a | ⟨v, r, x, before, fits, after⟩
    · exact .inl ((arrived.trans a).trans (acknowledgeByte_effect _))
    · exact .inr ⟨v, r, x, arrived.trans before, fits, after.trans (acknowledgeByte_effect _)⟩
  · exact .inl ((arrived.trans (breakRepeat_effect _)).trans (reverseControlByte_effect _ _))

end Sys2Proof.Machine
end

section
/-! SUPPORT. Every step keeps the ports, the event units, the lease and the route buffers sound (R95, R119, R125, R127, R156, R176 to
R178): each block operation does, and so does every command. -/

namespace Sys2Proof.Machine

variable {s t u : State}

/-! ## Event units -/

/-- A unit holds at most 16 records and drives its attention line as R125 gives. -/
abbrev unitSound (x : EventUnit) : Prop :=
  x.queue.length ≤ 16 ∧ (x.attn = true ↔ x.enable = true ∧ (x.queue ≠ [] ∨ x.lapsed = true))

theorem driveAttention_sound {x : EventUnit} (h : x.queue.length ≤ 16) : unitSound (driveAttention x) := by
  refine ⟨h, ?_⟩
  simp [driveAttention, attentionLevel]

theorem takePost_sound (d : Bool) (e : Event) {x : EventUnit} (h : unitSound x) : unitSound (takePost d e x) := by
  rw [takePost]
  split
  · exact h
  · split
    · exact driveAttention_sound h.1
    · next room =>
      refine driveAttention_sound ?_
      have room : x.queue.length < 16 := not_le.mp room
      simpa using room

theorem takePosts_sound (d : Bool) (es : List Event) {x : EventUnit} (h : unitSound x) : unitSound (takePosts d es x) :=
  List.foldlRecOn (motive := unitSound) es _ h fun _ sound e _ => takePost_sound d e sound

/-! ## What is kept -/

/-- From `s` to `t` each of the four invariants of the host side is kept. -/
structure HostSideKept (s t : State) : Prop where
  units : unitsSound s → unitsSound t
  ports : portsSound s → portsSound t
  lease : leaseSound s → leaseSound t
  buffers : buffersSound s → buffersSound t

namespace HostSideKept

theorem refl (s : State) : HostSideKept s s := ⟨id, id, id, id⟩

theorem trans (a : HostSideKept s t) (b : HostSideKept t u) : HostSideKept s u :=
  ⟨b.units ∘ a.units, b.ports ∘ a.ports, b.lease ∘ a.lease, b.buffers ∘ a.buffers⟩

/-- Internal operations post to units, empty buffers and leave ports and lease alone. -/
theorem of_effect (a : Effect s t) : HostSideKept s t := by
  obtain ⟨p, rst, a⟩ := a
  have port : ∀ h, t.port h = s.port h := fun h => by rw [State.port, a.ports]; rfl
  refine ⟨fun units h => ?_, fun ports h => ?_, fun lease => ?_, fun buffers r => ?_⟩
  · obtain ⟨es, e⟩ := a.eus h
    rw [e]
    exact takePosts_sound _ es (units h)
  · obtain ⟨level, quiet⟩ := ports h
    rw [port, a.rst.trans rst]
    refine ⟨level, fun detached => ?_⟩
    obtain ⟨framing, stored, unit⟩ := quiet detached
    obtain ⟨es, e⟩ := a.eus h
    refine ⟨framing, stored, e.trans ?_⟩
    have off : (State.port { s with pins := p } h).detached = true := detached
    rw [off, takePosts_detached]
    exact unit
  · rw [leaseSound, a.su]
    exact lease
  · rcases a.buffers r with e | e
    · rw [e]; exact buffers r
    · rw [e]; exact Nat.zero_le _

theorem of_internal (a : Internal s t) : HostSideKept s t := of_effect a.effect

/-- A sound unit takes the place of that of an attached port. -/
theorem of_setEu (h : HostId) (x : EventUnit) (on : (s.port h).detached = false)
    (sound : unitSound (s.eu h) → unitSound x) : HostSideKept s (s.setEu h x) := by
  refine ⟨fun units z => ?_, fun ports z => ?_, id, id⟩
  · rw [State.setEu_eu]
    split
    · exact sound (units h)
    · exact units z
  · refine ⟨(ports z).1, fun detached => ?_⟩
    have other : h ≠ z := by
      rintro rfl
      exact Bool.false_ne_true (on.symm.trans detached)
    rw [State.setEu_eu_ne _ _ _ _ other]
    exact (ports z).2 detached

/-- The port of a host that is attached changes its framing or what it has stored. -/
theorem of_setPort (h : HostId) (p : Port) (on : (s.port h).detached = false) (d : p.detached = (s.port h).detached)
    (r : p.hrst = (s.port h).hrst) : HostSideKept s (s.setPort h p) := by
  refine ⟨id, fun ports z => ?_, id, id⟩
  rw [State.setPort_port]
  split
  · next e =>
    subst e
    refine ⟨?_, fun detached => absurd (d.symm.trans detached) (by simp [on])⟩
    rw [d, r]
    exact (ports h).1
  · exact ports z

/-- A change of the lease and the settings alone. -/
theorem of_su (su : SettingsUnit) (n : Nat) (lease : leaseSound s → leaseSound { s with su := su }) :
    HostSideKept s { s with su := su, draws := n } := ⟨id, id, lease, id⟩

/-- A route's buffer changes within its 256 bytes. -/
theorem of_setRoute (r : RouteId) (x : Route) (fits : (s.route r).buffer.length ≤ 256 → x.buffer.length ≤ 256) :
    HostSideKept s (s.setRoute r x) := by
  refine ⟨id, id, id, fun buffers z => ?_⟩
  rw [State.setRoute_route]
  split
  · exact fits (buffers r)
  · exact buffers z

/-- An update that leaves ports, units, lease, routes and RST alone. -/
theorem of_rest (jm : JobManager) (sp : SegmentPool) (du : DispatchUnit) (le : LinkEngine) :
    HostSideKept s { s with jm := jm, sp := sp, du := du, le := le } := ⟨id, id, id, id⟩

end HostSideKept

/-! ## The lease -/

theorem grantLease_sound (h : HostId) (w : List HostId) (nodup : w.Nodup) (other : h ∉ w) :
    leaseSound (grantLease h { s with su := { s.su with waiters := w } }) := by
  refine ⟨nodup, ?_, by simp [grantLease], by simp [grantLease], by simp [grantLease], ?_⟩
  · intro x e
    cases e
    exact other
  · intro n e
    cases e
    exact le_refl _

theorem handover_hostSide (s : State) : HostSideKept s (handover s) := by
  rw [handover]
  split
  · next nobody =>
    refine .of_su _ s.draws fun _ => ?_
    exact ⟨by rw [nobody]; exact List.nodup_nil, by simp, fun _ => nobody, by simp, by simp, by simp⟩
  · next w ws queue =>
    refine .trans (.of_su _ s.draws fun lease => ?_) (.of_internal (.ofPost w (plainEvent .leaseGranted 0) _))
    have nodup := lease.1
    rw [queue, List.nodup_cons] at nodup
    exact grantLease_sound w ws nodup.2 nodup.1

theorem judgeLeaseTake_hostSide (h : HostId) (s : State) : HostSideKept s (judgeLeaseTake h s).state := by
  rw [judgeLeaseTake]
  split
  · next free =>
    refine .of_su _ s.draws fun lease => ?_
    refine grantLease_sound h s.su.waiters lease.1 ?_
    rcases free with none | mine
    · rw [lease.2.2.1 none]; exact List.not_mem_nil
    · exact lease.2.1 h mine
  · next held =>
    refine .of_su _ _ fun lease => ?_
    obtain ⟨nodup, apart, empty, runs, stopped, within⟩ := lease
    have some : s.su.holder ≠ none := fun e => held (.inl e)
    refine ⟨?_, fun x hx => ?_, fun e => absurd e some, runs, fun e => ?_, fun n e => ?_⟩
    · dsimp only
      split
      · exact nodup
      · next out => exact by simpa [List.nodup_append, nodup] using fun a ha (e : a = h) => out (e ▸ ha)
    · have other : x ≠ h := fun e => held (.inr (e ▸ hx))
      dsimp only
      split
      · exact apart x hx
      · simp [apart x hx, other]
    · exact Nat.le_zero.mp ((remainingTerm_le s).trans (stopped e).le)
    · exact (remainingTerm_le s).trans (within n e)

/-- A host leaves the waiter list, which it may do at any time. -/
theorem waitersFilter_hostSide (p : HostId → Bool) (s : State) :
    HostSideKept s { s with su := { s.su with waiters := s.su.waiters.filter p } } := by
  refine .of_su _ s.draws fun ⟨nodup, apart, empty, rest⟩ => ⟨nodup.filter p, fun x hx m => ?_, fun e => ?_, rest⟩
  · exact apart x hx (List.mem_of_mem_filter m)
  · dsimp only
    rw [empty e]
    rfl

theorem judgeLeaseDrop_hostSide (h : HostId) (s : State) : HostSideKept s (judgeLeaseDrop h s).state := by
  rw [judgeLeaseDrop]
  split
  · exact handover_hostSide s
  · split
    · refine .of_su _ s.draws fun ⟨nodup, apart, empty, rest⟩ => ⟨nodup.erase h, fun x hx m => ?_, fun e => ?_, rest⟩
      · exact apart x hx (List.mem_of_mem_erase m)
      · dsimp only
        rw [empty e]
        rfl
    · exact .refl s

theorem dropLeaseOf_hostSide (h : HostId) (s : State) : HostSideKept s (dropLeaseOf h s) := by
  have off := waitersFilter_hostSide (fun x => decide (x ≠ h)) s
  rw [dropLeaseOf]
  split
  · exact off.trans (handover_hostSide _)
  · exact off

theorem leaseTermExpiry_hostSide (e : execLeaseTermExpiry s = .next t) : HostSideKept s t := by
  rcases leaseTermExpiry_cases e with rfl | ⟨h, -, rfl⟩
  · exact .refl _
  · exact .trans (.of_internal (.ofPost h (plainEvent .leaseExpired 0) s)) (handover_hostSide _)

/-! ## The judgements that are no internal operations -/

theorem applySetting_hostSide (n : SettingName) (v : Nat) (s : State) : HostSideKept s (applySetting n v s) := by
  have set : HostSideKept s { s with su := { s.su with settings := withSetting s.su.settings n v } } :=
    .of_su _ s.draws id
  cases n with
  | reserve x => exact set.trans (.of_internal (evaluateSpace_internal _))
  | _ => exact set

theorem judgeSet_hostSide (h : HostId) (i n : Byte) (v : BitVec 16) (s : State) :
    HostSideKept s (judgeSet h i n v s).state := by
  rw [judgeSet]
  split
  · split
    · exact .refl s
    · split
      · split
        · exact applySetting_hostSide ..
        · exact .refl s
      · exact .refl s
  · exact .refl s

theorem judgeFetchEvent_hostSide (h : HostId) (s : State) (on : (s.port h).detached = false) :
    HostSideKept s (judgeFetchEvent h s).state := by
  rw [judgeFetchEvent]
  split
  · exact .of_setEu h _ on fun sound => driveAttention_sound sound.1
  · next e es queue =>
    refine .of_setEu h _ on fun sound => driveAttention_sound ?_
    have short := sound.1
    rw [queue] at short
    exact (Nat.le_succ _).trans short

theorem judgeSubscribe_hostSide (h : HostId) (flags : Byte) (s : State) (on : (s.port h).detached = false) :
    HostSideKept s (judgeSubscribe h flags s).state := by
  rw [judgeSubscribe]
  split
  · exact .of_setEu h _ on fun sound => driveAttention_sound sound.1
  · exact .refl s

theorem judgeReadReply_hostSide (h : HostId) (b m : Byte) (s : State) : HostSideKept s (judgeReadReply h b m s).state := by
  rcases judgeReadReply_cases h b m s with e | ⟨r, e⟩
  · rw [e]; exact .refl s
  · rw [e]
    refine .of_setRoute r _ fun fits => ?_
    rw [List.length_drop]
    exact (Nat.sub_le _ _).trans fits

/-- The creation of a job changes the job table and, with REPLY, gives a route an empty buffer. -/
theorem createJob_hostSide (h : HostId) (k : SlotId) (c : ChannelId) (p : Fin 8) (stream reply : Bool)
    (r : Option RouteId) (s : State) : HostSideKept s (createJob h k c p stream reply r s).state := by
  have made : HostSideKept s ((s.setJob k (openedJob h c p stream reply r)).setOwned h (s.owned h + 1)) :=
    .of_rest _ s.sp s.du s.le
  cases r with
  | none => exact made
  | some r => exact made.trans (.of_setRoute r _ fun _ => Nat.zero_le _)

/-- What OPEN leaves when judged: the part as it is, or a job created in the lowest FREE slot, with room under JOB_LIMIT, and with
REPLY in the lowest FREE route (R8, R9, R96). -/
theorem judgeOpen_cases (h : HostId) (channel priority flags : Byte) (s : State) :
    (judgeOpen h channel priority flags s).state = s ∨
      ∃ k c p stream reply r, s.owned h < s.su.settings.jobLimit[h] ∧ lowestFreeSlot s = some k ∧
        (∀ x, r = some x → lowestFreeRoute s = some x) ∧
        judgeOpen h channel priority flags s = createJob h k c p stream reply r s := by
  rw [judgeOpen]
  split
  · exact .inl rfl
  · next c p stream reply _ =>
    split
    · exact .inl rfl
    · next room =>
      have room := not_le.mp room
      split
      · exact .inl rfl
      · next k slot =>
        split
        · split
          · exact .inl rfl
          · next r route => exact .inr ⟨k, c, p, stream, true, some r, room, slot, fun x e => e ▸ route, rfl⟩
        · exact .inr ⟨k, c, p, stream, false, none, room, slot, by simp, rfl⟩

theorem judgeOpen_hostSide (h : HostId) (c p f : Byte) (s : State) : HostSideKept s (judgeOpen h c p f s).state := by
  rcases judgeOpen_cases h c p f s with e | ⟨k, ch, pr, stream, reply, r, -, -, -, e⟩
  · rw [e]; exact .refl s
  · rw [e]; exact createJob_hostSide ..

/-- What the entries just joined to the chain of a job bring about: READY at the threshold, or the end of a dry wait (R11, R63). -/
abbrev entriesJoined (k : SlotId) (s : State) : State :=
  match (s.job k).state with
  | .filling | .starved =>
    if (s.job k).stream && decide (s.su.settings.startThreshold ≤ (s.job k).queued) then enterReady k s else s
  | .active => { s with le := { s.le with dryTimer := none } }
  | .ready | .suspended | .free | .cancelling | .awaitReply | .ended => s

/-- An APPEND acted on, ahead of the work of the link (R33). -/
abbrev appendActed (k : SlotId) (es : List Entry) (close : Bool) (s : State) : State :=
  let t := entriesJoined k (appendEntries k es s)
  if close then closeJob k t else t

theorem acceptAppend_eq (k : SlotId) (es : List Entry) (close : Bool) (s : State) :
    acceptAppend k es close s = onwards (appendActed k es close s) := rfl

theorem entriesJoined_offLink (k : SlotId) (s : State) : OffLink s (entriesJoined k s) := by
  rw [entriesJoined]
  split
  · split
    · exact enterReady_offLink ..
    · exact .refl _
  · split
    · exact enterReady_offLink ..
    · exact .refl _
  · exact .of_du rfl rfl rfl rfl rfl rfl rfl rfl rfl rfl rfl id fun _ h => h
  all_goals exact .refl _

theorem appendActed_offLink (k : SlotId) (es : List Entry) (close : Bool) (s : State) :
    OffLink (appendEntries k es s) (appendActed k es close s) := by
  have joined := entriesJoined_offLink k (appendEntries k es s)
  rw [appendActed]
  split
  · exact joined.trans (closeJob_offLink k _)
  · exact joined

/-- What an accepted APPEND brings about once its entries stand in the chain. -/
theorem acceptAppend_internal (k : SlotId) (es : List Entry) (close : Bool) (s : State) :
    Internal (appendEntries k es s) (acceptAppend k es close s) :=
  (appendActed_offLink k es close s).toInternal.trans (onwards_internal _)

/-- All that APPEND can leave when judged (R31, R32, R33). -/
theorem judgeAppend_cases (h : HostId) (b kind flags : Byte) (bytes : List Byte) (s : State) :
    (judgeAppend h b kind flags bytes s).state = s ∨
      (∃ need, (judgeAppend h b kind flags bytes s).state = s.setMark h (some need)) ∨
      ∃ k kd, ownHandle s h b k ∧ appendArgs kind flags bytes = some kd ∧ appendable (s.job k) = true ∧
        segmentsNeeded (entriesNeeded bytes.length (breakAfter flags)) (tailSpace (s.job k).chain) ≤ allowance s h ∧
        (judgeAppend h b kind flags bytes s).state =
          acceptAppend k (appendList kd bytes (breakAfter flags)) (closeAfter flags) s := by
  rw [judgeAppend]
  rcases withOwnJob_cases h b s _ with e | ⟨k, own, e⟩
  · exact .inl e
  · rw [e]
    split
    · exact .inl rfl
    · next kd args =>
      split
      · next fits =>
        dsimp only
        split
        · exact .inr (.inl ⟨_, rfl⟩)
        · next room => exact .inr (.inr ⟨k, kd, own, args, fits, not_lt.mp room, rfl⟩)
      · exact .inl rfl

theorem appendEntries_hostSide (k : SlotId) (es : List Entry) (s : State) : HostSideKept s (appendEntries k es s) :=
  .of_rest _ _ s.du s.le

theorem judgeAppend_hostSide (h : HostId) (b kind flags : Byte) (bytes : List Byte) (s : State) :
    HostSideKept s (judgeAppend h b kind flags bytes s).state := by
  rcases judgeAppend_cases h b kind flags bytes s with e | ⟨need, e⟩ | ⟨k, kd, -, -, -, -, e⟩
  · rw [e]; exact .refl s
  · rw [e]; exact .of_internal (.ofMark h _ s)
  · rw [e]
    exact (appendEntries_hostSide ..).trans (.of_internal (acceptAppend_internal ..))

/-! ## Serving a request -/

/-- A judgement leaves the ports to the answer. -/
theorem answer_hostSide (h : HostId) (code : AnswerCode) (payload : List Byte) (store : Bool) (s : State)
    (on : (s.port h).detached = false) : HostSideKept s (answer h code payload store s) :=
  .of_setPort h _ on rfl rfl

theorem listening_attached {h : HostId} (l : listening s h = true) : (s.port h).detached = false := by
  simp only [listening, Bool.and_eq_true, Bool.not_eq_true'] at l
  exact l.1

/-- A request served keeps what its judgement keeps. -/
theorem serve_hostSide {h : HostId} {body : State → Reply} (e : serve h body s = .next t)
    (ports : (body s).state.ports = s.ports) (kept : (s.port h).detached = false → HostSideKept s (body s).state) :
    HostSideKept s t := by
  rcases serve_cases e with ⟨-, rfl⟩ | ⟨l, -, rfl⟩ | ⟨l, -, rfl⟩
  · exact .refl _
  · exact answer_hostSide _ _ _ _ _ (listening_attached l)
  · have on := listening_attached l
    refine (kept on).trans (answer_hostSide _ _ _ _ _ ?_)
    rw [State.port, ports]
    exact on

theorem judgeOpen_ports (h : HostId) (c p f : Byte) (s : State) : (judgeOpen h c p f s).state.ports = s.ports := by
  rcases judgeOpen_cases h c p f s with e | ⟨k, ch, pr, stream, reply, r, -, -, -, e⟩
  · rw [e]
  · rw [e]; exact createJob_ports ..

theorem judgeAppend_ports (h : HostId) (b kind flags : Byte) (bytes : List Byte) (s : State) :
    (judgeAppend h b kind flags bytes s).state.ports = s.ports := by
  rcases judgeAppend_cases h b kind flags bytes s with e | ⟨need, e⟩ | ⟨k, kd, -, -, -, -, e⟩
  · rw [e]
  · rw [e]; rfl
  · rw [e]; exact (acceptAppend_internal k _ _ s).ports

theorem judgeReadReply_ports (h : HostId) (b m : Byte) (s : State) : (judgeReadReply h b m s).state.ports = s.ports := by
  rcases judgeReadReply_cases h b m s with e | ⟨r, e⟩ <;> rw [e]
  rfl

theorem judgeFetchEvent_ports (h : HostId) (s : State) : (judgeFetchEvent h s).state.ports = s.ports := by
  rw [judgeFetchEvent]
  split <;> rfl

theorem judgeSubscribe_ports (h : HostId) (f : Byte) (s : State) : (judgeSubscribe h f s).state.ports = s.ports := by
  rw [judgeSubscribe]
  split <;> rfl

theorem judgeLeaseTake_ports (h : HostId) (s : State) : (judgeLeaseTake h s).state.ports = s.ports := by
  rw [judgeLeaseTake]
  split <;> rfl

theorem judgeLeaseDrop_ports (h : HostId) (s : State) : (judgeLeaseDrop h s).state.ports = s.ports := by
  rw [judgeLeaseDrop]
  split
  · dsimp only
    rw [handover_frame]
  · split <;> rfl

theorem applySetting_frame (n : SettingName) (v : Nat) (s : State) :
    applySetting n v s = { s with
      eus := (applySetting n v s).eus, sp := { s.sp with marks := (applySetting n v s).sp.marks }
      su := { s.su with settings := withSetting s.su.settings n v } } := by
  cases n with
  | reserve x => exact evaluateSpace_frame _
  | _ => rfl

theorem judgeSet_cases (h : HostId) (i n : Byte) (v : BitVec 16) (s : State) :
    (judgeSet h i n v s).state = s ∨
      ∃ name, s.su.holder = some h ∧ settingName i n = some name ∧ settingInRange name v.toNat = true ∧
        settingStands s name v.toNat = true ∧ (judgeSet h i n v s).state = applySetting name v.toNat s := by
  rw [judgeSet]
  split
  · next holder =>
    split
    · exact .inl rfl
    · next name named =>
      split
      · next range =>
        split
        · next stands => exact .inr ⟨name, holder, named, range, stands, rfl⟩
        · exact .inl rfl
      · exact .inl rfl
  · exact .inl rfl

theorem judgeSet_ports (h : HostId) (i n : Byte) (v : BitVec 16) (s : State) : (judgeSet h i n v s).state.ports = s.ports := by
  rcases judgeSet_cases h i n v s with e | ⟨name, -, -, -, -, e⟩
  · rw [e]
  · rw [e, applySetting_frame]

theorem Effect.ports (a : Effect s t) : t.ports = s.ports := by
  obtain ⟨p, -, a⟩ := a
  exact a.ports

/-! ## Port lines and resets -/

theorem chipSelectAssert_hostSide {h : HostId} (e : execChipSelectAssert h s = .next t) : HostSideKept s t := by
  rw [execChipSelectAssert] at e
  split at e <;> cases e
  · exact .refl _
  · refine ⟨id, fun ports z => ?_, id, id⟩
    rw [State.setPort_port]
    split
    · next same =>
      subst same
      refine ⟨(ports h).1, fun detached => ?_⟩
      obtain ⟨framing, stored, unit⟩ := (ports h).2 detached
      have on : (s.port h).detached = true := detached
      exact ⟨by simp [on, framing], stored, unit⟩
    · exact ports z

theorem chipSelectRelease_hostSide {h : HostId} (e : execChipSelectRelease h s = .next t) : HostSideKept s t := by
  rw [execChipSelectRelease] at e
  split at e <;> cases e
  · refine ⟨id, fun ports z => ?_, id, id⟩
    rw [State.setPort_port]
    split
    · next same =>
      subst same
      exact ⟨(ports h).1, fun detached => ⟨rfl, ((ports h).2 detached).2⟩⟩
    · exact ports z
  · exact .refl _

theorem answerSent_hostSide {h : HostId} (e : execAnswerSent h s = .next t) : HostSideKept s t := by
  rw [execAnswerSent] at e
  split at e <;> cases e
  · next frame framing =>
    refine ⟨id, fun ports => ?_, id, id⟩
    have on : (s.port h).detached = false := by
      by_contra off
      have idle := ((ports h).2 (by simpa using off)).1
      rw [framing] at idle
      cases idle
    exact (HostSideKept.of_setPort h { s.port h with framing := .draining } on rfl rfl).ports ports
  all_goals exact .refl _

theorem hkrstRelease_hostSide {h : HostId} (e : execHkrstRelease h s = .next t) : HostSideKept s t := by
  rw [execHkrstRelease] at e
  split at e <;> cases e
  · next held =>
    refine ⟨id, fun ports z => ?_, id, id⟩
    rw [State.setPort_port]
    split
    · next same =>
      subst same
      have off : (s.port h).detached = true := (ports h).1.mpr (.inr held)
      exact ⟨by simp, fun _ => ⟨rfl, rfl, ((ports h).2 off).2.2⟩⟩
    · exact ports z
  · exact .refl _

/-- PORT_RESET puts the port and the event unit of its host into their detached state, and marks no space waiter (R127, R177). -/
abbrev portDropped (s : State) (h : HostId) : State :=
  ((s.setPort h { s.port h with framing := .idle, stored := none, detached := true, hrst := true }).setEu h
    emptyEventUnit).setMark h none

theorem portDropped_hostSide (s : State) (h : HostId) : HostSideKept s (portDropped s h) := by
  refine ⟨fun units z => ?_, fun ports z => ?_, id, id⟩
  · have unit : (portDropped s h).eu z = if h = z then emptyEventUnit else s.eu z := State.setEu_eu ..
    rw [unit]
    split
    · exact ⟨Nat.zero_le _, by simp [emptyEventUnit]⟩
    · exact units z
  · have unit : (portDropped s h).eu z = if h = z then emptyEventUnit else s.eu z := State.setEu_eu ..
    have port : (portDropped s h).port z =
        if h = z then { s.port h with framing := .idle, stored := none, detached := true, hrst := true } else s.port z :=
      State.setPort_port ..
    rw [unit, port]
    split
    · exact ⟨by simp, fun _ => ⟨rfl, rfl, rfl⟩⟩
    · exact ports z

theorem execPortReset_eq (h : HostId) (s : State) :
    execPortReset h s =
      if (s.port h).hrst then .next s else .next (dropLeaseOf h (boundaryWork (orphanJobs h (portDropped s h)))) := rfl

theorem portReset_hostSide {h : HostId} (e : execPortReset h s = .next t) : HostSideKept s t := by
  rw [execPortReset_eq] at e
  split at e <;> cases e
  · exact .refl _
  · exact (portDropped_hostSide s h).trans
      ((HostSideKept.of_internal ((orphanJobs_internal h _).trans (boundaryWork_internal _))).trans
        (dropLeaseOf_hostSide h _))

/-! ## Part reset -/

theorem replicate_get {α : Type} (n : Nat) (x : α) (i : Fin n) : (Vector.replicate n x)[i] = x := by simp

theorem map_get {α β : Type} {n : Nat} (f : α → β) (v : Vector α n) (i : Fin n) : (v.map f)[i] = f v[i] := by simp

theorem execPartReset_port (e : execPartReset s = .next t) (h : HostId) :
    t.port h = resetPort (s.port h).cs (s.port h).hrst := by
  cases e
  exact map_get ..

theorem execPartReset_rest (e : execPartReset s = .next t) :
    t.eus = State.reset.eus ∧ t.su = resetSettingsUnit ∧ t.rr = resetReplyRouter ∧ t.jm = resetJobManager ∧
      t.sp = resetSegmentPool ∧ t.du = resetDispatchUnit ∧ t.le = resetLinkEngine ∧ t.pending = s.pending ∧
      t.draws = s.draws ∧ t.pins = resetPins s.pins.fack s.pins.rreq s.pins.rstb s.pins.prdy s.pins.pflt := by
  cases e
  exact ⟨rfl, rfl, rfl, rfl, rfl, rfl, rfl, rfl, rfl, rfl⟩

theorem eu_of_reset (e : t.eus = State.reset.eus) (h : HostId) : t.eu h = emptyEventUnit := by
  rw [State.eu, e]
  exact replicate_get ..

theorem route_of_reset (e : t.rr = resetReplyRouter) (r : RouteId) : t.route r = freeRoute := by
  rw [State.route, e]
  exact replicate_get ..

theorem unitsSound_of_reset (e : t.eus = State.reset.eus) : unitsSound t := fun h => by
  rw [eu_of_reset e]
  exact ⟨Nat.zero_le _, by simp [emptyEventUnit]⟩

theorem leaseSound_of_reset (e : t.su = resetSettingsUnit) : leaseSound t := by
  rw [leaseSound, e]
  exact ⟨List.nodup_nil, by simp [resetSettingsUnit], fun _ => rfl, by simp [resetSettingsUnit], fun _ => rfl,
    by simp [resetSettingsUnit]⟩

theorem buffersSound_of_reset (e : t.rr = resetReplyRouter) : buffersSound t := fun r => by
  rw [route_of_reset e]
  exact Nat.zero_le _

theorem portsSound_of_reset {cs hrst : HostId → Bool} (port : ∀ h, t.port h = resetPort (cs h) (hrst h))
    (rst : t.pins.rst = true) (e : t.eus = State.reset.eus) : portsSound t := fun h => by
  rw [port, rst, eu_of_reset e]
  exact ⟨by simp [resetPort], fun _ => ⟨rfl, rfl, rfl⟩⟩

theorem partReset_hostSide (e : execPartReset s = .next t) : HostSideKept s t := by
  obtain ⟨eus, su, rr, -, -, -, -, -, -, pins⟩ := execPartReset_rest e
  exact ⟨fun _ => unitsSound_of_reset eus,
    fun _ => portsSound_of_reset (execPartReset_port e) (by rw [pins]; rfl) eus, fun _ => leaseSound_of_reset su,
    fun _ => buffersSound_of_reset rr⟩

/-- At the release of RST a port is detached exactly while its HkRST is asserted (R176, R178). -/
theorem rstRelease_hostSide (e : execRstRelease s = .next t) : HostSideKept s t := by
  rw [execRstRelease] at e
  split at e <;> cases e
  · next held =>
    refine ⟨id, fun ports h => ?_, id, id⟩
    have port : (s.ports.map attachPort)[h] = attachPort (s.port h) := map_get ..
    have off : (s.port h).detached = true := (ports h).1.mpr (.inl held)
    rw [State.port, port]
    exact ⟨by simp [attachPort], fun _ => ⟨rfl, rfl, ((ports h).2 off).2.2⟩⟩
  · exact .refl _

/-! ## Every command -/

theorem reverseByte_hostSide {kind : ByteKind} {b : Byte} (e : execReverseByte kind b s = .next t) : HostSideKept s t := by
  rcases reverseByte_effect e with a | ⟨v, r, x, before, fits, after⟩
  · exact .of_effect a
  · exact ((HostSideKept.of_effect before).trans (.of_setRoute r x fits)).trans (.of_effect after)

theorem ident_hostSide {h : HostId} (e : execIdent h s = .next t) : HostSideKept s t := by
  rw [execIdent] at e
  split at e <;> cases e
  · next l => exact answer_hostSide _ _ _ _ _ (listening_attached l)
  · exact .refl _

theorem framingFault_hostSide {h : HostId} {frame : List Byte} (e : execFramingFault h frame s = .next t) :
    HostSideKept s t := by
  rw [execFramingFault] at e
  split at e <;> cases e
  · next l =>
    simp only [Bool.and_eq_true] at l
    exact answer_hostSide _ _ _ _ _ (listening_attached l.1.1)
  · exact .refl _

theorem last_hostSide {h : HostId} (e : execLast h s = .next t) : HostSideKept s t := by
  rw [execLast] at e
  split at e
  · next l =>
    dsimp only at e
    split at e <;> cases e
    · exact .of_setPort h _ (listening_attached l) rfl rfl
    · exact answer_hostSide _ _ _ _ _ (listening_attached l)
  · cases e; exact .refl _

theorem poolInitEnd_hostSide (e : execPoolInitEnd s = .next t) : HostSideKept s t := by
  rw [execPoolInitEnd] at e
  split at e <;> cases e
  · exact .of_rest s.jm _ s.du s.le
  · exact .refl _

theorem exec_hostSide {c : Instr} (e : exec c s = .next t) : HostSideKept s t := by
  cases c with
  | partReset => exact partReset_hostSide e
  | rstRelease => exact rstRelease_hostSide e
  | poolInitEnd => exact poolInitEnd_hostSide e
  | portReset h => exact portReset_hostSide e
  | hkrstRelease h => exact hkrstRelease_hostSide e
  | chipSelectAssert h => exact chipSelectAssert_hostSide e
  | chipSelectRelease h => exact chipSelectRelease_hostSide e
  | answerSent h => exact answerSent_hostSide e
  | framingFault h frame => exact framingFault_hostSide e
  | ident h => exact ident_hostSide e
  | last h => exact last_hostSide e
  | openJob h c p f => exact serve_hostSide e (judgeOpen_ports ..) fun _ => judgeOpen_hostSide ..
  | append h b k f bs => exact serve_hostSide e (judgeAppend_ports ..) fun _ => judgeAppend_hostSide ..
  | close h b => exact serve_hostSide e (judgeClose_internal h b s).ports fun _ => .of_internal (judgeClose_internal h b s)
  | setPriority h b p =>
    exact serve_hostSide e (judgeSetPriority_internal h b p s).ports fun _ => .of_internal (judgeSetPriority_internal h b p s)
  | cancel h b => exact serve_hostSide e (judgeCancel_internal h b s).ports fun _ => .of_internal (judgeCancel_internal h b s)
  | release h b =>
    exact serve_hostSide e (judgeRelease_internal h b s).ports fun _ => .of_internal (judgeRelease_internal h b s)
  | jobStatus h b => exact serve_hostSide e (by rw [judgeJobStatus_state]) fun _ => by rw [judgeJobStatus_state]; exact .refl s
  | readReply h b m => exact serve_hostSide e (judgeReadReply_ports ..) fun _ => judgeReadReply_hostSide ..
  | fetchEvent h => exact serve_hostSide e (judgeFetchEvent_ports ..) (judgeFetchEvent_hostSide h s)
  | subscribe h f => exact serve_hostSide e (judgeSubscribe_ports ..) (judgeSubscribe_hostSide h f s)
  | leaseTake h => exact serve_hostSide e (judgeLeaseTake_ports ..) fun _ => judgeLeaseTake_hostSide ..
  | leaseDrop h => exact serve_hostSide e (judgeLeaseDrop_ports ..) fun _ => judgeLeaseDrop_hostSide ..
  | setSetting h i n v => exact serve_hostSide e (judgeSet_ports ..) fun _ => judgeSet_hostSide ..
  | getSetting h i n => exact serve_hostSide e (by rw [judgeGet_state]) fun _ => by rw [judgeGet_state]; exact .refl s
  | linkStatus h => exact serve_hostSide e rfl fun _ => .refl s
  | linkReset h => exact serve_hostSide e (judgeLinkReset_effect h s).ports fun _ => .of_effect (judgeLinkReset_effect h s)
  | reverseByte kind b => exact reverseByte_hostSide e
  | leaseTermExpiry => exact leaseTermExpiry_hostSide e
  | lrstPulseEnd => exact .of_effect (lrstPulseEnd_effect e)
  | acknowledgement => exact .of_effect (acknowledgement_effect e)
  | acknowledgeTimeout => exact .of_effect (acknowledgeTimeout_effect e)
  | rreqRise | rreqFall | prdyFall | pfltChange => exact .of_effect (levelCommand_effect (by simp) e)
  | prdyRise => exact .of_effect (prdyRise_effect e)
  | revIdleExpiry => exact .of_effect (revIdleExpiry_effect e)
  | stallTimerExpiry => exact .of_effect (stallTimerExpiry_effect e)
  | dryWaitExpiry => exact .of_internal (dryWaitExpiry_internal e)
  | wakeTimerExpiry => exact .of_effect (wakeTimerExpiry_effect e)
  | replyTimerExpiry r => exact .of_internal (replyTimerExpiry_internal e)

/-! ## Every step -/

/-- A step is the front command on the state with the queue's rest, or nothing (log entry 3). -/
theorem step_cases (e : step s = .next t) :
    t = s ∨ ∃ c rest, s.pending = c :: rest ∧ exec c { s with pending := rest } = .next t := by
  rw [step] at e
  split at e
  · cases e; exact .inl rfl
  · next c rest queue => exact .inr ⟨c, rest, queue, e⟩

/-- Settles O56: every command keeps each of the four invariants, none of which reads the queue of waiting commands. -/
theorem stepsKeepPortsEventsAndLeaseSound : Obligations.StepsKeepPortsEventsAndLeaseSound := by
  intro s t e
  rcases step_cases e with rfl | ⟨c, rest, -, run⟩
  · exact ⟨id, id, id, id⟩
  · obtain ⟨units, ports, lease, buffers⟩ := exec_hostSide run
    exact ⟨units, ports, lease, buffers⟩

end Sys2Proof.Machine
end

section
/-! SUPPORT. Every step keeps the pool's segments, counts and chains sound (R24 to R28, R38, R40). What an APPEND may take is never
more than what is free (R29, R30). -/

namespace Sys2Proof.Machine

variable {s t u : State}

/-! ## What is kept -/

/-- From `s` to `t` the pool is kept sound, and with it the chains. -/
structure PoolKept (s t : State) : Prop where
  pool : poolSound s → poolSound t
  chains : poolSound s → chainsSound s → chainsSound t

namespace PoolKept

theorem refl (s : State) : PoolKept s s := ⟨id, fun _ => id⟩

theorem trans (a : PoolKept s t) (b : PoolKept t u) : PoolKept s u :=
  ⟨b.pool ∘ a.pool, fun p c => b.chains (a.pool p) (a.chains p c)⟩

/-- An update that leaves the job records, the counts of the pool, the reserves and RST alone. -/
theorem of_same (jobs : t.jm.jobs = s.jm.jobs) (phase : t.sp.phase = s.sp.phase) (timer : t.sp.initTimer = s.sp.initTimer)
    (free : t.sp.free = s.sp.free) (used : t.sp.used = s.sp.used) (rst : t.pins.rst = s.pins.rst)
    (reserve : t.su.settings.reserve = s.su.settings.reserve) : PoolKept s t := by
  have job : ∀ k, t.job k = s.job k := fun k => by simp [State.job, jobs]
  refine ⟨fun pool => ?_, fun _ chains k => by rw [job]; exact chains k⟩
  simp only [poolSound, poolCounts, noChains, segmentsHeld, segmentsOf, heldIds, State.used, job, phase, timer, free, used, rst,
    reserve] at pool ⊢
  exact pool

end PoolKept

theorem sumHosts_eq (f : HostId → Nat) : sumHosts f = f 0 + f 1 + f 2 + f 3 := by
  simp only [sumHosts, allHosts, List.map_cons, List.map_nil, List.sum_cons, List.sum_nil]
  omega

theorem sumHosts_le {f g : HostId → Nat} (h : ∀ x, f x ≤ g x) : sumHosts f ≤ sumHosts g := by
  have h0 := h 0
  have h1 := h 1
  have h2 := h 2
  have h3 := h 3
  rw [sumHosts_eq, sumHosts_eq]
  omega

/-- Sums over the hosts that differ at one host only. -/
theorem sumHosts_le_add {f g : HostId → Nat} (h : HostId) {d : Nat} (other : ∀ x, h ≠ x → f x = g x) (self : f h ≤ g h + d) :
    sumHosts f ≤ sumHosts g + d := by
  have each (x : HostId) : f x ≤ g x + if h = x then d else 0 := by
    by_cases e : h = x
    · subst e
      rwa [if_pos rfl]
    · rw [if_neg e, other x e]
      exact Nat.le_add_right _ _
  have sum : sumHosts (fun x => g x + if h = x then d else 0) = sumHosts g + d := by
    rw [sumHosts_eq, sumHosts_eq]
    match h with
    | 0 | 1 | 2 | 3 => simp; try omega
  exact (sumHosts_le each).trans sum.le

theorem le_sumHosts (f : HostId → Nat) (h : HostId) : f h ≤ sumHosts f := by
  rw [sumHosts_eq]
  match h with
  | 0 | 1 | 2 | 3 => omega

theorem sharedUsed_le {reserve x y : Vector Nat 4} (h : ∀ z : HostId, x[z] ≤ y[z]) :
    sharedUsed reserve x ≤ sharedUsed reserve y := sumHosts_le fun z => Nat.sub_le_sub_right (h z) _

theorem PoolKept.of_effect (a : Effect s t) : PoolKept s t := by
  obtain ⟨p, rst, a⟩ := a
  refine ⟨fun ⟨counts, empty, timer, held, fits, shared⟩ => ?_, fun _ => a.chains⟩
  refine ⟨fun ready => a.counts (counts (a.phase.symm.trans ready)), fun init => a.empty (empty (a.phase.symm.trans init)), ?_,
    ?_, ?_, ?_⟩
  · rw [a.initTimer, a.phase, a.rst.trans rst]
    exact timer
  · rw [a.phase, a.rst.trans rst]
    exact held
  · rw [a.su]
    exact fits
  · rw [a.su]
    exact (sharedUsed_le a.used).trans shared

theorem PoolKept.of_internal (a : Internal s t) : PoolKept s t := .of_effect a.effect

/-! ## What an APPEND may take -/

/-- Each segment in a chain belongs to one host. -/
theorem segmentsHeld_eq (s : State) : segmentsHeld s = sumHosts (segmentsOf s) := by
  have one (k : SlotId) : (s.job k).chain.length =
      ∑ h : HostId, if (s.job k).owner = h then (s.job k).chain.length else 0 := by simp
  rw [segmentsHeld, allSlots_sum, Finset.sum_congr rfl fun k _ => one k, Finset.sum_comm, sumHosts_eq]
  simp only [segmentsOf, allSlots_sum]
  exact Fin.sum_univ_four _

/-- The segments in use are the used counts together. -/
theorem free_add_used (c : poolCounts s) : s.sp.free.length + sumHosts s.used = 384 := by
  have used : s.used = segmentsOf s := funext c.2.2.1
  rw [used, ← segmentsHeld_eq]
  exact c.1

/-- What the hosts use lies within their reserves or beyond them, and what is left of the reserves is unused. -/
theorem used_parted (reserve used : Vector Nat 4) :
    (sumHosts fun x => used[x]) + (sumHosts fun x => reserve[x] - used[x]) = reserveSum reserve + sharedUsed reserve used := by
  have each (x : HostId) : used[x] + (reserve[x] - used[x]) = reserve[x] + (used[x] - reserve[x]) := by omega
  have e0 := each 0
  have e1 := each 1
  have e2 := each 2
  have e3 := each 3
  rw [reserveSum, sharedUsed, sumHosts_eq, sumHosts_eq, sumHosts_eq, sumHosts_eq]
  linarith

/-- What a host may take stands on the free list (R28, R29). -/
theorem allowance_le_free (pool : poolSound s) (ready : s.sp.phase = .ready) (h : HostId) :
    allowance s h ≤ s.sp.free.length := by
  obtain ⟨counts, -, -, -, fits, shared⟩ := pool
  have sum : s.sp.free.length + sumHosts (fun x => s.sp.used[x]) = 384 := free_add_used (counts ready)
  have unused := le_sumHosts (fun x => s.su.settings.reserve[x] - s.used x) h
  have parted := used_parted s.su.settings.reserve s.sp.used
  rw [allowance, unusedReserve, sharedFree, sharedCapacity, Config.poolSegments]
  simp only [State.used] at *
  omega

/-- What a host takes of its allowance leaves the reserves of the others untouched (R29). -/
theorem sharedUsed_append (pool : poolSound s) {h : HostId} {n : Nat} (room : n ≤ allowance s h) :
    sharedUsed s.su.settings.reserve (upd s.sp.used h (s.used h + n)) ≤ 384 - reserveSum s.su.settings.reserve := by
  obtain ⟨-, -, -, -, fits, shared⟩ := pool
  have taken : sharedUsed s.su.settings.reserve (upd s.sp.used h (s.used h + n)) ≤
      sharedUsed s.su.settings.reserve s.sp.used + (n - (s.su.settings.reserve[h] - s.used h)) := by
    refine sumHosts_le_add h (fun x other => by rw [upd_ne _ _ other]) ?_
    rw [upd_same, State.used]
    omega
  rw [allowance, unusedReserve, sharedFree, sharedCapacity, Config.poolSegments] at room
  omega

/-- The entries of an APPEND join a chain that stays sound, and the segments they need leave the free list (R25, R27, R28, R33). -/
theorem appendEntries_pool {k : SlotId} {es : List Entry} (pool : poolSound s) (ready : s.sp.phase = .ready)
    (live : (s.job k).state ≠ .free ∧ (s.job k).state ≠ .ended)
    (room : newSegments es.length (s.job k).chain ≤ allowance s (s.job k).owner) :
    poolSound (appendEntries k es s) ∧ (chainsSound s → chainsSound (appendEntries k es s)) := by
  have enough := room.trans (allowance_le_free pool ready (s.job k).owner)
  obtain ⟨c, e, list, ids, sound⟩ := appendEntries_spec k es s enough
  have job (z : SlotId) : (appendEntries k es s).job z =
      if k = z then { s.job k with chain := c, queued := (s.job k).queued + es.length } else s.job z := by
    rw [e]
    exact upd_get ..
  have other (z : SlotId) (hz : z ≠ k) : (appendEntries k es s).job z = s.job z := by rw [job, if_neg (Ne.symm hz)]
  have self : (appendEntries k es s).job k = { s.job k with chain := c, queued := (s.job k).queued + es.length } := by
    rw [job, if_pos rfl]
  have sp : (appendEntries k es s).sp = poolTook s (s.job k).owner (newSegments es.length (s.job k).chain) := by rw [e]
  generalize newSegments es.length (s.job k).chain = n at *
  have length : c.length = (s.job k).chain.length + n := by
    have e := congrArg List.length ids
    simpa [Nat.min_eq_left enough] using e
  refine ⟨⟨fun _ => ?_, fun init => ?_, ?_, ?_, ?_, ?_⟩, fun chains z => ?_⟩
  · obtain ⟨sum, nodup, used, empty⟩ := pool.1 ready
    refine ⟨?_, nodup_move other (fun i => ?_) nodup, fun h => ?_, fun z ended => ?_⟩
    · have move := held_move other
      rw [self] at move
      rw [sp]
      simp only [List.length_drop]
      simp only [length] at move
      omega
    · rw [self, sp]
      simp only [ids, List.count_append]
      have split := congrArg (List.count i) (List.take_append_drop n s.sp.free)
      rw [List.count_append] at split
      omega
    · have move := segmentsOf_move other h
      have now : (appendEntries k es s).used h = if (s.job k).owner = h then s.used (s.job k).owner + n else s.used h := by
        rw [State.used, sp]
        exact upd_get ..
      have before := used h
      rw [self] at move
      rw [now]
      simp only [length] at move
      split at move
      · next mine => subst mine; rw [if_pos rfl] at *; omega
      · next mine => rw [if_neg mine] at *; omega
    · by_cases hz : z = k
      · subst hz
        rw [self] at ended
        exact absurd ended (by simp [live])
      · rw [other z hz] at ended ⊢
        exact empty z ended
  · rw [sp] at init
    exact absurd (ready.symm.trans init) (by simp)
  · rw [sp, e]; exact pool.2.2.1
  · rw [sp, e]; exact pool.2.2.2.1
  · rw [e]; exact pool.2.2.2.2.1
  · rw [sp, e]; exact sharedUsed_append pool room
  · rw [job]
    split
    · next same =>
      subst same
      obtain ⟨chain, queued⟩ := chains k
      refine ⟨sound chain, ?_⟩
      have entries (x : List Segment) : chainEntries x = (chainList x).length := by
        simp [chainEntries, chainList, Function.comp_def]
      rw [entries, list, List.length_append, ← entries]
      exact congrArg (· + es.length) queued
    · exact chains z

/-! ## The judgements -/

theorem closable_live {j : Job} (c : closable j = true) : j.state ≠ .free ∧ j.state ≠ .ended := by
  rw [closable] at c
  constructor <;> intro e <;> simp [e] at c

theorem appendList_length (kd : ByteKind) (bytes : List Byte) (brk : Bool) :
    (appendList kd bytes brk).length = entriesNeeded bytes.length brk := by
  cases brk <;> simp [appendList, entriesNeeded]

theorem judgeAppend_pool (h : HostId) (b kind flags : Byte) (bytes : List Byte) (s : State) (ready : s.sp.phase = .ready) :
    PoolKept s (judgeAppend h b kind flags bytes s).state := by
  rcases judgeAppend_cases h b kind flags bytes s with e | ⟨need, e⟩ | ⟨k, kd, own, -, fits, room, e⟩
  · rw [e]; exact .refl s
  · rw [e]; exact .of_internal (.ofMark h _ s)
  · rw [e]
    obtain ⟨-, -, -, owner, -⟩ := own
    have room : newSegments (appendList kd bytes (breakAfter flags)).length (s.job k).chain ≤ allowance s (s.job k).owner := by
      rw [owner, appendList_length]
      exact room
    have joined : PoolKept s (appendEntries k (appendList kd bytes (breakAfter flags)) s) :=
      ⟨fun pool => (appendEntries_pool pool ready (closable_live fits) room).1,
        fun pool => (appendEntries_pool pool ready (closable_live fits) room).2⟩
    exact joined.trans (.of_internal (acceptAppend_internal ..))

theorem lowestFreeSlot_free {k : SlotId} (e : lowestFreeSlot s = some k) : (s.job k).state = .free := by
  simpa using List.find?_some e

/-- A job is created in a slot that holds no segment. -/
theorem PoolKept.of_created (k : SlotId) (j : Job) (free : (s.job k).state = .free) (chain : j.chain = [])
    (queued : j.queued = 0) : PoolKept s (s.setJob k j) := by
  have other (z : SlotId) (hz : z ≠ k) : (s.setJob k j).job z = s.job z := State.setJob_job_ne _ _ _ _ (Ne.symm hz)
  have self : (s.setJob k j).job k = j := State.setJob_job_same ..
  refine ⟨fun ⟨counts, empty, rest⟩ => ⟨fun ready => ?_, fun init z => ?_, rest⟩, fun pool chains z => ?_⟩
  · obtain ⟨sum, nodup, used, none⟩ := counts ready
    have before := none k (.inl free)
    have held := held_move other
    refine ⟨?_, nodup_move other (fun i => ?_) nodup, fun h => ?_, fun z ended => ?_⟩
    · rw [self, chain, before] at held
      simp only [List.length_nil, Nat.add_zero] at held
      rw [held]
      exact sum
    · rw [self, chain, before]
      exact Nat.le_refl _
    · have move := segmentsOf_move other h
      rw [self, chain, before] at move
      simp only [List.length_nil, ite_self, Nat.add_zero] at move
      rw [move]
      exact used h
    · by_cases hz : z = k
      · rw [hz, self, chain]
      · rw [other z hz] at ended ⊢
        exact none z ended
  · by_cases hz : z = k
    · rw [hz, self, chain]
    · rw [other z hz]; exact empty init z
  · by_cases hz : z = k
    · rw [hz, self, chain, queued]
      simp [chainSound, chainEntries]
    · rw [other z hz]; exact chains z

theorem judgeOpen_pool (h : HostId) (c p f : Byte) (s : State) : PoolKept s (judgeOpen h c p f s).state := by
  rcases judgeOpen_cases h c p f s with e | ⟨k, ch, pr, stream, reply, r, -, slot, -, e⟩
  · rw [e]; exact .refl s
  · rw [e]
    have made : PoolKept s (s.setJob k (openedJob h ch pr stream reply r)) := 
      .of_created k _ (lowestFreeSlot_free slot) rfl rfl
    have counted : PoolKept s ((s.setJob k (openedJob h ch pr stream reply r)).setOwned h (s.owned h + 1)) :=
      made.trans (.of_same rfl rfl rfl rfl rfl rfl rfl)
    cases r with
    | none => exact counted
    | some r => exact counted.trans (.of_same rfl rfl rfl rfl rfl rfl rfl)

/-- A value that stands leaves reserves that fit the pool (R38, R154). -/
theorem applySetting_pool {n : SettingName} {v : Nat} (stands : settingStands s n v = true) :
    PoolKept s (applySetting n v s) := by
  have same (h : (withSetting s.su.settings n v).reserve = s.su.settings.reserve) :
      PoolKept s { s with su := { s.su with settings := withSetting s.su.settings n v } } :=
    .of_same rfl rfl rfl rfl rfl rfl h
  cases n with
  | reserve x =>
    simp only [settingStands, reservesAcceptable, Bool.and_eq_true, decide_eq_true_eq] at stands
    have set : PoolKept s { s with su := { s.su with settings := withSetting s.su.settings (.reserve x) v } } :=
      ⟨fun ⟨counts, empty, timer, held, _, _⟩ => ⟨counts, empty, timer, held, stands.1, stands.2⟩, fun _ => id⟩
    exact set.trans (.of_internal (evaluateSpace_internal _))
  | _ => exact same rfl

theorem judgeSet_pool (h : HostId) (i n : Byte) (v : BitVec 16) (s : State) : PoolKept s (judgeSet h i n v s).state := by
  rcases judgeSet_cases h i n v s with e | ⟨name, -, -, -, stands, e⟩
  · rw [e]; exact .refl s
  · rw [e]; exact applySetting_pool stands

theorem judgeReadReply_pool (h : HostId) (b m : Byte) (s : State) : PoolKept s (judgeReadReply h b m s).state := by
  rcases judgeReadReply_cases h b m s with e | ⟨r, e⟩
  · rw [e]; exact .refl s
  · rw [e]; exact .of_same rfl rfl rfl rfl rfl rfl rfl

theorem judgeFetchEvent_pool (h : HostId) (s : State) : PoolKept s (judgeFetchEvent h s).state := by
  rw [judgeFetchEvent]
  split <;> exact .of_same rfl rfl rfl rfl rfl rfl rfl

theorem judgeSubscribe_pool (h : HostId) (f : Byte) (s : State) : PoolKept s (judgeSubscribe h f s).state := by
  rw [judgeSubscribe]
  split
  · exact .of_same rfl rfl rfl rfl rfl rfl rfl
  · exact .refl s

theorem judgeLeaseTake_pool (h : HostId) (s : State) : PoolKept s (judgeLeaseTake h s).state := by
  rw [judgeLeaseTake]
  split <;> exact .of_same rfl rfl rfl rfl rfl rfl rfl

theorem handover_pool (s : State) : PoolKept s (handover s) := by
  have settings : (handover s).su.settings = s.su.settings := by rw [handover_su]
  rw [handover_frame]
  exact .of_same rfl rfl rfl rfl rfl rfl (by rw [settings])

theorem judgeLeaseDrop_pool (h : HostId) (s : State) : PoolKept s (judgeLeaseDrop h s).state := by
  rw [judgeLeaseDrop]
  split
  · exact handover_pool s
  · split
    · exact .of_same rfl rfl rfl rfl rfl rfl rfl
    · exact .refl s

/-! ## Commands -/

theorem answer_pool (h : HostId) (code : AnswerCode) (payload : List Byte) (store : Bool) (s : State) :
    PoolKept s (answer h code payload store s) := .of_same rfl rfl rfl rfl rfl rfl rfl

/-- A request served keeps what its judgement, made with the pool READY, keeps. -/
theorem serve_pool {h : HostId} {body : State → Reply} (e : serve h body s = .next t)
    (kept : s.sp.phase = .ready → PoolKept s (body s).state) : PoolKept s t := by
  rcases serve_cases e with ⟨-, rfl⟩ | ⟨-, -, rfl⟩ | ⟨-, ready, rfl⟩
  · exact .refl _
  · exact answer_pool ..
  · exact (kept ready).trans (answer_pool ..)

theorem reverseByte_pool {kind : ByteKind} {b : Byte} (e : execReverseByte kind b s = .next t) : PoolKept s t := by
  rcases reverseByte_effect e with a | ⟨v, r, x, before, -, after⟩
  · exact .of_effect a
  · have stored : PoolKept v (v.setRoute r x) := .of_same rfl rfl rfl rfl rfl rfl rfl
    exact ((PoolKept.of_effect before).trans stored).trans (.of_effect after)

theorem sharedUsed_unused (reserve : Vector Nat 4) : sharedUsed reserve (Vector.replicate 4 0) = 0 := by
  simp [sharedUsed, sumHosts_eq]

theorem job_of_reset (e : t.jm = resetJobManager) (k : SlotId) : t.job k = freeJob := by
  rw [State.job, e]
  exact replicate_get ..

theorem poolSound_of_reset (jm : t.jm = resetJobManager) (sp : t.sp = resetSegmentPool) (su : t.su = resetSettingsUnit) :
    poolSound t := by
  refine ⟨fun ready => ?_, fun _ k => by rw [job_of_reset jm]; rfl, ?_, fun _ => by rw [sp]; rfl, ?_, ?_⟩
  · rw [sp] at ready
    cases ready
  · rw [sp]
    simp [resetSegmentPool]
  · simp [su, resetSettingsUnit, defaultSettings, reserveSum, sumHosts_eq]
  · simp only [sp]
    exact (sharedUsed_unused _).trans_le (Nat.zero_le _)

theorem chainsSound_of_reset (jm : t.jm = resetJobManager) : chainsSound t := fun k => by
  rw [job_of_reset jm]
  simp [chainSound, chainEntries, freeJob]

theorem partReset_pool (e : execPartReset s = .next t) : PoolKept s t := by
  obtain ⟨-, su, -, jm, sp, -, -, -, -, -⟩ := execPartReset_rest e
  exact ⟨fun _ => poolSound_of_reset jm sp su, fun _ _ => chainsSound_of_reset jm⟩

theorem rstRelease_pool (e : execRstRelease s = .next t) : PoolKept s t := by
  rw [execRstRelease] at e
  split at e <;> obtain rfl := next_inj e
  · next held =>
    exact ⟨fun ⟨counts, empty, _, init, rest⟩ => ⟨counts, empty, fun _ => ⟨init held, rfl⟩, by simp, rest⟩, fun _ => id⟩
  · exact .refl _

theorem segmentsHeld_of_noChains (h : noChains s) : segmentsHeld s = 0 := by simp [segmentsHeld, h]

theorem segmentsOf_of_noChains (h : noChains s) (x : HostId) : segmentsOf s x = 0 := by simp [segmentsOf, h]

theorem heldIds_of_noChains (h : noChains s) : heldIds s = [] := by simp [heldIds, h]

theorem allSegments_nodup : allSegments.Nodup := List.nodup_finRange _

/-- At the end of INIT no job holds a segment and all are free (R40, R41). -/
theorem poolInitEnd_pool (e : execPoolInitEnd s = .next t) : PoolKept s t := by
  rw [execPoolInitEnd] at e
  split at e <;> obtain rfl := next_inj e
  · next running =>
    refine ⟨fun ⟨_, empty, timer, _, fits, shared⟩ => ?_, fun _ => id⟩
    obtain ⟨init, released⟩ := timer running
    have none := empty init
    refine ⟨fun _ => ?_, by simp, by simp, by simp [released], fits, ?_⟩
    · refine ⟨?_, ?_, fun h => ?_, fun k _ => none k⟩
      · rw [segmentsHeld_of_noChains, allSegments, List.length_finRange]
        exact none
      · rw [heldIds_of_noChains, List.append_nil]
        · dsimp only
          exact allSegments_nodup
        · exact none
      · rw [segmentsOf_of_noChains]
        · exact replicate_get 4 0 h
        · exact none
    · exact (sharedUsed_unused _).trans_le (Nat.zero_le _)
  · exact .refl _

theorem dropLeaseOf_pool (h : HostId) (s : State) : PoolKept s (dropLeaseOf h s) := by
  have off : PoolKept s { s with su := { s.su with waiters := s.su.waiters.filter fun x => decide (x ≠ h) } } :=
    .of_same rfl rfl rfl rfl rfl rfl rfl
  rw [dropLeaseOf]
  split
  · exact off.trans (handover_pool _)
  · exact off

theorem portReset_pool {h : HostId} (e : execPortReset h s = .next t) : PoolKept s t := by
  rw [execPortReset_eq] at e
  split at e <;> obtain rfl := next_inj e
  · exact .refl _
  · have dropped : PoolKept s (portDropped s h) := .of_same rfl rfl rfl rfl rfl rfl rfl
    exact dropped.trans ((PoolKept.of_internal ((orphanJobs_internal h _).trans (boundaryWork_internal _))).trans
      (dropLeaseOf_pool h _))

theorem leaseTermExpiry_pool (e : execLeaseTermExpiry s = .next t) : PoolKept s t := by
  rcases leaseTermExpiry_cases e with rfl | ⟨h, -, rfl⟩
  · exact .refl _
  · exact .trans (.of_internal (.ofPost h (plainEvent .leaseExpired 0) s)) (handover_pool _)

/-- The commands of a port's own lines, FRAMING_FAULT, IDENT and LAST change a port and nothing else. -/
theorem portCommand_frame {c : Instr} {h : HostId} {frame : List Byte}
    (own : c ∈ [.chipSelectAssert h, .chipSelectRelease h, .answerSent h, .hkrstRelease h, .framingFault h frame, .ident h,
      .last h]) (e : exec c s = .next t) : ∃ p, t = s.setPort h p := by
  have same : s = s.setPort h (s.port h) := by rw [State.setPort, State.port, upd_self]
  simp only [List.mem_cons, List.not_mem_nil, or_false] at own
  rcases own with rfl | rfl | rfl | rfl | rfl | rfl | rfl
  · change execChipSelectAssert h s = _ at e
    rw [execChipSelectAssert] at e
    split at e <;> obtain rfl := next_inj e
    exacts [⟨_, same⟩, ⟨_, rfl⟩]
  · change execChipSelectRelease h s = _ at e
    rw [execChipSelectRelease] at e
    split at e <;> obtain rfl := next_inj e
    exacts [⟨_, rfl⟩, ⟨_, same⟩]
  · change execAnswerSent h s = _ at e
    rw [execAnswerSent] at e
    split at e <;> obtain rfl := next_inj e
    exacts [⟨_, rfl⟩, ⟨_, same⟩, ⟨_, same⟩, ⟨_, same⟩]
  · change execHkrstRelease h s = _ at e
    rw [execHkrstRelease] at e
    split at e <;> obtain rfl := next_inj e
    exacts [⟨_, rfl⟩, ⟨_, same⟩]
  · change execFramingFault h frame s = _ at e
    rw [execFramingFault] at e
    split at e <;> obtain rfl := next_inj e
    exacts [⟨_, rfl⟩, ⟨_, same⟩]
  · change execIdent h s = _ at e
    rw [execIdent] at e
    split at e <;> obtain rfl := next_inj e
    exacts [⟨_, rfl⟩, ⟨_, same⟩]
  · change execLast h s = _ at e
    rw [execLast] at e
    dsimp only at e
    split at e
    · split at e <;> obtain rfl := next_inj e
      exacts [⟨_, rfl⟩, ⟨_, rfl⟩]
    · obtain rfl := next_inj e
      exact ⟨_, same⟩

theorem PoolKept.of_port {h : HostId} (e : ∃ p, t = s.setPort h p) : PoolKept s t := by
  obtain ⟨p, rfl⟩ := e
  exact .of_same rfl rfl rfl rfl rfl rfl rfl

theorem exec_pool {c : Instr} (e : exec c s = .next t) : PoolKept s t := by
  cases c with
  | partReset => exact partReset_pool e
  | rstRelease => exact rstRelease_pool e
  | poolInitEnd => exact poolInitEnd_pool e
  | portReset h => exact portReset_pool e
  | hkrstRelease h | chipSelectAssert h | chipSelectRelease h | answerSent h | ident h | last h =>
    exact .of_port (portCommand_frame (h := h) (frame := []) (by simp) e)
  | framingFault h frame => exact .of_port (portCommand_frame (h := h) (frame := frame) (by simp) e)
  | openJob h c p f => exact serve_pool e fun _ => judgeOpen_pool ..
  | append h b k f bs => exact serve_pool e fun ready => judgeAppend_pool _ _ _ _ _ _ ready
  | close h b => exact serve_pool e fun _ => .of_internal (judgeClose_internal h b s)
  | setPriority h b p => exact serve_pool e fun _ => .of_internal (judgeSetPriority_internal h b p s)
  | cancel h b => exact serve_pool e fun _ => .of_internal (judgeCancel_internal h b s)
  | release h b => exact serve_pool e fun _ => .of_internal (judgeRelease_internal h b s)
  | jobStatus h b => exact serve_pool e fun _ => by rw [judgeJobStatus_state]; exact .refl s
  | readReply h b m => exact serve_pool e fun _ => judgeReadReply_pool ..
  | fetchEvent h => exact serve_pool e fun _ => judgeFetchEvent_pool h s
  | subscribe h f => exact serve_pool e fun _ => judgeSubscribe_pool h f s
  | leaseTake h => exact serve_pool e fun _ => judgeLeaseTake_pool ..
  | leaseDrop h => exact serve_pool e fun _ => judgeLeaseDrop_pool ..
  | setSetting h i n v => exact serve_pool e fun _ => judgeSet_pool ..
  | getSetting h i n => exact serve_pool e fun _ => by rw [judgeGet_state]; exact .refl s
  | linkStatus h => exact serve_pool e fun _ => .refl s
  | linkReset h => exact serve_pool e fun _ => .of_effect (judgeLinkReset_effect h s)
  | reverseByte kind b => exact reverseByte_pool e
  | leaseTermExpiry => exact leaseTermExpiry_pool e
  | lrstPulseEnd => exact .of_effect (lrstPulseEnd_effect e)
  | acknowledgement => exact .of_effect (acknowledgement_effect e)
  | acknowledgeTimeout => exact .of_effect (acknowledgeTimeout_effect e)
  | rreqRise | rreqFall | prdyFall | pfltChange => exact .of_effect (levelCommand_effect (by simp) e)
  | prdyRise => exact .of_effect (prdyRise_effect e)
  | revIdleExpiry => exact .of_effect (revIdleExpiry_effect e)
  | stallTimerExpiry => exact .of_effect (stallTimerExpiry_effect e)
  | dryWaitExpiry => exact .of_internal (dryWaitExpiry_internal e)
  | wakeTimerExpiry => exact .of_effect (wakeTimerExpiry_effect e)
  | replyTimerExpiry r => exact .of_internal (replyTimerExpiry_internal e)

/-- Settles O58: every command keeps the pool, and with it the chains; neither reads the queue of waiting commands. -/
theorem stepsKeepThePoolSound : Obligations.StepsKeepThePoolSound := by
  intro s t e pool
  rcases step_cases e with rfl | ⟨c, rest, -, run⟩
  · exact ⟨pool, id⟩
  · have kept := exec_pool run
    exact ⟨kept.pool pool, kept.chains pool⟩

end Sys2Proof.Machine
end

section
/-! SUPPORT. Every step keeps the offers, timers, grants and lines of the link with its state (R72, R76, R93, R94, R99, R140, R143,
R144). -/

namespace Sys2Proof.Machine

variable {s t u : State}

/-! ## What leaves the link alone -/

/-- From `s` to `t` the link's own items and lines are as they were. -/
structure LinkSame (s t : State) : Prop where
  le : t.le = { s.le with
    current := t.le.current, abandon := t.le.abandon, dryTimer := t.le.dryTimer, lastStatus := t.le.lastStatus
    lastFault := t.le.lastFault }
  rgnt : t.pins.rgnt = s.pins.rgnt
  lrst : t.pins.lrst = s.pins.lrst
  ldDriven : t.pins.ldDriven = s.pins.ldDriven
  rst : t.pins.rst = s.pins.rst

namespace LinkSame

theorem refl (s : State) : LinkSame s s := ⟨rfl, rfl, rfl, rfl, rfl⟩

theorem trans (a : LinkSame s t) (b : LinkSame t u) : LinkSame s u :=
  ⟨by rw [b.le, a.le], b.rgnt.trans a.rgnt, b.lrst.trans a.lrst, b.ldDriven.trans a.ldDriven, b.rst.trans a.rst⟩

theorem of_offLink (a : OffLink s t) : LinkSame s t := by
  refine ⟨by rw [a.le], ?_, ?_, ?_, ?_⟩ <;> rw [a.pins]

theorem of_le_pins (le : t.le = s.le) (pins : t.pins = s.pins) : LinkSame s t := by
  refine ⟨by rw [le], ?_, ?_, ?_, ?_⟩ <;> rw [pins]

theorem link (a : LinkSame s t) : t.le.link = s.le.link := by rw [a.le]

theorem linkSound (a : LinkSame s t) (h : linkSound s) : Machine.linkSound t := by
  rw [Machine.linkSound, a.rgnt, a.lrst, a.ldDriven, a.rst, a.le]
  exact h

theorem atBoundary (a : LinkSame s t) (b : AtBoundary s) : AtBoundary t := by
  obtain ⟨latch, ack, rgnt, rev, lrst, wake, pulse, stall, ld, rst⟩ := b
  exact ⟨by rw [a.le]; exact latch, by rw [a.le]; exact ack, a.rgnt.trans rgnt, by rw [a.le]; exact rev, a.lrst.trans lrst,
    by rw [a.le]; exact wake, by rw [a.le]; exact pulse, by rw [a.le]; exact stall, a.ldDriven.trans ld, a.rst.trans rst⟩

end LinkSame

/-! ## Requests -/

/-- A link that is sound stays so through an operation off the link and the order of work after it. -/
theorem onwards_linkSound (a : OffLink s t) (h : linkSound s) : linkSound (onwards t) :=
  boundaryWork_linkSound ((LinkSame.of_offLink a).linkSound h)

/-- A request keeps the link sound where its judgement does, under a released RST: under RST no port listens (R176). -/
theorem serve_linkSound {h : HostId} {body : State → Reply} (e : serve h body s = .next t) (ports : portsSound s)
    (sound : linkSound s) (kept : s.pins.rst = false → linkSound (body s).state) : linkSound t := by
  rcases serve_cases e with ⟨-, rfl⟩ | ⟨-, -, rfl⟩ | ⟨l, -, rfl⟩
  · exact sound
  · exact (LinkSame.of_le_pins rfl rfl).linkSound sound
  · refine (LinkSame.of_le_pins rfl rfl).linkSound (kept ?_)
    by_contra held
    have off : (s.port h).detached = true := (ports h).1.mpr (.inl (by simpa using held))
    exact Bool.false_ne_true ((listening_attached l).symm.trans off)

theorem judgeOpen_linkSame (h : HostId) (c p f : Byte) (s : State) : LinkSame s (judgeOpen h c p f s).state := by
  rcases judgeOpen_cases h c p f s with e | ⟨k, ch, pr, stream, reply, r, -, -, -, e⟩
  · rw [e]; exact .refl s
  · rw [e]
    cases r <;> exact .of_le_pins rfl rfl

theorem judgeAppend_linkSound (h : HostId) (b kind flags : Byte) (bytes : List Byte) (sound : linkSound s) :
    linkSound (judgeAppend h b kind flags bytes s).state := by
  rcases judgeAppend_cases h b kind flags bytes s with e | ⟨need, e⟩ | ⟨k, kd, -, -, -, -, e⟩
  · rw [e]; exact sound
  · rw [e]; exact (LinkSame.of_le_pins rfl rfl).linkSound sound
  · rw [e]
    have joined : linkSound (appendEntries k (appendList kd bytes (breakAfter flags)) s) :=
      (LinkSame.of_le_pins rfl rfl).linkSound sound
    exact onwards_linkSound (appendActed_offLink ..) joined

theorem judgeClose_linkSound (h : HostId) (b : Byte) (sound : linkSound s) : linkSound (judgeClose h b s).state := by
  rcases judgeClose_cases h b s with e | ⟨k, -, -, e⟩
  · rw [e]; exact sound
  · rw [e]; exact onwards_linkSound (closeJob_offLink k s) sound

theorem judgeSetPriority_linkSound (h : HostId) (b p : Byte) (sound : linkSound s) :
    linkSound (judgeSetPriority h b p s).state := by
  rcases judgeSetPriority_cases h b p s with e | ⟨k, q, -, -, e⟩
  · rw [e]; exact sound
  · rw [e]; exact onwards_linkSound (priorityChanged_offLink k q s) sound

theorem judgeCancel_linkSound (h : HostId) (b : Byte) (sound : linkSound s) : linkSound (judgeCancel h b s).state := by
  rcases judgeCancel_cases h b s with e | ⟨k, c, -, -, e⟩
  · rw [e]; exact sound
  · rw [e, acceptCancel_eq]; exact onwards_linkSound (cancelActed_offLink k c s) sound

theorem judgeRelease_linkSame (h : HostId) (b : Byte) (s : State) : LinkSame s (judgeRelease h b s).state := by
  rcases judgeRelease_cases h b s with e | ⟨k, -, ended, e⟩
  · rw [e]; exact .refl s
  · rw [e]; exact .of_offLink (releaseSlot_ended_offLink ended)

theorem judgeReadReply_linkSame (h : HostId) (b m : Byte) (s : State) : LinkSame s (judgeReadReply h b m s).state := by
  rcases judgeReadReply_cases h b m s with e | ⟨r, e⟩ <;> rw [e]
  · exact .refl s
  · exact .of_le_pins rfl rfl

theorem judgeFetchEvent_linkSame (h : HostId) (s : State) : LinkSame s (judgeFetchEvent h s).state := by
  rw [judgeFetchEvent]
  split <;> exact .of_le_pins rfl rfl

theorem judgeSubscribe_linkSame (h : HostId) (f : Byte) (s : State) : LinkSame s (judgeSubscribe h f s).state := by
  rw [judgeSubscribe]
  split <;> exact .of_le_pins rfl rfl

theorem judgeLeaseTake_linkSame (h : HostId) (s : State) : LinkSame s (judgeLeaseTake h s).state := by
  rw [judgeLeaseTake]
  split <;> exact .of_le_pins rfl rfl

theorem handover_linkSame (s : State) : LinkSame s (handover s) := by
  rw [handover_frame]
  exact .of_le_pins rfl rfl

theorem judgeLeaseDrop_linkSame (h : HostId) (s : State) : LinkSame s (judgeLeaseDrop h s).state := by
  rw [judgeLeaseDrop]
  split
  · exact handover_linkSame s
  · split <;> exact .of_le_pins rfl rfl

theorem judgeSet_linkSame (h : HostId) (i n : Byte) (v : BitVec 16) (s : State) : LinkSame s (judgeSet h i n v s).state := by
  rcases judgeSet_cases h i n v s with e | ⟨name, -, -, -, -, e⟩
  · rw [e]; exact .refl s
  · rw [e, applySetting_frame]; exact .of_le_pins rfl rfl

/-! ## Link reset and recovery -/

/-- A link reset clears the link and starts the pulse, RST being released (R140, R143). -/
theorem clearLink_linkSound (released : s.pins.rst = false) : linkSound (clearLink s) := by
  simp [linkSound, clearLink, startPulse, released]

/-- The fates of all jobs at a link reset (R139). -/
theorem fates_offLink (entries : List AbandonEntry) (c : Cause) (s : State) :
    OffLink s (allSlots.foldl (meetFate entries c) s) :=
  .foldl (fun s k => meetFate_offLink entries c s k) allSlots s

theorem clearedAndEvaluated_linkSound (released : s.pins.rst = false) : linkSound (evaluateSpace (clearLink s)) :=
  (LinkSame.of_offLink (evaluateSpace_offLink _)).linkSound (clearLink_linkSound released)

theorem resetLink_linkSound (fault : LastFault) (c : Cause) (released : s.pins.rst = false) :
    linkSound (resetLink fault c s) := by
  rw [resetLink]
  refine clearedAndEvaluated_linkSound ?_
  rw [(fates_offLink _ _ _).pins, (postLinkGroup_offLink _ _).pins]
  exact released

theorem judgeLinkReset_linkSound (h : HostId) (sound : linkSound s) (released : s.pins.rst = false) :
    linkSound (judgeLinkReset h s).state := by
  rw [judgeLinkReset]
  split
  · dsimp only
    exact resetLink_linkSound .resetRequested .linkReset released
  · exact sound

/-- A link that leaves recovery is at a boundary once its wake timer is stopped. -/
theorem enterIdle_linkSound (b : AtBoundary { s with le := { s.le with wakeTimer := none } }) : linkSound (enterIdle s) := by
  have idle : AtBoundary { s with le := { s.le with link := .idle, wakeTimer := none } } :=
    ⟨b.latch, b.ack, b.rgnt, b.rev, b.lrst, rfl, b.pulse, b.stall, b.ld, b.rst⟩
  exact applyOrder_linkSound ((idle.offLink (postLinkGroup_offLink _ _)).offLink (respondEligible_offLink _))

/-- In recovery the link makes no offer and grants no phase. -/
theorem linkSound.quiet (h : linkSound s) (send : s.le.link ≠ .sending) (rev : s.le.link ≠ .reverse) :
    s.le.latch = none ∧ s.le.ackTimer = none ∧ s.pins.rgnt = false ∧ s.le.revIdleTimer = none := by
  obtain ⟨latch, ack, rgnt, revIdle, -⟩ := h
  refine ⟨?_, ?_, ?_, ?_⟩
  · simpa [send] using latch
  · simpa [send] using ack
  · simpa [rev] using rgnt
  · simpa [rev] using revIdle

/-- In any state but RESETTING the reset line is released. -/
theorem linkSound.released (h : linkSound s) (up : s.le.link ≠ .resetting) : s.pins.rst = false := by
  obtain ⟨-, -, -, -, -, -, -, -, -, -, held⟩ := h
  by_contra on
  exact up (held (by simpa using on))

theorem lrstPulseEnd_linkSound (e : execLrstPulseEnd s = .next t) (h : linkSound s) : linkSound t := by
  rcases lrstPulseEnd_cases e with rfl | ⟨running, rfl⟩
  · exact h
  · obtain ⟨latch, ack, rgnt, rev, lrst, wake, pulse, stall, waiting, ld, held⟩ := id h
    obtain ⟨resetting, released⟩ := pulse.mp running
    obtain ⟨latch, ack, rgnt, rev⟩ := h.quiet (by simp [resetting]) (by simp [resetting])
    have driven : s.pins.ldDriven = true := ld.mpr ⟨released, by simp [resetting]⟩
    rw [enterWaking]
    split
    · exact enterIdle_linkSound ⟨latch, ack, rgnt, rev, rfl, rfl, rfl, stall, driven, released⟩
    · simp [linkSound, latch, ack, rgnt, rev, released, driven, stall]

theorem prdyRise_linkSound (e : execPrdyRise s = .next t) (h : linkSound s) : linkSound t := by
  have raised : linkSound { s with pins := { s.pins with prdy := true } } := h
  obtain ⟨-, -, -, -, lrst, wake, pulse, stall, -, ld, -⟩ := id h
  rcases prdyRise_cases e with rfl | ⟨-, ⟨bound, rfl⟩ | ⟨waking, rfl⟩ | ⟨down, rfl⟩ | rfl⟩
  · exact h
  · exact applyOrder_linkSound (raised.atBoundary bound)
  · have released := h.released (by simp [waking])
    obtain ⟨latch, ack, rgnt, rev⟩ := h.quiet (by simp [waking]) (by simp [waking])
    exact enterIdle_linkSound ⟨latch, ack, rgnt, rev, by simpa [waking] using lrst, rfl, by simpa [waking] using pulse, stall,
      ld.mpr ⟨released, by simp [waking]⟩, released⟩
  · have released := h.released (by simp [down])
    obtain ⟨latch, ack, rgnt, rev⟩ := h.quiet (by simp [down]) (by simp [down])
    have asleep : s.le.wakeTimer = none := by simpa [down] using wake
    have driven : s.pins.ldDriven = true := ld.mpr ⟨released, by simp [down]⟩
    simp [linkSound, startPulse, latch, ack, rev, released, driven, stall, asleep]
  · exact raised

theorem wakeTimerExpiry_linkSound (e : execWakeTimerExpiry s = .next t) (h : linkSound s) : linkSound t := by
  rcases wakeTimerExpiry_cases e with rfl | ⟨running, rfl⟩
  · exact h
  · obtain ⟨-, -, -, -, lrst, wake, pulse, stall, -, ld, -⟩ := id h
    have waking := wake.mp running
    have released := h.released (by simp [waking])
    obtain ⟨latch, ack, rgnt, rev⟩ := h.quiet (by simp [waking]) (by simp [waking])
    refine (LinkSame.of_offLink (postLinkGroup_offLink _ _)).linkSound ?_
    have asserted : s.pins.lrst = false := by simpa [waking] using lrst
    have pulseOver : s.le.pulseTimer = none := by simpa [waking] using pulse
    have driven : s.pins.ldDriven = true := ld.mpr ⟨released, by simp [waking]⟩
    simp [linkSound, latch, ack, rgnt, rev, released, driven, stall, asserted, pulseOver]

theorem acknowledgeTimeout_linkSound (e : execAcknowledgeTimeout s = .next t) (h : linkSound s) : linkSound t := by
  rcases acknowledgeTimeout_cases e with rfl | ⟨running, after⟩
  · exact h
  · have sending := h.2.1.mp running
    rw [after]
    exact resetLink_linkSound .ackTimeout .linkFault (h.released (by simp [sending]))

/-! ## Offers and phases -/

/-- A link whose offer has been taken off the latch is at a boundary. -/
theorem linkSound.offerTaken (h : linkSound s) (sending : s.le.link = .sending) : AtBoundary (offerTaken s) := by
  obtain ⟨-, -, rgnt, rev, lrst, wake, pulse, stall, -, ld, -⟩ := id h
  have released := h.released (by simp [sending])
  exact ⟨rfl, rfl, by simpa [sending] using rgnt, by simpa [sending] using rev, by simpa [sending] using lrst,
    by simpa [sending] using wake, by simpa [sending] using pulse, stall, ld.mpr ⟨released, by simp [sending]⟩, released⟩

theorem originAcknowledged_linkSame (o : Origin) (s : State) : LinkSame s (originAcknowledged o s) := by
  cases o with
  | entry x => exact .of_offLink (entryAcknowledged_offLink x s)
  | select c => exact ⟨rfl, rfl, rfl, rfl, rfl⟩
  | abandon => exact .of_offLink (abandonAcknowledged_offLink s)

theorem acknowledgement_linkSound (e : execAcknowledgement s = .next t) (h : linkSound s) : linkSound t := by
  rcases acknowledgement_cases e with ⟨-, rfl⟩ | ⟨o, latched, rfl⟩
  · exact h
  · have sending : s.le.link = .sending := h.1.mp (by rw [latched]; rfl)
    exact applyOrder_linkSound ((originAcknowledged_linkSame o.origin _).atBoundary (h.offerTaken sending))

/-- The end of a phase leaves the link at a boundary. -/
theorem endPhase_atBoundary (h : linkSound s) (phase : s.le.link = .reverse) : AtBoundary (endPhase s) := by
  obtain ⟨latch, ack, -, -, lrst, wake, pulse, stall, -, -, -⟩ := id h
  exact ⟨by simpa [endPhase, phase] using latch, by simpa [endPhase, phase] using ack, rfl, rfl,
    by simpa [endPhase, phase] using lrst, by simpa [endPhase, phase] using wake, by simpa [endPhase, phase] using pulse, stall, rfl,
    h.released (by simp [phase])⟩

theorem revIdleExpiry_linkSound (e : execRevIdleExpiry s = .next t) (h : linkSound s) : linkSound t := by
  rcases revIdleExpiry_cases e with rfl | ⟨running, rfl⟩
  · exact h
  · have phase := h.2.2.2.1.mp running
    exact applyOrder_linkSound ((endPhase_atBoundary h phase).offLink (postLinkGroup_offLink _ _))

theorem stallTimerExpiry_linkSound (e : execStallTimerExpiry s = .next t) (h : linkSound s) : linkSound t := by
  rcases stallTimerExpiry_cases e with rfl | ⟨-, rfl⟩
  · exact h
  · obtain ⟨latch, ack, rgnt, rev, lrst, wake, pulse, -, -, rest⟩ := h
    refine (LinkSame.of_offLink (postLinkGroup_offLink _ _)).linkSound ?_
    exact ⟨latch, ack, rgnt, rev, lrst, wake, pulse, by simp, by simp, rest⟩

/-! ## Reverse bytes -/

theorem orphanNotice_linkSame (s : State) : LinkSame s (orphanNotice s) := by
  rw [orphanNotice]
  split
  · exact .refl s
  · refine (LinkSame.of_offLink (postLinkGroup_offLink
      { kind := .linkProtocol, handle := none, route := s.rr.selection, code := orphanCode } s)).trans ?_
    exact .of_le_pins rfl rfl

theorem breakRepeat_linkSame (s : State) : LinkSame s (breakRepeat s) := by
  rw [breakRepeat_frame]
  exact .of_le_pins rfl rfl

theorem reverseData_linkSame (b : Byte) (s : State) : LinkSame s (reverseData b s) := by
  have used : LinkSame s { s with rr := { s.rr with repeats := none } } := .of_le_pins rfl rfl
  rw [reverseData]
  split
  · exact used.trans (orphanNotice_linkSame _)
  · next r _ =>
    split
    · exact used.trans (orphanNotice_linkSame _)
    · exact used.trans (orphanNotice_linkSame _)
    · exact used
    · obtain ⟨x, -, stored⟩ := storeData_cases r (s.rr.repeats.getD 1) b { s with rr := { s.rr with repeats := none } }
      have written : LinkSame s (State.setRoute { s with rr := { s.rr with repeats := none } } r x) := .of_le_pins rfl rfl
      exact written.trans (.of_offLink stored)

theorem reverseEnd_linkSame (s : State) : LinkSame s (reverseEnd s) := by
  have deselected (u : State) : LinkSame u { u with rr := { u.rr with selection := none } } := .of_le_pins rfl rfl
  rw [reverseEnd]
  refine LinkSame.trans ?_ (deselected _)
  split
  · exact orphanNotice_linkSame s
  · split
    · exact orphanNotice_linkSame s
    · exact orphanNotice_linkSame s
    · exact .refl s
    · exact .of_offLink (completeRoute_offLink _ s)

theorem acknowledgeByte_linkSame (s : State) : LinkSame s (acknowledgeByte s) := ⟨rfl, rfl, rfl, rfl, rfl⟩

theorem reverseControlByte_linkSound (c : ReverseControl) (h : linkSound s) (phase : s.le.link = .reverse) :
    linkSound (reverseControlByte c s) := by
  cases c with
  | repeats n =>
    have set : LinkSame s { s with rr := { s.rr with repeats := some n } } := .of_le_pins rfl rfl
    exact (set.trans (acknowledgeByte_linkSame _)).linkSound h
  | route r =>
    have set : LinkSame s { s with rr := { s.rr with selection := some r } } := .of_le_pins rfl rfl
    exact (set.trans (acknowledgeByte_linkSame _)).linkSound h
  | status n =>
    have set : LinkSame s { s with le := { s.le with lastStatus := some n } } := ⟨rfl, rfl, rfl, rfl, rfl⟩
    exact ((set.trans (.of_offLink (postStatusGroup_offLink _ _))).trans (acknowledgeByte_linkSame _)).linkSound h
  | endReply => exact ((reverseEnd_linkSame s).trans (acknowledgeByte_linkSame _)).linkSound h
  | malformed =>
    exact ((LinkSame.of_offLink (postLinkGroup_offLink _ s)).trans (acknowledgeByte_linkSame _)).linkSound h
  | yieldPhase =>
    exact applyOrder_linkSound (endPhase_atBoundary ((acknowledgeByte_linkSame s).linkSound h) phase)

theorem reverseByte_linkSound {kind : ByteKind} {b : Byte} (e : execReverseByte kind b s = .next t) (h : linkSound s) :
    linkSound t := by
  have arrived (phase : s.le.link = .reverse) : linkSound (byteArrived s) := by
    obtain ⟨latch, ack, rgnt, -, rest⟩ := h
    exact ⟨latch, ack, rgnt, by simp [phase], rest⟩
  rcases reverseByte_cases e with ⟨-, rfl⟩ | ⟨phase, ⟨-, rfl⟩ | ⟨-, rfl⟩⟩
  · exact h
  · exact ((reverseData_linkSame b _).trans (acknowledgeByte_linkSame _)).linkSound (arrived phase)
  · have broken := breakRepeat_linkSame (byteArrived s)
    exact reverseControlByte_linkSound _ (broken.linkSound (arrived phase)) (broken.link.trans phase)

/-! ## Expiries off the link -/

theorem dryWaitExpiry_linkSound (e : execDryWaitExpiry s = .next t) (h : linkSound s) : linkSound t := by
  rcases dryWaitExpiry_cases e with rfl | ⟨a, -, -, ⟨rfl, -⟩ | rfl⟩
  · exact h
  · exact boundaryWork_linkSound ((LinkSame.of_offLink (starved_offLink s a)).linkSound h)
  · exact onwards_linkSound ((starved_offLink s a).trans (leaveLink_offLink _)) h

theorem leaseTermExpiry_linkSame (e : execLeaseTermExpiry s = .next t) : LinkSame s t := by
  rcases leaseTermExpiry_cases e with rfl | ⟨h, -, rfl⟩
  · exact .refl _
  · exact (LinkSame.of_offLink (post_offLink ..)).trans (handover_linkSame _)

/-! ## Levels, ports and resets -/

theorem levelCommand_linkSound {c : Instr} (own : c ∈ [.rreqRise, .rreqFall, .prdyFall, .pfltChange])
    (e : exec c s = .next t) (h : linkSound s) : linkSound t := by
  rcases levelCommand_cases own e with rfl | ⟨rreq, prdy, pflt, rfl⟩
  · exact h
  · have level : LinkSame s { s with pins := { s.pins with rreq := rreq, prdy := prdy, pflt := pflt } } :=
      ⟨rfl, rfl, rfl, rfl, rfl⟩
    exact boundaryWork_linkSound (level.linkSound h)

theorem dropLeaseOf_linkSame (h : HostId) (s : State) : LinkSame s (dropLeaseOf h s) := by
  have off : LinkSame s { s with su := { s.su with waiters := s.su.waiters.filter fun x => decide (x ≠ h) } } :=
    .of_le_pins rfl rfl
  rw [dropLeaseOf]
  split
  · exact off.trans (handover_linkSame _)
  · exact off

theorem portReset_linkSound {h : HostId} (e : execPortReset h s = .next t) (sound : linkSound s) : linkSound t := by
  rw [execPortReset_eq] at e
  split at e <;> obtain rfl := next_inj e
  · exact sound
  · have dropped : linkSound (portDropped s h) := (LinkSame.of_le_pins rfl rfl).linkSound sound
    exact (dropLeaseOf_linkSame h _).linkSound (onwards_linkSound (orphanJobs_offLink h _) dropped)

theorem partReset_linkSound (e : execPartReset s = .next t) : linkSound t := by
  obtain ⟨-, -, -, -, -, -, le, -, -, pins⟩ := execPartReset_rest e
  rw [linkSound, le, pins]
  simp [resetLinkEngine, resetPins]

theorem rstRelease_linkSound (e : execRstRelease s = .next t) (h : linkSound s) : linkSound t := by
  rw [execRstRelease] at e
  split at e <;> obtain rfl := next_inj e
  · next on =>
    obtain ⟨latch, ack, rgnt, rev, lrst, wake, -, stall, waiting, -, held⟩ := h
    have resetting := held on
    exact ⟨latch, ack, rgnt, rev, lrst, wake, by simp [resetting], stall, waiting, by simp [resetting], by simp⟩
  · exact h

theorem poolInitEnd_linkSame (e : execPoolInitEnd s = .next t) : LinkSame s t := by
  rw [execPoolInitEnd] at e
  split at e <;> obtain rfl := next_inj e
  · exact .of_le_pins rfl rfl
  · exact .refl _

theorem linkSound_of_port {h : HostId} (e : ∃ p, t = s.setPort h p) (sound : linkSound s) : linkSound t := by
  obtain ⟨p, rfl⟩ := e
  exact (LinkSame.of_le_pins rfl rfl).linkSound sound

theorem exec_linkSound {c : Instr} (e : exec c s = .next t) (ports : portsSound s) (sound : linkSound s) : linkSound t := by
  cases c with
  | partReset => exact partReset_linkSound e
  | rstRelease => exact rstRelease_linkSound e sound
  | poolInitEnd => exact (poolInitEnd_linkSame e).linkSound sound
  | portReset h => exact portReset_linkSound e sound
  | hkrstRelease h | chipSelectAssert h | chipSelectRelease h | answerSent h | ident h | last h =>
    exact linkSound_of_port (portCommand_frame (h := h) (frame := []) (by simp) e) sound
  | framingFault h frame => exact linkSound_of_port (portCommand_frame (h := h) (frame := frame) (by simp) e) sound
  | openJob h c p f => exact serve_linkSound e ports sound fun _ => (judgeOpen_linkSame h c p f s).linkSound sound
  | append h b k f bs => exact serve_linkSound e ports sound fun _ => judgeAppend_linkSound h b k f bs sound
  | close h b => exact serve_linkSound e ports sound fun _ => judgeClose_linkSound h b sound
  | setPriority h b p => exact serve_linkSound e ports sound fun _ => judgeSetPriority_linkSound h b p sound
  | cancel h b => exact serve_linkSound e ports sound fun _ => judgeCancel_linkSound h b sound
  | release h b => exact serve_linkSound e ports sound fun _ => (judgeRelease_linkSame h b s).linkSound sound
  | jobStatus h b => exact serve_linkSound e ports sound fun _ => by rw [judgeJobStatus_state]; exact sound
  | readReply h b m => exact serve_linkSound e ports sound fun _ => (judgeReadReply_linkSame h b m s).linkSound sound
  | fetchEvent h => exact serve_linkSound e ports sound fun _ => (judgeFetchEvent_linkSame h s).linkSound sound
  | subscribe h f => exact serve_linkSound e ports sound fun _ => (judgeSubscribe_linkSame h f s).linkSound sound
  | leaseTake h => exact serve_linkSound e ports sound fun _ => (judgeLeaseTake_linkSame h s).linkSound sound
  | leaseDrop h => exact serve_linkSound e ports sound fun _ => (judgeLeaseDrop_linkSame h s).linkSound sound
  | setSetting h i n v => exact serve_linkSound e ports sound fun _ => (judgeSet_linkSame h i n v s).linkSound sound
  | getSetting h i n => exact serve_linkSound e ports sound fun _ => by rw [judgeGet_state]; exact sound
  | linkStatus h => exact serve_linkSound e ports sound fun _ => sound
  | linkReset h => exact serve_linkSound e ports sound (judgeLinkReset_linkSound h sound)
  | reverseByte kind b => exact reverseByte_linkSound e sound
  | leaseTermExpiry => exact (leaseTermExpiry_linkSame e).linkSound sound
  | lrstPulseEnd => exact lrstPulseEnd_linkSound e sound
  | acknowledgement => exact acknowledgement_linkSound e sound
  | acknowledgeTimeout => exact acknowledgeTimeout_linkSound e sound
  | rreqRise | rreqFall | prdyFall | pfltChange => exact levelCommand_linkSound (by simp) e sound
  | prdyRise => exact prdyRise_linkSound e sound
  | revIdleExpiry => exact revIdleExpiry_linkSound e sound
  | stallTimerExpiry => exact stallTimerExpiry_linkSound e sound
  | dryWaitExpiry => exact dryWaitExpiry_linkSound e sound
  | wakeTimerExpiry => exact wakeTimerExpiry_linkSound e sound
  | replyTimerExpiry r => exact (LinkSame.of_offLink (replyTimerExpiry_offLink e)).linkSound sound

/-- Settles O57: every command keeps the link sound. Sound ports enter at a request, which no port takes under RST. -/
theorem stepsKeepTheLinkSound : Obligations.StepsKeepTheLinkSound := by
  intro s t e ports sound
  rcases step_cases e with rfl | ⟨c, rest, -, run⟩
  · exact sound
  · exact exec_linkSound run ports sound

end Sys2Proof.Machine
end

section
/-! SUPPORT. Totality of the commands, the frame of each over ports, lease, settings and last fault, and who may change what (R138,
R141, R148, R156 to R162, R175, R178). -/

namespace Sys2Proof.Machine

variable {s t u : State}

/-! ## The step and the reset state -/

/-- Settles O1: the step is the front command, and idles on an empty queue. -/
theorem stepRunsTheFrontCommand : Obligations.StepRunsTheFrontCommand := by
  intro s
  refine ⟨fun c rest queue => ?_, fun queue => ?_⟩ <;> rw [step, queue]

/-- The claims of a Dispatch Unit after part reset are all free. -/
theorem claim_of_reset (e : t.du = resetDispatchUnit) (c : ChannelId) : t.claim c = none := by
  rw [State.claim, e]
  exact replicate_get ..

theorem owned_of_reset (e : t.jm = resetJobManager) (h : HostId) : t.owned h = 0 := by
  rw [State.owned, e]
  exact replicate_get ..

theorem gen_of_reset (e : t.jm = resetJobManager) (k : SlotId) : t.gen k = 0 := by
  rw [State.gen, e]
  exact replicate_get ..

/-- A part whose job table, Dispatch Unit, link and routes are those of part reset has its tables in agreement. -/
theorem tablesSound_of_reset (jm : t.jm = resetJobManager) (du : t.du = resetDispatchUnit) (le : t.le = resetLinkEngine)
    (rr : t.rr = resetReplyRouter) : tablesSound t := by
  have job := job_of_reset jm
  have owned := owned_of_reset jm
  have claim := claim_of_reset du
  have route := route_of_reset rr
  refine ⟨⟨fun h => ?_, fun k => ?_⟩, fun c k => ?_, ⟨?_, fun k => ?_, ?_⟩, ?_, ?_, ⟨?_, ?_, ?_, fun k => ?_⟩,
    ⟨fun r => ?_, fun r x => ?_, fun k r => ?_, fun r => ?_⟩⟩
  · simp [owned, job, freeJob]
  · simp [job, freeJob]
  · simp [claim, job, freeJob]
  · simp [du, resetDispatchUnit]
  · simp [du, resetDispatchUnit, job, freeJob]
  · simp [du, resetDispatchUnit]
  · simp [stackAndActiveSound, du, resetDispatchUnit, job, freeJob]
  · simp [nobodyLeftWaiting, du, resetDispatchUnit]
  · simp [le, resetLinkEngine]
  · simp [le, resetLinkEngine]
  · simp [le, resetLinkEngine]
  · simp [job, freeJob]
  · simp [route, freeRoute]
  · simp [route, freeRoute]
  · simp [job, freeJob]
  · simp [route, freeRoute]

theorem settingsSound_of_reset (e : t.su = resetSettingsUnit) : settingsSound t := by
  intro n
  rw [e]
  cases n <;> simp [resetSettingsUnit, defaultSettings, settingValue, settingInRange]

/-- Settles O55: block by block, as each block's part-reset state is given. -/
theorem resetStateIsSound : Obligations.ResetStateIsSound := by
  refine ⟨unitsSound_of_reset rfl, portsSound_of_reset (cs := fun _ => false) (hrst := fun _ => false)
    (fun h => replicate_get ..) rfl rfl, leaseSound_of_reset rfl, buffersSound_of_reset rfl, ?_, ?_, ?_, ?_, ?_,
    settingsSound_of_reset rfl, tablesSound_of_reset rfl rfl rfl rfl⟩
  · simp [linkSound, State.reset, resetLinkEngine, resetPins]
  · exact poolSound_of_reset rfl rfl rfl
  · exact chainsSound_of_reset rfl
  · exact fun h => (owned_of_reset rfl h).le.trans (Nat.zero_le _)
  · simp [stackSound, State.reset, resetDispatchUnit]

/-! ## Resets and start-up -/

/-- Settles O4: the part-reset state, block by block and field by field. -/
theorem partResetSetsEveryBlock : Obligations.PartResetSetsEveryBlock := by
  intro s
  have run : ∃ t, exec .partReset s = .next t := ⟨_, rfl⟩
  obtain ⟨t, run⟩ := run
  have port := execPartReset_port run
  obtain ⟨eus, su, rr, jm, sp, du, le, pending, draws, pins⟩ := execPartReset_rest run
  have job := job_of_reset jm
  have used (h : HostId) : t.used h = 0 := by
    rw [State.used, sp]
    exact replicate_get ..
  have mark (h : HostId) : t.mark h = none := by
    rw [State.mark, sp]
    exact replicate_get ..
  refine ⟨t, run, pending, draws, port, eu_of_reset eus, fun k => ⟨by rw [job]; rfl, gen_of_reset jm k⟩, owned_of_reset jm,
    by rw [sp]; rfl, by rw [sp]; rfl, fun h => ⟨used h, mark h⟩, by rw [du]; rfl, by rw [du]; rfl, claim_of_reset du,
    by rw [du]; rfl, by rw [du]; rfl, by rw [du]; rfl, le, route_of_reset rr, by rw [rr]; rfl, by rw [rr]; rfl, by rw [rr]; rfl,
    su, ?_⟩
  rw [pins]
  exact ⟨rfl, rfl, rfl, rfl, rfl, rfl, rfl, rfl, rfl, rfl, rfl⟩

/-- Settles O5: with RST asserted each port is attached as `attachPort` gives, and the rest is the command's own update. -/
theorem rstReleaseStartsThePart : Obligations.RstReleaseStartsThePart := by
  intro s
  refine ⟨fun held => ?_, fun released => if_neg (by simp [released])⟩
  have run : exec .rstRelease s = execRstRelease s := rfl
  rw [run, execRstRelease, if_pos held]
  exact ⟨_, rfl, fun h => map_get .., rfl⟩

/-- With the default reserves and nothing in use, a host may take its own reserve and all that is shared (R29). -/
theorem allowance_default (reserve : s.su.settings.reserve = #v[32, 32, 32, 32]) (unused : s.sp.used = Vector.replicate 4 0)
    (h : HostId) : allowance s h = 288 := by
  have own : (#v[32, 32, 32, 32] : Vector Nat 4)[h] = 32 := by
    match h with
    | 0 | 1 | 2 | 3 => rfl
  rw [allowance, unusedReserve, sharedFree, State.used, unused, sharedUsed_unused, reserve, own, replicate_get]
  simp [sharedCapacity, Config.poolSegments, reserveSum, sumHosts_eq]

/-- Settles O6: at the end of its period the pool takes its READY state, and with no period running nothing happens. -/
theorem poolInitEndMakesThePoolReady : Obligations.PoolInitEndMakesThePoolReady := by
  intro s
  have run : exec .poolInitEnd s = execPoolInitEnd s := rfl
  rw [run, execPoolInitEnd]
  refine ⟨fun running => ?_, fun idle => if_neg (by simp [idle])⟩
  rw [if_pos (Option.isSome_iff_ne_none.mpr running)]
  refine ⟨_, rfl, rfl, rfl, rfl, ?_, ?_, fun h => ⟨replicate_get .., replicate_get ..⟩,
    fun reserve => allowance_default reserve rfl⟩
  · dsimp only
    exact allSegments_nodup
  · dsimp only
    rw [allSegments, List.length_finRange]

/-! ## What the order of work can do -/

/-- One move of the link at a boundary (R78): a grant, a hold, going idle, or an offer. -/
inductive LinkMove (u : State) : State → Prop where
  | grants : LinkMove u (grantReverse u)
  | holds : LinkMove u (holdOff u)
  | idles : LinkMove u (goIdle u)
  | offers (o : Offer) : LinkMove u (makeOffer o u)

/-- The order of work takes BREAK entries one after another and then makes one move, ahead of which it takes the entry it offers:
what these two keep holds of the state the move is made in (R77, R78). -/
theorem orderOfWork_moves {P : State → Prop}
    (brk : ∀ u a, P u → activeHead u = some (a, .brk) → P (takeBreak a u))
    (entry : ∀ u a kind b, P u → activeHead u = some (a, entryOf kind b) → P (beginJob a (takeHead a u)))
    (n : Nat) (start : P s) : ∃ u, P u ∧ LinkMove u (orderOfWork n s) := by
  have forward : ∀ s, P s → ∃ u, P u ∧ LinkMove u (sendForward s) := by
    intro s start
    rw [sendForward]
    split
    · split <;> exact ⟨s, start, .offers _⟩
    · split
      · next a b head =>
        split
        · exact ⟨_, entry s a .data b start head, .offers _⟩
        · exact ⟨s, start, .offers _⟩
      · next a b head =>
        split
        · exact ⟨_, entry s a .control b start head, .offers _⟩
        · exact ⟨s, start, .offers _⟩
      · exact ⟨s, start, .idles⟩
      · exact ⟨s, start, .idles⟩
  induction n generalizing s with
  | zero => exact ⟨s, start, .idles⟩
  | succ n ih =>
    rw [orderOfWork]
    split
    · exact ⟨s, start, .grants⟩
    · split
      · next a head => exact ih (brk s a start head)
      all_goals
        split
        · split
          · exact ⟨s, start, .holds⟩
          · exact forward s start
        · exact ⟨s, start, .idles⟩

/-- What only the order of work changes is as one of its moves leaves it, and the rest is kept. -/
theorem boundaryWork_moves {P : State → Prop}
    (brk : ∀ u a, P u → activeHead u = some (a, .brk) → P (takeBreak a u))
    (entry : ∀ u a kind b, P u → activeHead u = some (a, entryOf kind b) → P (beginJob a (takeHead a u)))
    (start : P s) : boundaryWork s = s ∨ ∃ u, P u ∧ LinkMove u (boundaryWork s) := by
  rw [boundaryWork]
  split
  · exact .inr (orderOfWork_moves brk entry _ start)
  · exact .inr (orderOfWork_moves brk entry _ start)
  all_goals exact .inl rfl

/-! ## The last fault -/

theorem OffLink.lastFault (a : OffLink s t) : t.le.lastFault = s.le.lastFault := by rw [a.le]

theorem LinkMove.lastFault (m : LinkMove s t) : t.le.lastFault = s.le.lastFault := by
  cases m with
  | grants => rfl
  | holds => rw [holdOff]; split <;> rfl
  | idles => rw [goIdle_frame]
  | offers o => rw [(makeOffer_link o s).1]

theorem applyOrder_lastFault (s : State) : (applyOrder s).le.lastFault = s.le.lastFault := by
  obtain ⟨u, same, move⟩ := orderOfWork_moves (P := fun u => u.le.lastFault = s.le.lastFault)
    (fun u a h _ => (takeBreak_offLink a u).lastFault.trans h)
    (fun u a _ _ h _ => (offerEntry_offLink a u).lastFault.trans h) (poolEntries s + 1) rfl
  exact move.lastFault.trans same

theorem boundaryWork_lastFault (s : State) : (boundaryWork s).le.lastFault = s.le.lastFault := by
  rw [boundaryWork]
  split
  · exact applyOrder_lastFault s
  · exact applyOrder_lastFault s
  all_goals rfl

theorem onwards_lastFault (a : OffLink s t) : (onwards t).le.lastFault = s.le.lastFault :=
  (boundaryWork_lastFault t).trans a.lastFault

theorem enterIdle_lastFault (s : State) : (enterIdle s).le.lastFault = s.le.lastFault :=
  (applyOrder_lastFault _).trans (((postLinkGroup_offLink _ _).trans (respondEligible_offLink _)).lastFault)

theorem postLinkGroup_lastFault (e : Event) (s : State) : (postLinkGroup e s).le.lastFault = s.le.lastFault :=
  (postLinkGroup_offLink e s).lastFault

theorem orphanNotice_lastFault (s : State) : (orphanNotice s).le.lastFault = s.le.lastFault := by
  rw [orphanNotice]
  split
  · rfl
  · dsimp only
    rw [postLinkGroup_lastFault]

theorem acknowledgeByte_lastFault (s : State) : (acknowledgeByte s).le.lastFault = s.le.lastFault := rfl

theorem breakRepeat_lastFault (s : State) : (breakRepeat s).le.lastFault = s.le.lastFault := by rw [breakRepeat_frame]

theorem reverseData_lastFault (b : Byte) (s : State) : (reverseData b s).le.lastFault = s.le.lastFault := by
  rw [reverseData]
  split
  · exact orphanNotice_lastFault _
  · next r _ =>
    split
    · exact orphanNotice_lastFault _
    · exact orphanNotice_lastFault _
    · rfl
    · obtain ⟨x, -, stored⟩ := storeData_cases r (s.rr.repeats.getD 1) b { s with rr := { s.rr with repeats := none } }
      exact stored.lastFault

theorem reverseEnd_lastFault (s : State) : (reverseEnd s).le.lastFault = s.le.lastFault := by
  rw [reverseEnd]
  dsimp only
  split
  · exact orphanNotice_lastFault s
  · split
    · exact orphanNotice_lastFault s
    · exact orphanNotice_lastFault s
    · rfl
    · exact (completeRoute_offLink _ s).lastFault

theorem reverseControlByte_lastFault (c : ReverseControl) (s : State) :
    (reverseControlByte c s).le.lastFault = s.le.lastFault := by
  cases c with
  | repeats n => rfl
  | route r => rfl
  | status n => rw [reverseControlByte, acknowledgeByte_lastFault, (postStatusGroup_offLink _ _).lastFault]
  | endReply => exact reverseEnd_lastFault s
  | malformed => rw [reverseControlByte, acknowledgeByte_lastFault, postLinkGroup_lastFault]
  | yieldPhase => exact applyOrder_lastFault _

theorem serve_lastFault {h : HostId} {body : State → Reply} (e : serve h body s = .next t)
    (same : (body s).state.le.lastFault = s.le.lastFault) : t.le.lastFault = s.le.lastFault := by
  rcases serve_cases e with ⟨-, rfl⟩ | ⟨-, -, rfl⟩ | ⟨-, -, rfl⟩
  · rfl
  · rfl
  · exact same

theorem judgeAppend_lastFault (h : HostId) (b kind flags : Byte) (bytes : List Byte) (s : State) :
    (judgeAppend h b kind flags bytes s).state.le.lastFault = s.le.lastFault := by
  rcases judgeAppend_cases h b kind flags bytes s with e | ⟨need, e⟩ | ⟨k, kd, -, -, -, -, e⟩
  · rw [e]
  · rw [e]; rfl
  · rw [e]; exact (boundaryWork_lastFault _).trans (appendActed_offLink ..).lastFault

theorem judgeClose_lastFault (h : HostId) (b : Byte) (s : State) :
    (judgeClose h b s).state.le.lastFault = s.le.lastFault := by
  rcases judgeClose_cases h b s with e | ⟨k, -, -, e⟩ <;> rw [e]
  exact onwards_lastFault (closeJob_offLink k s)

theorem judgeSetPriority_lastFault (h : HostId) (b p : Byte) (s : State) :
    (judgeSetPriority h b p s).state.le.lastFault = s.le.lastFault := by
  rcases judgeSetPriority_cases h b p s with e | ⟨k, q, -, -, e⟩ <;> rw [e]
  exact onwards_lastFault (priorityChanged_offLink k q s)

theorem judgeCancel_lastFault (h : HostId) (b : Byte) (s : State) :
    (judgeCancel h b s).state.le.lastFault = s.le.lastFault := by
  rcases judgeCancel_cases h b s with e | ⟨k, c, -, -, e⟩ <;> rw [e]
  rw [acceptCancel_eq]
  exact onwards_lastFault (cancelActed_offLink k c s)

theorem judgeRelease_lastFault (h : HostId) (b : Byte) (s : State) :
    (judgeRelease h b s).state.le.lastFault = s.le.lastFault := by
  rcases judgeRelease_cases h b s with e | ⟨k, -, ended, e⟩ <;> rw [e]
  exact (releaseSlot_ended_offLink ended).lastFault

theorem judgeOpen_le (h : HostId) (c p f : Byte) (s : State) : (judgeOpen h c p f s).state.le = s.le := by
  rcases judgeOpen_cases h c p f s with e | ⟨k, ch, pr, stream, reply, r, -, -, -, e⟩ <;> rw [e]
  cases r <;> rfl

theorem judgeReadReply_le (h : HostId) (b m : Byte) (s : State) : (judgeReadReply h b m s).state.le = s.le := by
  rcases judgeReadReply_cases h b m s with e | ⟨r, e⟩ <;> rw [e]
  rfl

theorem judgeFetchEvent_le (h : HostId) (s : State) : (judgeFetchEvent h s).state.le = s.le := by
  rw [judgeFetchEvent]
  split <;> rfl

theorem judgeSubscribe_le (h : HostId) (f : Byte) (s : State) : (judgeSubscribe h f s).state.le = s.le := by
  rw [judgeSubscribe]
  split <;> rfl

theorem judgeLeaseTake_le (h : HostId) (s : State) : (judgeLeaseTake h s).state.le = s.le := by
  rw [judgeLeaseTake]
  split <;> rfl

theorem judgeLeaseDrop_le (h : HostId) (s : State) : (judgeLeaseDrop h s).state.le = s.le := by
  rw [judgeLeaseDrop]
  split
  · rw [handover_frame]
  · split <;> rfl

theorem judgeSet_le (h : HostId) (i n : Byte) (v : BitVec 16) (s : State) : (judgeSet h i n v s).state.le = s.le := by
  rcases judgeSet_cases h i n v s with e | ⟨name, -, -, -, -, e⟩ <;> rw [e]
  rw [applySetting_frame]

theorem dropLeaseOf_le (h : HostId) (s : State) : (dropLeaseOf h s).le = s.le := by
  rw [dropLeaseOf]
  split
  · rw [handover_frame]
  · rfl

theorem portReset_lastFault {h : HostId} (e : execPortReset h s = .next t) : t.le.lastFault = s.le.lastFault := by
  rw [execPortReset_eq] at e
  split at e <;> obtain rfl := next_inj e
  · rfl
  · rw [dropLeaseOf_le]
    exact (boundaryWork_lastFault _).trans (orphanJobs_offLink h (portDropped s h)).lastFault

theorem rstRelease_lastFault (e : execRstRelease s = .next t) : t.le.lastFault = s.le.lastFault := by
  rw [execRstRelease] at e
  split at e <;> obtain rfl := next_inj e <;> rfl

theorem poolInitEnd_lastFault (e : execPoolInitEnd s = .next t) : t.le.lastFault = s.le.lastFault := by
  rw [execPoolInitEnd] at e
  split at e <;> obtain rfl := next_inj e <;> rfl

theorem lrstPulseEnd_lastFault (e : execLrstPulseEnd s = .next t) : t.le.lastFault = s.le.lastFault := by
  rcases lrstPulseEnd_cases e with rfl | ⟨-, rfl⟩
  · rfl
  · rw [enterWaking]
    split
    · exact enterIdle_lastFault _
    · rfl

theorem prdyRise_lastFault (e : execPrdyRise s = .next t) : t.le.lastFault = s.le.lastFault := by
  rcases prdyRise_cases e with rfl | ⟨-, ⟨-, rfl⟩ | ⟨-, rfl⟩ | ⟨-, rfl⟩ | rfl⟩
  · rfl
  · exact applyOrder_lastFault _
  · exact enterIdle_lastFault _
  · rfl
  · rfl

theorem originAcknowledged_lastFault (o : Origin) (s : State) :
    (originAcknowledged o s).le.lastFault = s.le.lastFault := by
  cases o with
  | entry x => exact (entryAcknowledged_offLink x s).lastFault
  | select c => rfl
  | abandon => exact (abandonAcknowledged_offLink s).lastFault

theorem acknowledgement_lastFault (e : execAcknowledgement s = .next t) : t.le.lastFault = s.le.lastFault := by
  rcases acknowledgement_cases e with ⟨-, rfl⟩ | ⟨o, -, rfl⟩
  · rfl
  · exact (applyOrder_lastFault _).trans (originAcknowledged_lastFault o.origin _)

theorem reverseByte_lastFault {kind : ByteKind} {b : Byte} (e : execReverseByte kind b s = .next t) :
    t.le.lastFault = s.le.lastFault := by
  rcases reverseByte_cases e with ⟨-, rfl⟩ | ⟨-, ⟨-, rfl⟩ | ⟨-, rfl⟩⟩
  · rfl
  · exact reverseData_lastFault b _
  · exact (reverseControlByte_lastFault _ _).trans (breakRepeat_lastFault _)

theorem dryWaitExpiry_lastFault (e : execDryWaitExpiry s = .next t) : t.le.lastFault = s.le.lastFault := by
  rcases dryWaitExpiry_cases e with rfl | ⟨a, -, -, ⟨rfl, -⟩ | rfl⟩
  · rfl
  · exact (boundaryWork_lastFault _).trans (starved_offLink s a).lastFault
  · exact onwards_lastFault ((starved_offLink s a).trans (leaveLink_offLink _))

/-- The last fault changes only where a link reset is brought about, and at part reset (R76, R138, R141, R178). -/
theorem exec_lastFault {c : Instr} (e : exec c s = .next t) :
    t.le.lastFault = s.le.lastFault ∨ c = .partReset ∨ (∃ h, c = .linkReset h ∧ s.su.holder = some h) ∨
      c = .acknowledgeTimeout := by
  cases c with
  | partReset => exact .inr (.inl rfl)
  | acknowledgeTimeout => exact .inr (.inr (.inr rfl))
  | linkReset h =>
    by_cases mine : s.su.holder = some h
    · exact .inr (.inr (.inl ⟨h, rfl, mine⟩))
    · refine .inl (serve_lastFault e ?_)
      rw [judgeLinkReset, if_neg mine]
      rfl
  | rstRelease => exact .inl (rstRelease_lastFault e)
  | poolInitEnd => exact .inl (poolInitEnd_lastFault e)
  | lrstPulseEnd => exact .inl (lrstPulseEnd_lastFault e)
  | portReset h => exact .inl (portReset_lastFault e)
  | hkrstRelease h | chipSelectAssert h | chipSelectRelease h | answerSent h | ident h | last h =>
    obtain ⟨p, rfl⟩ := portCommand_frame (h := h) (frame := []) (by simp) e
    exact .inl rfl
  | framingFault h frame =>
    obtain ⟨p, rfl⟩ := portCommand_frame (h := h) (frame := frame) (by simp) e
    exact .inl rfl
  | openJob h c p f => exact .inl (serve_lastFault e (by rw [judgeOpen_le]))
  | append h b k f bs => exact .inl (serve_lastFault e (judgeAppend_lastFault ..))
  | close h b => exact .inl (serve_lastFault e (judgeClose_lastFault ..))
  | setPriority h b p => exact .inl (serve_lastFault e (judgeSetPriority_lastFault ..))
  | cancel h b => exact .inl (serve_lastFault e (judgeCancel_lastFault ..))
  | release h b => exact .inl (serve_lastFault e (judgeRelease_lastFault ..))
  | jobStatus h b => exact .inl (serve_lastFault e (by rw [judgeJobStatus_state]))
  | readReply h b m => exact .inl (serve_lastFault e (by rw [judgeReadReply_le]))
  | fetchEvent h => exact .inl (serve_lastFault e (by rw [judgeFetchEvent_le]))
  | subscribe h f => exact .inl (serve_lastFault e (by rw [judgeSubscribe_le]))
  | leaseTake h => exact .inl (serve_lastFault e (by rw [judgeLeaseTake_le]))
  | leaseDrop h => exact .inl (serve_lastFault e (by rw [judgeLeaseDrop_le]))
  | setSetting h i n v => exact .inl (serve_lastFault e (by rw [judgeSet_le]))
  | getSetting h i n => exact .inl (serve_lastFault e (by rw [judgeGet_state]))
  | linkStatus h => exact .inl (serve_lastFault e rfl)
  | acknowledgement => exact .inl (acknowledgement_lastFault e)
  | rreqRise | rreqFall | prdyFall | pfltChange =>
    rcases levelCommand_cases (by simp) e with rfl | ⟨rreq, prdy, pflt, rfl⟩
    · exact .inl rfl
    · exact .inl (boundaryWork_lastFault _)
  | prdyRise => exact .inl (prdyRise_lastFault e)
  | reverseByte kind b => exact .inl (reverseByte_lastFault e)
  | revIdleExpiry =>
    rcases revIdleExpiry_cases e with rfl | ⟨-, rfl⟩
    · exact .inl rfl
    · exact .inl ((applyOrder_lastFault _).trans (postLinkGroup_lastFault ..))
  | stallTimerExpiry =>
    rcases stallTimerExpiry_cases e with rfl | ⟨-, rfl⟩
    · exact .inl rfl
    · exact .inl (postLinkGroup_lastFault ..)
  | dryWaitExpiry => exact .inl (dryWaitExpiry_lastFault e)
  | wakeTimerExpiry =>
    rcases wakeTimerExpiry_cases e with rfl | ⟨-, rfl⟩
    · exact .inl rfl
    · exact .inl (postLinkGroup_lastFault ..)
  | replyTimerExpiry r => exact .inl (replyTimerExpiry_offLink e).lastFault
  | leaseTermExpiry =>
    rcases leaseTermExpiry_cases e with rfl | ⟨h, -, rfl⟩
    · exact .inl rfl
    · exact .inl (by rw [handover_frame]; rfl)

/-! ## Ports -/

theorem setPort_other {h z : HostId} (p : Port) (s : State) (other : z ≠ h) : (s.setPort h p).port z = s.port z :=
  State.setPort_port_ne _ _ _ _ (Ne.symm other)

/-- A request served changes its own port alone, where its judgement changes none. -/
theorem serve_port {h z : HostId} {body : State → Reply} (e : serve h body s = .next t)
    (ports : (body s).state.ports = s.ports) (other : z ≠ h) : t.port z = s.port z := by
  rcases serve_cases e with ⟨-, rfl⟩ | ⟨-, -, rfl⟩ | ⟨-, -, rfl⟩
  · rfl
  · exact setPort_other _ _ other
  · have port : (body s).state.port z = s.port z := by rw [State.port, ports]; rfl
    exact (setPort_other _ _ other).trans port

theorem dropLeaseOf_ports (h : HostId) (s : State) : (dropLeaseOf h s).ports = s.ports := by
  rw [dropLeaseOf]
  split
  · rw [handover_frame]
  · rfl

theorem portReset_ports {h : HostId} (low : (s.port h).hrst = false) (e : execPortReset h s = .next t) :
    t.ports = (portDropped s h).ports := by
  rw [execPortReset_eq, if_neg (by simp [low])] at e
  obtain rfl := next_inj e
  rw [dropLeaseOf_ports, (boundaryWork_internal _).ports, (orphanJobs_internal _ _).ports]

theorem reverseByte_ports {kind : ByteKind} {b : Byte} (e : execReverseByte kind b s = .next t) : t.ports = s.ports := by
  rcases reverseByte_effect e with a | ⟨v, r, x, before, -, after⟩
  · exact a.ports
  · exact after.ports.trans before.ports

/-- Only a port's own pins and requests, and the two part-wide resets, change the port (R164, R175, R177, R178). -/
theorem exec_port {c : Instr} (e : exec c s = .next t) (z : HostId) :
    t.port z = s.port z ∨ c = .partReset ∨ c = .rstRelease ∨ commandPort c = some z := by
  have at_port {h : HostId} (same : z ≠ h → t.port z = s.port z) : t.port z = s.port z ∨ some h = some z := by
    by_cases own : z = h
    · exact .inr (by rw [own])
    · exact .inl (same own)
  have request {h : HostId} {body : State → Reply} (run : serve h body s = .next t)
      (ports : (body s).state.ports = s.ports) : t.port z = s.port z ∨ some h = some z :=
    at_port fun other => serve_port run ports other
  have of_ports (ports : t.ports = s.ports) : t.port z = s.port z := by rw [State.port, ports]; rfl
  have own (same : t.port z = s.port z ∨ commandPort c = some z) :
      t.port z = s.port z ∨ c = .partReset ∨ c = .rstRelease ∨ commandPort c = some z :=
    same.imp id fun e => .inr (.inr e)
  cases c with
  | partReset => exact .inr (.inl rfl)
  | rstRelease => exact .inr (.inr (.inl rfl))
  | poolInitEnd =>
    change execPoolInitEnd s = _ at e
    rw [execPoolInitEnd] at e
    split at e <;> obtain rfl := next_inj e <;> exact .inl rfl
  | portReset h =>
    refine own (at_port fun other => ?_)
    by_cases low : (s.port h).hrst = false
    · rw [State.port, portReset_ports low e]
      exact setPort_other _ _ other
    · change execPortReset h s = _ at e
      rw [execPortReset_eq, if_pos (by simpa using low)] at e
      rw [next_inj e]
  | hkrstRelease h | chipSelectAssert h | chipSelectRelease h | answerSent h | ident h | last h =>
    obtain ⟨p, rfl⟩ := portCommand_frame (h := h) (frame := []) (by simp) e
    exact own (at_port (setPort_other p s))
  | framingFault h frame =>
    obtain ⟨p, rfl⟩ := portCommand_frame (h := h) (frame := frame) (by simp) e
    exact own (at_port (setPort_other p s))
  | openJob h c p f => exact own (request e (judgeOpen_ports ..))
  | append h b k f bs => exact own (request e (judgeAppend_ports ..))
  | close h b => exact own (request e (judgeClose_internal h b s).ports)
  | setPriority h b p => exact own (request e (judgeSetPriority_internal h b p s).ports)
  | cancel h b => exact own (request e (judgeCancel_internal h b s).ports)
  | release h b => exact own (request e (judgeRelease_internal h b s).ports)
  | jobStatus h b => exact own (request e (by rw [judgeJobStatus_state]))
  | readReply h b m => exact own (request e (judgeReadReply_ports ..))
  | fetchEvent h => exact own (request e (judgeFetchEvent_ports ..))
  | subscribe h f => exact own (request e (judgeSubscribe_ports ..))
  | leaseTake h => exact own (request e (judgeLeaseTake_ports ..))
  | leaseDrop h => exact own (request e (judgeLeaseDrop_ports ..))
  | setSetting h i n v => exact own (request e (judgeSet_ports ..))
  | getSetting h i n => exact own (request e (by rw [judgeGet_state]))
  | linkStatus h => exact own (request e rfl)
  | linkReset h => exact own (request e (judgeLinkReset_effect h s).ports)
  | reverseByte kind b => exact .inl (of_ports (reverseByte_ports e))
  | leaseTermExpiry =>
    rcases leaseTermExpiry_cases e with rfl | ⟨h, -, rfl⟩
    · exact .inl rfl
    · exact .inl (of_ports (by rw [handover_frame]; rfl))
  | lrstPulseEnd => exact .inl (of_ports (lrstPulseEnd_effect e).ports)
  | acknowledgement => exact .inl (of_ports (acknowledgement_effect e).ports)
  | acknowledgeTimeout => exact .inl (of_ports (acknowledgeTimeout_effect e).ports)
  | rreqRise | rreqFall | prdyFall | pfltChange => exact .inl (of_ports (levelCommand_effect (by simp) e).ports)
  | prdyRise => exact .inl (of_ports (prdyRise_effect e).ports)
  | revIdleExpiry => exact .inl (of_ports (revIdleExpiry_effect e).ports)
  | stallTimerExpiry => exact .inl (of_ports (stallTimerExpiry_effect e).ports)
  | dryWaitExpiry => exact .inl (of_ports (dryWaitExpiry_internal e).ports)
  | wakeTimerExpiry => exact .inl (of_ports (wakeTimerExpiry_effect e).ports)
  | replyTimerExpiry r => exact .inl (of_ports (replyTimerExpiry_internal e).ports)

/-! ## Lease and settings -/

theorem Effect.su (a : Effect s t) : t.su = s.su := by
  obtain ⟨p, -, a⟩ := a
  exact a.su

/-- The ways in which a command changes the Settings Unit (R152, R157 to R162, R178). -/
inductive SettingsMove (s : State) : Instr → SettingsUnit → Prop where
  | stays (c : Instr) : SettingsMove s c s.su
  | reset (su : SettingsUnit) : SettingsMove s .partReset su
  | granted (h : HostId) (free : s.su.holder = none ∨ s.su.holder = some h) :
      SettingsMove s (.leaseTake h) (grantLease h s).su
  | waits (h : HostId) (ws : List HostId) :
      SettingsMove s (.leaseTake h) { s.su with waiters := ws, termLeft := remainingTerm s }
  | leaves (c : Instr) (ws : List HostId) : SettingsMove s c { s.su with waiters := ws }
  | ends (c : Instr) (h : HostId) (mine : s.su.holder = some h)
      (by_whom : c = .leaseDrop h ∨ c = .portReset h ∨ c = .leaseTermExpiry) (su : SettingsUnit)
      (settings : su.settings = s.su.settings) : SettingsMove s c su
  | set (h : HostId) (i n : Byte) (v : BitVec 16) (mine : s.su.holder = some h) (x : Settings) :
      SettingsMove s (.setSetting h i n v) { s.su with settings := x }

theorem handover_settings (s : State) : (handover s).su.settings = s.su.settings := by rw [handover_su]

/-- A request served changes the Settings Unit as its judgement does. -/
theorem serve_su {c : Instr} {h : HostId} {body : State → Reply} (e : serve h body s = .next t)
    (move : SettingsMove s c (body s).state.su) : SettingsMove s c t.su := by
  rcases serve_cases e with ⟨-, rfl⟩ | ⟨-, -, rfl⟩ | ⟨-, -, rfl⟩
  · exact .stays c
  · exact .stays c
  · exact move

theorem judgeAppend_su (h : HostId) (b kind flags : Byte) (bytes : List Byte) (s : State) :
    (judgeAppend h b kind flags bytes s).state.su = s.su := by
  rcases judgeAppend_cases h b kind flags bytes s with e | ⟨need, e⟩ | ⟨k, kd, -, -, -, -, e⟩
  · rw [e]
  · rw [e]; rfl
  · rw [e]; exact (acceptAppend_internal k _ _ s).su

theorem judgeOpen_su (h : HostId) (c p f : Byte) (s : State) : (judgeOpen h c p f s).state.su = s.su := by
  rcases judgeOpen_cases h c p f s with e | ⟨k, ch, pr, stream, reply, r, -, -, -, e⟩ <;> rw [e]
  cases r <;> rfl

theorem judgeReadReply_su (h : HostId) (b m : Byte) (s : State) : (judgeReadReply h b m s).state.su = s.su := by
  rcases judgeReadReply_cases h b m s with e | ⟨r, e⟩ <;> rw [e]
  rfl

theorem judgeFetchEvent_su (h : HostId) (s : State) : (judgeFetchEvent h s).state.su = s.su := by
  rw [judgeFetchEvent]
  split <;> rfl

theorem judgeSubscribe_su (h : HostId) (f : Byte) (s : State) : (judgeSubscribe h f s).state.su = s.su := by
  rw [judgeSubscribe]
  split <;> rfl

theorem judgeLeaseTake_su (h : HostId) (s : State) : SettingsMove s (.leaseTake h) (judgeLeaseTake h s).state.su := by
  rw [judgeLeaseTake]
  split
  · next free => exact .granted h free
  · exact .waits h _

theorem judgeLeaseDrop_su (h : HostId) (s : State) : SettingsMove s (.leaseDrop h) (judgeLeaseDrop h s).state.su := by
  rw [judgeLeaseDrop]
  split
  · next mine => exact .ends _ h mine (.inl rfl) _ (handover_settings s)
  · split
    · exact .leaves _ _
    · exact .stays _

theorem judgeSet_su (h : HostId) (i n : Byte) (v : BitVec 16) (s : State) :
    SettingsMove s (.setSetting h i n v) (judgeSet h i n v s).state.su := by
  rcases judgeSet_cases h i n v s with e | ⟨name, mine, -, -, -, e⟩
  · rw [e]; exact .stays _
  · rw [e, applySetting_frame]; exact .set h i n v mine _

/-- What becomes of the lease when host `h` leaves it (R161). -/
theorem dropLeaseOf_su (h : HostId) (s : State) :
    (dropLeaseOf h s).su =
      if s.su.holder = some h then (handover { s with su := { s.su with waiters := s.su.waiters.filter fun x => decide (x ≠ h) } }).su
      else { s.su with waiters := s.su.waiters.filter fun x => decide (x ≠ h) } := by
  rw [dropLeaseOf]
  split <;> rfl

/-- The lease after a port reset is as the host's leaving makes it, since the jobs and the link leave it alone (R161, R177). -/
theorem portReset_su {h : HostId} (low : (s.port h).hrst = false) (e : execPortReset h s = .next t) :
    t.su =
      if s.su.holder = some h then (handover { s with su := { s.su with waiters := s.su.waiters.filter fun x => decide (x ≠ h) } }).su
      else { s.su with waiters := s.su.waiters.filter fun x => decide (x ≠ h) } := by
  rw [execPortReset_eq, if_neg (by simp [low])] at e
  obtain rfl := next_inj e
  have same : (boundaryWork (orphanJobs h (portDropped s h))).su = s.su := by
    rw [(boundaryWork_internal _).su, (orphanJobs_internal _ _).su]
    rfl
  rw [dropLeaseOf_su, handover_su, handover_su, same]

theorem exec_su {c : Instr} (e : exec c s = .next t) : SettingsMove s c t.su := by
  have same (su : t.su = s.su) : SettingsMove s c t.su := su ▸ .stays c
  have request {h : HostId} {body : State → Reply} (run : serve h body s = .next t) (su : (body s).state.su = s.su) :
      SettingsMove s c t.su := serve_su run (su ▸ .stays c)
  cases c with
  | partReset => exact .reset _
  | rstRelease =>
    change execRstRelease s = _ at e
    rw [execRstRelease] at e
    split at e <;> obtain rfl := next_inj e <;> exact .stays _
  | poolInitEnd =>
    change execPoolInitEnd s = _ at e
    rw [execPoolInitEnd] at e
    split at e <;> obtain rfl := next_inj e <;> exact .stays _
  | portReset h =>
    by_cases low : (s.port h).hrst = false
    · rw [portReset_su low e]
      split
      · next mine => exact .ends _ h mine (.inr (.inl rfl)) _ (handover_settings _)
      · exact .leaves _ _
    · change execPortReset h s = _ at e
      rw [execPortReset_eq, if_pos (by simpa using low)] at e
      obtain rfl := next_inj e
      exact .stays _
  | hkrstRelease h | chipSelectAssert h | chipSelectRelease h | answerSent h | ident h | last h =>
    obtain ⟨p, rfl⟩ := portCommand_frame (h := h) (frame := []) (by simp) e
    exact .stays _
  | framingFault h frame =>
    obtain ⟨p, rfl⟩ := portCommand_frame (h := h) (frame := frame) (by simp) e
    exact .stays _
  | openJob h c p f => exact request e (judgeOpen_su ..)
  | append h b k f bs => exact request e (judgeAppend_su ..)
  | close h b => exact request e (judgeClose_internal h b s).su
  | setPriority h b p => exact request e (judgeSetPriority_internal h b p s).su
  | cancel h b => exact request e (judgeCancel_internal h b s).su
  | release h b => exact request e (judgeRelease_internal h b s).su
  | jobStatus h b => exact request e (by rw [judgeJobStatus_state])
  | readReply h b m => exact request e (judgeReadReply_su ..)
  | fetchEvent h => exact request e (judgeFetchEvent_su ..)
  | subscribe h f => exact request e (judgeSubscribe_su ..)
  | leaseTake h => exact serve_su e (judgeLeaseTake_su ..)
  | leaseDrop h => exact serve_su e (judgeLeaseDrop_su ..)
  | setSetting h i n v => exact serve_su e (judgeSet_su ..)
  | getSetting h i n => exact request e (by rw [judgeGet_state])
  | linkStatus h => exact request e rfl
  | linkReset h => exact request e (judgeLinkReset_effect h s).su
  | reverseByte kind b =>
    rcases reverseByte_effect e with a | ⟨v, r, x, before, -, after⟩
    · exact same a.su
    · exact same (after.su.trans before.su)
  | leaseTermExpiry =>
    rcases leaseTermExpiry_cases e with rfl | ⟨h, mine, rfl⟩
    · exact .stays _
    · exact .ends _ h mine (.inr (.inr rfl)) _ (handover_settings _)
  | lrstPulseEnd => exact same (lrstPulseEnd_effect e).su
  | acknowledgement => exact same (acknowledgement_effect e).su
  | acknowledgeTimeout => exact same (acknowledgeTimeout_effect e).su
  | rreqRise | rreqFall | prdyFall | pfltChange => exact same (levelCommand_effect (by simp) e).su
  | prdyRise => exact same (prdyRise_effect e).su
  | revIdleExpiry => exact same (revIdleExpiry_effect e).su
  | stallTimerExpiry => exact same (stallTimerExpiry_effect e).su
  | dryWaitExpiry => exact same (dryWaitExpiry_internal e).su
  | wakeTimerExpiry => exact same (wakeTimerExpiry_effect e).su
  | replyTimerExpiry r => exact same (replyTimerExpiry_internal e).su

/-- Settles O60: from the one list of what a command can change of ports, lease and settings, and of the last fault. -/
theorem changesComeOnlyFromThoseEntitled : Obligations.ChangesComeOnlyFromThoseEntitled := by
  intro c s t e
  refine ⟨fun h changed => (exec_port e h).resolve_left changed, ?_, ?_, ?_, fun changed => (exec_lastFault e).resolve_left changed⟩
  all_goals
    intro changed
    generalize su : t.su = x at changed
    have move := exec_su e
    rw [su] at move
  · cases move with
    | stays | waits | leaves | granted => exact (changed rfl).elim
    | reset => exact .inl rfl
    | ends c h mine whom su same => exact (changed same).elim
    | set h i n v mine x => exact .inr ⟨h, i, n, v, rfl, mine⟩
  · cases move with
    | stays | waits | leaves | set => exact (changed rfl).elim
    | reset => exact .inl rfl
    | granted h free =>
      rcases free with none | mine
      · exact .inr (.inl ⟨h, rfl, none, rfl⟩)
      · exact (changed mine.symm).elim
    | ends c h mine whom su same =>
      rcases whom with drop | drop | expiry
      · exact .inr (.inr (.inl ⟨h, .inl drop, mine⟩))
      · exact .inr (.inr (.inl ⟨h, .inr drop, mine⟩))
      · exact .inr (.inr (.inr expiry))
  · cases move with
    | stays | leaves | set => exact (changed.elim (· rfl) (lt_irrefl _)).elim
    | waits h ws => exact (changed.elim (· rfl) (not_lt_of_ge (remainingTerm_le s))).elim
    | reset => exact .inl rfl
    | granted h free => exact .inr (.inl ⟨h, rfl, free, rfl⟩)
    | ends c h mine whom su same =>
      rcases whom with drop | drop | expiry
      · exact .inr (.inr (.inl ⟨h, .inl drop, mine⟩))
      · exact .inr (.inr (.inl ⟨h, .inr drop, mine⟩))
      · exact .inr (.inr (.inr expiry))

end Sys2Proof.Machine
end

section
/-! SUPPORT. Every command has a next state and leaves the queue of waiting commands to the step; what a request reaches, and when
(R3, R4, R164 to R178). -/

namespace Sys2Proof.Machine

variable {s t u : State}

/-! ## Every command has a next state -/

/-- An outcome that is a next state. -/
def IsNext (o : Host.Outcome State Fault Refusal) : Prop := ∃ t, o = .next t

theorem isNext_next (t : State) : IsNext (.next t) := ⟨t, rfl⟩

theorem isNext_ite {p : Prop} [Decidable p] {a b : Host.Outcome State Fault Refusal} (ha : IsNext a) (hb : IsNext b) :
    IsNext (if p then a else b) := by
  split
  · exact ha
  · exact hb

/-- Every command has a next state: each arm of `exec` ends in one in every case of its definition. -/
theorem exec_isNext (c : Instr) (s : State) : IsNext (exec c s) := by
  cases c with
  | openJob | append | close | setPriority | cancel | release | jobStatus | readReply | fetchEvent | subscribe | leaseTake
  | leaseDrop | setSetting | getSetting | linkStatus | linkReset => exact serve_next ..
  | partReset | pfltChange => exact isNext_next _
  | rstRelease | poolInitEnd | lrstPulseEnd | portReset | hkrstRelease | chipSelectAssert | chipSelectRelease | framingFault
  | ident | acknowledgeTimeout | rreqRise | prdyFall | reverseByte | revIdleExpiry | stallTimerExpiry | wakeTimerExpiry
  | rreqFall => exact isNext_ite (isNext_next _) (isNext_next _)
  | last h =>
    refine isNext_ite ?_ (isNext_next _)
    split <;> exact isNext_next _
  | acknowledgement =>
    change IsNext (execAcknowledgement s)
    rw [execAcknowledgement]
    dsimp only
    split <;> exact isNext_next _
  | prdyRise =>
    refine isNext_ite (isNext_next _) ?_
    dsimp only
    split <;> exact isNext_next _
  | dryWaitExpiry =>
    change IsNext (execDryWaitExpiry s)
    rw [execDryWaitExpiry]
    split <;> exact isNext_next _
  | replyTimerExpiry r =>
    change IsNext (execReplyTimerExpiry r s)
    rw [execReplyTimerExpiry]
    split <;> exact isNext_next _
  | leaseTermExpiry =>
    change IsNext (execLeaseTermExpiry s)
    rw [execLeaseTermExpiry]
    split <;> exact isNext_next _
  | answerSent h =>
    change IsNext (execAnswerSent h s)
    rw [execAnswerSent]
    split <;> exact isNext_next _

/-! ## The queue of waiting commands -/

theorem Effect.pending (a : Effect s t) : t.pending = s.pending := by
  obtain ⟨p, -, a⟩ := a
  exact a.pending

theorem serve_pending {h : HostId} {body : State → Reply} (e : serve h body s = .next t)
    (same : (body s).state.pending = s.pending) : t.pending = s.pending := by
  rcases serve_cases e with ⟨-, rfl⟩ | ⟨-, -, rfl⟩ | ⟨-, -, rfl⟩
  · rfl
  · rfl
  · exact same

theorem judgeAppend_pending (h : HostId) (b kind flags : Byte) (bytes : List Byte) (s : State) :
    (judgeAppend h b kind flags bytes s).state.pending = s.pending := by
  rcases judgeAppend_cases h b kind flags bytes s with e | ⟨need, e⟩ | ⟨k, kd, -, -, -, -, e⟩
  · rw [e]
  · rw [e]; rfl
  · rw [e]; exact (acceptAppend_internal k _ _ s).pending

theorem judgeOpen_pending (h : HostId) (c p f : Byte) (s : State) : (judgeOpen h c p f s).state.pending = s.pending := by
  rcases judgeOpen_cases h c p f s with e | ⟨k, ch, pr, stream, reply, r, -, -, -, e⟩ <;> rw [e]
  cases r <;> rfl

theorem judgeReadReply_pending (h : HostId) (b m : Byte) (s : State) :
    (judgeReadReply h b m s).state.pending = s.pending := by
  rcases judgeReadReply_cases h b m s with e | ⟨r, e⟩ <;> rw [e]
  rfl

theorem judgeFetchEvent_pending (h : HostId) (s : State) : (judgeFetchEvent h s).state.pending = s.pending := by
  rw [judgeFetchEvent]
  split <;> rfl

theorem judgeSubscribe_pending (h : HostId) (f : Byte) (s : State) : (judgeSubscribe h f s).state.pending = s.pending := by
  rw [judgeSubscribe]
  split <;> rfl

theorem judgeLeaseTake_pending (h : HostId) (s : State) : (judgeLeaseTake h s).state.pending = s.pending := by
  rw [judgeLeaseTake]
  split <;> rfl

theorem judgeLeaseDrop_pending (h : HostId) (s : State) : (judgeLeaseDrop h s).state.pending = s.pending := by
  rw [judgeLeaseDrop]
  split
  · rw [handover_frame]
  · split <;> rfl

theorem judgeSet_pending (h : HostId) (i n : Byte) (v : BitVec 16) (s : State) :
    (judgeSet h i n v s).state.pending = s.pending := by
  rcases judgeSet_cases h i n v s with e | ⟨name, -, -, -, -, e⟩ <;> rw [e]
  rw [applySetting_frame]

theorem dropLeaseOf_pending (h : HostId) (s : State) : (dropLeaseOf h s).pending = s.pending := by
  rw [dropLeaseOf]
  split
  · rw [handover_frame]
  · rfl

theorem portReset_pending {h : HostId} (e : execPortReset h s = .next t) : t.pending = s.pending := by
  rw [execPortReset_eq] at e
  split at e <;> obtain rfl := next_inj e
  · rfl
  · rw [dropLeaseOf_pending, (boundaryWork_internal _).pending, (orphanJobs_internal _ _).pending]
    rfl

/-- No command touches the queue: the step alone takes a command off it (log entry 3). -/
theorem exec_pending {c : Instr} (e : exec c s = .next t) : t.pending = s.pending := by
  cases c with
  | partReset =>
    obtain rfl := next_inj e
    rfl
  | rstRelease =>
    change execRstRelease s = _ at e
    rw [execRstRelease] at e
    split at e <;> obtain rfl := next_inj e <;> rfl
  | poolInitEnd =>
    change execPoolInitEnd s = _ at e
    rw [execPoolInitEnd] at e
    split at e <;> obtain rfl := next_inj e <;> rfl
  | portReset h => exact portReset_pending e
  | hkrstRelease h | chipSelectAssert h | chipSelectRelease h | answerSent h | ident h | last h =>
    obtain ⟨p, rfl⟩ := portCommand_frame (h := h) (frame := []) (by simp) e
    rfl
  | framingFault h frame =>
    obtain ⟨p, rfl⟩ := portCommand_frame (h := h) (frame := frame) (by simp) e
    rfl
  | openJob h c p f => exact serve_pending e (judgeOpen_pending ..)
  | append h b k f bs => exact serve_pending e (judgeAppend_pending ..)
  | close h b => exact serve_pending e (judgeClose_internal h b s).pending
  | setPriority h b p => exact serve_pending e (judgeSetPriority_internal h b p s).pending
  | cancel h b => exact serve_pending e (judgeCancel_internal h b s).pending
  | release h b => exact serve_pending e (judgeRelease_internal h b s).pending
  | jobStatus h b => exact serve_pending e (by rw [judgeJobStatus_state])
  | readReply h b m => exact serve_pending e (judgeReadReply_pending ..)
  | fetchEvent h => exact serve_pending e (judgeFetchEvent_pending ..)
  | subscribe h f => exact serve_pending e (judgeSubscribe_pending ..)
  | leaseTake h => exact serve_pending e (judgeLeaseTake_pending ..)
  | leaseDrop h => exact serve_pending e (judgeLeaseDrop_pending ..)
  | setSetting h i n v => exact serve_pending e (judgeSet_pending ..)
  | getSetting h i n => exact serve_pending e (by rw [judgeGet_state])
  | linkStatus h => exact serve_pending e rfl
  | linkReset h => exact serve_pending e (judgeLinkReset_effect h s).pending
  | reverseByte kind b =>
    rcases reverseByte_effect e with a | ⟨v, r, x, before, -, after⟩
    · exact a.pending
    · exact after.pending.trans before.pending
  | leaseTermExpiry =>
    rcases leaseTermExpiry_cases e with rfl | ⟨h, -, rfl⟩
    · rfl
    · rw [handover_frame]
      rfl
  | lrstPulseEnd => exact (lrstPulseEnd_effect e).pending
  | acknowledgement => exact (acknowledgement_effect e).pending
  | acknowledgeTimeout => exact (acknowledgeTimeout_effect e).pending
  | rreqRise | rreqFall | prdyFall | pfltChange => exact (levelCommand_effect (by simp) e).pending
  | prdyRise => exact (prdyRise_effect e).pending
  | revIdleExpiry => exact (revIdleExpiry_effect e).pending
  | stallTimerExpiry => exact (stallTimerExpiry_effect e).pending
  | dryWaitExpiry => exact (dryWaitExpiry_internal e).pending
  | wakeTimerExpiry => exact (wakeTimerExpiry_effect e).pending
  | replyTimerExpiry r => exact (replyTimerExpiry_internal e).pending

/-- Settles O2: each arm of `exec` ends in a next state, and none touches the queue. -/
theorem everyCommandHasANextState : Obligations.EveryCommandHasANextState := by
  intro c s
  obtain ⟨t, run⟩ := exec_isNext c s
  exact ⟨t, run, exec_pending run⟩

/-! ## Port lines -/

/-- Settles O8: each line command by the level it finds and the port's framing. -/
theorem portLinesFrameTransactions : Obligations.PortLinesFrameTransactions := by
  intro s h
  have assert_eq : exec (.chipSelectAssert h) s = execChipSelectAssert h s := rfl
  have release_eq : exec (.chipSelectRelease h) s = execChipSelectRelease h s := rfl
  have sent_eq : exec (.answerSent h) s = execAnswerSent h s := rfl
  have hkrst_eq : exec (.hkrstRelease h) s = execHkrstRelease h s := rfl
  rw [assert_eq, release_eq, sent_eq, hkrst_eq, execChipSelectAssert, execChipSelectRelease, execAnswerSent, execHkrstRelease]
  refine ⟨fun cs on idle => ?_, fun cs off => ?_, fun cs => if_pos cs, fun cs => if_pos cs, fun cs => if_neg (by simp [cs]),
    fun frame framing => ?_, fun none => ?_, fun held => if_pos held, fun low => if_neg (by simp [low])⟩
  · simp [cs, on, idle, State.setPort]
  · rw [if_neg (by simp [cs]), if_neg]
    · rfl
    · rcases off with detached | busy <;> simp [*]
  · simp [framing, State.setPort]
  · split
    · next frame framing => exact absurd framing (none frame)
    all_goals rfl

/-! ## FRAMING_FAULT, IDENT and LAST -/

theorem listening_iff {h : HostId} :
    listening s h = true ↔ (s.port h).detached = false ∧ (s.port h).framing = .request := by
  simp [listening]

theorem not_listening {h : HostId} (off : (s.port h).detached = true ∨ (s.port h).framing ≠ .request) :
    listening s h = false := by
  rw [Bool.eq_false_iff, Ne, listening_iff]
  rintro ⟨on, request⟩
  rcases off with detached | busy
  · exact Bool.false_ne_true (on.symm.trans detached)
  · exact busy request

/-- An answer not stored, in the words of the statements. -/
theorem answer_unstored (h : HostId) (code : AnswerCode) (s : State) :
    answeredUnstored s (answer h code [] false s) h code ∧ onlyPortsDiffer s (answer h code [] false s) := ⟨rfl, rfl⟩

/-- Settles O11: the check that finds a fault, and each reason there is none. -/
theorem framingFaultIsAnsweredFrame : Obligations.FramingFaultIsAnsweredFrame := by
  intro s h frame
  have run : exec (.framingFault h frame) s = execFramingFault h frame s := rfl
  rw [run, execFramingFault]
  refine ⟨fun on request whole faulty => ?_, fun other => if_neg ?_⟩
  · rw [if_pos (by simp [listening_iff.mpr ⟨on, request⟩, whole, faulty])]
    exact ⟨_, rfl, answer_unstored h .frame s⟩
  · rcases other with off | off | partial' | passes
    · simp [not_listening (.inl off)]
    · simp [not_listening (.inr off)]
    · simp [partial']
    · simp [passes]

/-- Settles O12: IDENT's payload is the part's fixed bytes, the port and the pool's phase. -/
theorem identNamesThePart : Obligations.IdentNamesThePart := by
  intro s h on request
  have run : exec (.ident h) s = execIdent h s := rfl
  have payload : identPayload h s.sp.phase =
      [0x41#8, 0x20#8, 0x01#8, BitVec.ofNat 8 h.val, if s.sp.phase = .init then 0x00#8 else 0x01#8] := by
    rw [identPayload]
    cases s.sp.phase <;> rfl
  rw [run, execIdent, if_pos (listening_iff.mpr ⟨on, request⟩), ← payload]
  exact ⟨_, rfl, rfl, rfl⟩

/-- Settles O13: LAST by what the port has stored. -/
theorem lastRepeatsTheStoredAnswer : Obligations.LastRepeatsTheStoredAnswer := by
  intro s h on request
  have run : exec (.last h) s = execLast h s := rfl
  rw [run, execLast, if_pos (listening_iff.mpr ⟨on, request⟩)]
  refine ⟨fun frame stored => ?_, fun empty => ?_⟩
  · simp [stored, State.setPort]
  · simp only [empty]
    exact ⟨_, rfl, answer_unstored h .notReady s⟩

/-! ## What a request reaches, and when -/

/-- Every request but IDENT and LAST is served by the judgement of its block (R165, R169, R170). -/
theorem exec_request {c : Instr} {h : HostId} (host : requestHost c = some h) (ident : c ≠ .ident h) (last : c ≠ .last h) :
    ∃ body, ∀ s, exec c s = serve h body s := by
  cases c <;> simp only [requestHost, Option.some.injEq, reduceCtorEq] at host <;> subst host
  · exact (ident rfl).elim
  · exact (last rfl).elim
  all_goals exact ⟨_, fun _ => rfl⟩

/-- Settles O14: in INIT the serving of a request stops short of its judgement, and a port that is not listening takes none. -/
theorem requestsReachNoBlockOutsideTheirTime : Obligations.RequestsReachNoBlockOutsideTheirTime := by
  intro s h c host
  refine ⟨fun ident last on request init => ?_, fun off => ?_⟩
  · obtain ⟨body, run⟩ := exec_request host ident last
    rw [run, serve, if_pos (listening_iff.mpr ⟨on, request⟩), init]
    exact ⟨_, rfl, answer_unstored h .notReady s⟩
  · have deaf : ¬ listening s h = true := by simp [not_listening off]
    by_cases ident : c = .ident h
    · rw [ident]
      exact if_neg deaf
    · by_cases last : c = .last h
      · rw [last]
        exact if_neg deaf
      · obtain ⟨body, run⟩ := exec_request host ident last
        rw [run]
        exact if_neg deaf

end Sys2Proof.Machine
end

section
/-! SUPPORT. Requests about jobs and their records: the handle and ownership checks of all seven (R3, R4), OPEN accepted (R9, R96),
RELEASE (R18) and JOB_STATUS (R19, R180). -/

namespace Sys2Proof.Machine

variable {s : State} {h : HostId} {hd : Byte} {k : SlotId}

/-! ## The handle and ownership checks -/

theorem judgeCancel_badJob (unnamed : ∀ k, ¬ namesJob s hd k) : judgeCancel h hd s = refuse s .badJob := by
  rw [judgeCancel, findJob_eq_none.mpr unnamed]

theorem judgeCancel_notOwner (named : namesJob s hd k) (other : (s.job k).owner ≠ h ∨ (s.job k).orphaned = true)
    (holder : s.su.holder ≠ some h) : judgeCancel h hd s = refuse s .notOwner := by
  simp [judgeCancel, findJob_eq_some.mpr named, ownsJob_eq_false other, holder]

theorem judgeJobStatus_badJob (unnamed : ∀ k, ¬ namesJob s hd k) : judgeJobStatus hd s = refuse s .badJob := by
  rw [judgeJobStatus, findJob_eq_none.mpr unnamed]

/-- A request about a job is served by a judgement that makes the two checks ahead of all others (R3, R4, R169). -/
theorem aboutJob_checks {c : Instr} (host : requestHost c = some h) (handle : requestHandle c = some hd) :
    ∃ body, (∀ s, exec c s = serve h body s) ∧
      ∀ s, ((∀ k, ¬ namesJob s hd k) → body s = refuse s .badJob) ∧
        ∀ k, c ≠ .jobStatus h hd → (c = .cancel h hd → s.su.holder ≠ some h) → namesJob s hd k →
          (s.job k).owner ≠ h ∨ (s.job k).orphaned = true → body s = refuse s .notOwner := by
  cases c with
  | append x b kind flags bytes =>
    obtain ⟨rfl, rfl⟩ := And.intro (Option.some.inj host) (Option.some.inj handle)
    exact ⟨_, fun _ => rfl, fun s => ⟨fun un => withOwnJob_badJob un _, fun _ _ _ nm ot => withOwnJob_notOwner nm ot _⟩⟩
  | close x b =>
    obtain ⟨rfl, rfl⟩ := And.intro (Option.some.inj host) (Option.some.inj handle)
    exact ⟨_, fun _ => rfl, fun s => ⟨fun un => withOwnJob_badJob un _, fun _ _ _ nm ot => withOwnJob_notOwner nm ot _⟩⟩
  | setPriority x b p =>
    obtain ⟨rfl, rfl⟩ := And.intro (Option.some.inj host) (Option.some.inj handle)
    exact ⟨_, fun _ => rfl, fun s => ⟨fun un => withOwnJob_badJob un _, fun _ _ _ nm ot => withOwnJob_notOwner nm ot _⟩⟩
  | release x b =>
    obtain ⟨rfl, rfl⟩ := And.intro (Option.some.inj host) (Option.some.inj handle)
    exact ⟨_, fun _ => rfl, fun s => ⟨fun un => withOwnJob_badJob un _, fun _ _ _ nm ot => withOwnJob_notOwner nm ot _⟩⟩
  | readReply x b m =>
    obtain ⟨rfl, rfl⟩ := And.intro (Option.some.inj host) (Option.some.inj handle)
    exact ⟨_, fun _ => rfl, fun s => ⟨fun un => withOwnJob_badJob un _, fun _ _ _ nm ot => withOwnJob_notOwner nm ot _⟩⟩
  | cancel x b =>
    obtain ⟨rfl, rfl⟩ := And.intro (Option.some.inj host) (Option.some.inj handle)
    exact ⟨_, fun _ => rfl, fun s => ⟨judgeCancel_badJob, fun _ _ hold nm ot => judgeCancel_notOwner nm ot (hold rfl)⟩⟩
  | jobStatus x b =>
    obtain ⟨rfl, rfl⟩ := And.intro (Option.some.inj host) (Option.some.inj handle)
    exact ⟨_, fun _ => rfl, fun s => ⟨judgeJobStatus_badJob, fun _ status => absurd rfl status⟩⟩
  | _ => cases handle

/-- Settles O15: the judgement of each of the seven requests makes the checks first. -/
theorem handleAndOwnershipAreCheckedFirst : Obligations.HandleAndOwnershipAreCheckedFirst := by
  intro s h c hd host handle port
  obtain ⟨body, run, checks⟩ := aboutJob_checks host handle
  obtain ⟨badJob, notOwner⟩ := checks s
  exact ⟨fun unnamed => serve_refused port (run s) (badJob unnamed),
    fun k status holder named other => serve_refused port (run s) (notOwner k status holder named other)⟩

/-! ## OPEN accepted -/

/-- The first number of which a test holds. -/
theorem finRange_find_lowest {n : Nat} {p : Fin n → Bool} {k : Fin n} (at_k : p k = true) (below : ∀ z < k, p z = false) :
    (List.finRange n).find? p = some k := by
  rw [List.find?_eq_some_iff_getElem]
  refine ⟨at_k, k.val, by simp, by simp, fun j hj => ?_⟩
  simpa using below ⟨j, hj.trans k.isLt⟩ hj

theorem lowestFreeSlot_eq (free : (s.job k).state = .free) (below : ∀ z < k, (s.job z).state ≠ .free) :
    lowestFreeSlot s = some k :=
  finRange_find_lowest (decide_eq_true free) fun z hz => decide_eq_false (below z hz)

theorem lowestFreeRoute_eq {r : RouteId} (free : (s.route r).state = .free) (below : ∀ z < r, (s.route z).state ≠ .free) :
    lowestFreeRoute s = some r :=
  finRange_find_lowest (decide_eq_true free) fun z hz => decide_eq_false (below z hz)

/-- The parameter bytes of a channel and a priority are those (R8). -/
theorem openArgs_of_numbers (c : ChannelId) (p : Fin 8) {flags : Byte} (legal : flags.toNat < 4) :
    openArgs (BitVec.ofNat 8 c.val) (BitVec.ofNat 8 p.val) flags =
      some (c, p, flags.getLsbD 0, flags.getLsbD 1) := by
  have ec : (BitVec.ofNat 8 c.val).toNat = c.val := by rw [BitVec.toNat_ofNat]; omega
  have ep : (BitVec.ofNat 8 p.val).toNat = p.val := by rw [BitVec.toNat_ofNat]; omega
  rw [openArgs, dif_pos (by omega), if_pos ((onlyBits_three_iff flags).mpr legal)]
  simp only [ec, ep, Fin.eta]

/-- Settles O16: the parameters are legal, the limit has room, and the lowest FREE slot and route are the given ones. -/
theorem openCreatesTheLowestFreeJob : Obligations.OpenCreatesTheLowestFreeJob := by
  intro s h c p flags k port legal room free below
  have slot := lowestFreeSlot_eq free below
  have args := openArgs_of_numbers c p legal
  refine ⟨fun silent => ?_, fun reply r freeRoute belowRoute => ?_⟩
  · have judged : judgeOpen h (BitVec.ofNat 8 c.val) (BitVec.ofNat 8 p.val) flags s =
        createJob h k c p (flags.getLsbD 0) false none s := by
      simp only [judgeOpen, args, if_neg (Nat.not_le_of_lt room), slot, silent, Bool.false_eq_true, if_false]
    obtain ⟨t, served, answered, rest⟩ := serve_answered port _ judged (createJob_ports k ..)
    refine ⟨t, exec_openJob.trans served, answered, ?_⟩
    rw [newJob, silent]
    exact rest
  · have judged : judgeOpen h (BitVec.ofNat 8 c.val) (BitVec.ofNat 8 p.val) flags s =
        createJob h k c p (flags.getLsbD 0) true (some r) s := by
      simp only [judgeOpen, args, if_neg (Nat.not_le_of_lt room), slot, reply, if_true,
        lowestFreeRoute_eq freeRoute belowRoute]
    obtain ⟨t, served, answered, rest⟩ := serve_answered port _ judged (createJob_ports k ..)
    refine ⟨t, exec_openJob.trans served, answered, ?_⟩
    rw [newJob, reply]
    exact rest

/-! ## RELEASE -/

theorem freeRouteOf_route (k : SlotId) (s : State) (r : RouteId) :
    (freeRouteOf k s).route r = if (s.job k).route = some r then freeRoute else s.route r := by
  rw [freeRouteOf]
  split
  · next none => simp [none]
  · next x some => simp [State.setRoute_route, some]

/-- Settles O26: an ENDED job of the requester is released, and any other refused. -/
theorem releaseFreesTheSlot : Obligations.ReleaseFreesTheSlot := by
  intro s h hd k port own
  have run : exec (.release h hd) s = serve h (judgeRelease h hd) s := rfl
  refine ⟨fun live => ?_, fun ended => ?_⟩
  · exact serve_refused port run (by rw [judgeRelease, withOwnJob_own own, if_neg live])
  · have judged : judgeRelease h hd s = { state := releaseSlot k s, code := .ok, payload := [] } := by
      rw [judgeRelease, withOwnJob_own own, if_pos ended]
    obtain ⟨t, served, answered, rest⟩ := serve_answered port _ judged (by rw [releaseSlot_frame])
    have job : t.job k = freeJob := by
      rw [rest]
      exact (releaseSlot_job k k s).trans (if_pos rfl)
    refine ⟨t, run.trans served, answered, by rw [job]; rfl, fun r => ?_, ?_⟩
    · rw [rest]
      exact freeRouteOf_route k s r
    · obtain ⟨-, -, -, owner, -⟩ := own
      rw [job, rest, releaseSlot, freeRouteOf_frame]
      simp only [owner]
      rfl

/-! ## JOB_STATUS -/

/-- A handle byte is put together again from slot and generation (R2). -/
theorem handleByte_of_names (named : namesJob s hd k) : handleByte (s.handle k) = hd := by
  obtain ⟨slot, gen, -⟩ := named
  rw [handleSlot] at slot
  rw [handleGen] at gen
  apply BitVec.eq_of_toNat_eq
  have number : 32 * (s.gen k).val + k.val = hd.toNat := by omega
  rw [handleByte, BitVec.toNat_ofNat, State.handle, number]
  exact Nat.mod_eq_of_lt hd.isLt

/-- Five flags packed are the sum of their weights (R180). -/
theorem flagBits_sum (a b c d e : Bool) :
    flagBit a 0 ||| flagBit b 1 ||| flagBit c 2 ||| flagBit d 3 ||| flagBit e 4 =
      BitVec.ofNat 8 ((if a then 2 ^ 0 else 0) + (if b then 2 ^ 1 else 0) + (if c then 2 ^ 2 else 0) +
        (if d then 2 ^ 3 else 0) + (if e then 2 ^ 4 else 0)) := by
  revert a b c d e
  decide

/-- A 32-bit count as four bytes, in the words of the statements (R179). -/
theorem fourBytes_eq_big32 (v : BitVec 32) : fourBytes v = big32 v.toNat := by
  have byte : ∀ i m : Nat, 2 ^ i = m → v.extractLsb' i 8 = BitVec.ofNat 8 (v.toNat / m) := by
    rintro i m rfl
    apply BitVec.eq_of_toNat_eq
    rw [BitVec.extractLsb'_toNat, BitVec.toNat_ofNat, Nat.shiftRight_eq_div_pow]
  rw [fourBytes, byte 24 16777216 rfl, byte 16 65536 rfl, byte 8 256 rfl, byte 0 1 rfl, Nat.div_one]

/-- A route as one byte, in the words of the statements (R179). -/
theorem routeByte_eq (x : Option RouteId) :
    numberOrNone x = match x with | none => 0xFF#8 | some r => BitVec.ofNat 8 r.val := by
  cases x <;> rfl

/-- Settles O27: the record is the model's fourteen bytes, field by field. -/
theorem jobStatusReportsTheRecord : Obligations.JobStatusReportsTheRecord := by
  intro s h hd k port named j bit
  have judged : judgeJobStatus hd s = { state := s, code := .ok, payload := jobStatusPayload s k } := by
    rw [judgeJobStatus, findJob_eq_some.mpr named]
  obtain ⟨t, served, answered, rest⟩ := serve_answered port _ judged rfl
  refine ⟨t, served, rest, ?_⟩
  rw [jobStatusPayload, handleByte_of_names named, jobFlagsByte, flagBits_sum, twoBytes_eq_big16, fourBytes_eq_big32,
    routeByte_eq] at answered
  exact answered

end Sys2Proof.Machine
end

section
/-! SUPPORT. Requests about events, the lease, the settings and the link: FETCH_EVENT (R123), the evaluation of the space waiters
(R37), LEASE_TAKE and the end of a holding (R156 to R159), LINK_STATUS (R174). -/

namespace Sys2Proof.Machine

variable {s t u : State} {h : HostId}

/-! ## FETCH_EVENT -/

theorem handleOrNone_eq (x : Option Handle) :
    handleOrNone x = match x with | none => 0xFF#8 | some y => BitVec.ofNat 8 (32 * y.gen.val + y.slot.val) := by
  cases x <;> rfl

/-- Settles O29: the unit's queue decides, and the attention line follows the unit. -/
theorem fetchEventReturnsTheOldest : Obligations.FetchEventReturnsTheOldest := by
  intro s h port
  refine ⟨fun e es queue => ?_, fun empty => ?_⟩
  · have judged : judgeFetchEvent h s =
        { state := s.setEu h (driveAttention { s.eu h with queue := es }), code := .ok
          payload := eventBytes e ++ [oneByte es.length] } := by
      simp only [judgeFetchEvent, queue]
    obtain ⟨t, served, answered, rest⟩ := serve_answered port _ judged rfl
    rw [eventBytes, handleOrNone_eq, routeByte_eq] at answered
    rw [driveAttention, attentionLevel_eq] at rest
    exact ⟨t, served, answered, rest⟩
  · have judged : judgeFetchEvent h s =
        { state := s.setEu h (driveAttention { s.eu h with lapsed := false }), code := .empty, payload := [] } := by
      simp only [judgeFetchEvent, empty]
    obtain ⟨t, served, answered, rest⟩ := serve_answered port _ judged rfl
    have quiet : attentionLevel { s.eu h with lapsed := false } = false := by simp [attentionLevel, empty]
    rw [driveAttention, quiet] at rest
    exact ⟨t, served, answered, rest⟩

/-! ## The evaluation of the space waiters -/

theorem spaceDue_iff : spaceDue s t h = true ↔ ∃ need, s.mark h = some need ∧ need ≤ allowance t h := by
  simp only [spaceDue, Option.any_eq_true, decide_eq_true_eq]

theorem spaceDue_of_same {s' t' : State} (mark : s'.mark h = s.mark h) (allow : allowance t' h = allowance t h) :
    spaceDue s' t' h = spaceDue s t h := by
  simp only [spaceDue, mark, allow]

theorem spaceRecords_of_same {s' t' : State} (mark : s'.mark h = s.mark h) (allow : allowance t' h = allowance t h) :
    spaceRecords s' t' h = spaceRecords s t h := by
  simp only [spaceRecords, spaceDue_of_same mark allow]

theorem evaluateMark_met (due : spaceDue s s h = true) :
    evaluateMark s h = post h (plainEvent .space 0) (s.setMark h none) := by
  obtain ⟨need, marked, met⟩ := spaceDue_iff.mp due
  simp only [evaluateMark, marked, if_pos met]

theorem evaluateMark_unmet (short : spaceDue s s h = false) : evaluateMark s h = s := by
  rw [evaluateMark]
  split
  · rfl
  · next need marked =>
    refine if_neg fun met => ?_
    rw [spaceDue_iff.mpr ⟨need, marked, met⟩] at short
    cases short

/-- The evaluation of one mark: its host loses it and is posted SPACE where its need is met; no other host is concerned (R37). -/
theorem evaluateMark_spec (s : State) (h x : HostId) :
    (evaluateMark s h).mark x = (if h = x ∧ spaceDue s s x then none else s.mark x) ∧
      (evaluateMark s h).eu x = if h = x then unitAfter s x (spaceRecords s s x) else s.eu x := by
  cases due : spaceDue s s h with
  | false =>
    rw [evaluateMark_unmet due]
    by_cases here : h = x
    · subst here
      simp only [due, spaceRecords, Bool.false_eq_true, and_false, if_false, if_true, unitAfter, List.foldl_nil, and_self]
    · simp only [here, false_and, if_false, and_self]
  | true =>
    rw [evaluateMark_met due, post_eu]
    by_cases here : h = x
    · subst here
      simp only [due, spaceRecords, and_self, if_true]
      exact ⟨State.setMark_mark_same .., rfl⟩
    · simp only [here, false_and, if_false]
      exact ⟨State.setMark_mark_ne _ _ _ _ here, rfl⟩

/-- The allowances read nothing that an evaluation changes. -/
theorem allowance_of_same (used : t.sp.used = s.sp.used) (su : t.su = s.su) (x : HostId) : allowance t x = allowance s x := by
  simp only [allowance, unusedReserve, sharedFree, State.used, used, su]

theorem evaluateSpace_allowance (s : State) (x : HostId) : allowance (evaluateSpace s) x = allowance s x :=
  allowance_of_same (by rw [evaluateSpace_frame]) (by rw [evaluateSpace_frame]) x

/-- After the evaluation of the marks of the hosts of a list. -/
theorem evaluateMarks_spec (l : List HostId) (distinct : l.Nodup) (s : State) (x : HostId) :
    (l.foldl evaluateMark s).mark x = (if x ∈ l ∧ spaceDue s s x then none else s.mark x) ∧
      (l.foldl evaluateMark s).eu x = if x ∈ l then unitAfter s x (spaceRecords s s x) else s.eu x := by
  induction l generalizing s with
  | nil => simp
  | cons h l ih =>
    obtain ⟨apart, distinct⟩ := List.nodup_cons.mp distinct
    obtain ⟨mark, eu⟩ := evaluateMark_spec s h x
    obtain ⟨marks, eus⟩ := ih distinct (evaluateMark s h)
    have port : (evaluateMark s h).port x = s.port x := by rw [evaluateMark_frame]; rfl
    have allow : allowance (evaluateMark s h) x = allowance s x :=
      allowance_of_same (by rw [evaluateMark_frame]) (by rw [evaluateMark_frame]) x
    rw [List.foldl_cons, marks, eus]
    by_cases here : h = x
    · subst here
      rw [if_neg fun both => apart both.1, if_neg apart, mark, eu]
      simp only [List.mem_cons, true_or, true_and, if_true, and_self]
    · have elsewhere : x ≠ h := fun e => here e.symm
      rw [if_neg fun both => here both.1] at mark
      rw [if_neg here] at eu
      rw [spaceDue_of_same mark allow, mark, unitAfter, port, eu, spaceRecords_of_same mark allow]
      simp only [List.mem_cons, elsewhere, false_or, and_self]

theorem mem_allHosts (h : HostId) : h ∈ allHosts := by
  revert h
  decide

/-- The evaluation of the space waiters, host by host (R37). -/
theorem evaluateSpace_spec (s : State) (h : HostId) :
    (evaluateSpace s).mark h = (if spaceDue s s h then none else s.mark h) ∧
      (evaluateSpace s).eu h = unitAfter s h (spaceRecords s s h) := by
  obtain ⟨mark, eu⟩ := evaluateMarks_spec allHosts (by decide) s h
  rw [evaluateSpace, mark, eu, if_pos (mem_allHosts h)]
  simp [mem_allHosts h]

/-- Settles O36: each host's mark by what is recorded in it. -/
theorem evaluationServesTheSpaceWaiters : Obligations.EvaluationServesTheSpaceWaiters := by
  refine fun s => ⟨evaluateSpace_frame s, fun h => ?_⟩
  obtain ⟨mark, eu⟩ := evaluateSpace_spec s h
  have kept : spaceDue s s h = false → (evaluateSpace s).mark h = s.mark h ∧ (evaluateSpace s).eu h = s.eu h := fun short => by
    rw [mark, eu, spaceRecords, short]
    exact ⟨rfl, rfl⟩
  refine ⟨fun need marked met => ?_, fun need marked short => kept ?_, fun unmarked => unmarked ▸ kept ?_⟩
  · rw [mark, eu, spaceRecords, spaceDue_iff.mpr ⟨need, marked, met⟩]
    exact ⟨rfl, rfl⟩
  · simp only [spaceDue, marked, Option.any_some, decide_eq_false (Nat.not_le_of_lt short)]
  · simp only [spaceDue, unmarked, Option.any_none]

/-- An evaluation after posts, the marks as they were: SPACE stands behind the posts (R16, R37). -/
theorem evaluateSpace_posted {posts : HostId → List Event} (ports : u.ports = s.ports) (marks : u.sp.marks = s.sp.marks)
    (eus : ∀ h, u.eu h = unitAfter s h (posts h)) : postedAheadOfSpace s (evaluateSpace u) posts := by
  intro h
  obtain ⟨mark, eu⟩ := evaluateSpace_spec u h
  have port : u.port h = s.port h := by rw [State.port, ports, State.port]
  have same : u.mark h = s.mark h := by rw [State.mark, marks, State.mark]
  rw [mark, eu, same, spaceDue_of_same same.symm (evaluateSpace_allowance u h),
    spaceRecords_of_same same.symm (evaluateSpace_allowance u h), unitAfter, port, eus]
  exact ⟨List.foldl_append.symm, rfl⟩

/-! ## The lease -/

/-- Settles O31: the two judgements of LEASE_TAKE, the newcomer's place being one behind the last waiter. -/
theorem leaseTakeGrantsOrQueues : Obligations.LeaseTakeGrantsOrQueues := by
  intro s h port
  refine ⟨fun free => ?_, fun x holder other => ?_⟩
  · have judged : judgeLeaseTake h s =
        { state := grantLease h s, code := .ok, payload := twoBytes (termMs s.su.settings.leaseTerm) } := by
      rw [judgeLeaseTake, if_pos free]
    obtain ⟨t, served, answered, rest⟩ := serve_answered port _ judged rfl
    rw [twoBytes_eq_big16] at answered
    exact ⟨t, served, answered, rest⟩
  · have taken : ¬ (s.su.holder = none ∨ s.su.holder = some h) := by
      rw [holder]
      simpa using other
    obtain ⟨free, -⟩ | ⟨-, ms, waiters, -, -, bound, list, judged⟩ := judgeLeaseTake_spec h s
    · exact absurd free taken
    · obtain ⟨t, served, answered, rest⟩ := serve_answered port _ judged rfl
      rw [twoBytes_eq_big16] at answered
      refine ⟨t, ms, served, bound, fun units sound term => bound.trans ?_, fun new => ?_, fun old => ?_⟩
      · obtain ⟨-, -, -, -, -, left⟩ := sound
        exact left units term
      · rw [if_neg new] at list
        subst list
        rw [List.idxOf_append_of_notMem new, List.idxOf_cons_self] at answered
        refine ⟨answered, ?_⟩
        rw [rest]
      · rw [if_pos old] at list
        subst list
        refine ⟨answered, ?_⟩
        rw [rest]

/-- A handover with no waiter (R158). -/
theorem handover_nobody (empty : s.su.waiters = []) :
    handover s = { s with su := { s.su with holder := none, term := none, termLeft := 0 } } := by
  rw [handover, empty]

/-- A handover to the head waiter (R158). -/
theorem handover_waiter {w : HostId} {ws : List HostId} (list : s.su.waiters = w :: ws) :
    handover s = { s with
      eus := upd s.eus w (takePost (s.port w).detached (plainEvent .leaseGranted 0) (s.eu w)),
      su := { s.su with
        holder := some w, term := some s.su.settings.leaseTerm,
        termLeft := s.su.settings.leaseTerm * 100, waiters := ws } } := by
  rw [handover, list]
  rfl

/-- Settles O32: who holds the lease and who waits decides what LEASE_DROP and the expiry do. -/
theorem holdingsEndInHandover : Obligations.HoldingsEndInHandover := by
  intro s h
  have drop : exec (.leaseDrop h) s = serve h (judgeLeaseDrop h) s := rfl
  have expiry : exec .leaseTermExpiry s = execLeaseTermExpiry s := rfl
  have dropped : s.su.holder = some h → judgeLeaseDrop h s = { state := handover s, code := .ok, payload := [] } :=
    fun holder => by rw [judgeLeaseDrop, if_pos holder]
  have expired : s.su.term ≠ none → s.su.holder = some h →
      exec .leaseTermExpiry s = .next (handover (post h (plainEvent .leaseExpired 0) s)) := fun running holder => by
    obtain ⟨n, term⟩ := Option.ne_none_iff_exists'.mp running
    rw [expiry, execLeaseTermExpiry, term, holder]
  refine ⟨fun port holder empty => ?_, fun port holder w ws list => ?_, fun port holder waits => ?_,
    fun port holder stranger => ?_, fun running holder empty => ?_, fun running holder w ws list apart => ?_, fun off => ?_⟩
  · obtain ⟨t, served, answered, rest⟩ := serve_answered port _ (dropped holder) (by rw [handover_frame])
    refine ⟨t, drop.trans served, answered, ?_⟩
    rw [rest, handover_nobody empty]
  · obtain ⟨t, served, answered, rest⟩ := serve_answered port _ (dropped holder) (by rw [handover_frame])
    rw [handover_waiter list] at rest
    exact ⟨t, drop.trans served, answered, by rw [postedTo, rest], by rw [rest]⟩
  · have judged : judgeLeaseDrop h s =
        { state := { s with su := { s.su with waiters := s.su.waiters.erase h } }, code := .ok, payload := [] } := by
      rw [judgeLeaseDrop, if_neg holder, if_pos waits]
    obtain ⟨t, served, answered, rest⟩ := serve_answered port _ judged rfl
    exact ⟨t, drop.trans served, answered, rest⟩
  · exact serve_refused port drop (by rw [judgeLeaseDrop, if_neg holder, if_neg stranger])
  · refine ⟨_, expired running holder, ?_, ?_⟩ <;> rw [handover_nobody (by exact empty)] <;> rfl
  · refine ⟨_, expired running holder, fun x => ?_, ?_⟩ <;>
      rw [handover_waiter (s := post h (plainEvent .leaseExpired 0) s) list]
    · have unit : ∀ u : State, ∀ e, ({ u with eus := upd u.eus w e } : State).eu x = if w = x then e else u.eu x :=
        fun u e => upd_get ..
      by_cases granted : w = x
      · subst granted
        rw [if_neg apart, if_pos rfl]
        show (upd _ w _)[w] = _
        rw [upd_same, post_eu, if_neg (Ne.symm apart)]
        rfl
      · show (upd _ w _)[x] = _
        rw [upd_ne _ _ granted, if_neg (Ne.symm granted)]
        show (post h (plainEvent .leaseExpired 0) s).eu x = _
        rw [post_eu]
        by_cases here : h = x
        · subst here
          simp
        · rw [if_neg here, if_neg (Ne.symm here)]
          rfl
    · rfl
  · rw [expiry, execLeaseTermExpiry]
    rcases off with term | holder
    · rw [term]
    · rw [holder]
      split
      · next none => cases none
      · rfl

/-! ## LINK_STATUS -/

/-- At most three handles and FFh in the places above them (section 10.3). -/
theorem stackBytes_eq (sound : stackSound s) :
    stackBytes s = s.du.stack.map (fun k => handleByte (s.handle k)) ++ List.replicate (3 - s.du.stack.length) 0xFF#8 := by
  rw [stackBytes, List.take_append, List.length_map, List.take_of_length_le (by simpa using sound), List.take_replicate]
  congr 2
  omega

/-- Settles O35: the snapshot is the model's seventeen bytes, field by field. -/
theorem linkStatusIsASnapshot : Obligations.LinkStatusIsASnapshot := by
  intro s h port sound byteOf
  obtain ⟨t, served, answered, rest⟩ := serve_answered port (body := judgeLinkStatus h) _ rfl rfl
  refine ⟨t, served, rest, ?_⟩
  have active : handleOrNone (s.du.active.map s.handle) =
      match s.du.active with | none => 0xFF#8 | some a => byteOf a := by
    cases s.du.active <;> rfl
  simp only [judgeLinkStatus, linkStatusPayload, stackBytes_eq sound, twoBytes_eq_big16, active, ← List.append_assoc]
    at answered
  convert answered using 5
  · cases s.le.current <;> rfl
  · cases s.le.lastStatus <;> rfl
  · rfl
  · cases s.su.holder <;> rfl

end Sys2Proof.Machine
end

section
/-! SUPPORT. SET judged in its cases (R150 to R154): the table's names, ranges and values, and what the replacing of one value
does. -/

namespace Sys2Proof.Machine

variable {s : State} {h x y : HostId} {i j n : Byte} {name : SettingName}

/-! ## The names of the table -/

/-- The name of the value that an identifier has for a host (section 10.3). -/
def tableName (i : Byte) (x : HostId) : Option SettingName :=
  match i.toNat with
  | 1 => some .ackTime
  | 2 => some .stallTime
  | 3 => some .starveTime
  | 4 => some .revIdle
  | 5 => some .replyTime
  | 6 => some .wakeTime
  | 7 => some .leaseTerm
  | 8 => some .startThreshold
  | 9 => some .turnBudget
  | 10 => some .preemptFloor
  | 11 => some (.jobLimit x)
  | 12 => some (.reserve x)
  | _ => none

/-- The identifier of a name (section 10.3). -/
def identifierOf : SettingName → Nat
  | .ackTime => 1
  | .stallTime => 2
  | .starveTime => 3
  | .revIdle => 4
  | .replyTime => 5
  | .wakeTime => 6
  | .leaseTerm => 7
  | .startThreshold => 8
  | .turnBudget => 9
  | .preemptFloor => 10
  | .jobLimit _ => 11
  | .reserve _ => 12

/-- The host a name concerns, if it is per host. -/
def hostOf : SettingName → Option HostId
  | .jobLimit x | .reserve x => some x
  | .ackTime | .stallTime | .starveTime | .revIdle | .replyTime | .wakeTime | .leaseTerm | .startThreshold | .turnBudget
  | .preemptFloor => none

theorem recordValue_eq (r : Settings) (i : Byte) (x : HostId) :
    recordValue r i x = ((tableName i x).map (settingValue r)).getD 0 := by
  rw [recordValue, tableName]
  split <;> simp [settingValue, *]

theorem identifierOf_tableName (e : tableName i x = some name) : identifierOf name = i.toNat := by
  rw [tableName] at e
  split at e <;> cases e <;> simp [identifierOf, *]

theorem hostOf_tableName (e : tableName i x = some name) : hostOf name = if i.toNat ≤ 10 then none else some x := by
  rw [tableName] at e
  split at e <;> cases e <;> simp [hostOf, *]

/-- Two places of the table name one value when they have one identifier, and one host where it is per host. -/
theorem tableName_eq_iff (e : tableName i x = some name) : tableName j y = some name ↔ j = i ∧ (i.toNat ≤ 10 ∨ y = x) := by
  have number := identifierOf_tableName e
  have host := hostOf_tableName e
  constructor
  · intro e'
    have number' := identifierOf_tableName e'
    have host' := hostOf_tableName e'
    have same : j = i := BitVec.eq_of_toNat_eq (number'.symm.trans number)
    subst same
    refine ⟨rfl, or_iff_not_imp_left.mpr fun perHost => ?_⟩
    rw [if_neg perHost] at host host'
    exact Option.some.inj (host'.symm.trans host)
  · rintro ⟨rfl, global | rfl⟩
    · rw [← e, tableName, tableName]
      have other : j.toNat ≠ 11 ∧ j.toNat ≠ 12 := by omega
      split <;> simp_all
    · exact e

theorem inTableRange_iff (e : tableName i x = some name) (v : Nat) : inTableRange i v ↔ settingInRange name v = true := by
  rw [tableName] at e
  rw [inTableRange]
  split at e <;> cases e <;> simp [settingInRange, *]

/-- The named values have the names of the table. -/
theorem settingName_eq (names : namesSetting i n x) : ∃ name, settingName i n = some name ∧ tableName i x = some name := by
  obtain ⟨low, high, host, single⟩ := names
  rw [settingName, tableName, hostNumber_eq_some.mpr host]
  have byte : i = BitVec.ofNat 8 i.toNat := (BitVec.ofNat_toNat 8 i).symm
  generalize i.toNat = v at *
  subst byte
  by_cases global : v ≤ 10
  · obtain rfl := single global
    interval_cases v <;> exact ⟨_, rfl, rfl⟩
  · interval_cases v <;> exact ⟨_, rfl, rfl⟩

/-! ## One value replaced -/

theorem settingValue_withSetting (r : Settings) (a b : SettingName) (v : Nat) :
    settingValue (withSetting r a v) b = if b = a then v else settingValue r b := by
  cases a with
  | jobLimit x =>
    cases b with
    | jobLimit y => simp only [settingValue, withSetting, upd_get, SettingName.jobLimit.injEq, eq_comm]
    | _ => rfl
  | reserve x =>
    cases b with
    | reserve y => simp only [settingValue, withSetting, upd_get, SettingName.reserve.injEq, eq_comm]
    | _ => rfl
  | _ => cases b <;> rfl

/-- Exactly the named value of the record changes. -/
theorem recordValue_withSetting (e : tableName i x = some name) (r : Settings) (v : Nat) (j : Byte) (y : HostId) :
    recordValue (withSetting r name v) j y = if j = i ∧ (i.toNat ≤ 10 ∨ y = x) then v else recordValue r j y := by
  rw [recordValue_eq, recordValue_eq]
  by_cases same : j = i ∧ (i.toNat ≤ 10 ∨ y = x)
  · rw [if_pos same, (tableName_eq_iff e).mpr same]
    simp [settingValue_withSetting]
  · rw [if_neg same]
    cases e' : tableName j y with
    | none => rfl
    | some other =>
      have apart : other ≠ name := fun eq => same ((tableName_eq_iff e).mp (eq ▸ e'))
      simp [settingValue_withSetting, apart]

/-! ## The judgement of SET -/

theorem reservesAcceptable_iff (s : State) (x : HostId) (v : Nat) :
    reservesAcceptable (upd s.su.settings.reserve x v) s.sp.used = true ↔ reserveFits s x v := by
  rw [reservesAcceptable, Bool.and_eq_true, decide_eq_true_iff, decide_eq_true_iff]
  constructor
  · rintro ⟨fits, shared⟩
    exact ⟨fits, (Nat.le_sub_iff_add_le fits).mp shared⟩
  · rintro ⟨fits, shared⟩
    exact ⟨fits, (Nat.le_sub_iff_add_le fits).mpr shared⟩

/-- A value can stand where the two clauses about JOB_LIMIT and RESERVE allow it (R153, R154). -/
theorem settingStands_iff (e : tableName i x = some name) (v : Nat) :
    settingStands s name v = true ↔ (i.toNat = 11 → s.owned x ≤ v) ∧ (i.toNat = 12 → reserveFits s x v) := by
  have number := identifierOf_tableName e
  have host := hostOf_tableName e
  rw [← number] at host ⊢
  cases name with
  | jobLimit y =>
    obtain rfl : y = x := Option.some.inj host
    simp [settingStands, identifierOf]
  | reserve y =>
    obtain rfl : y = x := Option.some.inj host
    simp only [settingStands, identifierOf, reservesAcceptable_iff]
    simp
  | _ => simp [settingStands, identifierOf]

/-- The state after a value is replaced; a reserve's change is followed by an evaluation of the space waiters (R38). -/
theorem applySetting_eq (e : tableName i x = some name) (v : Nat) (s : State) :
    applySetting name v s =
      if i.toNat = 12 then evaluateSpace { s with su := { s.su with settings := withSetting s.su.settings name v } }
      else { s with su := { s.su with settings := withSetting s.su.settings name v } } := by
  rw [← identifierOf_tableName e]
  cases name <;> rfl

theorem judgeSet_noLease (v : BitVec 16) (holder : s.su.holder ≠ some h) : judgeSet h i n v s = refuse s .noLease := by
  rw [judgeSet, if_neg holder]

theorem judgeSet_unnamed (v : BitVec 16) (holder : s.su.holder = some h) (unnamed : ∀ x, ¬ namesSetting i n x) :
    judgeSet h i n v s = refuse s .badArg := by
  rw [judgeSet, if_pos holder, settingName_eq_none unnamed]

/-- SET of a named value by the holder, by its range and by whether it can stand. -/
theorem judgeSet_named {v : BitVec 16} (holder : s.su.holder = some h) (named : settingName i n = some name) :
    judgeSet h i n v s =
      if settingInRange name v.toNat then
        if settingStands s name v.toNat then
          { state := applySetting name v.toNat s, code := .ok, payload := settingPayload i n v.toNat }
        else refuse s .badState
      else refuse s .badArg := by
  simp only [judgeSet, if_pos holder, named]

/-- Settles O33: the refusals in order, and the replacing of one value, with the evaluation a reserve's change brings. -/
theorem setReplacesOneValue : Obligations.SetReplacesOneValue := by
  intro s h i n v port c
  have run : exec c s = serve h (judgeSet h i n v) s := rfl
  refine ⟨fun other => serve_refused port run (judgeSet_noLease v other), fun holder outside => ?_,
    fun x holder names range => ?_⟩
  · by_cases named : ∃ x, namesSetting i n x
    · obtain ⟨x, names⟩ := named
      have range := outside.resolve_left fun un => un x names
      obtain ⟨name, named, table⟩ := settingName_eq names
      refine serve_refused port run ?_
      rw [judgeSet_named holder named, if_neg fun r => range ((inTableRange_iff table _).mpr r)]
    · exact serve_refused port run (judgeSet_unnamed v holder fun x names => named ⟨x, names⟩)
  · obtain ⟨name, named, table⟩ := settingName_eq names
    have judged := judgeSet_named (v := v) holder named
    rw [if_pos ((inTableRange_iff table _).mp range)] at judged
    have stands := settingStands_iff (s := s) table v.toNat
    refine ⟨fun number below => ?_, fun number unfit => ?_, fun limit fits => ?_⟩
    · rw [if_neg fun st => Nat.not_le_of_lt below ((stands.mp st).1 number)] at judged
      exact serve_refused port run judged
    · rw [if_neg fun st => unfit ((stands.mp st).2 number)] at judged
      exact serve_refused port run judged
    · rw [if_pos (stands.mpr ⟨limit, fits⟩), applySetting_eq table, settingPayload, twoBytes_eq_big16] at judged
      by_cases reserve : i.toNat = 12
      · rw [if_pos reserve] at judged
        obtain ⟨t, served, answered, rest⟩ := serve_answered port _ judged (by rw [evaluateSpace_frame])
        dsimp only at rest
        have settings : t.su.settings = withSetting s.su.settings name v.toNat := by rw [rest, evaluateSpace_frame]
        refine ⟨t, run.trans served, answered, fun j y => ?_, fun _ => ?_, fun not => absurd reserve not, ?_⟩
        · rw [settings, recordValue_withSetting table]
        · rw [rest]
          exact evaluateSpace_posted (s := s) rfl rfl fun _ => rfl
        · rw [rest, evaluateSpace_frame]
      · rw [if_neg reserve] at judged
        obtain ⟨t, served, answered, rest⟩ := serve_answered port _ judged rfl
        refine ⟨t, run.trans served, answered, fun j y => ?_, fun is => absurd is reserve, fun _ => ?_, ?_⟩
        · rw [rest]
          exact recordValue_withSetting table ..
        · rw [rest]
          exact ⟨rfl, rfl⟩
        · rw [rest]

end Sys2Proof.Machine
end

section
/-! SUPPORT. Line levels, stalls and silent phases (R77, R88, R89, R99, R101): where a boundary is, and what the order of work does
with one thing to do. -/

namespace Sys2Proof.Machine

variable {s t u : State}

/-! ## Boundaries -/

theorem boundaryWork_at (l : s.le.link = .idle ∨ s.le.link = .waiting) : boundaryWork s = applyOrder s := by
  rw [boundaryWork]
  rcases l with e | e <;> rw [e]

theorem applyOrder_noWork (h : noWork s) : applyOrder s = { s with le := { s.le with link := .idle } } := by
  obtain ⟨active, rest⟩ := h
  refine applyOrder_idle ⟨rfl, rest⟩ ?_
  rw [activeHead, active]

theorem activeHead_inactive (active : s.du.active = none) : activeHead s = none := by
  rw [activeHead, active]

theorem activeHead_ne (active : s.du.active = none) (x : SlotId) : activeHead s ≠ some (x, .brk) := by
  rw [activeHead_inactive active]
  nofun

/-- A boundary where the abandon sequence comes next, ABANDON being due (R78, R135). -/
theorem boundaryWork_abandons {e : AbandonEntry} {es : List AbandonEntry} (l : s.le.link = .idle ∨ s.le.link = .waiting)
    (rreq : s.pins.rreq = false) (prdy : s.pins.prdy = true) (pflt : s.pins.pflt = false) (list : s.le.abandon = e :: es) (head : ∀ x, activeHead s ≠ some (x, .brk))
    (current : s.le.current = some e.channel) : boundaryWork s = offerAbandon s := by
  rw [boundaryWork_at l, applyOrder_abandon rreq prdy pflt list head, if_pos current]

/-! ## Levels -/

/-- A level that holds forward work off goes on holding it off (R88). -/
theorem nothingToDo_heldOff {p : Pins} (n : nothingToDo s) (rreq : p.rreq = s.pins.rreq)
    (held : s.le.link = .waiting → p.prdy = false ∨ p.pflt = true) : nothingToDo { s with pins := p } := by
  rcases n with off | ⟨l, r, a, h, st, tm⟩ | ⟨l, r, b, f, -, st⟩
  · exact .inl off
  · exact .inr (.inl ⟨l, rreq.trans r, a, h, st, tm⟩)
  · exact .inr (.inr ⟨l, rreq.trans r, b, f, held l, st⟩)

/-- Settles O42: the level commands by the level they find and by the link state. -/
theorem lineLevelsAreReadAtBoundaries : Obligations.LineLevelsAreReadAtBoundaries := by
  intro s
  have rise : exec .rreqRise s = execRreqRise s := rfl
  have fall : exec .rreqFall s = execRreqFall s := rfl
  have prdyFall : exec .prdyFall s = execPrdyFall s := rfl
  have pfltChange : exec .pfltChange s = execPfltChange s := rfl
  rw [rise, fall, prdyFall, pfltChange, execRreqRise, execRreqFall, execPrdyFall, execPfltChange]
  refine ⟨fun high => if_pos high, fun low l => ?_, fun low idle waiting => ?_, fun low => if_neg (by simp [low]),
    fun high idle waiting => ?_, fun low => if_neg (by simp [low]), fun high n => ?_, fun n off => ?_,
    fun e es l rreq prdy pflt active list current => ?_⟩
  · refine (if_neg (by simp [low])).trans (congrArg Host.Outcome.next ?_)
    exact (boundaryWork_at (s := { s with pins := { s.pins with rreq := true } }) l).trans (applyOrder_grant rfl)
  · refine (if_neg (by simp [low])).trans (congrArg Host.Outcome.next ?_)
    exact boundaryWork_elsewhere idle waiting
  · refine (if_pos high).trans (congrArg Host.Outcome.next ?_)
    exact boundaryWork_elsewhere idle waiting
  · refine (if_pos high).trans (congrArg Host.Outcome.next ?_)
    exact boundaryWork_of_nothingToDo (nothingToDo_heldOff (p := { s.pins with prdy := false }) n rfl fun _ => .inl rfl)
  · refine congrArg Host.Outcome.next (boundaryWork_of_nothingToDo
      (nothingToDo_heldOff (p := { s.pins with pflt := !s.pins.pflt }) n rfl fun waiting => ?_))
    have held : s.pins.prdy = false ∨ s.pins.pflt = true := by
      rcases n with ⟨-, no⟩ | ⟨idle, -⟩ | ⟨-, -, -, -, held, -⟩
      · exact absurd waiting no
      · rw [waiting] at idle
        cases idle
      · exact held
    rcases off with no | low | clear
    · exact absurd waiting no
    · exact .inl low
    · exact .inr (by simp [clear])
  · have out := boundaryWork_abandons (s := { s with pins := { s.pins with pflt := !s.pins.pflt } }) (.inr l) rreq prdy
      (by simp [pflt]) list (activeHead_ne active) current
    obtain ⟨t, offer, reported, silent, frame⟩ := makeOffer_stalled { byte := abandonByte, kind := .control, origin := .abandon }
        { s with pins := { s.pins with pflt := !s.pins.pflt } }
    refine ⟨t, congrArg _ (out.trans offer), reported, silent, ?_⟩
    rw [pflt] at frame
    exact frame

/-! ## Stalls and silent phases -/

/-- A post to the LINK group as new units, in the words of the statements (R121). -/
theorem postLinkGroup_posted (e : Event) (s : State) :
    ∃ v, postLinkGroup e s = { s with eus := v } ∧ postedToLinkGroup s { s with eus := v } e :=
  ⟨_, postLinkGroup_frame e s, postLinkGroup_eu e s⟩

/-- Settles O44: the two timers, and the order of work behind a phase that timed out. -/
theorem stallsAndSilentPhasesAreReported : Obligations.StallsAndSilentPhasesAreReported := by
  intro s
  have stall : exec .stallTimerExpiry s = execStallTimerExpiry s := rfl
  have silence : exec .revIdleExpiry s = execRevIdleExpiry s := rfl
  have ended : s.le.revIdleTimer ≠ none → exec .revIdleExpiry s =
      .next (applyOrder (postLinkGroup (plainEvent .linkProtocol revTimeoutCode) (endPhase s))) := fun running =>
    if_pos (Option.isSome_iff_ne_none.mpr running)
  refine ⟨fun off => ?_, fun running => ?_, fun off => ?_, fun running work => ?_, fun running rreq => ?_⟩
  · rw [stall, execStallTimerExpiry, off]
    rfl
  · obtain ⟨v, eq, posted⟩ := postLinkGroup_posted (plainEvent .linkStall 1)
      { s with le := { s.le with stall := .reported, stallTimer := none } }
    rw [stall, execStallTimerExpiry, if_pos (Option.isSome_iff_ne_none.mpr running), eq]
    exact ⟨_, rfl, posted, rfl⟩
  · rw [silence, execRevIdleExpiry, off]
    rfl
  · obtain ⟨v, eq, posted⟩ := postLinkGroup_posted (plainEvent .linkProtocol revTimeoutCode) (endPhase s)
    rw [ended running, eq, applyOrder_noWork (s := { endPhase s with eus := v }) work]
    exact ⟨_, rfl, posted, rfl⟩
  · obtain ⟨v, eq, posted⟩ := postLinkGroup_posted (plainEvent .linkProtocol revTimeoutCode) (endPhase s)
    rw [ended running, eq, applyOrder_grant (s := { endPhase s with eus := v }) rreq]
    exact ⟨_, rfl, posted, rfl⟩

end Sys2Proof.Machine
end

section
/-! SUPPORT. The end of a job with its posts (R16, R37), and the reverse bytes DATA, REPEAT, ROUTE, STATUS, YIELD and END (R100 to
R113): what each does to the routes, the units and the phase. -/

namespace Sys2Proof.Machine

variable {s t u : State} {k : SlotId} {r : RouteId} {b : Byte}

/-! ## Posts in a row -/

theorem unitAfter_append (s : State) (h : HostId) (es fs : List Event) :
    unitAfter s h (es ++ fs) = fs.foldl (fun u e => takePost (s.port h).detached e u) (unitAfter s h es) :=
  List.foldl_append

/-- Runs of posts behind one another. -/
theorem unitAfter_trans {h : HostId} {es fs : List Event} (ports : u.ports = s.ports) (eu : u.eu h = unitAfter s h es) :
    unitAfter u h fs = unitAfter s h (es ++ fs) := by
  rw [unitAfter_append, ← eu, unitAfter, State.port, ports, State.port]

theorem post_unitAfter (h : HostId) (e : Event) (s : State) (x : HostId) :
    (post h e s).eu x = unitAfter s x (postsTo h [e] x) := by
  rw [post_eu]
  by_cases here : h = x
  · rw [if_pos here, postsTo, if_pos here.symm]
    rfl
  · rw [if_neg here, postsTo, if_neg (Ne.symm here)]
    rfl

/-- Posts and an evaluation behind earlier posts. -/
theorem postedAheadOfSpace.after {p q : HostId → List Event} (posted : postedAheadOfSpace u t q) (ports : u.ports = s.ports)
    (marks : u.sp.marks = s.sp.marks) (eus : ∀ h, u.eu h = unitAfter s h (p h)) :
    postedAheadOfSpace s t fun h => p h ++ q h := by
  intro h
  obtain ⟨eu, mark⟩ := posted h
  have same : u.mark h = s.mark h := by rw [State.mark, marks, State.mark]
  rw [eu, mark, unitAfter_trans ports (eus h), same, spaceRecords_of_same same rfl, spaceDue_of_same same rfl,
    List.append_assoc]
  exact ⟨rfl, rfl⟩

/-! ## A job ends -/

/-- An ended job that held no segment, with its posts: JOB_ENDED goes to its owner ahead of any SPACE (R16). -/
theorem endJobAlone_posted (o : JobOutcome) (c : Cause) (kept : (s.job k).orphaned = false) (dry : (s.job k).chain = []) :
    postedAheadOfSpace s (endJobAlone k o c s) (postsTo (s.job k).owner [endedRecord s k (outcomeCauseByte o c)]) ∧
      endJobAlone k o c s = { s with
        eus := (endJobAlone k o c s).eus
        jm := { s.jm with jobs := upd s.jm.jobs k (endedJob (s.job k) o c) }
        sp := { s.sp with marks := (endJobAlone k o c s).sp.marks }
        rr := (stopReplyTimer k s).rr } := by
  have ended := endJob_kept o c kept
  rw [dry, List.map_nil, List.nil_append, List.length_nil, Nat.sub_zero, State.used, upd_self] at ended
  rw [endJobAlone]
  constructor
  · refine evaluateSpace_posted (by rw [ended]) (by rw [ended]) fun h => ?_
    rw [ended]
    exact post_unitAfter (s.job k).owner (jobEndedEvent s k o c) s h
  · have frame := evaluateSpace_frame (endJob k o c s)
    generalize (evaluateSpace (endJob k o c s)).eus = v at frame ⊢
    generalize (evaluateSpace (endJob k o c s)).sp.marks = m at frame ⊢
    rw [frame, ended]

/-! ## DATA bytes -/

theorem exec_reverseData (phase : s.le.link = .reverse) :
    exec (.reverseByte .data b) s = .next (acknowledgeByte (reverseData b (byteArrived s))) :=
  if_pos phase

/-- The selection names no route that takes or discards data in silence (R106). -/
abbrev strayData (s : State) : Prop :=
  s.rr.selection = none ∨ ∃ r, s.rr.selection = some r ∧ ((s.route r).state = .free ∨ (s.route r).state = .complete)

/-- The pending repeat is used up or broken (R105). -/
abbrev noRepeat (s : State) : State := { s with rr := { s.rr with repeats := none } }

theorem reverseData_eq (b : Byte) (s : State) :
    reverseData b s =
      match s.rr.selection with
      | none => orphanNotice (noRepeat s)
      | some r =>
        match (s.route r).state with
        | .free | .complete => orphanNotice (noRepeat s)
        | .aborted => noRepeat s
        | .opened => storeData r (s.rr.repeats.getD 1) b (noRepeat s) := rfl

theorem reverseData_stray (stray : strayData s) : reverseData b s = orphanNotice (noRepeat s) := by
  rw [reverseData_eq]
  rcases stray with none | ⟨r, selected, state⟩
  · rw [none]
  · rw [selected]
    dsimp only
    rcases state with e | e <;> rw [e]

theorem reverseData_aborted (selected : s.rr.selection = some r) (state : (s.route r).state = .aborted) :
    reverseData b s = noRepeat s := by
  rw [reverseData_eq, selected]
  dsimp only
  rw [state]

theorem reverseData_opened (selected : s.rr.selection = some r) (state : (s.route r).state = .opened) :
    reverseData b s = storeData r (s.rr.repeats.getD 1) b (noRepeat s) := by
  rw [reverseData_eq, selected]
  dsimp only
  rw [state]

theorem orphanNotice_silent (posted : s.rr.orphanPosted = true) : orphanNotice s = s := if_pos posted

/-- The ORPHAN notice (R106). -/
abbrev orphanEvent (s : State) : Event :=
  { kind := .linkProtocol, handle := none, route := s.rr.selection, code := 0x02#8 }

theorem orphanNotice_posts (first : s.rr.orphanPosted = false) :
    ∃ v, orphanNotice s = { s with eus := v, rr := { s.rr with orphanPosted := true } } ∧
      postedToLinkGroup s { s with eus := v } (orphanEvent s) := by
  obtain ⟨v, eq, posted⟩ := postLinkGroup_posted (orphanEvent s) s
  refine ⟨v, ?_, posted⟩
  rw [orphanNotice, if_neg (by simp [first])]
  have posts : postLinkGroup { kind := .linkProtocol, handle := none, route := s.rr.selection, code := orphanCode } s =
      { s with eus := v } := eq
  rw [posts]

/-- The route after a DATA byte of `n` copies (R106, R107, R113). -/
abbrev dataStored (time : Nat) (n : Nat) (b : Byte) (x : Route) : Route :=
  { x with
    buffer := (x.buffer ++ List.replicate n b).take 256
    truncated := x.truncated || decide (256 < x.buffer.length + n)
    timer := x.timer.map fun _ => time }

theorem storeCopies_restarted (time n : Nat) (b : Byte) (x : Route) (bound : x.buffer.length ≤ 256) :
    storeCopies b n (restartReplyTimer time x) = dataStored time n b x := by
  obtain ⟨buffer, truncated, state, owner, timer⟩ := storeCopies_spec b n (restartReplyTimer time x) bound
  have fill : (x.buffer ++ List.replicate n b).take 256 = x.buffer ++ List.replicate (min n (256 - x.buffer.length)) b := by
    rw [List.take_append, List.take_of_length_le bound, List.take_replicate, Nat.min_comm]
  generalize storeCopies b n (restartReplyTimer time x) = y at *
  obtain ⟨_, _, _, _, _⟩ := y
  dsimp only at buffer truncated state owner timer
  rw [buffer, truncated, state, owner, timer, dataStored, fill]
  rfl

theorem postToRouteOwner_frame (r : RouteId) (kind : EventKind) (code : Byte) (s : State) :
    postToRouteOwner r kind code s = { s with eus := (postToRouteOwner r kind code s).eus } := by
  rw [postToRouteOwner]
  split
  · rfl
  · split
    · rfl
    · rw [post_frame]

theorem postToRouteOwner_posts {x : Handle} (kind : EventKind) (code : Byte) (owner : (s.route r).owner = some x)
    (kept : (s.job x.slot).orphaned = false) :
    postToRouteOwner r kind code s =
      post (s.job x.slot).owner { kind := kind, handle := some x, route := some r, code := code } s := by
  rw [postToRouteOwner, owner]
  simp only [kept, Bool.false_eq_true, if_false]

/-- A DATA byte delivered to an OPEN route: the route takes it, and only a first byte is told of (R106, R107). -/
theorem storeData_spec (r : RouteId) (n : Nat) (b : Byte) (s : State) (bound : (s.route r).buffer.length ≤ 256) (some' : 1 ≤ n) :
    (storeData r n b s = { s with
        eus := (storeData r n b s).eus
        rr := { s.rr with routes := upd s.rr.routes r (dataStored s.su.settings.replyTime n b (s.route r)) } }) ∧
      ((s.route r).buffer ≠ [] → (storeData r n b s).eus = s.eus) ∧
      ∀ x, (s.route r).buffer = [] → (s.route r).owner = some x → (s.job x.slot).orphaned = false →
        postedTo s (storeData r n b s) (s.job x.slot).owner
          { kind := .replyArrived, handle := some x, route := some r, code := 0 } := by
  have stored := storeCopies_restarted s.su.settings.replyTime n b (s.route r) bound
  have eq : storeData r n b s =
      if (s.route r).buffer.isEmpty && !(dataStored s.su.settings.replyTime n b (s.route r)).buffer.isEmpty then
        postToRouteOwner r .replyArrived 0 (s.setRoute r (dataStored s.su.settings.replyTime n b (s.route r)))
      else s.setRoute r (dataStored s.su.settings.replyTime n b (s.route r)) := by
    rw [storeData]
    dsimp only
    rw [stored]
  refine ⟨?_, fun full => ?_, fun x empty owner kept => ?_⟩
  · rw [eq]
    split
    · rw [postToRouteOwner_frame]
      rfl
    · rfl
  · rw [eq, if_neg (by simp [full])]
    rfl
  · have new : (dataStored s.su.settings.replyTime n b (s.route r)).buffer.isEmpty = false := by
      simp [empty, Nat.ne_of_gt some']
    rw [eq, if_pos (by rw [new, empty]; rfl), postToRouteOwner_posts (x := x) _ _ (by rw [State.setRoute_route_same]; exact owner)]
    · rfl
    · exact kept

/-- Settles O46: the selection and the state of the selected route decide. -/
theorem reverseDataReachesTheSelectedRoute : Obligations.ReverseDataReachesTheSelectedRoute := by
  intro s b
  refine ⟨fun kind off => if_neg off, fun phase => ?_⟩
  rw [exec_reverseData phase]
  refine ⟨fun stray posted => ?_, fun stray first => ?_, fun r selected state => ?_,
    fun r copies selected state bound pending => ?_⟩
  · rw [reverseData_stray (s := byteArrived s) stray, orphanNotice_silent (s := noRepeat (byteArrived s)) posted]
    rfl
  · obtain ⟨v, eq, posts⟩ := orphanNotice_posts (s := noRepeat (byteArrived s)) first
    rw [reverseData_stray (s := byteArrived s) stray, eq]
    exact ⟨_, rfl, posts, rfl⟩
  · rw [reverseData_aborted (s := byteArrived s) selected state]
    rfl
  · have count : s.rr.repeats.getD 1 = copies ∧ 1 ≤ copies := by
      rcases pending with ⟨none, rfl⟩ | ⟨some', positive⟩
      · simp [none]
      · simp [some', positive]
    obtain ⟨frame, same, posts⟩ := storeData_spec r copies b (noRepeat (byteArrived s)) bound count.2
    have eq := reverseData_opened (s := byteArrived s) (b := b) selected state
    rw [show (byteArrived s).rr.repeats.getD 1 = copies from count.1] at eq
    rw [eq]
    refine ⟨_, rfl, same, posts, ?_⟩
    rw [frame]
    rfl

/-! ## REPEAT, ROUTE, STATUS and YIELD -/

/-- A broken repeat as new units (R105). -/
theorem breakRepeat_posted (s : State) :
    ∃ v, breakRepeat s = { noRepeat s with eus := v } ∧ ∀ h : HostId, v[h] = unitAfter s h (brokenRepeat s h) :=
  ⟨_, breakRepeat_frame s, breakRepeat_eu s⟩

theorem reverseControl_repeats (low : 0x40 ≤ b.toNat) (high : b.toNat ≤ 0x7F) :
    reverseControl b = .repeats (b.toNat - 0x40 + 2) := by
  have count : b.toNat % 64 = b.toNat - 0x40 := by omega
  rw [reverseControl, if_pos ⟨low, high⟩, count]

theorem reverseControl_route (number : b.toNat = 0x80 + r.val) : reverseControl b = .route r := by
  have bound := r.isLt
  have name : Fin.ofNat 16 b.toNat = r := Fin.ext (by rw [number]; simp only [Fin.ofNat]; omega)
  rw [reverseControl, if_neg (by omega), if_pos (by omega), name]

theorem reverseControl_status {n : Fin 16} (number : b.toNat = 0x90 + n.val) : reverseControl b = .status n := by
  have bound := n.isLt
  have name : Fin.ofNat 16 b.toNat = n := Fin.ext (by rw [number]; simp only [Fin.ofNat]; omega)
  rw [reverseControl, if_neg (by omega), if_neg (by omega), if_pos (by omega), name]

/-- The boundary behind a phase with a reverse request or with no work (R99, R102). -/
theorem applyOrder_grantedOrIdle (h : s.pins.rreq = true ∨ noWork s) : applyOrder s = grantedOrIdle s := by
  rw [grantedOrIdle]
  by_cases rreq : s.pins.rreq = true
  · rw [if_pos rreq, applyOrder_grant rreq]
    rfl
  · rw [if_neg rreq, applyOrder_noWork (h.resolve_left rreq)]

theorem grantedOrIdle_eus (s : State) : (grantedOrIdle s).eus = s.eus := by
  rw [grantedOrIdle]
  split <;> rfl

/-- A post to the STATUS group as new units (R121). -/
theorem postStatusGroup_posted (e : Event) (s : State) :
    ∃ v, postStatusGroup e s = { s with eus := v } ∧
      ∀ h : HostId, v[h] = unitAfter s h (if (s.eu h).statusGroup then [e] else []) := by
  refine ⟨_, postStatusGroup_frame e s, fun h => (postStatusGroup_eu e s h).trans ?_⟩
  split <;> rfl

theorem takePost_statusGroup (d : Bool) (e : Event) (u : EventUnit) : (takePost d e u).statusGroup = u.statusGroup := by
  rw [takePost]
  split
  · rfl
  · split <;> rfl

theorem unitAfter_statusGroup (s : State) (h : HostId) (es : List Event) :
    (unitAfter s h es).statusGroup = (s.eu h).statusGroup :=
  List.foldlRecOn (motive := fun u => u.statusGroup = (s.eu h).statusGroup) es _ rfl
    fun u same e _ => (takePost_statusGroup _ e u).trans same

/-- Settles O47: each class of byte behind the breaking of a pending repeat. -/
theorem reverseControlSteersThePhase : Obligations.ReverseControlSteersThePhase := by
  intro s b phase u broken
  obtain ⟨v, eq, told⟩ := breakRepeat_posted (byteArrived s)
  have units : ∀ h : HostId, v[h] = unitAfter s h (brokenRepeat s h) := told
  have run := exec_reverseControl (b := b) phase
  rw [eq] at run
  refine ⟨fun low high => ?_, fun r number => ?_, fun n number => ?_, fun yields' work => ?_⟩
  · rw [reverseControl_repeats low high] at run
    exact ⟨_, run, units, rfl⟩
  · rw [reverseControl_route number] at run
    exact ⟨_, run, units, rfl⟩
  · obtain ⟨w, posts, told⟩ := postStatusGroup_posted (plainEvent .periphStatus (BitVec.ofNat 8 n.val))
      { noRepeat (byteArrived s) with
        eus := v, le := { (byteArrived s).le with lastStatus := some n } }
    rw [reverseControl_status number, reverseControlByte, posts] at run
    refine ⟨_, run, fun h => (told h).trans ?_, rfl⟩
    have member : (v[h]).statusGroup = (s.eu h).statusGroup := by rw [units h, unitAfter_statusGroup]
    refine (unitAfter_trans (s := s) (u := { s with eus := v }) rfl (units h)).trans ?_
    rw [← member]
    rfl
  · rw [yields', show reverseControl 0xF1#8 = .yieldPhase from by decide, reverseControlByte,
      applyOrder_grantedOrIdle (by exact work)] at run
    subst yields'
    have same := grantedOrIdle_eus (endPhase (acknowledgeByte { noRepeat (byteArrived s) with eus := v }))
    refine ⟨_, run, fun h => ?_, ?_⟩
    · rw [State.eu, same]
      exact units h
    · dsimp only [u]
      rw [same]
      rfl

/-! ## END -/

/-- The selection is none (R108). -/
abbrev deselected (s : State) : State := { s with rr := { s.rr with selection := none } }

theorem reverseEnd_eq (s : State) :
    reverseEnd s = deselected
      (match s.rr.selection with
        | none => orphanNotice s
        | some r =>
          match (s.route r).state with
          | .free | .complete => orphanNotice s
          | .aborted => s
          | .opened => completeRoute r s) := rfl

theorem reverseEnd_stray (stray : strayData s) : reverseEnd s = deselected (orphanNotice s) := by
  rw [reverseEnd_eq]
  rcases stray with none | ⟨r, selected, state⟩
  · rw [none]
  · rw [selected]
    dsimp only
    rcases state with e | e <;> rw [e]

theorem reverseEnd_aborted (selected : s.rr.selection = some r) (state : (s.route r).state = .aborted) :
    reverseEnd s = deselected s := by
  rw [reverseEnd_eq, selected]
  dsimp only
  rw [state]

theorem reverseEnd_opened (selected : s.rr.selection = some r) (state : (s.route r).state = .opened) :
    reverseEnd s = deselected (completeRoute r s) := by
  rw [reverseEnd_eq, selected]
  dsimp only
  rw [state]

/-- The ORPHAN notice, posted once in a phase, as new units (R106). -/
theorem orphanNotice_spec (s : State) :
    ∃ v, orphanNotice s = { s with eus := v, rr := { s.rr with orphanPosted := true } } ∧
      ∀ h : HostId, v[h] = unitAfter s h
        (if s.rr.orphanPosted = false ∧ (s.eu h).linkGroup = true then [orphanEvent s] else []) := by
  cases first : s.rr.orphanPosted with
  | true =>
    refine ⟨s.eus, ?_, fun h => by simp [State.eu]⟩
    rw [orphanNotice_silent first, ← first]
  | false =>
    obtain ⟨v, eq, posted⟩ := orphanNotice_posts first
    refine ⟨v, eq, fun h => (posted h).trans ?_⟩
    by_cases member : (s.eu h).linkGroup = true <;> simp [member]

/-- The REPLY_END of the job that owns route `r` (R109). -/
abbrev replyEndEvent (s : State) (r : RouteId) (x : Handle) : Event :=
  { kind := .replyEnd, handle := some x, route := some r, code := if (s.route r).truncated then 0x01#8 else 0x00#8 }

/-- The part when END has completed route `r` and told its owner (R108, R109). -/
abbrev routeCompleted (s : State) (r : RouteId) (x : Handle) : State :=
  post (s.job x.slot).owner (replyEndEvent s r x) (s.setRoute r { s.route r with state := .complete })

theorem completeRoute_eq {x : Handle} (owner : (s.route r).owner = some x) (kept : (s.job x.slot).orphaned = false) :
    completeRoute r s =
      if (s.job x.slot).state = .awaitReply then endJobAlone x.slot .done .none (routeCompleted s r x)
      else routeCompleted s r x := by
  have bit : flagBit (s.route r).truncated 0 = if (s.route r).truncated then 0x01#8 else 0x00#8 := by
    cases (s.route r).truncated <;> rfl
  have told : postToRouteOwner r .replyEnd (flagBit (s.route r).truncated 0)
      (s.setRoute r { s.route r with state := .complete }) = routeCompleted s r x := by
    rw [postToRouteOwner_posts (s := s.setRoute r _) (x := x) _ _ (by rw [State.setRoute_route_same]; exact owner) kept, bit]
    rfl
  rw [completeRoute, told, owner]
  rfl

theorem postsTo_append (h : HostId) (es fs : List Event) (x : HostId) :
    postsTo h es x ++ postsTo h fs x = postsTo h (es ++ fs) x := by
  rw [postsTo, postsTo, postsTo]
  split <;> rfl

/-- The part when a CONTROL byte has arrived and broken a pending repeat, its units then `v`. -/
abbrev repeatBroken (s : State) (v : Vector EventUnit 4) : State := { noRepeat (byteArrived s) with eus := v }

/-- Settles O48: END behind the breaking of a pending repeat, by the selection and by the state of the selected route. -/
theorem reverseEndCompletesTheRoute : Obligations.ReverseEndCompletesTheRoute := by
  intro s phase command u stray notice
  obtain ⟨v, eq, told⟩ := breakRepeat_posted (byteArrived s)
  have units : ∀ h : HostId, v[h] = unitAfter s h (brokenRepeat s h) := told
  have run := exec_reverseControl (b := 0xF0#8) phase
  rw [eq, show reverseControl 0xF0#8 = .endReply from by decide, reverseControlByte] at run
  refine ⟨fun none => ?_, fun r selected state => ?_, fun r x selected state owner kept => ⟨fun busy => ?_,
    fun waiting route dry => ?_⟩⟩
  · obtain ⟨w, posts, orphan⟩ := orphanNotice_spec (repeatBroken s v)
    rw [reverseEnd_stray (s := repeatBroken s v) none, posts] at run
    refine ⟨_, run, fun h => (orphan h).trans ?_, rfl⟩
    have member : (v[h]).linkGroup = (s.eu h).linkGroup := by rw [units h, unitAfter_linkGroup]
    refine (unitAfter_trans (s := s) (u := { s with eus := v }) rfl (units h)).trans ?_
    rw [← member]
    rfl
  · rw [reverseEnd_aborted (s := repeatBroken s v) selected state] at run
    exact ⟨_, run, units, rfl⟩
  · rw [reverseEnd_opened (s := repeatBroken s v) selected state, completeRoute_eq (s := repeatBroken s v) owner kept, if_neg (by exact busy)] at run
    refine ⟨_, run, fun h => ?_, rfl⟩
    exact (post_unitAfter ..).trans (unitAfter_trans (s := s) (u := repeatBroken s v) rfl (units h))
  · rw [reverseEnd_opened (s := repeatBroken s v) selected state, completeRoute_eq (s := repeatBroken s v) owner kept, if_pos (by exact waiting)] at run
    have eus : ∀ h, (routeCompleted (repeatBroken s v) r x).eu h =
        unitAfter s h (brokenRepeat s h ++ postsTo (s.job x.slot).owner [replyEndEvent s r x] h) := fun h =>
      (post_unitAfter ..).trans (unitAfter_trans (s := s) (u := repeatBroken s v) rfl (units h))
    obtain ⟨posted, frame⟩ := endJobAlone_posted (s := routeCompleted (repeatBroken s v) r x) (k := x.slot) .done .none kept dry
    have timer : (stopReplyTimer x.slot (routeCompleted (repeatBroken s v) r x)).rr =
        { (repeatBroken s v).rr with
          routes := upd s.rr.routes r { s.route r with state := .complete, timer := none } } := by
      have named : ((routeCompleted (repeatBroken s v) r x).job x.slot).route = some r := route
      rw [stopReplyTimer, named]
      simp only [routeCompleted, post, State.setEu_route, State.setRoute_route_same]
      simp only [State.setRoute, State.setEu, upd_upd]
      rfl
    rw [timer] at frame
    generalize endJobAlone x.slot .done .none (routeCompleted (repeatBroken s v) r x) = t at run posted frame
    refine ⟨_, run, ?_, ?_⟩
    · have ended : postedAheadOfSpace (routeCompleted (repeatBroken s v) r x) t
          (postsTo (s.job x.slot).owner [endedRecord s x.slot 0x10#8]) := posted
      have all := ended.after (s := s) rfl rfl eus
      simp only [List.append_assoc, postsTo_append] at all
      exact all
    · rw [frame]
      rfl

end Sys2Proof.Machine
end

section
/-! SUPPORT. Decisions of the Dispatch Unit (R43, R48 to R62): what `choose` answers, when a job preempts or yields, who has the link
after a leaving, and how far `settle` runs. -/

namespace Sys2Proof.Machine

variable {s t : State} {h : HostId} {a k z : SlotId} {l : List SlotId}

/-! ## Candidates -/

theorem channelOpen_iff : channelOpen s k = true ↔ openChannel s k := by
  rw [channelOpen, openChannel]
  split
  · next free => simp [free]
  · next c taken => simp [taken]

theorem eligible_iff : eligible s k = true ↔ (s.job k).state = .ready ∧ (s.job k).priority ≠ 0 ∧ openChannel s k := by
  rw [eligible, Bool.and_eq_true, Bool.and_eq_true, decide_eq_true_iff, decide_eq_true_iff, channelOpen_iff, and_assoc]

/-- Admissible jobs are the candidates of R43. -/
theorem admissible_iff {pushed : Option SlotId} : admissible s pushed k = true ↔ candidate s pushed k := by
  have apart : ((s.du.stack ++ pushed.toList).all fun j => decide ((s.job j).channel ≠ (s.job k).channel)) = true ↔
      (∀ j ∈ s.du.stack, (s.job j).channel ≠ (s.job k).channel) ∧
        ∀ j, pushed = some j → (s.job j).channel ≠ (s.job k).channel := by
    simp only [List.all_eq_true, List.mem_append, Option.mem_toList, decide_eq_true_iff, or_imp, forall_and]
  rw [admissible, Bool.and_eq_true, eligible_iff, apart]
  exact ⟨fun ⟨⟨r, p, c⟩, x, y⟩ => ⟨r, p, c, x, y⟩, fun ⟨r, p, c, x, y⟩ => ⟨⟨r, p, c⟩, x, y⟩⟩

/-! ## The choice among candidates -/

/-- The highest priority is at least a bound and at least each priority, and is one of these. -/
theorem topPriority_fold (s : State) (l : List SlotId) (p : Fin 8) :
    p ≤ l.foldl (fun p k => max p (s.job k).priority) p ∧
      (∀ k ∈ l, (s.job k).priority ≤ l.foldl (fun p k => max p (s.job k).priority) p) ∧
      (l.foldl (fun p k => max p (s.job k).priority) p = p ∨
        ∃ k ∈ l, (s.job k).priority = l.foldl (fun p k => max p (s.job k).priority) p) := by
  induction l generalizing p with
  | nil => exact ⟨le_refl p, fun k none => absurd none List.not_mem_nil, .inl rfl⟩
  | cons x l ih =>
    obtain ⟨low, bound, reached⟩ := ih (max p (s.job x).priority)
    rw [List.foldl_cons]
    refine ⟨(le_max_left ..).trans low, fun k mem => ?_, ?_⟩
    · rcases List.mem_cons.mp mem with rfl | mem
      · exact (le_max_right ..).trans low
      · exact bound k mem
    · rcases reached with same | ⟨k, mem, eq⟩
      · rcases max_choice p (s.job x).priority with left | right
        · exact .inl (same.trans left)
        · exact .inr ⟨x, List.mem_cons_self, right.symm.trans same.symm⟩
      · exact .inr ⟨k, List.mem_cons_of_mem _ mem, eq⟩

theorem le_topPriority (mem : k ∈ l) : (s.job k).priority ≤ topPriority s l := (topPriority_fold s l 0).2.1 k mem

theorem topPriority_reached (some' : k ∈ l) : ∃ z ∈ l, (s.job z).priority = topPriority s l := by
  obtain ⟨-, bound, zero | reached⟩ := topPriority_fold s l 0
  · exact ⟨k, some', le_antisymm (bound k some') (by rw [topPriority, zero]; exact Fin.zero_le _)⟩
  · exact reached

/-- The rotation counts the hosts in the order in which the choice looks at them (R48). -/
theorem turnsAfter_eq (h x : HostId) : turnsAfter h x = (hostsAfter h).idxOf x := by
  revert h x
  decide

theorem mem_hostsAfter (h x : HostId) : x ∈ hostsAfter h := by
  revert h x
  decide

/-- What is found first is ahead of all that would do. -/
theorem idxOf_le_of_find {p : SlotId → Bool} (found : l.find? p = some k) (does : p z = true) :
    l.idxOf k ≤ l.idxOf z := by
  induction l with
  | nil => cases found
  | cons x l ih =>
    have first : p k = true := List.find?_some found
    by_cases here : p x = true
    · rw [List.find?_cons_of_pos here] at found
      rw [Option.some.inj found, List.idxOf_cons_self]
      exact Nat.zero_le _
    · rw [List.find?_cons_of_neg here] at found
      have skip_k : x ≠ k := by
        rintro rfl
        exact here first
      have skip_z : x ≠ z := by
        rintro rfl
        exact here does
      rw [List.idxOf_cons_ne _ skip_k, List.idxOf_cons_ne _ skip_z]
      exact Nat.succ_le_succ (ih found)

/-- The first host with something to find is ahead of every other such host. -/
theorem idxOf_le_of_findSome {f : HostId → Option SlotId} {hosts : List HostId} {y x : HostId}
    (found : hosts.findSome? f = some k) (at_y : ∀ w, f w = some k → w = y) (other : f x ≠ none) :
    hosts.idxOf y ≤ hosts.idxOf x := by
  induction hosts with
  | nil => cases found
  | cons w hosts ih =>
    rw [List.findSome?_cons] at found
    split at found
    · next m here =>
      obtain rfl : w = y := at_y w (here.trans found)
      rw [List.idxOf_cons_self]
      exact Nat.zero_le _
    · next nothing =>
      have skip_x : w ≠ x := fun e => other (e ▸ nothing)
      by_cases skip_y : w = y
      · rw [skip_y, List.idxOf_cons_self]
        exact Nat.zero_le _
      · rw [List.idxOf_cons_ne _ skip_y, List.idxOf_cons_ne _ skip_x]
        exact Nat.succ_le_succ (ih found)

/-- What `choose` answers among the jobs of an age-ordered list that pass a test: one of them, of the highest priority, of the first
host in rotation with such a job, and of that host's the earliest (R48). -/
theorem choose_some {p : SlotId → Bool} (chosen : choose s h (l.filter p) = some k) :
    k ∈ l ∧ p k = true ∧ ∀ z ∈ l, p z = true →
      (s.job z).priority ≤ (s.job k).priority ∧
        ((s.job z).priority = (s.job k).priority →
          turnsAfter h (s.job k).owner ≤ turnsAfter h (s.job z).owner ∧
            ((s.job z).owner = (s.job k).owner → l.idxOf k ≤ l.idxOf z)) := by
  rw [choose] at chosen
  set top := topPriority s (l.filter p) with def_top
  obtain ⟨x, -, found⟩ := List.exists_of_findSome?_eq_some chosen
  have owner : (s.job k).owner = x := by simpa using List.find?_some found
  have mem := List.mem_of_find?_eq_some found
  rw [List.mem_filter, List.mem_filter, decide_eq_true_iff] at mem
  obtain ⟨⟨mem, pass⟩, prio⟩ := mem
  refine ⟨mem, pass, fun z mem_z pass_z => ?_⟩
  have low : (s.job z).priority ≤ top := le_topPriority (List.mem_filter.mpr ⟨mem_z, pass_z⟩)
  refine ⟨prio ▸ low, fun same => ?_⟩
  rw [prio] at same
  have best : z ∈ (l.filter p).filter fun k => decide ((s.job k).priority = top) := by
    simp [mem_z, pass_z, same]
  rw [turnsAfter_eq, turnsAfter_eq]
  refine ⟨idxOf_le_of_findSome chosen (fun w at_w => ?_) fun none => ?_, fun same_owner => ?_⟩
  · have : (s.job k).owner = w := by simpa using List.find?_some at_w
    exact this.symm
  · simpa using List.find?_eq_none.mp none z best
  · rw [List.find?_filter, List.find?_filter] at found
    refine idxOf_le_of_find found ?_
    simp [pass_z, same, same_owner, owner]

theorem choose_none : choose s h l = none ↔ l = [] := by
  constructor
  · intro none
    by_contra nonempty
    obtain ⟨k, mem⟩ := List.exists_mem_of_ne_nil l nonempty
    obtain ⟨z, mem_z, top⟩ := topPriority_reached (s := s) mem
    rw [choose, List.findSome?_eq_none_iff] at none
    have unfound := List.find?_eq_none.mp (none (s.job z).owner (mem_hostsAfter h _)) z
      (List.mem_filter.mpr ⟨mem_z, decide_eq_true top⟩)
    simp at unfound
  · rintro rfl
    simp [choose, hostsAfter]

theorem bestAdmissible_eq_none {pushed : Option SlotId} :
    bestAdmissible s pushed = none ↔ ∀ z ∈ s.du.ready, ¬ candidate s pushed z := by
  rw [bestAdmissible, choose_none, List.filter_eq_nil_iff]
  exact forall₂_congr fun z _ => not_congr admissible_iff

/-- The best admissible job is a candidate in the ready set. -/
theorem bestAdmissible_candidate {pushed : Option SlotId} (best : bestAdmissible s pushed = some k) :
    k ∈ s.du.ready ∧ candidate s pushed k := by
  obtain ⟨mem, pass, -⟩ := choose_some best
  exact ⟨mem, admissible_iff.mp pass⟩

/-- Settles O50: candidates are the admissible jobs, and the best of them is the one `choose` answers. -/
theorem selectionIsByPriorityRotationAndAge : Obligations.SelectionIsByPriorityRotationAndAge := by
  intro s pushed isCandidate
  have same : ∀ z, isCandidate z ↔ candidate s pushed z := fun z => by
    have positive : 1 ≤ (s.job z).priority.val ↔ (s.job z).priority ≠ 0 := by
      rw [Nat.one_le_iff_ne_zero, Ne, Fin.val_eq_zero_iff]
    simp only [isCandidate, positive, or_imp, forall_and]
  refine ⟨?_, fun k best => ?_⟩
  · rw [bestAdmissible_eq_none]
    exact forall₂_congr fun z _ => not_congr (same z).symm
  · obtain ⟨mem, pass, ahead⟩ := choose_some best
    exact ⟨mem, (same k).mpr (admissible_iff.mp pass), fun z mem_z cand =>
      ahead z mem_z (admissible_iff.mpr ((same z).mp cand))⟩

/-! ## Break points -/

theorem preemptor_eq_some (up : recovering s = false) : preemptor s a = some k ↔ urgent s a k := by
  rw [preemptor, urgent]
  split
  · next none => simp [none]
  · next m best =>
    constructor
    · intro eq
      split at eq
      · next conds =>
        cases eq
        exact ⟨up, best, conds⟩
      · cases eq
    · rintro ⟨-, eq, conds⟩
      cases best.symm.trans eq
      exact if_pos conds

theorem preempt_of_urgent (u : urgent s a k) : preempt s a = some (takesLink (suspends s a) k) := by
  rw [preempt, (preemptor_eq_some u.1).mpr u]
  rfl

theorem preempt_of_not_urgent (up : recovering s = false) (calm : ∀ k, ¬ urgent s a k) : preempt s a = none := by
  rw [preempt, Option.map_eq_none_iff]
  exact Option.eq_none_iff_forall_ne_some.mpr fun k eq => calm k ((preemptor_eq_some up).mp eq)

/-- The test a rival passes beside being in the ready set (R56). -/
theorem rival_iff : k ∈ s.du.ready ∧
    (admissible s none k && decide ((s.job k).priority = (s.job a).priority) &&
      decide ((s.job k).owner ≠ (s.job a).owner)) = true ↔ rival s a k := by
  rw [Bool.and_eq_true, Bool.and_eq_true, decide_eq_true_iff, decide_eq_true_iff, admissible_iff, and_assoc]

theorem yieldSuccessor_rival (done : spent s (s.job a).turn) (some' : ∃ k, rival s a k) :
    ∃ k, firstRival s a k ∧ yieldSuccessor s a = some k := by
  have eq : yieldSuccessor s a = choose s (s.job a).owner (s.du.ready.filter _) := if_pos done
  obtain ⟨r, is_rival⟩ := some'
  obtain ⟨mem, pass⟩ := rival_iff.mpr is_rival
  rw [eq]
  cases chosen : choose s (s.job a).owner (s.du.ready.filter _) with
  | none =>
    rw [choose_none, List.filter_eq_nil_iff] at chosen
    exact absurd pass (chosen r mem)
  | some k =>
    obtain ⟨mem_k, pass_k, ahead⟩ := choose_some chosen
    have rival_k := rival_iff.mp ⟨mem_k, pass_k⟩
    refine ⟨k, ⟨rival_k, fun z rival_z => ?_⟩, rfl⟩
    obtain ⟨mem_z, pass_z⟩ := rival_iff.mpr rival_z
    obtain ⟨-, -, prio_k, -⟩ := rival_k
    obtain ⟨-, -, prio_z, -⟩ := rival_z
    exact (ahead z mem_z pass_z).2 (prio_z.trans prio_k.symm)

theorem yieldSuccessor_none (stays : ¬ spent s (s.job a).turn ∨ ∀ k, ¬ rival s a k) : yieldSuccessor s a = none := by
  rw [yieldSuccessor]
  split
  · next done =>
    rw [choose_none, List.filter_eq_nil_iff]
    exact fun z mem pass => (stays.resolve_left fun n => n done) z (rival_iff.mp ⟨mem, pass⟩)
  · rfl

theorem breakPoint_recovering (down : recovering s = true) : breakPoint s a = none := if_pos down

theorem breakPoint_urgent (u : urgent s a k) : breakPoint s a = some (takesLink (suspends s a) k) := by
  rw [breakPoint, if_neg (by simp [u.1]), preempt_of_urgent u]

theorem breakPoint_calm (up : recovering s = false) (calm : ∀ k, ¬ urgent s a k) : breakPoint s a = yieldTurn s a := by
  rw [breakPoint, if_neg (by simp [up]), preempt_of_not_urgent up calm]

theorem breakPoint_yields (up : recovering s = false) (calm : ∀ k, ¬ urgent s a k) (done : spent s (s.job a).turn)
    (some' : ∃ k, rival s a k) : ∃ k, firstRival s a k ∧ breakPoint s a = some (yields s a k) := by
  obtain ⟨k, first, eq⟩ := yieldSuccessor_rival done some'
  refine ⟨k, first, ?_⟩
  rw [breakPoint_calm up calm, yieldTurn, eq]
  rfl

theorem breakPoint_stays (up : recovering s = false) (stays : staysOn s a (s.job a).turn) : breakPoint s a = none := by
  rw [breakPoint_calm up stays.1, yieldTurn, yieldSuccessor_none stays.2]
  rfl

/-- Settles O51: the two tests of a break point, in order. -/
theorem breakPointsYieldToUrgencyOrTurn : Obligations.BreakPointsYieldToUrgencyOrTurn :=
  fun _ _ _ => ⟨breakPoint_recovering, fun up => ⟨fun _ => breakPoint_urgent, breakPoint_yields up, breakPoint_stays up⟩⟩

/-! ## The leaving decision -/

theorem leavingDecision_eq {n : Successor} (named : leavesTo s n) : leavingDecision s = passedTo s n := by
  rw [leavingDecision]
  cases n with
  | nobody =>
    rcases named with down | ⟨empty, nobody⟩
    · exact if_pos down
    · rw [empty, nobody]
      exact ite_self s
  | selected k =>
    obtain ⟨up, best, enters⟩ := named
    rw [if_neg (by simp [up]), best]
    cases top : s.du.stack.getLast? with
    | none => rfl
    | some z => exact if_pos (enters z top)
  | resumed z =>
    obtain ⟨up, top, stays⟩ := named
    rw [if_neg (by simp [up]), top]
    cases best : bestAdmissible s none with
    | none => rfl
    | some k =>
      refine if_neg fun ⟨above, floor⟩ => ?_
      rcases stays k best with low | low
      · exact absurd above (not_lt_of_ge low)
      · omega

/-- The leaving decision always names somebody, or nobody. -/
theorem leavesTo_exists (s : State) : ∃ n, leavesTo s n := by
  cases up : recovering s with
  | true => exact ⟨.nobody, .inl up⟩
  | false =>
    cases top : s.du.stack.getLast? with
    | none =>
      cases best : bestAdmissible s none with
      | none => exact ⟨.nobody, .inr ⟨List.getLast?_eq_none_iff.mp top, best⟩⟩
      | some k => exact ⟨.selected k, up, best, fun z eq => absurd (top.symm.trans eq) nofun⟩
    | some z =>
      by_cases enters : ∃ k, bestAdmissible s none = some k ∧ (s.job z).priority < (s.job k).priority ∧
          s.su.settings.preemptFloor ≤ (s.job k).priority.val
      · obtain ⟨k, best, conds⟩ := enters
        exact ⟨.selected k, up, best, fun y eq => Option.some.inj (top.symm.trans eq) ▸ conds⟩
      · refine ⟨.resumed z, up, top, fun k best => ?_⟩
        by_contra neither
        rw [not_or, not_le, not_lt] at neither
        exact enters ⟨k, best, neither⟩

/-- Settles O52: the decision by whom it names. -/
theorem leavingSelectsOrResumes : Obligations.LeavingSelectsOrResumes := by
  intro s idle t
  obtain ⟨n, named⟩ := leavesTo_exists s
  have eq : t = passedTo s n := leavingDecision_eq named
  refine ⟨fun down => if_pos down, fun up => ?_⟩
  cases n with
  | nobody =>
    obtain nobody := named.resolve_left (by simp [up])
    have same : t = s := eq
    refine ⟨?_, fun _ => same, fun k active => ?_⟩
    · rw [same]
      exact iff_of_true idle nobody
    · rw [same, idle] at active
      cases active
  | selected m =>
    obtain ⟨-, best, enters⟩ := named
    have active : t.du.active = some m := by rw [eq]
    refine ⟨?_, fun none => absurd (active.symm.trans none) nofun, fun k is => ?_⟩
    · rw [active, best]
      simp
    · obtain rfl : m = k := Option.some.inj (active.symm.trans is)
      obtain ⟨mem, cand⟩ := bestAdmissible_candidate best
      have job : t.job m = { s.job m with state := .active, turn := 0, readySeq := none } := by
        rw [eq]
        exact upd_same ..
      refine ⟨by rw [job], by rw [job], .inl ⟨best, mem, cand, ?_, ?_, ?_, eq, enters⟩⟩ <;> rw [eq]
  | resumed z =>
    obtain ⟨-, top, stays⟩ := named
    have active : t.du.active = some z := by rw [eq]
    have parts : s.du.stack = s.du.stack.dropLast ++ [z] := (List.dropLast_append_getLast? z top).symm
    refine ⟨?_, fun none => absurd (active.symm.trans none) nofun, fun k is => ?_⟩
    · rw [active, parts]
      simp
    · obtain rfl : z = k := Option.some.inj (active.symm.trans is)
      have job : t.job z = { s.job z with state := .active, turn := 0 } := by
        rw [eq]
        exact upd_same ..
      refine ⟨by rw [job], by rw [job], .inr ⟨?_, ?_, ?_, eq, stays⟩⟩ <;> rw [eq]
      exact parts

end Sys2Proof.Machine
end

section
/-! SUPPORT. How far `settle` runs (R50, R57, R61, R62, R92): a round after the first makes a job ACTIVE from the ready set or pops the
stack, so the fuel of `settled` suffices. -/

namespace Sys2Proof.Machine

variable {s t u : State} {a k : SlotId}

/-- The chain of the active job has nothing more to bring about. -/
abbrev chainActedOn (s : State) : Prop :=
  ∀ a, s.du.active = some a →
    headEntry s a ≠ none ∨ entryOffered s a = true ∨
      (s.job a).closed = false ∧ ((s.job a).stream = true → s.le.dryTimer ≠ none)

/-- The rounds of `settle` there can be from a state on. -/
def roundsLeft (s : State) : Nat := 2 * s.du.ready.length + s.du.stack.length

/-- A job just made ACTIVE has turn count 0, so its turn is not spent (R50, R61). -/
abbrev freshTurn (s : State) : Prop := ∀ a, s.du.active = some a → (s.job a).turn = 0

theorem takesLink_fresh (s : State) (k : SlotId) : freshTurn (takesLink s k) := by
  intro a active
  obtain rfl : k = a := Option.some.inj active
  show (upd s.jm.jobs k _)[k].turn = 0
  rw [upd_same]

theorem resumes_fresh (s : State) (z : SlotId) : freshTurn (resumes s z) := by
  intro a active
  obtain rfl : z = a := Option.some.inj active
  show (upd s.jm.jobs z _)[z].turn = 0
  rw [upd_same]

theorem takesLink_rounds (mem : k ∈ s.du.ready) : roundsLeft (takesLink s k) + 2 = roundsLeft s := by
  have positive := List.length_pos_of_mem mem
  simp only [roundsLeft, List.length_erase_of_mem mem]
  omega

/-- What one leaving decision does to the rounds left, if it gives the link to anybody. -/
theorem leavingDecision_rounds (idle : s.du.active = none) :
    freshTurn (leavingDecision s) ∧ roundsLeft (leavingDecision s) ≤ roundsLeft s ∧
      ((leavingDecision s).du.active = none ∨ roundsLeft (leavingDecision s) < roundsLeft s) := by
  obtain ⟨n, named⟩ := leavesTo_exists s
  rw [leavingDecision_eq named]
  cases n with
  | nobody =>
    refine ⟨fun a active => ?_, le_refl _, .inl idle⟩
    rw [show (passedTo s .nobody).du.active = none from idle] at active
    cases active
  | selected k =>
    obtain ⟨-, best, -⟩ := named
    have fewer : roundsLeft (passedTo s (.selected k)) + 2 = roundsLeft s :=
      takesLink_rounds (bestAdmissible_candidate best).1
    exact ⟨takesLink_fresh s k, by omega, .inr (by omega)⟩
  | resumed z =>
    obtain ⟨-, top, -⟩ := named
    have positive : 0 < s.du.stack.length := List.length_pos_of_mem (List.mem_of_getLast? top)
    have fewer : roundsLeft (passedTo s (.resumed z)) + 1 = roundsLeft s := by
      simp only [roundsLeft, List.length_dropLast]
      omega
    exact ⟨resumes_fresh s z, by omega, .inr (by omega)⟩

/-- What a break point that changes the active job does to the rounds left: a preemption has one fewer, and a yield, which a fresh
turn does not allow, as many. -/
theorem breakPoint_rounds (changed : breakPoint s a = some t) :
    freshTurn t ∧ roundsLeft t ≤ roundsLeft s ∧ ((s.job a).turn = 0 → roundsLeft t < roundsLeft s) := by
  have up : recovering s = false := by
    by_contra down
    rw [breakPoint_recovering (by simpa using down)] at changed
    cases changed
  by_cases urgency : ∃ k, urgent s a k
  · obtain ⟨k, u⟩ := urgency
    rw [breakPoint_urgent u] at changed
    cases changed
    have fewer := takesLink_rounds (s := suspends s a) (bestAdmissible_candidate u.2.1).1
    have pushed : roundsLeft (suspends s a) = roundsLeft s + 1 := by
      simp only [roundsLeft, List.length_append, List.length_singleton]
      omega
    exact ⟨takesLink_fresh _ k, by omega, fun _ => by omega⟩
  · have calm : ∀ k, ¬ urgent s a k := fun k u => urgency ⟨k, u⟩
    by_cases stays : staysOn s a (s.job a).turn
    · rw [breakPoint_stays up stays] at changed
      cases changed
    · have moves : spent s (s.job a).turn ∧ ∃ k, rival s a k := by
        by_contra not
        refine stays ⟨calm, ?_⟩
        rw [not_and_or] at not
        exact not.imp_right fun none k r => none ⟨k, r⟩
      obtain ⟨k, ⟨⟨mem, -⟩, -⟩, yielded⟩ := breakPoint_yields up calm moves.1 moves.2
      rw [yielded] at changed
      cases changed
      have fewer : roundsLeft (yields s a k) + 2 =
          roundsLeft { joins s a (s.job a) with le := { s.le with dryTimer := none } } :=
        takesLink_rounds (List.mem_append_left _ mem)
      have joined : roundsLeft { joins s a (s.job a) with le := { s.le with dryTimer := none } } = roundsLeft s + 2 := by
        simp only [roundsLeft, List.length_append, List.length_singleton]
        omega
      refine ⟨takesLink_fresh _ k, by omega, fun fresh => ?_⟩
      obtain ⟨⟨on, reached⟩, -⟩ := moves
      rw [fresh] at reached
      omega

theorem completeTransmission_du (k : SlotId) (s : State) :
    (completeTransmission k s).du.ready = s.du.ready ∧ (completeTransmission k s).du.stack = s.du.stack ∧
      (completeTransmission k s).du.active = none := by
  have claims : (dropActive (releaseClaim k s)).du.ready = s.du.ready ∧ (dropActive (releaseClaim k s)).du.stack = s.du.stack ∧
      (dropActive (releaseClaim k s)).du.active = none := by
    rw [releaseClaim]
    split <;> exact ⟨rfl, rfl, rfl⟩
  have ended : (endJobAlone k .done .none (dropActive (releaseClaim k s))).du = (dropActive (releaseClaim k s)).du := by
    rw [endJobAlone, evaluateSpace_frame, endJob_frame]
  rw [completeTransmission]
  split
  · rw [ended]
    exact claims
  · split
    · exact claims
    · rw [ended]
      exact claims

/-- One round: the chain of the active job is acted on, or a round goes on from a state with a fresh turn and, after a fresh turn or
with nobody active, fewer rounds left. -/
theorem settle_round (n : Nat) (s : State) :
    chainActedOn (settle (n + 1) s) ∨ ∃ u, settle (n + 1) s = settle n u ∧ freshTurn u ∧ roundsLeft u ≤ roundsLeft s ∧
      (freshTurn s → u.du.active = none ∨ roundsLeft u < roundsLeft s) := by
  rw [settle]
  cases active : s.du.active with
  | none =>
    left
    intro a eq
    rw [active] at eq
    cases eq
  | some a =>
    have only : ∀ P : SlotId → Prop, P a → ∀ x, s.du.active = some x → P x := fun P holds x eq =>
      Option.some.inj (active.symm.trans eq) ▸ holds
    dsimp only
    split
    · next busy =>
      refine .inl (only _ ?_)
      rw [Bool.or_eq_true, Option.isSome_iff_ne_none] at busy
      exact busy.imp_right .inl
    · split
      · obtain ⟨ready, stack, idle⟩ := completeTransmission_du a s
        obtain ⟨fresh, most, fewer⟩ := leavingDecision_rounds idle
        have same : roundsLeft (completeTransmission a s) = roundsLeft s := by rw [roundsLeft, ready, stack, roundsLeft]
        rw [same] at most fewer
        exact .inr ⟨_, rfl, fresh, most, fun _ => fewer⟩
      · next opened =>
        have opened : (s.job a).closed = false := by simpa using opened
        split
        · split
          · refine .inl fun x eq => ?_
            obtain rfl : a = x := Option.some.inj (active.symm.trans eq)
            exact .inr (.inr ⟨opened, fun _ => nofun⟩)
          · next changed =>
            obtain ⟨fresh, most, fewer⟩ := breakPoint_rounds changed
            exact .inr ⟨_, rfl, fresh, most, fun turn => .inr (fewer (turn a active))⟩
        · next whole =>
          exact .inl (only _ (.inr (.inr ⟨opened, fun stream => absurd stream whole⟩)))

theorem settle_inactive (n : Nat) (idle : s.du.active = none) : settle n s = s := by
  cases n with
  | zero => rfl
  | succ n => rw [settle, idle]

/-- From a fresh turn on, more fuel than rounds left is enough. -/
theorem settle_actedOn (n : Nat) (fresh : freshTurn s) (enough : roundsLeft s < n) : chainActedOn (settle n s) := by
  induction n generalizing s with
  | zero => omega
  | succ n ih =>
    obtain done | ⟨u, eq, fresh_u, -, fewer⟩ := settle_round n s
    · exact done
    · rw [eq]
      rcases fewer fresh with idle | fewer
      · rw [settle_inactive n idle]
        intro a active
        rw [idle] at active
        cases active
      · exact ih fresh_u (by omega)

theorem settled_actedOn (s : State) : chainActedOn (settled s) := by
  have fuel : settleFuel s = roundsLeft s + 2 + 1 := rfl
  rw [settled, fuel]
  obtain done | ⟨u, eq, fresh, most, -⟩ := settle_round (roundsLeft s + 2) s
  · exact done
  · rw [eq]
    exact settle_actedOn _ fresh (by omega)

/-- Settles O53: the fuel of `settled` covers the rounds there can be. -/
theorem dryActiveJobsAreSettled : Obligations.DryActiveJobsAreSettled := fun s a active => settled_actedOn s a active

end Sys2Proof.Machine
end

section
/-! SUPPORT. Every event that brings the link to a boundary, or changes what it reads there, ends in the order of work, which leaves
nothing to do (R77, R78, R79, R102). -/

namespace Sys2Proof.Machine

variable {s t u : State} {h : HostId}

/-! ## Where nothing is left to do -/

theorem boundaryWork_done (s : State) : nothingToDo (boundaryWork s) := by
  by_cases l : s.le.link = .idle ∨ s.le.link = .waiting
  · rw [boundaryWork_at l]
    exact applyOrder_done s
  · rw [not_or] at l
    rw [boundaryWork_elsewhere l.1 l.2]
    exact .inl l

theorem nothingToDo_elsewhere {l : LinkState} (link : t.le.link = l) (idle : l ≠ .idle) (waiting : l ≠ .waiting) :
    nothingToDo t :=
  .inl ⟨link ▸ idle, link ▸ waiting⟩

/-- The order of work reads neither ports, units nor the lease. -/
theorem nothingToDo_of_hostSide {p : Vector Port 4} {v : Vector EventUnit 4} {su : SettingsUnit} (done : nothingToDo s) :
    nothingToDo { s with ports := p, eus := v, su := su } :=
  done

/-! ## Requests -/

/-- Answers of different codes are different frames: the code stands in the low bits of STATUS (R179). -/
theorem statusByte_code {x : EventUnit} {l : LinkState} {c d : AnswerCode} (same : statusByte x l c = statusByte x l d) : c = d := by
  have low : ∀ (a b e : Bool) (c d : AnswerCode),
      flagBit a 7 ||| flagBit b 6 ||| flagBit e 5 ||| answerCodeByte c =
        flagBit a 7 ||| flagBit b 6 ||| flagBit e 5 ||| answerCodeByte d → c = d := by
    intro a b e c d
    cases c <;> cases d <;> revert a b e <;> decide
  exact low _ _ _ c d same

theorem answerFrame_code {x : EventUnit} {l : LinkState} {c d : AnswerCode} {p q : List Byte}
    (same : answerFrame (statusByte x l c) p = answerFrame (statusByte x l d) q) : c = d := by
  rw [answerFrame, answerFrame, withCheck, withCheck, List.cons_append, List.cons_append] at same
  exact statusByte_code (List.cons.inj same).1

/-- A served request that is answered OK was judged OK. -/
theorem serve_ok {body : State → Reply} {payload : List Byte} (e : serve h body s = .next t) (port : taking s h)
    (answered : answeredWith s t h .ok payload) :
    (body s).code = .ok ∧ t = answer h .ok (body s).payload true (body s).state := by
  rw [serve_taking port] at e
  have eq := next_inj e
  have code : (body s).code = .ok := by
    have mine : (t.port h).framing = .answer (frameIn t h .ok payload) := by
      rw [State.port, answered, upd_same]
    rw [← eq, answer_port, if_pos rfl] at mine
    exact answerFrame_code (Framing.answer.inj mine)
  rw [code] at eq
  exact ⟨code, eq.symm⟩

/-- Where the judgement is OK, its effect ends in the order of work. -/
abbrev worksOn (r : Reply) : Prop := r.code = .ok → ∃ u, r.state = boundaryWork u

theorem refuse_worksOn {code : AnswerCode} (s : State) (no : code ≠ .ok) : worksOn (refuse s code) := fun e => absurd e no

theorem withOwnJob_worksOn {hd : Byte} {body : SlotId → Reply} (works : ∀ k, worksOn (body k)) :
    worksOn (withOwnJob h hd s body) := by
  rw [withOwnJob]
  split
  · exact refuse_worksOn s nofun
  · split
    · exact works _
    · exact refuse_worksOn s nofun

theorem judgeAppend_worksOn (h : HostId) (hd kind flags : Byte) (bytes : List Byte) (s : State) :
    worksOn (judgeAppend h hd kind flags bytes s) := by
  rw [judgeAppend]
  refine withOwnJob_worksOn fun k => ?_
  split
  · exact refuse_worksOn s nofun
  · split
    · dsimp only
      split
      · exact nofun
      · exact fun _ => ⟨_, acceptAppend_eq ..⟩
    · exact refuse_worksOn s nofun

theorem judgeClose_worksOn (h : HostId) (hd : Byte) (s : State) : worksOn (judgeClose h hd s) := by
  rw [judgeClose]
  refine withOwnJob_worksOn fun k => ?_
  split
  · exact fun _ => ⟨_, rfl⟩
  · exact refuse_worksOn s nofun

theorem judgeSetPriority_worksOn (h : HostId) (hd p : Byte) (s : State) : worksOn (judgeSetPriority h hd p s) := by
  rw [judgeSetPriority]
  refine withOwnJob_worksOn fun k => ?_
  split
  · exact refuse_worksOn s nofun
  · split
    · exact fun _ => ⟨_, changePriority_eq ..⟩
    · exact fun _ => ⟨_, changePriority_eq ..⟩
    · exact fun _ => ⟨_, changePriority_eq ..⟩
    all_goals exact refuse_worksOn s nofun

theorem judgeCancel_worksOn (h : HostId) (hd : Byte) (s : State) : worksOn (judgeCancel h hd s) := by
  rw [judgeCancel]
  split
  · exact refuse_worksOn s nofun
  · dsimp only
    split
    · split
      · exact refuse_worksOn s nofun
      · exact refuse_worksOn s nofun
      · exact refuse_worksOn s nofun
      all_goals exact fun _ => ⟨_, acceptCancel_eq ..⟩
    · exact refuse_worksOn s nofun

/-- An accepted request that works on leaves nothing to do. -/
theorem serve_done {body : State → Reply} {payload : List Byte} (e : serve h body s = .next t) (port : taking s h)
    (answered : answeredWith s t h .ok payload) (works : worksOn (body s)) : nothingToDo t := by
  obtain ⟨code, rfl⟩ := serve_ok e port answered
  obtain ⟨u, worked⟩ := works code
  rw [answer_frame, worked]
  exact nothingToDo_of_hostSide (boundaryWork_done u)

/-! ## Events of the link -/

theorem prdyRise_done (e : execPrdyRise s = .next t) (low : s.pins.prdy = false) : nothingToDo t := by
  rw [execPrdyRise, if_neg (by simp [low])] at e
  dsimp only at e
  split at e <;> obtain rfl := next_inj e
  · exact applyOrder_done _
  · exact applyOrder_done _
  · exact applyOrder_done _
  · exact nothingToDo_elsewhere rfl nofun nofun
  all_goals next l => exact nothingToDo_elsewhere l nofun nofun

theorem lrstPulseEnd_done (e : execLrstPulseEnd s = .next t) (running : s.le.pulseTimer ≠ none) : nothingToDo t := by
  rw [execLrstPulseEnd, if_pos (Option.isSome_iff_ne_none.mpr running)] at e
  obtain rfl := next_inj e
  rw [enterWaking]
  dsimp only
  split
  · exact applyOrder_done _
  · exact nothingToDo_elsewhere rfl nofun nofun

theorem acknowledgement_done (e : execAcknowledgement s = .next t) (offered : s.le.latch ≠ none) : nothingToDo t := by
  obtain ⟨o, latch⟩ := Option.ne_none_iff_exists'.mp offered
  rw [execAcknowledgement] at e
  dsimp only at e
  rw [latch] at e
  obtain rfl := next_inj e
  exact applyOrder_done _

theorem revIdleExpiry_done (e : execRevIdleExpiry s = .next t) (running : s.le.revIdleTimer ≠ none) : nothingToDo t := by
  rw [execRevIdleExpiry, if_pos (Option.isSome_iff_ne_none.mpr running)] at e
  obtain rfl := next_inj e
  exact applyOrder_done _

theorem dryWaitExpiry_done (e : execDryWaitExpiry s = .next t) (running : s.le.dryTimer ≠ none) (active : s.du.active ≠ none) :
    nothingToDo t := by
  obtain ⟨n, dry⟩ := Option.ne_none_iff_exists'.mp running
  obtain ⟨a, active⟩ := Option.ne_none_iff_exists'.mp active
  rw [execDryWaitExpiry, dry, active] at e
  dsimp only at e
  obtain rfl := next_inj e
  split
  · exact boundaryWork_done _
  · exact boundaryWork_done _

/-- In a granted phase a byte leaves the phase going on, or ends it at YIELD, which is a boundary (R102). -/
theorem reverseControlByte_done (c : ReverseControl) (phase : s.le.link = .reverse) : nothingToDo (reverseControlByte c s) := by
  have goesOn : ∀ u, LinkSame s u → nothingToDo (acknowledgeByte u) := fun u same =>
    nothingToDo_elsewhere (same.link.trans phase) nofun nofun
  cases c with
  | repeats n => exact goesOn _ ⟨rfl, rfl, rfl, rfl, rfl⟩
  | route r => exact goesOn _ ⟨rfl, rfl, rfl, rfl, rfl⟩
  | status n =>
    refine nothingToDo_elsewhere (l := .reverse) ?_ nofun nofun
    rw [reverseControlByte, postStatusGroup_frame]
    exact phase
  | endReply => exact goesOn _ (reverseEnd_linkSame s)
  | malformed => exact goesOn _ (.of_offLink (postLinkGroup_offLink _ s))
  | yieldPhase => exact applyOrder_done _

theorem reverseByte_done {kind : ByteKind} {b : Byte} (e : execReverseByte kind b s = .next t) (phase : s.le.link = .reverse) :
    nothingToDo t := by
  rw [execReverseByte] at e
  dsimp only at e
  rw [if_pos phase] at e
  obtain rfl := next_inj e
  cases kind with
  | data => exact nothingToDo_elsewhere ((reverseData_linkSame b _).link.trans phase) nofun nofun
  | control => exact reverseControlByte_done _ ((breakRepeat_linkSame _).link.trans phase)

theorem dropLeaseOf_done (done : nothingToDo s) : nothingToDo (dropLeaseOf h s) := by
  rw [dropLeaseOf]
  split
  · rw [handover_frame]
    exact done
  · exact done

theorem portReset_done (e : execPortReset h s = .next t) (up : (s.port h).hrst = false) : nothingToDo t := by
  rw [execPortReset_eq, if_neg (by simp [up])] at e
  obtain rfl := next_inj e
  exact dropLeaseOf_done (boundaryWork_done _)

/-- Settles O54: each event ends in the order of work, or leaves the link in a state that is not at a boundary. -/
theorem linkEventsLeaveNothingToDo : Obligations.LinkEventsLeaveNothingToDo := by
  intro c s t run event
  rcases event with ⟨rfl, offer⟩ | ⟨rfl, low⟩ | ⟨rfl, high⟩ | ⟨rfl, low⟩ | ⟨rfl, high⟩ | rfl | ⟨rfl, running⟩ |
    ⟨rfl, running, active⟩ | ⟨rfl, running⟩ | ⟨kind, b, rfl, phase⟩ | ⟨h, hd, payload, port, answered, request⟩ | ⟨h, rfl, up⟩
  · exact acknowledgement_done run offer
  · change execRreqRise s = _ at run
    rw [execRreqRise, if_neg (by simp [low])] at run
    exact next_inj run ▸ boundaryWork_done _
  · change execRreqFall s = _ at run
    rw [execRreqFall, if_pos high] at run
    exact next_inj run ▸ boundaryWork_done _
  · exact prdyRise_done run low
  · change execPrdyFall s = _ at run
    rw [execPrdyFall, if_pos high] at run
    exact next_inj run ▸ boundaryWork_done _
  · exact next_inj run ▸ boundaryWork_done _
  · exact revIdleExpiry_done run running
  · exact dryWaitExpiry_done run running active
  · exact lrstPulseEnd_done run running
  · exact reverseByte_done run phase
  · rcases request with ⟨kind, flags, bytes, rfl⟩ | rfl | ⟨p, rfl⟩ | rfl
    · exact serve_done run port answered (judgeAppend_worksOn h hd kind flags bytes s)
    · exact serve_done run port answered (judgeClose_worksOn h hd s)
    · exact serve_done run port answered (judgeSetPriority_worksOn h hd p s)
    · exact serve_done run port answered (judgeCancel_worksOn h hd s)
  · exact portReset_done run up

end Sys2Proof.Machine
end

section
/-! SUPPORT. The Dispatch Unit hands the link on: what the statements' words `takesLink`, `resumes`, `suspends`, `passedTo` and
`responded` leave unchanged, that the model's decisions are these where the job concerned has an entry to send, and what the order of
work does behind them. -/

namespace Sys2Proof.Machine

variable {s t u : State} {a k m z : SlotId} {n : Successor} {r : Response}

/-! ## What a handing-on leaves unchanged -/

/-- From `s` to `t` the Dispatch Unit has moved jobs between its structures: of a job's record only state, turn and ready sequence
change, and of the rest only the Dispatch Unit and the dry-wait timer. -/
structure HandsOn (s t : State) : Prop where
  rest : t = { s with jm := t.jm, du := t.du, le := { s.le with dryTimer := t.le.dryTimer } }
  gens : t.jm.gens = s.jm.gens
  job : ∀ z, t.job z = { s.job z with
    state := (t.job z).state, turn := (t.job z).turn, readySeq := (t.job z).readySeq, seqTaken := (t.job z).seqTaken }

namespace HandsOn

theorem refl (s : State) : HandsOn s s := ⟨rfl, rfl, fun _ => rfl⟩

theorem trans (f : HandsOn s t) (g : HandsOn t u) : HandsOn s u where
  rest := by rw [g.rest, f.rest]
  gens := g.gens.trans f.gens
  job z := by rw [g.job z, f.job z]

theorem chain (f : HandsOn s t) (z : SlotId) : (t.job z).chain = (s.job z).chain := by rw [f.job z]
theorem channel (f : HandsOn s t) (z : SlotId) : (t.job z).channel = (s.job z).channel := by rw [f.job z]
theorem pins (f : HandsOn s t) : t.pins = s.pins := by rw [f.rest]
theorem eus (f : HandsOn s t) : t.eus = s.eus := by rw [f.rest]
theorem abandon (f : HandsOn s t) : t.le.abandon = s.le.abandon := by rw [f.rest]
theorem link (f : HandsOn s t) : t.le.link = s.le.link := by rw [f.rest]
theorem current (f : HandsOn s t) : t.le.current = s.le.current := by rw [f.rest]

theorem noStall (f : HandsOn s t) (no : noStall s) : Machine.noStall t := by rw [f.rest]; exact no

theorem headEntry (f : HandsOn s t) (z : SlotId) : headEntry t z = headEntry s z := by
  rw [Machine.headEntry, f.chain, Machine.headEntry]

theorem forwardOpen (f : HandsOn s t) (opened : forwardOpen s) : Machine.forwardOpen t := by
  rw [f.rest]
  exact opened

end HandsOn

/-- A change of one job's state, turn and ready sequence, of the Dispatch Unit and of the dry-wait timer. -/
theorem handsOn_of_job {k : SlotId} {j : Job} {du : DispatchUnit} {d : Timer} {x : Nat}
    (kept : j = { s.job k with state := j.state, turn := j.turn, readySeq := j.readySeq, seqTaken := j.seqTaken }) :
    HandsOn s { s with
      jm := { s.jm with jobs := upd s.jm.jobs k j, nextSeq := x }, du := du, le := { s.le with dryTimer := d } } := by
  refine ⟨rfl, rfl, fun z => ?_⟩
  have job : ∀ z, ({ s with
      jm := { s.jm with jobs := upd s.jm.jobs k j, nextSeq := x }, du := du, le := { s.le with dryTimer := d } } : State).job z =
      if k = z then j else s.job z := fun z => upd_get ..
  rw [job]
  split
  · next here => exact here ▸ kept
  · rfl

theorem takesLink_handsOn (s : State) (k : SlotId) : HandsOn s (takesLink s k) := handsOn_of_job rfl
theorem resumes_handsOn (s : State) (z : SlotId) : HandsOn s (resumes s z) := handsOn_of_job rfl
theorem suspends_handsOn (s : State) (a : SlotId) : HandsOn s (suspends s a) := handsOn_of_job rfl

theorem yields_handsOn (s : State) (a k : SlotId) : HandsOn s (yields s a k) := by
  have joined : HandsOn s { joins s a (s.job a) with le := { s.le with dryTimer := none } } := handsOn_of_job rfl
  exact joined.trans (takesLink_handsOn _ k)

theorem passedTo_handsOn (s : State) (n : Successor) : HandsOn s (passedTo s n) := by
  cases n with
  | nobody => exact .refl s
  | selected k => exact takesLink_handsOn s k
  | resumed z => exact resumes_handsOn s z

theorem decided_handsOn (s : State) : HandsOn s (decided s) := ⟨rfl, rfl, fun _ => rfl⟩

theorem responded_handsOn (s : State) (r : Response) : HandsOn s (responded s r) := by
  cases r with
  | waits => exact .refl s
  | selected m => exact takesLink_handsOn s m
  | preempts a m => exact (suspends_handsOn s a).trans (takesLink_handsOn _ m)
  | decides n => exact (decided_handsOn s).trans (passedTo_handsOn _ n)

/-! ## Who has the link then -/

theorem passedTo_active (idle : s.du.active = none) (n : Successor) : (passedTo s n).du.active = n.holder := by
  cases n with
  | nobody => exact idle
  | selected k => rfl
  | resumed z => rfl

theorem responded_active (idle : s.du.active = none) (r : Response) : (responded s r).du.active = r.holder := by
  cases r with
  | waits => exact idle
  | selected m => rfl
  | preempts a m => rfl
  | decides n => exact passedTo_active (s := decided s) idle n

theorem responded_holder (holder : r.holder = some m) : (responded s r).du.active = some m := by
  cases r with
  | waits => cases holder
  | selected x => exact holder
  | preempts a x => exact holder
  | decides n =>
    cases n with
    | nobody => cases holder
    | selected k => exact holder
    | resumed z => exact holder

theorem passedTo_holder (holder : n.holder = some m) : (passedTo s n).du.active = some m := by
  cases n with
  | nobody => cases holder
  | selected k => exact holder
  | resumed z => exact holder

/-! ## The decisions read the job table and the Dispatch Unit -/

theorem bestAdmissible_of_same (p : Option SlotId) (jobs : t.jm.jobs = s.jm.jobs) (ready : t.du.ready = s.du.ready)
    (stack : t.du.stack = s.du.stack) (claims : t.du.claims = s.du.claims) (rotation : t.du.rotation = s.du.rotation) :
    bestAdmissible t p = bestAdmissible s p := by
  have job : ∀ z, t.job z = s.job z := fun z => by rw [State.job, jobs, State.job]
  have claim : ∀ c, t.claim c = s.claim c := fun c => by rw [State.claim, claims, State.claim]
  have pass : admissible t p = admissible s p := funext fun z => by
    simp only [admissible, eligible, channelOpen, job, claim, stack]
  have records : t.job = s.job := funext job
  rw [bestAdmissible, bestAdmissible, choose, choose, topPriority, topPriority, pass, ready, rotation, records]

theorem recovering_of_link (link : t.le.link = s.le.link) : recovering t = recovering s := by
  rw [recovering, link, recovering]

/-- The leaving decision names the same successor where it reads the same. -/
theorem leavesTo_of_same (jobs : t.jm.jobs = s.jm.jobs) (ready : t.du.ready = s.du.ready) (stack : t.du.stack = s.du.stack)
    (claims : t.du.claims = s.du.claims) (rotation : t.du.rotation = s.du.rotation) (link : t.le.link = s.le.link)
    (su : t.su = s.su) (named : leavesTo s n) : leavesTo t n := by
  have job : ∀ z, t.job z = s.job z := fun z => by rw [State.job, jobs, State.job]
  have best := bestAdmissible_of_same none jobs ready stack claims rotation
  have recov := recovering_of_link link
  cases n with
  | nobody => simpa only [leavesTo, recov, stack, best] using named
  | selected k => simpa only [leavesTo, recov, stack, best, job, su] using named
  | resumed z => simpa only [leavesTo, recov, stack, best, job, su] using named

theorem urgent_of_same (jobs : t.jm.jobs = s.jm.jobs) (du : t.du = s.du) (link : t.le.link = s.le.link) (su : t.su = s.su)
    (a m : SlotId) : urgent t a m ↔ urgent s a m := by
  have job : ∀ z, t.job z = s.job z := fun z => by rw [State.job, jobs, State.job]
  have best := bestAdmissible_of_same (some a) jobs (by rw [du]) (by rw [du]) (by rw [du]) (by rw [du])
  simp only [urgent, recovering_of_link link, best, job, su, du]

/-- DU answers in the same way where it reads the same. -/
theorem respondsWith_of_same (jobs : t.jm.jobs = s.jm.jobs) (du : t.du = s.du) (link : t.le.link = s.le.link)
    (dry : t.le.dryTimer = s.le.dryTimer) (su : t.su = s.su) (answers : respondsWith s r) : respondsWith t r := by
  have best := bestAdmissible_of_same none jobs (by rw [du]) (by rw [du]) (by rw [du]) (by rw [du])
  have recov := recovering_of_link link
  have urg := fun a m => urgent_of_same jobs du link su a m
  cases r with
  | waits => simpa only [respondsWith, recov, du, dry, urg, best] using answers
  | selected m => simpa only [respondsWith, recov, du, best] using answers
  | preempts a m => simpa only [respondsWith, du, dry, urg] using answers
  | decides n =>
    obtain ⟨up, idle, leaving, named⟩ := answers
    exact ⟨recov.trans up, by rw [du]; exact idle, by rw [du]; exact leaving,
      leavesTo_of_same jobs (by rw [du]) (by rw [du]) (by rw [du]) (by rw [du]) link su named⟩

/-! ## The model's decisions -/

/-- A job given the link with an entry to send is left alone. -/
theorem settled_of_head (active : s.du.active = some m) (head : headEntry s m ≠ none) : settled s = s :=
  settled_busy active (.inl head)

/-- The leaving decision to a successor with an entry to send, or to nobody (R59 to R61). -/
theorem leaveLink_followed (idle : s.du.active = none) (follows : followedBy s n) : leaveLink s = passedTo s n := by
  obtain ⟨named, heads⟩ := follows
  rw [leaveLink, leavingDecision_eq named]
  have active := passedTo_active idle n
  cases holder : n.holder with
  | none =>
    rw [holder] at active
    exact settled_inactive active
  | some m =>
    rw [holder] at active
    exact settled_of_head active (by rw [(passedTo_handsOn s n).headEntry]; exact heads m holder)

/-- DU's answer in the words of the statements, where the job it gives the link to has an entry to send (R44, R51, R64). -/
theorem respondEligible_responded (answers : respondsWith s r) (heads : ∀ z, r.holder = some z → headEntry s z ≠ none) :
    respondEligible s = responded s r := by
  have settles : ∀ m, r.holder = some m → settled (responded s r) = responded s r := fun m holder =>
    settled_of_head (responded_holder holder) (by rw [(responded_handsOn s r).headEntry]; exact heads m holder)
  rw [respondEligible_eq answers]
  cases r with
  | waits => rfl
  | selected m => exact settles m rfl
  | preempts a m => exact settles m rfl
  | decides n =>
    obtain ⟨-, idle, -, named⟩ := answers
    exact leaveLink_followed (s := closeDecision s) idle
      ⟨leavesTo_of_same rfl rfl rfl rfl rfl rfl rfl named, fun z holder => heads z holder⟩

/-! ## The order of work behind a decision -/

/-- The active job's entry cannot go out before its channel is selected (R78, R82). -/
theorem applyOrder_selects {kind : ByteKind} {b : Byte} (opened : forwardOpen s) (list : s.le.abandon = [])
    (active : s.du.active = some m) (head : headEntry s m = some (entryOf kind b))
    (elsewhere : s.le.current ≠ some (s.job m).channel) : applyOrder s = selectOffered s (s.job m).channel := by
  obtain ⟨rreq, prdy, pflt, noStall⟩ := opened
  have entry : activeHead s = some (m, entryOf kind b) := by
    rw [activeHead, active]
    simp only [head, Option.map_some]
  have kinds : entryOf kind b = .data b ∧ kind = .data ∨ entryOf kind b = .control b ∧ kind = .control := by
    cases kind with
    | data => exact .inl ⟨rfl, rfl⟩
    | control => exact .inr ⟨rfl, rfl⟩
  rw [applyOrder_entry rreq prdy pflt list entry kinds, if_neg elsewhere]
  exact makeOffer_noStall _ noStall

/-- The abandon sequence begins with the SELECT of its channel (R78, R135). -/
theorem applyOrder_selectsAbandoned {e : AbandonEntry} {es : List AbandonEntry} (opened : forwardOpen s)
    (list : s.le.abandon = e :: es) (head : ∀ x, activeHead s ≠ some (x, .brk)) (elsewhere : s.le.current ≠ some e.channel) :
    applyOrder s = selectOffered s e.channel := by
  obtain ⟨rreq, prdy, pflt, noStall⟩ := opened
  rw [applyOrder_abandon rreq prdy pflt list head, if_neg elsewhere]
  exact makeOffer_noStall _ noStall

/-! ## Recovery ends -/

/-- The part entering IDLE from WAKING, before LINK_UP is posted and DU selects (R144, R146). -/
abbrev entersIdle (s : State) : State := { s with le := { s.le with link := .idle, wakeTimer := none } }

/-- Entering IDLE, by what DU answers, the job concerned having an entry to send: LINK_UP is posted, DU hands the link on, and the
order of work is applied (R51, R144, R146). -/
theorem enterIdle_responded (answers : respondsWith (entersIdle s) r) (heads : ∀ z, r.holder = some z → headEntry s z ≠ none) :
    ∃ v, postedToLinkGroup s { s with eus := v } (plainEvent .linkUp 0) ∧
      enterIdle s = applyOrder (responded { entersIdle s with eus := v } r) := by
  obtain ⟨v, eq, posted⟩ := postLinkGroup_posted (plainEvent .linkUp 0) (entersIdle s)
  refine ⟨v, posted, ?_⟩
  have same : respondsWith { entersIdle s with eus := v } r := respondsWith_of_same rfl rfl rfl rfl rfl answers
  rw [enterIdle]
  dsimp only
  rw [eq, respondEligible_responded same heads]

end Sys2Proof.Machine
end

section
/-! SUPPORT. Recovery (R143 to R146): what follows when the link enters IDLE from WAKING, and when PRDY rises. -/

namespace Sys2Proof.Machine

variable {s t u w : State} {a k m z : SlotId} {n : Successor} {r : Response}

/-! ## Entering IDLE -/

theorem applyOrder_quiet (idle : s.le.link = .idle) (work : noWork s) : applyOrder s = s := by
  rw [applyOrder_noWork work, ← idle]

/-- DU has answered on entering IDLE, the event units then holding `v`. -/
abbrev upWith (s : State) (r : Response) (v : Vector EventUnit 4) : State := responded { entersIdle s with eus := v } r

theorem upWith_handsOn (s : State) (r : Response) (v : Vector EventUnit 4) :
    HandsOn { entersIdle s with eus := v } (upWith s r v) := responded_handsOn _ r

/-- The event units that LINK_UP leaves are those of the state reached. -/
theorem upWith_known {f : State → State} (keeps : ∀ x, (f x).eus = x.eus) {v : Vector EventUnit 4}
    (posted : postedToLinkGroup w { w with eus := v } (plainEvent .linkUp 0)) (eq : enterIdle w = f (upWith w r v)) :
    ∃ t, enterIdle w = t ∧ postedToLinkGroup w t (plainEvent .linkUp 0) ∧ t = f (upWith w r t.eus) := by
  have eus : (f (upWith w r v)).eus = v := (keeps _).trans (upWith_handsOn w r v).eus
  refine ⟨_, eq, fun h => ?_, by rw [eus]⟩
  rw [State.eu, eus]
  exact posted h

section
variable (answers : respondsWith (entersIdle w) r) (heads : ∀ z, r.holder = some z → headEntry w z ≠ none)
include answers heads

/-- A reverse request is granted first (R78). -/
theorem enterIdle_granted (rreq : w.pins.rreq = true) :
    ∃ t, enterIdle w = t ∧ postedToLinkGroup w t (plainEvent .linkUp 0) ∧ t = granted (upWith w r t.eus) := by
  obtain ⟨v, posted, eq⟩ := enterIdle_responded answers heads
  refine upWith_known (f := granted) (fun _ => rfl) posted (eq.trans (applyOrder_grant ?_))
  rw [(upWith_handsOn w r v).pins]
  exact rreq

/-- With nothing to do the link is IDLE (R78). -/
theorem enterIdle_quiet (idle : w.du.active = none) (holder : r.holder = none) (list : w.le.abandon = [])
    (rreq : w.pins.rreq = false) (calm : noStall w) :
    ∃ t, enterIdle w = t ∧ postedToLinkGroup w t (plainEvent .linkUp 0) ∧ t = upWith w r t.eus := by
  obtain ⟨v, posted, eq⟩ := enterIdle_responded answers heads
  have on := upWith_handsOn w r v
  refine upWith_known (f := id) (fun _ => rfl) posted
    (eq.trans (applyOrder_quiet on.link ⟨?_, on.abandon.trans list, ?_, on.noStall calm⟩))
  · exact (responded_active (s := { entersIdle w with eus := v }) idle r).trans holder
  · rw [on.pins]
    exact rreq

/-- The head abandon entry has its SELECT offered (R78, R135). -/
theorem enterIdle_selectsAbandoned {e : AbandonEntry} {es : List AbandonEntry} (list : w.le.abandon = e :: es)
    (opened : forwardOpen w)
    (entry : ∀ z, (responded (entersIdle w) r).du.active = some z → headEntry w z ≠ some .brk)
    (elsewhere : w.le.current ≠ some e.channel) :
    ∃ t, enterIdle w = t ∧ postedToLinkGroup w t (plainEvent .linkUp 0) ∧ t = selectOffered (upWith w r t.eus) e.channel := by
  obtain ⟨v, posted, eq⟩ := enterIdle_responded answers heads
  have on := upWith_handsOn w r v
  have active : (upWith w r v).du.active = (responded (entersIdle w) r).du.active := by
    cases r with
    | waits => rfl
    | selected m => rfl
    | preempts a m => rfl
    | decides n => cases n <;> rfl
  refine upWith_known (f := fun x => selectOffered x e.channel) (fun _ => rfl) posted
    (eq.trans (applyOrder_selectsAbandoned (on.forwardOpen opened) (on.abandon.trans list) (fun x h => ?_) ?_))
  · rw [activeHead] at h
    split at h
    · cases h
    · next z holds =>
      obtain ⟨e, head, pair⟩ := Option.map_eq_some_iff.mp h
      cases pair
      exact entry _ (active.symm.trans holds) ((on.headEntry _).symm.trans head)
  · rw [on.current]
    exact elsewhere

/-- The job given the link has its SELECT offered (R78, R82). -/
theorem enterIdle_selects {kind : ByteKind} {b : Byte} (list : w.le.abandon = []) (opened : forwardOpen w)
    (holder : r.holder = some m) (head : headEntry w m = some (entryOf kind b))
    (elsewhere : w.le.current ≠ some (w.job m).channel) :
    ∃ t, enterIdle w = t ∧ postedToLinkGroup w t (plainEvent .linkUp 0) ∧ t = selectOffered (upWith w r t.eus) (w.job m).channel := by
  obtain ⟨v, posted, eq⟩ := enterIdle_responded answers heads
  have on := upWith_handsOn w r v
  have channel : ((upWith w r v).job m).channel = (w.job m).channel := on.channel m
  refine upWith_known (f := fun x => selectOffered x (w.job m).channel) (fun _ => rfl) posted
    (eq.trans ((applyOrder_selects (on.forwardOpen opened) (on.abandon.trans list)
      (responded_holder holder) ((on.headEntry m).trans head) ?_).trans (by rw [channel])))
  rw [on.current, channel]
  exact elsewhere

end

/-! ## The recovery timers -/

/-- LRST is released and the wake timer started (R143). -/
abbrev pulseEnded (s : State) : State :=
  { s with
    le := { s.le with link := .waking, pulseTimer := none, wakeTimer := some s.su.settings.wakeTime },
    pins := { s.pins with lrst := false } }

theorem exec_lrstPulseEnd (running : s.le.pulseTimer ≠ none) : exec .lrstPulseEnd s = .next (enterWaking s) :=
  if_pos (Option.isSome_iff_ne_none.mpr running)

theorem enterWaking_low (low : s.pins.prdy = false) : enterWaking s = pulseEnded s := if_neg (by simp [low])

theorem enterWaking_high (high : s.pins.prdy = true) : enterWaking s = enterIdle (pulseEnded s) := if_pos high

/-- Settles O7: each timer by whether it runs and by PRDY; the pulse that ends with PRDY high enters IDLE at once. -/
theorem recoveryTimersMoveTheLink : Obligations.RecoveryTimersMoveTheLink := by
  intro s
  have wake : exec .wakeTimerExpiry s = execWakeTimerExpiry s := rfl
  have pulse : exec .lrstPulseEnd s = execLrstPulseEnd s := rfl
  refine ⟨fun running low => ?_, fun off => ?_, fun off => ?_, fun running low => ?_, fun r running high answers heads => ?_⟩
  · obtain ⟨v, eq, posted⟩ := postLinkGroup_posted (plainEvent .linkDown 0)
      { s with le := { s.le with link := .down, wakeTimer := none } }
    rw [wake, execWakeTimerExpiry, if_pos ⟨Option.isSome_iff_ne_none.mpr running, low⟩, eq]
    exact ⟨_, rfl, rfl, posted⟩
  · rw [wake, execWakeTimerExpiry]
    refine if_neg fun ⟨running, low⟩ => ?_
    rcases off with stopped | high
    · simp [stopped] at running
    · simp [high] at low
  · rw [pulse, execLrstPulseEnd, off]
    rfl
  · rw [exec_lrstPulseEnd running, enterWaking_low low]
  · have run := (exec_lrstPulseEnd running).trans (congrArg _ (enterWaking_high high))
    have answers' : respondsWith (entersIdle (pulseEnded s)) r := answers
    refine ⟨fun rreq => ?_, fun rreq list calm idle holder => ?_, fun e es list opened entry elsewhere => ?_,
      fun m kind b list opened holder head elsewhere => ?_⟩
    · obtain ⟨t, eq, posted, frame⟩ := enterIdle_granted answers' heads rreq
      exact ⟨t, run.trans (congrArg _ eq), posted, frame⟩
    · obtain ⟨t, eq, posted, frame⟩ := enterIdle_quiet answers' heads idle holder list rreq calm
      exact ⟨t, run.trans (congrArg _ eq), posted, frame⟩
    · obtain ⟨t, eq, posted, frame⟩ := enterIdle_selectsAbandoned answers' heads list opened entry elsewhere
      exact ⟨t, run.trans (congrArg _ eq), posted, frame⟩
    · obtain ⟨t, eq, posted, frame⟩ := enterIdle_selects answers' heads list opened holder head elsewhere
      exact ⟨t, run.trans (congrArg _ eq), posted, frame⟩

end Sys2Proof.Machine
end

section
/-! SUPPORT. Entries that go out on the link (R26, R84, R90): the head entry taken, the offer of it, and the end of a stall. -/

namespace Sys2Proof.Machine

variable {s t u : State} {a k : SlotId} {kind : ByteKind} {b : Byte} {posts : HostId → List Event}

/-! ## A head entry taken -/

/-- What was taken is known from the chain, the pool, the marks and the units. -/
theorem headTaken.later (taken : headTaken s u k fun _ => []) (chain : (t.job k).chain = (u.job k).chain) (sp : t.sp = u.sp)
    (su : t.su = u.su) (ports : u.ports = s.ports) (units : ∀ h, t.eu h = unitAfter u h (posts h)) :
    headTaken s t k posts := by
  intro g gs held
  obtain ⟨more, last⟩ := taken g gs held
  refine ⟨fun some' => ?_, fun one => ?_⟩
  · obtain ⟨rest, pool, before⟩ := more some'
    refine ⟨chain.trans rest, sp.trans pool, fun h => ?_⟩
    rw [units, unitAfter_trans ports (before h), List.nil_append]
  · obtain ⟨rest, pool, before⟩ := last one
    refine ⟨chain.trans rest, by rw [sp]; exact pool, fun h => ?_⟩
    obtain ⟨unit, mark⟩ := before h
    have allow : allowance t h = allowance u h := allowance_of_same (by rw [sp]) su h
    rw [spaceRecords_of_same rfl allow, spaceDue_of_same rfl allow, units, unitAfter_trans ports unit, List.append_nil]
    exact ⟨rfl, by rw [State.mark, sp]; exact mark⟩

/-- The head entry taken, in the words of the statements. -/
theorem takeHead_taken {x : Entry} (head : headEntry s k = some x) :
    headTaken s (takeHead k s) k (fun _ => []) ∧
      takeHead k s = { s with
        eus := (takeHead k s).eus, sp := (takeHead k s).sp,
        jm := { s.jm with
          jobs := upd s.jm.jobs k
            { s.job k with chain := ((takeHead k s).job k).chain, queued := (s.job k).queued - 1 } } } := by
  obtain ⟨c, frame, -⟩ := takeHead_spec head
  constructor
  · intro g gs held
    refine ⟨fun some' => ?_, fun one => ?_⟩
    · obtain ⟨e, e', es, entries⟩ : ∃ e e' es, g.entries = e :: e' :: es := by
        match h : g.entries with
        | [] | [_] => rw [h] at some'; simp at some'
        | e :: e' :: es => exact ⟨e, e', es, rfl⟩
      rw [takeHead_two held entries, entries]
      exact ⟨by rw [State.setJob_job_same]; rfl, rfl, fun h => rfl⟩
    · obtain ⟨e, entries⟩ := List.length_eq_one_iff.mp one
      have eq : takeHead k s =
          evaluateSpace (freeSegments (s.job k).owner [g.id] (s.setJob k { s.job k with chain := gs, queued := (s.job k).queued - 1 })) := by
        rw [takeHead]
        dsimp only
        rw [held]
        dsimp only
        rw [entries]
      have posted := evaluateSpace_posted (s := s) (posts := fun _ => [])
        (u := freeSegments (s.job k).owner [g.id] (s.setJob k { s.job k with chain := gs, queued := (s.job k).queued - 1 }))
        rfl rfl fun h => rfl
      have same := evaluateSpace_frame
        (freeSegments (s.job k).owner [g.id] (s.setJob k { s.job k with chain := gs, queued := (s.job k).queued - 1 }))
      rw [← eq] at posted same
      refine ⟨?_, ?_, fun h => ?_⟩
      · rw [same]
        exact congrArg Job.chain (State.setJob_job_same ..)
      · rw [same]
        rfl
      · rw [List.append_nil]
        exact posted h
  · have chain : ((takeHead k s).job k).chain = c := by
      rw [frame]
      exact congrArg Job.chain (State.setJob_job_same ..)
    generalize takeHead k s = t at *
    have sp : t.sp = { s.sp with free := t.sp.free, used := t.sp.used, marks := t.sp.marks } := congrArg State.sp frame
    rw [chain]
    exact frame.trans (by rw [← sp])

/-! ## An entry offered -/

/-- The end of a stall that was reported, for host `h` in the LINK group (R90). -/
abbrev stallOver (s : State) (h : HostId) : List Event :=
  if s.le.stall = .reported ∧ (s.eu h).linkGroup = true then [plainEvent .linkStall 0] else []

/-- An offer, whatever the stall record (R73, R90). -/
theorem makeOffer_offered (b : Byte) (kind : ByteKind) (o : Origin) (s : State) :
    ∃ v, (∀ h, ({ s with eus := v } : State).eu h = unitAfter s h (stallOver s h)) ∧
      makeOffer { byte := b, kind := kind, origin := o } s =
        offered { s with eus := v, le := { s.le with stall := .none, stallTimer := none } } b kind o := by
  obtain ⟨t, offer, reported, silent, frame⟩ := makeOffer_stalled { byte := b, kind := kind, origin := o } s
  refine ⟨t.eus, fun h => ?_, offer.trans frame⟩
  change t.eu h = _
  by_cases told : s.le.stall = .reported
  · rw [reported told h]
    by_cases group : (s.eu h).linkGroup = true
    · have ended : stallOver s h = [plainEvent .linkStall 0] := if_pos ⟨told, group⟩
      rw [if_pos group, ended]
      rfl
    · have ended : stallOver s h = [] := if_neg fun both => group both.2
      rw [if_neg group, ended]
      rfl
  · have ended : stallOver s h = [] := if_neg fun both => told both.1
    rw [ended, State.eu, silent told]
    rfl

/-- The state in which the head entry of the job in slot `k` has been taken, `v`, `p` and `c` being the units, the pool and the
chain then, and the job has begun (R5, R26, R45). -/
abbrev entryTaken (s : State) (k : SlotId) (v : Vector EventUnit 4) (p : SegmentPool) (c : List Segment) : State :=
  { s with
    eus := v, sp := p,
    jm := { s.jm with
      jobs := upd s.jm.jobs k { s.job k with chain := c, queued := (s.job k).queued - 1, begun := true } },
    du := { s.du with claims := if (s.job k).begun then s.du.claims else upd s.du.claims (s.job k).channel (some k) } }

theorem begun_set {j : Job} (begun : j.begun = true) : { j with begun := true } = j := by rw [← begun]

theorem beginJob_eq (k : SlotId) (s : State) : beginJob k s = { s with
    jm := { s.jm with jobs := upd s.jm.jobs k { s.job k with begun := true } },
    du := { s.du with claims := if (s.job k).begun then s.du.claims else upd s.du.claims (s.job k).channel (some k) } } := by
  rw [beginJob]
  split
  · next begun =>
    rw [begun_set begun, State.job]
    have same : upd s.jm.jobs k s.jm.jobs[k] = s.jm.jobs := upd_self ..
    rw [same]
  · rfl

theorem entryTaken_begun {v : Vector EventUnit 4} {p : SegmentPool} {c : List Segment} (begun : (s.job k).begun = true) :
    entryTaken s k v p c = { s with
      eus := v, sp := p,
      jm := { s.jm with jobs := upd s.jm.jobs k { s.job k with chain := c, queued := (s.job k).queued - 1 } } } := by
  have set : { s.job k with chain := c, queued := (s.job k).queued - 1, begun := true } =
      { s.job k with chain := c, queued := (s.job k).queued - 1 } :=
    begun_set (j := { s.job k with chain := c, queued := (s.job k).queued - 1 }) begun
  rw [entryTaken, if_pos begun, set]

/-- Posts to the space waiters leave every subscription as it is. -/
theorem headTaken.linkGroup {x : Entry} (taken : headTaken s u k fun _ => []) (head : headEntry s k = some x) (h : HostId) :
    (u.eu h).linkGroup = (s.eu h).linkGroup := by
  rw [headEntry] at head
  split at head
  · cases head
  · next g gs held =>
    obtain ⟨more, last⟩ := taken g gs held
    obtain one | some' : g.entries.length = 1 ∨ 1 < g.entries.length := by
      have : 0 < g.entries.length := List.length_pos_of_mem (List.mem_of_mem_head? head)
      omega
    · obtain ⟨-, -, units⟩ := last one
      rw [(units h).1, unitAfter_linkGroup]
    · obtain ⟨-, -, units⟩ := more some'
      rw [units h, unitAfter_linkGroup]

/-- The head entry of a job goes out, whatever the stall record (R26, R45, R84, R90). -/
theorem offerEntry_offered {x : Entry} (kind : ByteKind) (b : Byte) (head : headEntry s k = some x) :
    ∃ t, offerEntry k kind b s = t ∧ headTaken s t k (stallOver s) ∧
      t = offered
        { entryTaken s k t.eus t.sp (t.job k).chain with le := { s.le with stall := .none, stallTimer := none } }
        b kind (.entry (s.handle k)) := by
  obtain ⟨taken, frame⟩ := takeHead_taken head
  obtain ⟨v, p, c, eq⟩ : ∃ v p c, takeHead k s = { s with
      eus := v, sp := p,
      jm := { s.jm with jobs := upd s.jm.jobs k { s.job k with chain := c, queued := (s.job k).queued - 1 } } } :=
    ⟨_, _, _, frame⟩
  rw [eq] at taken
  have begun : beginJob k (takeHead k s) = entryTaken s k v p c := by
    rw [eq, beginJob_eq]
    simp only [State.job, upd_same, upd_upd]
    rfl
  obtain ⟨v', posts, offer⟩ := makeOffer_offered b kind (.entry (s.handle k)) (entryTaken s k v p c)
  obtain ⟨t, out⟩ : ∃ t, t = offered
    { entryTaken s k v' p c with le := { s.le with stall := .none, stallTimer := none } } b kind (.entry (s.handle k)) :=
    ⟨_, rfl⟩
  have jm : t.jm = (entryTaken s k v p c).jm := by rw [out]
  have chain : (t.job k).chain = c := by
    rw [State.job, jm]
    exact congrArg Job.chain (upd_same ..)
  have units : t.eus = v' := by rw [out]
  have pool : t.sp = p := by rw [out]
  have run : offerEntry k kind b s = t := by
    rw [offerEntry, begun]
    exact offer.trans out.symm
  refine ⟨t, run, ?_, ?_⟩
  · refine headTaken.later taken ?_ pool (by rw [out]) rfl fun h => ?_
    · rw [chain]
      simp only [State.job, upd_same]
    · have group := taken.linkGroup head h
      rw [State.eu, units]
      refine (posts h).trans ?_
      have told : stallOver (entryTaken s k v p c) h = stallOver s h := by
        rw [stallOver, stallOver]
        exact congrArg (fun g : Bool => if s.le.stall = .reported ∧ g = true then [plainEvent .linkStall 0] else []) group
      rw [told]
      rfl
  · rw [chain, units, pool]
    exact out

/-! ## The order of work with an entry to send -/

/-- On a boundary with its channel current the active job's entry is taken and offered (R78, R84). -/
theorem applyOrder_offers (rreq : s.pins.rreq = false) (prdy : s.pins.prdy = true) (pflt : s.pins.pflt = false)
    (list : s.le.abandon = []) (active : s.du.active = some a) (head : headEntry s a = some (entryOf kind b))
    (current : s.le.current = some (s.job a).channel) : applyOrder s = offerEntry a kind b s := by
  have entry : activeHead s = some (a, entryOf kind b) := by
    rw [activeHead, active]
    simp only [head, Option.map_some]
  have kinds : entryOf kind b = .data b ∧ kind = .data ∨ entryOf kind b = .control b ∧ kind = .control := by
    cases kind with
    | data => exact .inl ⟨rfl, rfl⟩
    | control => exact .inr ⟨rfl, rfl⟩
  rw [applyOrder_entry rreq prdy pflt list entry kinds, if_pos current]

theorem stallOver_noStall (calm : noStall s) (h : HostId) : stallOver s h = [] :=
  if_neg fun both => by rw [calm.1] at both; cases both.1

/-- The same with no stall in progress. -/
theorem applyOrder_offersCalm (opened : forwardOpen s) (list : s.le.abandon = []) (active : s.du.active = some a)
    (head : headEntry s a = some (entryOf kind b)) (current : s.le.current = some (s.job a).channel) :
    ∃ t, applyOrder s = t ∧ headTaken s t a (fun _ => []) ∧
      t = offered (entryTaken s a t.eus t.sp (t.job a).chain) b kind (.entry (s.handle a)) := by
  obtain ⟨rreq, prdy, pflt, calm⟩ := opened
  obtain ⟨t, run, taken, frame⟩ := offerEntry_offered kind b head
  rw [funext (stallOver_noStall calm)] at taken
  refine ⟨t, (applyOrder_offers rreq prdy pflt list active head current).trans run, taken, ?_⟩
  have same : { s.le with stall := .none, stallTimer := none } = s.le := by rw [← calm.1, ← calm.2]
  rw [same] at frame
  exact frame

/-- Settles O43: the link states in turn; a link that enters IDLE answers as after a pulse. -/
theorem prdyRiseResumesTheLink : Obligations.PrdyRiseResumesTheLink := by
  intro s risen
  have rise : exec .prdyRise s = execPrdyRise s := rfl
  have boundary : s.pins.prdy = false → s.le.link = .idle ∨ s.le.link = .waiting →
      exec .prdyRise s = .next (applyOrder risen) := fun low l => by
    rw [rise, execPrdyRise, low]
    dsimp only
    rcases l with l | l <;> rw [l] <;> rfl
  refine ⟨fun high => by rw [rise]; exact if_pos high, fun low => ⟨fun still => ?_, fun down => ?_, fun r waking answers heads => ?_,
    fun a kind b waiting rreq pflt list active head begun current => ?_⟩⟩
  · rcases still with l | l | l | ⟨l, n⟩ | ⟨l, n, fault⟩
    iterate 3
      rw [rise, execPrdyRise, low]
      dsimp only
      rw [l]
      rfl
    · rw [boundary low (.inl l), ← boundaryWork_at (s := risen) (.inl l), boundaryWork_of_nothingToDo (s := risen)
        (nothingToDo_heldOff (p := risen.pins) n rfl fun waiting => by rw [l] at waiting; cases waiting)]
    · rw [boundary low (.inr l), ← boundaryWork_at (s := risen) (.inr l), boundaryWork_of_nothingToDo (s := risen)
        (nothingToDo_heldOff (p := risen.pins) n rfl fun _ => .inr fault)]
  · rw [rise, execPrdyRise, low]
    dsimp only
    rw [down]
    rfl
  · have run : exec .prdyRise s = .next (enterIdle risen) := by
      rw [rise, execPrdyRise, low]
      dsimp only
      rw [waking]
      rfl
    have answers' : respondsWith (entersIdle risen) r := answers
    refine ⟨fun rreq => ?_, fun rreq list calm idle holder => ?_,
      fun m kind b list rreq pflt calm holder head elsewhere => ?_⟩
    · obtain ⟨t, eq, posted, frame⟩ := enterIdle_granted answers' heads rreq
      exact ⟨t, run.trans (congrArg _ eq), posted, frame⟩
    · obtain ⟨t, eq, posted, frame⟩ := enterIdle_quiet answers' heads idle holder list rreq calm
      exact ⟨t, run.trans (congrArg _ eq), posted, frame⟩
    · obtain ⟨t, eq, posted, frame⟩ := enterIdle_selects (w := risen) answers' heads list ⟨rreq, rfl, pflt, calm⟩ holder head
        elsewhere
      exact ⟨t, run.trans (congrArg _ eq), posted, frame⟩
  · have head' : headEntry risen a = some (entryOf kind b) := head
    obtain ⟨t, run, taken, frame⟩ := offerEntry_offered kind b head'
    rw [entryTaken_begun (s := risen) begun] at frame
    refine ⟨t, (boundary low (.inr waiting)).trans (congrArg _
      ((applyOrder_offers (s := risen) rreq rfl pflt list active head' current).trans run)), taken, frame⟩

end Sys2Proof.Machine
end

section
/-! SUPPORT. The acknowledgement of a SELECT (R74, R75, R78). -/

namespace Sys2Proof.Machine

variable {s : State} {o : Offer}

/-- Forward work that PRDY or PFLT holds off (R78 step 3, R88). -/
theorem applyOrder_heldOff (rreq : s.pins.rreq = false) (work : forwardWork s = true)
    (head : ∀ a, activeHead s ≠ some (a, .brk)) (held : s.pins.prdy = false ∨ s.pins.pflt = true) :
    applyOrder s = holdOff s := by
  have off : (!s.pins.prdy || s.pins.pflt) = true := by
    rcases held with low | fault
    · rw [low]
      rfl
    · rw [fault, Bool.or_true]
  rw [applyOrder, orderOfWork, rreq, work, off]
  simp only [Bool.false_eq_true, if_false, if_true]
  split
  · next x h => exact absurd h (head x)
  all_goals rfl

theorem holdOff_noStall (calm : noStall s) : holdOff s = { s with
    le := { s.le with link := .waiting, stall := .timing, stallTimer := some s.su.settings.stallTime } } := by
  rw [holdOff]
  dsimp only
  rw [calm.1]

theorem exec_acknowledgement (latch : s.le.latch = some o) :
    exec .acknowledgement s = .next (applyOrder (originAcknowledged o.origin (acknowledged s))) := by
  change execAcknowledgement s = _
  rw [execAcknowledgement]
  dsimp only
  rw [latch]

/-- The SELECT of channel `c` has been acknowledged (R74, R81). -/
abbrev channelSelected (s : State) (c : ChannelId) : State :=
  { acknowledged s with le := { (acknowledged s).le with current := some c } }

/-- Settles O39: the order of work on the state in which the channel is current. -/
theorem acknowledgedSelectsMakeTheChannelCurrent : Obligations.AcknowledgedSelectsMakeTheChannelCurrent := by
  intro s
  refine ⟨fun empty => ?_, fun o c latch select => ?_⟩
  · change execAcknowledgement s = _
    rw [execAcknowledgement]
    dsimp only
    rw [empty]
  have run : exec .acknowledgement s = .next (applyOrder (channelSelected s c)) := by
    rw [exec_acknowledgement latch, select]
    rfl
  refine ⟨fun rreq => ?_, fun work => ?_, fun rreq work head calm held => ?_, fun e es head list channel opened => ?_,
    fun a kind b active channel list opened head => ?_⟩
  · rw [run, applyOrder_grant (s := channelSelected s c) rreq]
    rfl
  · rw [run, applyOrder_noWork (s := channelSelected s c) work]
  · rw [run, applyOrder_heldOff (s := channelSelected s c) rreq work head held, holdOff_noStall (s := channelSelected s c) calm]
  · obtain ⟨rreq, prdy, pflt, calm⟩ := opened
    have current : (channelSelected s c).le.current = some e.channel := congrArg some channel.symm
    rw [run, applyOrder_abandon (s := channelSelected s c) rreq prdy pflt list head, if_pos current, offerAbandon,
      makeOffer_noStall _ (s := channelSelected s c) calm]
    rfl
  · subst channel
    obtain ⟨t, out, taken, frame⟩ := applyOrder_offersCalm (s := channelSelected s (s.job a).channel) opened list active head rfl
    exact ⟨t, run.trans (congrArg _ out), taken, frame⟩

end Sys2Proof.Machine
end

section
/-! SUPPORT. Link resets (R138 to R141): what ending a job does to its slot, its route and the units, the fates of all jobs in slot
order, and the items a reset clears. -/

namespace Sys2Proof.Machine

variable {s t u : State} {k z : SlotId} {o : JobOutcome} {c : Cause} {r : RouteId} {h : HostId}

/-! ## A job ends, field by field -/

theorem abortRoute_route (k : SlotId) (s : State) (r : RouteId) :
    (abortRoute k s).route r =
      if (s.job k).route = some r then { s.route r with state := .aborted, buffer := [], timer := none } else s.route r := by
  rw [abortRoute]
  cases own : (s.job k).route with
  | none => rfl
  | some x =>
    refine (upd_get ..).trans ?_
    by_cases here : x = r
    · subst here
      rw [if_pos rfl, if_pos rfl]
    · rw [if_neg here, if_neg fun e => here (Option.some.inj e)]
      rfl

theorem abortRoute_routeAborted (k : SlotId) (s : State) : routeAborted s (abortRoute k s) k := abortRoute_route k s

theorem stopReplyTimer_route (k : SlotId) (s : State) (r : RouteId) :
    (stopReplyTimer k s).route r =
      if (s.job k).route = some r then { s.route r with timer := none } else s.route r := by
  rw [stopReplyTimer]
  cases own : (s.job k).route with
  | none => rfl
  | some x =>
    refine (upd_get ..).trans ?_
    by_cases here : x = r
    · subst here
      rw [if_pos rfl, if_pos rfl]
    · rw [if_neg here, if_neg fun e => here (Option.some.inj e)]
      rfl

/-- The record with which a job enters ENDED, its reply timer stopped, before its release or the post (R16). -/
abbrev jobEnds (k : SlotId) (o : JobOutcome) (c : Cause) (s : State) : State :=
  (stopReplyTimer k (discardChain k s)).setJob k (endedJob (s.job k) o c)

theorem endJob_eq (k : SlotId) (o : JobOutcome) (c : Cause) (s : State) :
    endJob k o c s =
      if (s.job k).orphaned then releaseSlot k (jobEnds k o c s)
      else post (s.job k).owner (endedRecord s k (outcomeCauseByte o c)) (jobEnds k o c s) := by
  have job : (stopReplyTimer k (discardChain k s)).job k = { s.job k with chain := [], queued := 0 } := by
    rw [stopReplyTimer_frame]
    exact (discardChain_job k k s).trans (if_pos rfl)
  have handle : (stopReplyTimer k (discardChain k s)).handle k = s.handle k := by
    rw [stopReplyTimer_frame]
    rfl
  rw [endJob, jobEndedEvent]
  simp only [job, State.setJob_job_same, State.setJob_handle, handle]

theorem jobEnds_route (k : SlotId) (o : JobOutcome) (c : Cause) (s : State) (r : RouteId) :
    (jobEnds k o c s).route r = if (s.job k).route = some r then { s.route r with timer := none } else s.route r := by
  have job : ((discardChain k s).job k).route = (s.job k).route := by rw [discardChain_job, if_pos rfl]
  refine (stopReplyTimer_route k (discardChain k s) r).trans ?_
  rw [job]
  rfl

theorem endJob_route (k : SlotId) (o : JobOutcome) (c : Cause) (s : State) (r : RouteId) :
    (endJob k o c s).route r =
      if (s.job k).route = some r then if (s.job k).orphaned then freeRoute else { s.route r with timer := none }
      else s.route r := by
  rw [endJob_eq]
  by_cases orphan : (s.job k).orphaned = true
  · rw [if_pos orphan, if_pos orphan]
    have own : ((jobEnds k o c s).job k).route = (s.job k).route := by rw [State.setJob_job_same]
    refine (freeRouteOf_route k (jobEnds k o c s) r).trans ?_
    rw [own, jobEnds_route]
    split <;> rfl
  · rw [if_neg orphan, if_neg orphan]
    exact jobEnds_route k o c s r

theorem endJob_gen (k : SlotId) (o : JobOutcome) (c : Cause) (s : State) (z : SlotId) :
    (endJob k o c s).gen z = if k = z ∧ (s.job k).orphaned = true then s.gen z + 1 else s.gen z := by
  have gens : ∀ z, (jobEnds k o c s).gen z = s.gen z := fun z => by
    rw [State.setJob_gen, stopReplyTimer_frame]
    rfl
  rw [endJob_eq]
  by_cases orphan : (s.job k).orphaned = true
  · rw [if_pos orphan, releaseSlot_gen, gens, gens]
    by_cases here : k = z
    · rw [if_pos here, if_pos ⟨here, orphan⟩, here]
    · rw [if_neg here, if_neg fun both => here both.1]
  · rw [if_neg orphan, if_neg fun both => orphan both.2]
    exact gens z

theorem endJob_eu (k : SlotId) (o : JobOutcome) (c : Cause) (s : State) (h : HostId) :
    (endJob k o c s).eu h =
      unitAfter s h (if (s.job k).owner = h ∧ (s.job k).orphaned = false then
        [endedRecord s k (outcomeCauseByte o c)] else []) := by
  have same : (jobEnds k o c s).eus = s.eus := by
    rw [State.setJob_eus, stopReplyTimer_frame]
    rfl
  have ports : (jobEnds k o c s).ports = s.ports := by
    rw [State.setJob_ports, stopReplyTimer_frame]
    rfl
  rw [endJob_eq]
  by_cases orphan : (s.job k).orphaned = true
  · have told : ¬ ((s.job k).owner = h ∧ (s.job k).orphaned = false) := fun both => by simp [orphan] at both
    rw [if_pos orphan, if_neg told, State.eu, releaseSlot_frame]
    exact congrArg (·[h]) same
  · have kept : (s.job k).orphaned = false := by simpa using orphan
    rw [if_neg orphan, post_unitAfter, unitAfter, State.port, ports, State.eu, same]
    by_cases own : (s.job k).owner = h
    · rw [postsTo, if_pos own.symm, if_pos ⟨own, kept⟩]
      rfl
    · rw [postsTo, if_neg (Ne.symm own), if_neg fun both => own both.1]
      rfl

/-! ## The fate of one job -/

section
variable (entries : List AbandonEntry) (cause : Cause)

theorem meetFate_frame (s : State) (k : SlotId) :
    meetFate entries cause s k = { s with
      eus := (meetFate entries cause s k).eus
      jm := { (meetFate entries cause s k).jm with nextSeq := s.jm.nextSeq }
      sp := { (meetFate entries cause s k).sp with phase := s.sp.phase, initTimer := s.sp.initTimer, marks := s.sp.marks }
      rr := { s.rr with routes := (meetFate entries cause s k).rr.routes } } := by
  rw [meetFate]
  split
  · rfl
  · rw [endJob_frame, abortRoute_frame]

/-- The fate of the job in slot `z`, as it stands in `s`. -/
abbrev fateOf (s : State) (z : SlotId) : Option (JobOutcome × Cause) := resetFate entries cause (s.handle z) (s.job z)

theorem meetFate_gen (s : State) (k z : SlotId) :
    (meetFate entries cause s k).gen z =
      if k = z ∧ (fateOf entries cause s k).isSome ∧ (s.job k).orphaned = true then s.gen z + 1 else s.gen z := by
  rw [meetFate, fateOf]
  cases resetFate entries cause (s.handle k) (s.job k) with
  | none => simp
  | some f =>
    have job : (abortRoute k s).job k = s.job k := by rw [abortRoute_frame]; rfl
    have gen : (abortRoute k s).gen z = s.gen z := by rw [abortRoute_frame]; rfl
    dsimp only
    rw [endJob_gen, job, gen]
    simp

theorem meetFate_route (s : State) (k : SlotId) (r : RouteId) :
    (meetFate entries cause s k).route r =
      if (s.job k).route = some r ∧ (fateOf entries cause s k).isSome then
        if (s.job k).orphaned then freeRoute else { s.route r with state := .aborted, buffer := [], timer := none }
      else s.route r := by
  rw [meetFate, fateOf]
  cases resetFate entries cause (s.handle k) (s.job k) with
  | none => simp
  | some f =>
    have job : (abortRoute k s).job k = s.job k := by rw [abortRoute_frame]; rfl
    dsimp only
    rw [endJob_route, job, abortRoute_route]
    by_cases own : (s.job k).route = some r
    · simp [own]
    · simp [own]

/-- The JOB_ENDED record of the job in slot `k` for host `h`, if it is to have one (R139, R140). -/
abbrev fateRecord (s : State) (h : HostId) (k : SlotId) : Option Event :=
  if (s.job k).owner = h ∧ (s.job k).orphaned = false then
    (fateOf entries cause s k).map fun f => endedRecord s k (outcomeCauseByte f.1 f.2)
  else none

theorem meetFate_eu (s : State) (k : SlotId) (h : HostId) :
    (meetFate entries cause s k).eu h = unitAfter s h (fateRecord entries cause s h k).toList := by
  rw [meetFate, fateRecord, fateOf]
  cases resetFate entries cause (s.handle k) (s.job k) with
  | none => simp
  | some f =>
    have job : (abortRoute k s).job k = s.job k := by rw [abortRoute_frame]; rfl
    have record : endedRecord (abortRoute k s) k (outcomeCauseByte f.1 f.2) = endedRecord s k (outcomeCauseByte f.1 f.2) := by
      rw [abortRoute_frame]
      rfl
    have unit : ∀ es, unitAfter (abortRoute k s) h es = unitAfter s h es := fun es => by
      rw [abortRoute_frame]
      rfl
    dsimp only
    rw [endJob_eu, job, record, unit, Option.map_some]
    split <;> rfl

/-! ## The fates of several jobs, in order -/

/-- A fate leaves every other slot as it was. -/
theorem meetFate_elsewhere (s : State) (off : k ≠ z) :
    (meetFate entries cause s k).job z = s.job z ∧ (meetFate entries cause s k).gen z = s.gen z := by
  constructor
  · rw [meetFate_job]
    split
    · rfl
    · rw [if_neg off]
  · rw [meetFate_gen, if_neg fun all => off all.1]

theorem fates_elsewhere (l : List SlotId) (s : State) (off : z ∉ l) :
    (l.foldl (meetFate entries cause) s).job z = s.job z ∧ (l.foldl (meetFate entries cause) s).gen z = s.gen z := by
  induction l generalizing s with
  | nil => exact ⟨rfl, rfl⟩
  | cons k l ih =>
    obtain ⟨first, others⟩ : z ≠ k ∧ z ∉ l := by simpa using off
    obtain ⟨job, gen⟩ := meetFate_elsewhere entries cause s (Ne.symm first)
    obtain ⟨job', gen'⟩ := ih (meetFate entries cause s k) others
    exact ⟨job'.trans job, gen'.trans gen⟩

/-- Each job meets its own fate, as it stood at the reset. -/
theorem fates_at (l : List SlotId) (distinct : l.Nodup) (s : State) (mem : z ∈ l) :
    (l.foldl (meetFate entries cause) s).job z = (meetFate entries cause s z).job z ∧
      (l.foldl (meetFate entries cause) s).gen z = (meetFate entries cause s z).gen z := by
  induction l generalizing s with
  | nil => cases mem
  | cons k l ih =>
    obtain ⟨first, others⟩ := List.nodup_cons.mp distinct
    by_cases here : k = z
    · subst here
      exact fates_elsewhere entries cause l (meetFate entries cause s k) first
    · obtain ⟨job, gen⟩ := meetFate_elsewhere entries cause s here
      obtain ⟨job', gen'⟩ := ih others (meetFate entries cause s k) ((List.mem_cons.mp mem).resolve_left (Ne.symm here))
      have handle : (meetFate entries cause s k).handle z = s.handle z := by rw [State.handle, gen]; rfl
      rw [List.foldl_cons]
      refine ⟨job'.trans ?_, gen'.trans ?_⟩
      · rw [meetFate_job _ _ (meetFate entries cause s k) z z, meetFate_job _ _ s z z, handle, job]
      · rw [meetFate_gen _ _ (meetFate entries cause s k) z z, meetFate_gen _ _ s z z, fateOf, fateOf, handle, job, gen]

theorem meetFate_namesRoute (s : State) (k x : SlotId) (named : ((meetFate entries cause s k).job x).route = some r) :
    (s.job x).route = some r := by
  rw [meetFate_job] at named
  split at named
  · exact named
  · split at named
    · split at named
      · cases named
      · exact named
    · exact named

theorem fates_routeUntouched (l : List SlotId) (s : State) (off : ∀ x ∈ l, (s.job x).route ≠ some r) :
    (l.foldl (meetFate entries cause) s).route r = s.route r := by
  induction l generalizing s with
  | nil => rfl
  | cons k l ih =>
    have first : (meetFate entries cause s k).route r = s.route r := by
      rw [meetFate_route, if_neg fun both => off k List.mem_cons_self both.1]
    exact (ih (meetFate entries cause s k) fun x mem named =>
      off x (List.mem_cons_of_mem _ mem) (meetFate_namesRoute entries cause s k x named)).trans first

/-- The route that one job alone names meets that job's fate. -/
theorem fates_route (l : List SlotId) (distinct : l.Nodup) (s : State) (own : (s.job z).route = some r)
    (alone : ∀ x, x ≠ z → (s.job x).route ≠ some r) :
    (l.foldl (meetFate entries cause) s).route r =
      if z ∈ l then (meetFate entries cause s z).route r else s.route r := by
  induction l generalizing s with
  | nil => rfl
  | cons k l ih =>
    obtain ⟨first, others⟩ := List.nodup_cons.mp distinct
    rw [List.foldl_cons]
    by_cases here : k = z
    · subst here
      rw [if_pos List.mem_cons_self]
      exact fates_routeUntouched entries cause l _ fun x mem named =>
        alone x (fun e => first (e ▸ mem)) (meetFate_namesRoute entries cause s k x named)
    · obtain ⟨job, gen⟩ := meetFate_elsewhere entries cause s here
      have handle : (meetFate entries cause s k).handle z = s.handle z := by rw [State.handle, gen]; rfl
      have route : (meetFate entries cause s k).route r = s.route r := by
        rw [meetFate_route, if_neg fun both => alone k here both.1]
      have last : (meetFate entries cause (meetFate entries cause s k) z).route r = (meetFate entries cause s z).route r := by
        rw [meetFate_route _ _ (meetFate entries cause s k) z, meetFate_route _ _ s z, fateOf, fateOf, job, handle, route]
      rw [ih others (meetFate entries cause s k) (by rw [job]; exact own) fun x off named =>
        alone x off (meetFate_namesRoute entries cause s k x named), last, route]
      simp only [List.mem_cons, Ne.symm here, false_or]

/-- The records come in the order of the slots. -/
theorem fates_eu (l : List SlotId) (distinct : l.Nodup) (s : State) (h : HostId) :
    (l.foldl (meetFate entries cause) s).eu h = unitAfter s h (l.filterMap (fateRecord entries cause s h)) := by
  induction l generalizing s with
  | nil => rfl
  | cons k l ih =>
    obtain ⟨first, others⟩ := List.nodup_cons.mp distinct
    have same : ∀ z ∈ l, fateRecord entries cause (meetFate entries cause s k) h z = fateRecord entries cause s h z :=
      fun z mem => by
        have off : k ≠ z := fun e => first (e ▸ mem)
        obtain ⟨job, gen⟩ := meetFate_elsewhere entries cause s off
        have handle : (meetFate entries cause s k).handle z = s.handle z := by rw [State.handle, gen]; rfl
        simp only [fateRecord, fateOf, endedRecord, job, handle]
    rw [List.foldl_cons, ih others, List.filterMap_congr same,
      unitAfter_trans (by rw [meetFate_frame]) (meetFate_eu entries cause s k h)]
    congr 1
    rw [List.filterMap_cons]
    cases fateRecord entries cause s h k <;> rfl

theorem fates_frame (l : List SlotId) (s : State) :
    l.foldl (meetFate entries cause) s = { s with
      eus := (l.foldl (meetFate entries cause) s).eus
      jm := { (l.foldl (meetFate entries cause) s).jm with nextSeq := s.jm.nextSeq }
      sp := { (l.foldl (meetFate entries cause) s).sp with
        phase := s.sp.phase, initTimer := s.sp.initTimer, marks := s.sp.marks }
      rr := { s.rr with routes := (l.foldl (meetFate entries cause) s).rr.routes } } := by
  induction l generalizing s with
  | nil => rfl
  | cons k l ih =>
    have first := meetFate_frame entries cause s k
    have rest := ih (meetFate entries cause s k)
    rw [List.foldl_cons]
    generalize l.foldl (meetFate entries cause) (meetFate entries cause s k) = t at rest ⊢
    generalize meetFate entries cause s k = u at first rest
    rw [rest, first]

end

/-! ## The reset as a whole -/

/-- The units once LINK_FAULT is posted, and the last fault recorded (R140). -/
abbrev faultReported (s : State) (fault : LastFault) (v : Vector EventUnit 4) : State :=
  { s with eus := v, le := { s.le with lastFault := fault } }

theorem mem_allSlots (k : SlotId) : k ∈ allSlots := List.mem_finRange k

theorem allSlots_nodup : allSlots.Nodup := List.nodup_finRange 24

/-- The items of R140 are cleared once the jobs have met their fates, and the space waiters evaluated last. -/
theorem resetLink_eq (fault : LastFault) (cause : Cause) (s : State) :
    ∃ v, postedToLinkGroup s { s with eus := v } (plainEvent .linkFault (lastFaultByte fault)) ∧
      resetLink fault cause s =
        evaluateSpace (clearLink (allSlots.foldl (meetFate s.le.abandon cause) (faultReported s fault v))) := by
  obtain ⟨v, eq, posted⟩ := postLinkGroup_posted (plainEvent .linkFault (lastFaultByte fault))
    { s with le := { s.le with lastFault := fault } }
  refine ⟨v, posted, ?_⟩
  rw [resetLink]
  dsimp only
  rw [eq]

/-- What a link reset leaves but for the jobs (R140, R143). -/
structure LinkCleared (fault : LastFault) (s t : State) : Prop where
  le : t.le = {
    link := .resetting, current := none, latch := none, abandon := [], stall := .none, ackTimer := none,
    stallTimer := none, dryTimer := none, wakeTimer := none, revIdleTimer := none, pulseTimer := some 100,
    lastStatus := s.le.lastStatus, lastFault := fault }
  du : t.du = {
    ready := s.du.ready.filter fun k => decide ((t.job k).state = .ready), stack := [],
    claims := Vector.replicate 16 none, rotation := s.du.rotation, active := none, leaving := false }
  pins : t.pins = { s.pins with
    lrst := true, fstb := false, rgnt := false, rack := false, ld := 0, lkind := .data, ldDriven := true }
  selection : t.rr.selection = none
  repeats : t.rr.repeats = none
  su : t.su = s.su
  draws : t.draws = s.draws
  nextSeq : t.jm.nextSeq = s.jm.nextSeq
  phase : t.sp.phase = s.sp.phase
  ports : t.ports = s.ports

theorem resetLink_clears (fault : LastFault) (cause : Cause) (s : State) : LinkCleared fault s (resetLink fault cause s) := by
  obtain ⟨v, -, eq⟩ := resetLink_eq fault cause s
  have fates := fates_frame s.le.abandon cause allSlots (faultReported s fault v)
  rw [eq, evaluateSpace_frame]
  generalize allSlots.foldl (meetFate s.le.abandon cause) (faultReported s fault v) = t at fates ⊢
  generalize (evaluateSpace (clearLink t)).eus = e
  generalize (evaluateSpace (clearLink t)).sp.marks = m
  have le : t.le = { s.le with lastFault := fault } := by rw [fates]
  have du : t.du = s.du := by rw [fates]
  have pins : t.pins = s.pins := by rw [fates]
  constructor
  case le => simp only [clearLink, startPulse, le, Config.lrstPulse]
  case du =>
    simp only [clearLink, startPulse, du]
    rfl
  case pins => simp only [clearLink, startPulse, pins]
  case selection => rfl
  case repeats => rfl
  all_goals
    simp only [clearLink, startPulse]
    rw [fates]

/-- Clearing the link and evaluating the space waiters leaves jobs and routes alone. -/
theorem cleared_tables (s : State) :
    (∀ k, (evaluateSpace (clearLink s)).job k = s.job k) ∧ (∀ k, (evaluateSpace (clearLink s)).gen k = s.gen k) ∧
      ∀ r, (evaluateSpace (clearLink s)).route r = s.route r := by
  rw [evaluateSpace_frame]
  exact ⟨fun _ => rfl, fun _ => rfl, fun _ => rfl⟩

/-- Each job has met its own fate. -/
theorem resetLink_job (fault : LastFault) (cause : Cause) (s : State) (z : SlotId) :
    (resetLink fault cause s).job z = (meetFate s.le.abandon cause s z).job z ∧
      (resetLink fault cause s).gen z = (meetFate s.le.abandon cause s z).gen z := by
  obtain ⟨v, -, eq⟩ := resetLink_eq fault cause s
  obtain ⟨job, gen⟩ := fates_at s.le.abandon cause allSlots allSlots_nodup (faultReported s fault v) (mem_allSlots z)
  obtain ⟨jobs, gens, -⟩ := cleared_tables (allSlots.foldl (meetFate s.le.abandon cause) (faultReported s fault v))
  rw [eq, jobs, gens, job, gen]
  constructor
  · rw [meetFate_job, meetFate_job]
    rfl
  · rw [meetFate_gen, meetFate_gen]
    rfl

/-- A route that one job alone names. -/
theorem resetLink_route (fault : LastFault) (cause : Cause) (s : State) {z : SlotId} (own : (s.job z).route = some r)
    (alone : ∀ x, x ≠ z → (s.job x).route ≠ some r) :
    (resetLink fault cause s).route r = (meetFate s.le.abandon cause s z).route r := by
  obtain ⟨v, -, eq⟩ := resetLink_eq fault cause s
  have route := fates_route s.le.abandon cause allSlots allSlots_nodup (faultReported s fault v) own alone
  rw [if_pos (mem_allSlots z)] at route
  obtain ⟨-, -, routes⟩ := cleared_tables (allSlots.foldl (meetFate s.le.abandon cause) (faultReported s fault v))
  rw [eq, routes, route]
  rw [meetFate_route, meetFate_route]
  rfl

/-- LINK_FAULT first, then the records of the ended jobs, and SPACE last (R140). -/
theorem resetLink_posted (fault : LastFault) (cause : Cause) (s : State) :
    postedAheadOfSpace s (resetLink fault cause s) fun h =>
      (if (s.eu h).linkGroup then [plainEvent .linkFault (lastFaultByte fault)] else []) ++
        allSlots.filterMap (fateRecord s.le.abandon cause s h) := by
  obtain ⟨v, posted, eq⟩ := resetLink_eq fault cause s
  have fates := fates_frame s.le.abandon cause allSlots (faultReported s fault v)
  have records := fun h => fates_eu s.le.abandon cause allSlots allSlots_nodup (faultReported s fault v) h
  rw [eq]
  generalize allSlots.foldl (meetFate s.le.abandon cause) (faultReported s fault v) = t at fates records ⊢
  refine evaluateSpace_posted ?_ ?_ fun h => ?_
  · simp only [clearLink, startPulse]
    rw [fates]
  · simp only [clearLink, startPulse]
    rw [fates]
  · have told : ({ s with eus := v } : State).eu h =
        unitAfter s h (if (s.eu h).linkGroup then [plainEvent .linkFault (lastFaultByte fault)] else []) := by
      rw [posted h]
      split <;> rfl
    exact (records h).trans (unitAfter_trans (u := faultReported s fault v) rfl told)

/-! ## The two commands that reset the link -/

/-- A command that resets the link: its answer, if a host asked for it, and the reset (R138, R141). -/
theorem exec_resetsLink {x : Instr} {fault : LastFault} (resets : resetsLink x s fault c) :
    ∃ t, exec x s = .next t ∧ (x = .acknowledgeTimeout → t.ports = s.ports) ∧
      (∀ h, x = .linkReset h → answeredWith s t h .ok []) ∧ t = { resetLink fault c s with ports := t.ports } := by
  rcases resets with ⟨h, rfl, port, holder, rfl, rfl⟩ | ⟨rfl, running, rfl, rfl⟩
  · have run : exec (.linkReset h) s = serve h (judgeLinkReset h) s := rfl
    have judged : judgeLinkReset h s = { state := resetLink .resetRequested .linkReset s, code := .ok, payload := [] } := by
      rw [judgeLinkReset, if_pos holder]
    obtain ⟨t, served, answered, rest⟩ := serve_answered port _ judged (resetLink_clears .resetRequested .linkReset s).ports
    refine ⟨t, run.trans served, nofun, fun x same => ?_, rest⟩
    cases same
    exact answered
  · have run : exec .acknowledgeTimeout s = execAcknowledgeTimeout s := rfl
    rw [execAcknowledgeTimeout, if_pos (Option.isSome_iff_ne_none.mpr running)] at run
    have ports := (resetLink_clears .ackTimeout .linkFault s).ports
    generalize resetLink .ackTimeout .linkFault s = t at run ports ⊢
    exact ⟨t, run, fun _ => ports, nofun, rfl⟩

/-- Settles O37: what the reset clears, by the command that brings it about. -/
theorem linkResetsClearTheLink : Obligations.LinkResetsClearTheLink := by
  intro s
  refine ⟨fun x fault cause resets => ?_, fun h port other => ?_, fun off => ?_⟩
  · obtain ⟨t, run, alone, answered, rest⟩ := exec_resetsLink resets
    obtain ⟨le, du, pins, selection, repeats, su, draws, nextSeq, phase, -⟩ := resetLink_clears fault cause s
    generalize resetLink fault cause s = u at rest le du pins selection repeats su draws nextSeq phase
    have job : ∀ k, t.job k = u.job k := fun k => by rw [rest]; rfl
    refine ⟨t, run, ?_, ?_, ?_, ?_, ?_, ?_, ?_, ?_, ?_, alone, answered⟩
    · rw [rest, le]
    · simp only [job]
      rw [rest, du]
    · rw [rest, pins]
    · rw [rest, selection]
    · rw [rest, repeats]
    · rw [rest, su]
    · rw [rest, draws]
    · rw [rest, nextSeq]
    · rw [rest, phase]
  · exact serve_refused port rfl (by rw [judgeLinkReset, if_neg other])
  · change execAcknowledgeTimeout s = _
    rw [execAcknowledgeTimeout, off]
    rfl

/-! ## The fates in the words of the statements -/

theorem resetFate_of_ends {o : JobOutcome} {d : Cause} (ends : resetEnds s k c o d) : fateOf s.le.abandon c s k = some (o, d) := by
  rw [fateOf, resetFate]
  rcases ends with ⟨state, rfl, rfl⟩ | ⟨state | state | ⟨state | state, begun⟩, rfl, rfl⟩ | ⟨state, rfl, e, found, rfl⟩
  · rw [state]
  · rw [state]
  · rw [state]
  · rw [state]
    exact if_pos begun
  · rw [state]
    exact if_pos begun
  · rw [state]
    dsimp only
    rw [abandonCause, found]

theorem resetFate_of_keeps (keeps : resetKeeps s k) : fateOf s.le.abandon c s k = none := by
  have fresh : ∀ {b : Bool}, b = false → (if b = true then some (JobOutcome.failed, Cause.linkReset) else none) = none :=
    fun unbegun => if_neg (by simp [unbegun])
  rw [fateOf, resetFate]
  rcases keeps with state | state | state | ⟨state | state, begun⟩
  · rw [state]
  · rw [state]
  · rw [state]
  · rw [state]
    exact fresh begun
  · rw [state]
    exact fresh begun

/-- Settles O38: each fate is read off the job's own `meetFate`, and the records off the fold. -/
theorem linkResetsDecideEveryJobsFate : Obligations.LinkResetsDecideEveryJobsFate := by
  intro s x fault cause resets
  obtain ⟨t, run, -, -, rest⟩ := exec_resetsLink resets
  have jobs := resetLink_job fault cause s
  have routes := fun r z => resetLink_route (r := r) (z := z) fault cause s
  have posted := resetLink_posted fault cause s
  have code : lastFaultByte fault = if fault = .ackTimeout then 0x01#8 else 0x02#8 := by
    rcases resets with ⟨h, -, -, -, rfl, -⟩ | ⟨-, -, rfl, -⟩ <;> rfl
  rw [code] at posted
  generalize resetLink fault cause s = u at rest jobs routes posted
  have job : ∀ k, t.job k = (meetFate s.le.abandon cause s k).job k := fun k => by rw [rest]; exact (jobs k).1
  have gen : ∀ k, t.gen k = (meetFate s.le.abandon cause s k).gen k := fun k => by rw [rest]; exact (jobs k).2
  refine ⟨t, run, fun k o ca ends => ?_, fun k keeps => ?_, by rw [rest]; exact posted⟩
  · have fate : resetFate s.le.abandon cause (s.handle k) (s.job k) = some (o, ca) := resetFate_of_ends ends
    rw [job, gen, meetFate_gen, meetFate_job, fateOf, fate]
    dsimp only
    refine ⟨fun kept => ?_, fun orphan => ?_⟩
    · have not : ¬ (s.job k).orphaned = true := by simp [kept]
      refine ⟨by rw [if_pos rfl, if_neg not], if_neg fun all => not all.2.2, fun r own alone => ?_⟩
      rw [rest]
      refine (routes r k own alone).trans ?_
      rw [meetFate_route, fateOf, fate, if_pos ⟨own, rfl⟩, if_neg not]
    · rw [if_pos rfl, if_pos orphan]
      exact ⟨rfl, if_pos ⟨rfl, rfl, orphan⟩⟩
  · have fate : resetFate s.le.abandon cause (s.handle k) (s.job k) = none := resetFate_of_keeps keeps
    rw [job, gen, meetFate_gen, meetFate_job, fateOf, fate]
    exact ⟨rfl, if_neg fun all => by cases all.2.1⟩

end Sys2Proof.Machine
end

section
/-! SUPPORT. What the rounds of `settled` keep, and the space-waiter marks, which nothing that the blocks do to one another sets
(R32, R37, R39). -/

namespace Sys2Proof.Machine

variable {s t u : State} {a k : SlotId} {h : HostId}

/-! ## Rounds -/

theorem breakPoint_cases (changed : breakPoint s a = some t) :
    recovering s = false ∧ ((∃ k, urgent s a k ∧ t = takesLink (suspends s a) k) ∨
      (∀ k, ¬ urgent s a k) ∧ spent s (s.job a).turn ∧ ∃ k, firstRival s a k ∧ t = yields s a k) := by
  have up : recovering s = false := by
    by_contra down
    rw [breakPoint_recovering (by simpa using down)] at changed
    cases changed
  refine ⟨up, ?_⟩
  by_cases urgency : ∃ k, urgent s a k
  · obtain ⟨k, u⟩ := urgency
    rw [breakPoint_urgent u] at changed
    exact .inl ⟨k, u, (Option.some.inj changed).symm⟩
  · have calm : ∀ k, ¬ urgent s a k := fun k u => urgency ⟨k, u⟩
    by_cases stays : staysOn s a (s.job a).turn
    · rw [breakPoint_stays up stays] at changed
      cases changed
    · have moves : spent s (s.job a).turn ∧ ∃ k, rival s a k := by
        by_contra not
        refine stays ⟨calm, ?_⟩
        rw [not_and_or] at not
        exact not.imp_right fun none k r => none ⟨k, r⟩
      obtain ⟨k, first, yielded⟩ := breakPoint_yields up calm moves.1 moves.2
      rw [yielded] at changed
      exact .inr ⟨calm, moves.1, k, first, (Option.some.inj changed).symm⟩

theorem breakPoint_handsOn (changed : breakPoint s a = some t) : HandsOn s t := by
  obtain ⟨-, ⟨k, -, rfl⟩ | ⟨-, -, k, -, rfl⟩⟩ := breakPoint_cases changed
  · exact (suspends_handsOn s a).trans (takesLink_handsOn _ k)
  · exact yields_handsOn s a k

theorem leavingDecision_handsOn (s : State) : HandsOn s (leavingDecision s) := by
  obtain ⟨n, named⟩ := leavesTo_exists s
  rw [leavingDecision_eq named]
  exact passedTo_handsOn s n

/-- What completions, the start of a dry wait, the leaving decision and break points keep, `settled` keeps (R57, R61). -/
theorem settle_keeps {P : State → Prop}
    (complete : ∀ u a, P u → u.du.active = some a → headEntry u a = none → entryOffered u a = false → (u.job a).closed = true →
      P (leavingDecision (completeTransmission a u)))
    (dry : ∀ u a, P u → u.du.active = some a → headEntry u a = none → entryOffered u a = false → (u.job a).closed = false →
      (u.job a).stream = true → P (startDryWait u))
    (decides : ∀ u a v, P u → u.du.active = some a → headEntry u a = none → (u.job a).closed = false →
      breakPoint u a = some v → P v)
    (n : Nat) (start : P s) : P (settle n s) := by
  induction n generalizing s with
  | zero => exact start
  | succ n ih =>
    rw [settle]
    cases active : s.du.active with
    | none => exact start
    | some a =>
      dsimp only
      split
      · exact start
      · next idle =>
        simp only [Bool.or_eq_true, Option.isSome_iff_ne_none, not_or, not_not, Bool.not_eq_true] at idle
        obtain ⟨empty, unoffered⟩ := idle
        split
        · next closed => exact ih (complete s a start active empty unoffered closed)
        · next opened =>
          have opened : (s.job a).closed = false := by simpa using opened
          split
          · next stream =>
            have waiting := dry s a start active empty unoffered opened stream
            split
            · exact waiting
            · next v changed => exact ih (decides _ a v waiting active empty opened changed)
          · exact start

theorem settled_keeps {P : State → Prop}
    (complete : ∀ u a, P u → u.du.active = some a → headEntry u a = none → entryOffered u a = false → (u.job a).closed = true →
      P (leavingDecision (completeTransmission a u)))
    (dry : ∀ u a, P u → u.du.active = some a → headEntry u a = none → entryOffered u a = false → (u.job a).closed = false →
      (u.job a).stream = true → P (startDryWait u))
    (decides : ∀ u a v, P u → u.du.active = some a → headEntry u a = none → (u.job a).closed = false →
      breakPoint u a = some v → P v)
    (start : P s) : P (settled s) := settle_keeps complete dry decides _ start

/-! ## Marks -/

/-- From `s` to `t` no host has become a space waiter. -/
def MarksFall (s t : State) : Prop := ∀ h, s.mark h = none → t.mark h = none

theorem MarksFall.trans (f : MarksFall s t) (g : MarksFall t u) : MarksFall s u := fun h none => g h (f h none)

theorem MarksFall.of_marks (same : t.sp.marks = s.sp.marks) : MarksFall s t := fun h none => by
  rw [State.mark, same]
  exact none

theorem HandsOn.marksFall (f : HandsOn s t) : MarksFall s t := .of_marks (by rw [f.rest])

theorem evaluateSpace_marksFall (s : State) : MarksFall s (evaluateSpace s) := fun h none => by
  rw [(evaluateSpace_spec s h).1, none]
  exact ite_self _

theorem evaluated_marksFall (same : u.sp.marks = s.sp.marks) : MarksFall s (evaluateSpace u) :=
  (MarksFall.of_marks same).trans (evaluateSpace_marksFall u)

theorem endJob_marksFall (k : SlotId) (o : JobOutcome) (c : Cause) (s : State) : MarksFall s (endJob k o c s) :=
  .of_marks (by rw [endJob_frame])

theorem endJobAlone_marksFall (k : SlotId) (o : JobOutcome) (c : Cause) (s : State) : MarksFall s (endJobAlone k o c s) :=
  (endJob_marksFall k o c s).trans (evaluateSpace_marksFall _)

theorem releaseSlot_marksFall (k : SlotId) (s : State) : MarksFall s (releaseSlot k s) := .of_marks (by rw [releaseSlot_frame])

theorem takeHead_marksFall (k : SlotId) (s : State) : MarksFall s (takeHead k s) := by
  rw [takeHead]
  split
  · exact fun _ none => none
  · split
    · exact fun _ none => none
    · exact evaluated_marksFall rfl
    · exact .of_marks rfl

theorem completeTransmission_marksFall (k : SlotId) (s : State) : MarksFall s (completeTransmission k s) := by
  have left : MarksFall s (dropActive (releaseClaim k s)) := .of_marks (by rw [releaseClaim]; split <;> rfl)
  rw [completeTransmission]
  split
  · exact left.trans (endJobAlone_marksFall k .done .none _)
  · split
    · exact left.trans (.of_marks rfl)
    · exact left.trans (endJobAlone_marksFall k .done .none _)

theorem settled_marksFall (s : State) : MarksFall s (settled s) :=
  settled_keeps (P := MarksFall s)
    (fun u a fall _ _ _ _ => (fall.trans (completeTransmission_marksFall a u)).trans (leavingDecision_handsOn _).marksFall)
    (fun _ _ fall _ _ _ _ _ => fall.trans (.of_marks rfl))
    (fun _ _ _ fall _ _ _ changed => fall.trans (breakPoint_handsOn changed).marksFall) fun _ none => none

theorem leaveLink_marksFall (s : State) : MarksFall s (leaveLink s) :=
  (leavingDecision_handsOn s).marksFall.trans (settled_marksFall _)

theorem takeBreak_marksFall (a : SlotId) (s : State) : MarksFall s (takeBreak a s) := by
  rw [takeBreak]
  split
  · exact (takeHead_marksFall a s).trans (settled_marksFall _)
  · next v changed => exact ((takeHead_marksFall a s).trans (breakPoint_handsOn changed).marksFall).trans (settled_marksFall v)

theorem LinkMove.marksFall (m : LinkMove s t) : MarksFall s t := by
  cases m with
  | grants => exact .of_marks rfl
  | holds => exact .of_marks (by rw [holdOff]; split <;> rfl)
  | idles => exact .of_marks (by rw [goIdle_frame])
  | offers o => exact .of_marks (by rw [makeOffer]; dsimp only; rw [endStall_frame])

theorem boundaryWork_marksFall (s : State) : MarksFall s (boundaryWork s) := by
  rcases boundaryWork_moves (P := MarksFall s) (fun u a fall _ => fall.trans (takeBreak_marksFall a u))
    (fun u a _ _ fall _ => (fall.trans (takeHead_marksFall a u)).trans (.of_marks (by rw [beginJob_eq])))
    (fun _ none => none) with same | ⟨u, fall, move⟩
  · rw [same]
    exact fun _ none => none
  · exact fall.trans move.marksFall

theorem cancelJob_marks (k : SlotId) (c : Cause) (s : State) : (cancelJob k c s).sp.marks = s.sp.marks := by
  have removed : (abortRoute k (removeFromDispatch k s)).sp.marks = s.sp.marks := by
    rw [abortRoute_frame, removeFromDispatch]
    dsimp only
    split <;> rfl
  rw [cancelJob]
  dsimp only
  split
  · exact removed
  · rw [endJob_frame]
    exact removed

theorem orphanSlot_marksFall (h : HostId) (s : State) (k : SlotId) : MarksFall s (orphanSlot h s k) := by
  rw [orphanSlot]
  split
  · split
    · exact fun _ none => none
    · exact releaseSlot_marksFall k s
    · exact .of_marks rfl
    all_goals exact .of_marks (cancelJob_marks k .byOwner _)
  · exact fun _ none => none

theorem MarksFall.foldl {f : State → SlotId → State} (each : ∀ s k, MarksFall s (f s k)) (l : List SlotId) (s : State) :
    MarksFall s (l.foldl f s) := by
  induction l generalizing s with
  | nil => exact fun _ none => none
  | cons k l ih => exact (each s k).trans (ih _)

theorem orphanJobs_marksFall (h : HostId) (s : State) : MarksFall s (orphanJobs h s) := by
  have released : ∀ s k, MarksFall s (releaseEnded h s k) := fun s k => by
    rw [releaseEnded]
    split
    · exact releaseSlot_marksFall k s
    · exact fun _ none => none
  have gone := ((MarksFall.foldl released allSlots s).trans (MarksFall.foldl (orphanSlot_marksFall h) allSlots _)).trans
    (evaluateSpace_marksFall _)
  have left (lost : Bool) (u : State) (fall : MarksFall s u) : MarksFall s (if lost then leaveLink u else u) := by
    cases lost
    · exact fall
    · exact fall.trans (leaveLink_marksFall u)
  exact left _ _ gone

/-! ## Port reset -/

/-- The reset's own part, what the jobs and the link do, and the lease last (R161, R177). -/
theorem exec_portReset (low : (s.port h).hrst = false) :
    exec (.portReset h) s = .next (dropLeaseOf h (boundaryWork (orphanJobs h (portDropped s h)))) := by
  change execPortReset h s = _
  rw [execPortReset_eq, if_neg (by simp [low])]

theorem dropLeaseOf_marks (h : HostId) (s : State) : (dropLeaseOf h s).sp.marks = s.sp.marks := by
  rw [dropLeaseOf]
  dsimp only
  split
  · rw [handover_frame]
  · rfl

/-- No post reaches a host that has left the waiter list (R161). -/
theorem dropLeaseOf_eu (h : HostId) (s : State) : (dropLeaseOf h s).eu h = s.eu h := by
  rw [dropLeaseOf]
  dsimp only
  split
  · cases list : s.su.waiters.filter fun x => decide (x ≠ h) with
    | nil => rw [handover_nobody rfl]; rfl
    | cons w ws =>
      have other : w ≠ h := by
        have mem : w ∈ s.su.waiters.filter fun x => decide (x ≠ h) := by rw [list]; exact List.mem_cons_self
        simpa using (List.mem_filter.mp mem).2
      rw [handover_waiter rfl]
      exact upd_ne _ _ other
  · rfl

/-- Settles O9: the port, unit and mark of the host stay dropped, and the lease is as the host's leaving makes it. -/
theorem portResetDropsTheHost : Obligations.PortResetDropsTheHost := by
  intro s h
  have run : exec (.portReset h) s = execPortReset h s := rfl
  refine ⟨fun held => by rw [run, execPortReset_eq, if_pos held], fun low => ?_⟩
  have worked := (orphanJobs_internal h (portDropped s h)).trans (boundaryWork_internal _)
  have fall := (orphanJobs_marksFall h (portDropped s h)).trans (boundaryWork_marksFall _)
  have next := exec_portReset low
  have su := portReset_su low (run.symm.trans next)
  have ports := dropLeaseOf_ports h (boundaryWork (orphanJobs h (portDropped s h)))
  have marks := dropLeaseOf_marks h (boundaryWork (orphanJobs h (portDropped s h)))
  have unit := dropLeaseOf_eu h (boundaryWork (orphanJobs h (portDropped s h)))
  have draws : (dropLeaseOf h (boundaryWork (orphanJobs h (portDropped s h)))).draws =
      (boundaryWork (orphanJobs h (portDropped s h))).draws := by
    rw [dropLeaseOf]
    dsimp only
    split
    · rw [handover_frame]
    · rfl
  generalize boundaryWork (orphanJobs h (portDropped s h)) = w at *
  generalize dropLeaseOf h w = t at *
  refine ⟨t, next, ports.trans worked.ports, ?_, ?_, ?_, draws.trans worked.draws, fun other => ?_, fun holder w ws list => ?_,
    fun holder list => ?_⟩
  · obtain ⟨es, posts⟩ := worked.eus h
    have detached : ((portDropped s h).port h).detached = true := congrArg Port.detached (upd_same ..)
    rw [unit, posts, detached, takePosts_detached]
    exact upd_same ..
  · have mark : w.mark h = none := fall h (upd_same ..)
    rw [State.mark, marks]
    exact mark
  · rw [su]
    split
    · rw [handover_su]
    · rfl
  · rw [su, if_neg other]
  · rw [su, if_pos holder, handover_waiter list]
  · rw [su, if_pos holder, handover_nobody list, list]

end Sys2Proof.Machine
end

section
/-! SUPPORT. The judgement of APPEND (R23, R30 to R33): its parameters, its need, and what each judgement is. -/

namespace Sys2Proof.Machine

variable {s : State} {h : HostId} {hd kind flags : Byte} {bytes : List Byte} {k : SlotId}

/-! ## Parameters and need -/

/-- The kind of the entries an APPEND brings (section 10.3). -/
abbrev appendedKind (kind : Byte) : ByteKind := if kind = 0x01#8 then .control else .data

theorem appendKind_eq_some {kd : ByteKind} :
    appendKind kind = some kd ↔ (kind = 0x00#8 ∨ kind = 0x01#8) ∧ kd = appendedKind kind := by
  rw [appendKind]
  by_cases zero : kind = 0x00#8
  · subst zero
    simp [appendedKind, eq_comm]
  · by_cases one : kind = 0x01#8
    · subst one
      simp [appendedKind, eq_comm]
    · simp [zero, one]

/-- The BAD_ARG check passes exactly the legal parameters (R31). -/
theorem appendArgs_eq_some {kd : ByteKind} :
    appendArgs kind flags bytes = some kd ↔ appendLegal kind flags bytes ∧ kd = appendedKind kind := by
  have some' : (bytes ≠ [] ∨ flags ≠ 0#8) ↔ ¬ (bytes = [] ∧ flags = 0#8) := not_and_or.symm
  rw [appendArgs]
  cases known : appendKind kind with
  | none =>
    have unknown : ¬ (kind = 0x00#8 ∨ kind = 0x01#8) := fun k => by
      rw [appendKind_eq_some.mpr ⟨k, rfl⟩] at known
      cases known
    simp only [reduceCtorEq, false_iff, not_and]
    rintro ⟨data | ⟨control, -⟩, -⟩
    · exact absurd (.inl data) unknown
    · exact absurd (.inr control) unknown
  | some x =>
    obtain ⟨which, rfl⟩ := appendKind_eq_some.mp known
    simp only [onlyBits_three_iff, Option.ite_none_right_eq_some, Option.some.injEq, Config.appendBytes]
    rcases which with rfl | rfl
    · constructor
      · rintro ⟨⟨named, few, non, -⟩, rfl⟩
        exact ⟨⟨.inl rfl, named, few, some'.mpr non⟩, rfl⟩
      · rintro ⟨⟨-, named, few, non⟩, rfl⟩
        exact ⟨⟨named, few, some'.mp non, .inl rfl⟩, rfl⟩
    · constructor
      · rintro ⟨⟨named, few, non, data | low⟩, rfl⟩
        · exact absurd data (by decide)
        · exact ⟨⟨.inr ⟨rfl, low⟩, named, few, some'.mpr non⟩, rfl⟩
      · rintro ⟨⟨zero | ⟨-, low⟩, named, few, non⟩, rfl⟩
        · exact absurd zero (by decide)
        · exact ⟨⟨named, few, some'.mp non, .inr low⟩, rfl⟩

theorem appendArgs_of_illegal (illegal : ¬ appendLegal kind flags bytes) : appendArgs kind flags bytes = none :=
  Option.eq_none_iff_forall_ne_some.mpr fun _ eq => illegal (appendArgs_eq_some.mp eq).1

theorem appendList_eq (kind flags : Byte) (bytes : List Byte) :
    appendList (appendedKind kind) bytes (breakAfter flags) = appended kind flags bytes := by
  have entry : entryOf (appendedKind kind) = if kind = 0x01#8 then Entry.control else Entry.data := by
    rw [appendedKind]
    split <;> rfl
  rw [appendList, entry, breakAfter]

theorem segmentsNeeded_eq (kind flags : Byte) (bytes : List Byte) (chain : List Segment) :
    segmentsNeeded (entriesNeeded bytes.length (breakAfter flags)) (tailSpace chain) =
      newSegments (appended kind flags bytes).length chain := by
  rw [← appendList_length (appendedKind kind), appendList_eq]
  rfl

/-- A job accepts entries unless it is CLOSED or beyond them (R13, R31). -/
theorem closable_eq_true {j : Job} (used : j.state ≠ .free) :
    closable j = true ↔ ¬ (j.closed = true ∨ j.state = .cancelling ∨ j.state = .awaitReply ∨ j.state = .ended) := by
  rw [closable]
  cases state : j.state <;> simp_all

/-! ## The judgements -/

theorem exec_append : exec (.append h hd kind flags bytes) s = serve h (judgeAppend h hd kind flags bytes) s := rfl

theorem judgeAppend_badArg (own : ownHandle s h hd k) (illegal : ¬ appendLegal kind flags bytes) :
    judgeAppend h hd kind flags bytes s = refuse s .badArg := by
  rw [judgeAppend, withOwnJob_own own, appendArgs_of_illegal illegal]

section
variable (own : ownHandle s h hd k) (legal : appendLegal kind flags bytes)
include own legal

theorem judgeAppend_badState (spent : closable (s.job k) = false) :
    judgeAppend h hd kind flags bytes s = refuse s .badState := by
  rw [judgeAppend, withOwnJob_own own, appendArgs_eq_some.mpr ⟨legal, rfl⟩]
  exact if_neg (by simp [appendable, spent])

theorem judgeAppend_noSpace (takes : closable (s.job k) = true)
    (short : allowance s h < newSegments (appended kind flags bytes).length (s.job k).chain) :
    judgeAppend h hd kind flags bytes s =
      { state := s.setMark h (some (newSegments (appended kind flags bytes).length (s.job k).chain)), code := .noSpace,
        payload := noSpacePayload (newSegments (appended kind flags bytes).length (s.job k).chain) (allowance s h) } := by
  rw [judgeAppend, withOwnJob_own own, appendArgs_eq_some.mpr ⟨legal, rfl⟩]
  dsimp only
  rw [appendable, if_pos takes, segmentsNeeded_eq kind, if_pos short]

theorem judgeAppend_accepts (takes : closable (s.job k) = true)
    (room : newSegments (appended kind flags bytes).length (s.job k).chain ≤ allowance s h) :
    judgeAppend h hd kind flags bytes s =
      { state := acceptAppend k (appended kind flags bytes) (flags.getLsbD 1) s, code := .ok,
        payload := appendPayload (acceptAppend k (appended kind flags bytes) (flags.getLsbD 1) s) h k } := by
  rw [judgeAppend, withOwnJob_own own, appendArgs_eq_some.mpr ⟨legal, rfl⟩]
  dsimp only
  rw [appendable, if_pos takes, segmentsNeeded_eq kind, if_neg (Nat.not_lt_of_le room), appendList_eq, closeAfter]

end

/-- Settles O21: the three judgements that refuse, in their order. -/
theorem appendIsRefusedInOrder : Obligations.AppendIsRefusedInOrder := by
  intro s h hd kind flags bytes k port own
  have used := own.2.2.1
  refine ⟨fun illegal => serve_refused port exec_append (judgeAppend_badArg own illegal), fun legal spent => ?_,
    fun legal takes short => ?_⟩
  · refine serve_refused port exec_append (judgeAppend_badState own legal ?_)
    rw [Bool.eq_false_iff]
    exact fun takes => (closable_eq_true used).mp takes spent
  · have judged := judgeAppend_noSpace own legal ((closable_eq_true used).mpr takes) short
    rw [noSpacePayload, twoBytes_eq_big16] at judged
    obtain ⟨t, served, answered, rest⟩ := serve_answered port _ judged rfl
    exact ⟨t, exec_append.trans served, answered, rest⟩

end Sys2Proof.Machine
end

section
/-! SUPPORT. The Dispatch Unit's answer to a request, the work of the link behind it, and SET_PRIORITY (R15, R44, R77). -/

namespace Sys2Proof.Machine

variable {s t u x : State} {h : HostId} {hd : Byte} {k m : SlotId} {n : Successor} {r : Response} {kind : ByteKind} {b : Byte}

/-! ## The link behind a decision -/

theorem boundaryWork_busy (busy : busyLink s) : boundaryWork s = s := by
  rcases busy with l | l
  · exact boundaryWork_elsewhere (by rw [l]; nofun) (by rw [l]; nofun)
  · exact boundaryWork_elsewhere (by rw [l]; nofun) (by rw [l]; nofun)

/-- An IDLE link with nothing to do has no abandon entry. -/
theorem abandon_nil_of_idle (idle : s.le.link = .idle) (done : nothingToDo s) : s.le.abandon = [] := by
  rcases done with ⟨no, -⟩ | ⟨-, -, list, -⟩ | ⟨waiting, -⟩
  · exact absurd idle no
  · exact list
  · rw [idle] at waiting
    cases waiting

theorem HandsOn.busy (f : HandsOn s t) (busy : busyLink s) : busyLink t := by
  rw [busyLink, f.link]
  exact busy

/-- The job given the link has its SELECT offered on an IDLE link (R77, R82). -/
theorem boundaryWork_selects (f : HandsOn u x) (active : x.du.active = some m) (idle : u.le.link = .idle)
    (done : nothingToDo u) (opened : forwardOpen u) (head : headEntry u m = some (entryOf kind b))
    (elsewhere : u.le.current ≠ some (u.job m).channel) : boundaryWork x = selectOffered x (u.job m).channel := by
  have channel : (x.job m).channel = (u.job m).channel := f.channel m
  rw [boundaryWork_at (.inl (f.link.trans idle)), applyOrder_selects (f.forwardOpen opened)
    (f.abandon.trans (abandon_nil_of_idle idle done)) active ((f.headEntry m).trans head), channel]
  rw [f.current, channel]
  exact elsewhere

/-- An answer that gives nobody the link leaves what the order of work reads. -/
theorem responded_done (nobody : r.holder = none) (done : nothingToDo u) : nothingToDo (responded u r) := by
  cases r with
  | waits => exact done
  | selected m => cases nobody
  | preempts a m => cases nobody
  | decides n =>
    cases n with
    | nobody => exact done
    | selected k => cases nobody
    | resumed z => cases nobody

theorem boundaryWork_responded_still (still : busyLink u ∨ r.holder = none ∧ nothingToDo u) :
    boundaryWork (responded u r) = responded u r := by
  rcases still with busy | ⟨nobody, done⟩
  · exact boundaryWork_busy ((responded_handsOn u r).busy busy)
  · exact boundaryWork_of_nothingToDo (responded_done nobody done)

theorem responded_ports (u : State) (r : Response) (p : Vector Port 4) :
    { responded u r with ports := p } = responded { u with ports := p } r := by
  cases r with
  | waits => rfl
  | selected m => rfl
  | preempts a m => rfl
  | decides n => cases n <;> rfl

theorem passedTo_ports (u : State) (n : Successor) (p : Vector Port 4) :
    { passedTo u n with ports := p } = passedTo { u with ports := p } n := by
  cases n <;> rfl

/-- The record of the job in slot `k` is now `j`. -/
abbrev withJob (s : State) (k : SlotId) (j : Job) : State := { s with jm := { s.jm with jobs := upd s.jm.jobs k j } }

theorem withJob_job (s : State) (k : SlotId) (j : Job) (z : SlotId) :
    (withJob s k j).job z = if k = z then j else s.job z := upd_get ..

theorem withJob_chain {j : Job} (chain : j.chain = (s.job k).chain) (z : SlotId) :
    ((withJob s k j).job z).chain = (s.job z).chain := by
  rw [withJob_job]
  split
  · next here => rw [chain, here]
  · rfl

/-- A change of one job that keeps its chain leaves what the order of work reads. -/
theorem nothingToDo_of_job {j : Job} (chain : j.chain = (s.job k).chain) (done : nothingToDo s) :
    nothingToDo (withJob s k j) :=
  nothingToDo_of_same (s := s) rfl rfl rfl rfl rfl (activeHead_of_same (s := s) (t := withJob s k j) rfl fun x _ => withJob_chain chain x)
    done

theorem headEntry_of_chain (chain : (t.job m).chain = (s.job m).chain) : headEntry t m = headEntry s m := by
  rw [headEntry, chain, headEntry]

theorem headEntry_of_job {j : Job} (chain : j.chain = (s.job k).chain) (z : SlotId) :
    headEntry (withJob s k j) z = headEntry s z := headEntry_of_chain (withJob_chain chain z)

/-! ## SET_PRIORITY -/

theorem exec_setPriority {p : Byte} : exec (.setPriority h hd p) s = serve h (judgeSetPriority h hd p) s := rfl

theorem priorityArg_of_gt {p : Byte} (over' : 7 < p.toNat) : priorityArg p = none := dif_neg (by omega)

theorem priorityArg_ofNat (p : Fin 8) : priorityArg (BitVec.ofNat 8 p.val) = some p := by
  have small := p.isLt
  have value : (BitVec.ofNat 8 p.val).toNat = p.val := by
    rw [BitVec.toNat_ofNat]
    omega
  rw [priorityArg, dif_pos (by omega)]
  exact congrArg some (Fin.ext value)

theorem raisePrompts_iff {p : Fin 8} :
    raisePrompts k p s = true ↔
      (s.job k).state = .ready ∧ (s.job k).priority < p ∧ ((s.job k).priority = 0 ∨ openChannel s k) := by
  simp only [raisePrompts, Bool.and_eq_true, Bool.or_eq_true, decide_eq_true_eq, channelOpen_iff, and_assoc]

theorem judgeSetPriority_badArg {p : Byte} (own : ownHandle s h hd k) (high : 7 < p.toNat) :
    judgeSetPriority h hd p s = refuse s .badArg := by
  rw [judgeSetPriority, withOwnJob_own own, priorityArg_of_gt high]

theorem judgeSetPriority_badState {p : Fin 8} (own : ownHandle s h hd k)
    (fixed : ¬ ((s.job k).state = .filling ∨ (s.job k).state = .ready ∨ (s.job k).state = .starved)) :
    judgeSetPriority h hd (BitVec.ofNat 8 p.val) s = refuse s .badState := by
  rw [judgeSetPriority, withOwnJob_own own, priorityArg_ofNat]
  dsimp only
  cases state : (s.job k).state <;> simp_all

theorem judgeSetPriority_changes {p : Fin 8} (own : ownHandle s h hd k)
    (movable : (s.job k).state = .filling ∨ (s.job k).state = .ready ∨ (s.job k).state = .starved) :
    judgeSetPriority h hd (BitVec.ofNat 8 p.val) s =
      { state := onwards (priorityChanged k p s), code := .ok, payload := [] } := by
  rw [judgeSetPriority, withOwnJob_own own, priorityArg_ofNat]
  rcases movable with state | state | state <;> rw [state] <;> rfl

/-- The job in slot `k` with its priority changed. -/
abbrev withPriority (s : State) (k : SlotId) (p : Fin 8) : State := withJob s k { s.job k with priority := p }

theorem withPriority_head (s : State) (k : SlotId) (p : Fin 8) (z : SlotId) : headEntry (withPriority s k p) z = headEntry s z :=
  headEntry_of_job (s := s) (k := k) (j := { s.job k with priority := p }) rfl z

theorem withPriority_done (p : Fin 8) (done : nothingToDo s) : nothingToDo (withPriority s k p) :=
  nothingToDo_of_job (j := { s.job k with priority := p }) rfl done

theorem priorityChanged_silent {p : Fin 8} (silent : p ≤ (s.job k).priority ∨ (s.job k).state ≠ .ready) :
    priorityChanged k p s = withPriority s k p := by
  refine if_neg fun prompts => ?_
  obtain ⟨ready, raised, -⟩ := raisePrompts_iff.mp prompts
  rcases silent with low | other
  · exact absurd raised (not_lt.mpr low)
  · exact other ready

/-- DU's answer to a raise (R15, R44). -/
theorem priorityChanged_responded {p : Fin 8} (raised : (s.job k).priority < p) (ready : (s.job k).state = .ready)
    (answers : answersTo (withPriority s k p) k ((s.job k).priority = 0 ∨ openChannel s k) r)
    (heads : ∀ z, r.holder = some z → headEntry s z ≠ none) :
    priorityChanged k p s = responded (withPriority s k p) r := by
  obtain ⟨-, ⟨prompts, responds⟩ | ⟨silent, rfl⟩⟩ := answers
  · have answered : respondEligible (withPriority s k p) = responded (withPriority s k p) r :=
      respondEligible_responded responds fun z holder => by rw [withPriority_head]; exact heads z holder
    exact (if_pos (raisePrompts_iff.mpr ⟨ready, raised, prompts⟩)).trans answered
  · exact if_neg fun prompts => silent (raisePrompts_iff.mp prompts).2.2

/-- Settles O23: the change, DU's answer to it, and the work of the link behind. -/
theorem setPriorityChangesThePriority : Obligations.SetPriorityChangesThePriority := by
  intro s h hd k port own
  refine ⟨fun p high => serve_refused port exec_setPriority (judgeSetPriority_badArg own high),
    fun p fixed => serve_refused port exec_setPriority (judgeSetPriority_badState own fixed),
    fun p movable => ⟨fun quiet silent => ?_, fun r raised ready answers => ?_⟩⟩
  · have still : onwards (priorityChanged k p s) = withPriority s k p := by
      rw [priorityChanged_silent silent]
      rcases quiet with off | ⟨done, -⟩
      · exact boundaryWork_elsewhere (s := withPriority s k p) off.1 off.2
      · exact boundaryWork_of_nothingToDo (withPriority_done p done)
    have judged := judgeSetPriority_changes own movable (p := p)
    rw [still] at judged
    obtain ⟨t, served, answered, rest⟩ := serve_answered port _ judged rfl
    exact ⟨t, exec_setPriority.trans served, answered, rest⟩
  · have judged := judgeSetPriority_changes own movable (p := p)
    refine ⟨fun still heads => ?_, fun m kind b holder head idle done opened elsewhere => ?_⟩
    · rw [priorityChanged_responded raised ready answers heads, onwards,
        boundaryWork_responded_still (u := withPriority s k p) (still.imp_right fun ⟨nobody, done⟩ =>
          ⟨nobody, withPriority_done p done⟩)] at judged
      obtain ⟨t, served, answered, rest⟩ := serve_answered port _ judged (by rw [(responded_handsOn _ r).rest])
      exact ⟨t, exec_setPriority.trans served, answered, rest.trans (responded_ports _ r t.ports)⟩
    · have heads : ∀ z, r.holder = some z → headEntry s z ≠ none := fun z is => by
        obtain rfl := Option.some.inj (holder.symm.trans is)
        rw [head]
        nofun
      have channel : ((withPriority s k p).job m).channel = (s.job m).channel := by
        rw [withJob_job]
        split
        · next here => rw [here]
        · rfl
      have works := boundaryWork_selects (responded_handsOn (withPriority s k p) r) (responded_holder holder) idle
        (withPriority_done p done) opened ((withPriority_head s k p m).trans head) (by rw [channel]; exact elsewhere)
      rw [priorityChanged_responded raised ready answers heads, onwards, works, channel] at judged
      obtain ⟨t, served, answered, rest⟩ := serve_answered port _ judged (by rw [(responded_handsOn _ r).rest])
      refine ⟨t, exec_setPriority.trans served, answered, rest.trans ?_⟩
      exact congrArg (selectOffered · (s.job m).channel) (responded_ports (withPriority s k p) r t.ports)

end Sys2Proof.Machine
end

section
/-! SUPPORT. Timers that run out (R64, R65, R114): a job that ends with its route ABORTED, the dry wait and the command that falls
together with its expiry. -/

namespace Sys2Proof.Machine

variable {s t u : State} {h : HostId} {hd : Byte} {a k m z : SlotId} {n : Successor} {r : RouteId} {o : JobOutcome} {c : Cause}

/-! ## A job ends, its route ABORTED -/

/-- A job that ends is posted to its owner, ahead of any SPACE its segments bring, and its route becomes ABORTED (R16, R97). -/
theorem endAborted_spec (o : JobOutcome) (c : Cause) (kept : (s.job k).orphaned = false) :
    ∃ t, endJobAlone k o c (abortRoute k s) = t ∧
      postedAheadOfSpace s t (postsTo (s.job k).owner [endedRecord s k (outcomeCauseByte o c)]) ∧ routeAborted s t k ∧
      t = { s with
        eus := t.eus
        jm := { s.jm with jobs := upd s.jm.jobs k (endedJob (s.job k) o c) }
        sp := { s.sp with
          free := ((s.job k).chain.map fun g => g.id) ++ s.sp.free
          used := upd s.sp.used (s.job k).owner (s.used (s.job k).owner - (s.job k).chain.length)
          marks := t.sp.marks }
        rr := { s.rr with routes := t.rr.routes } } := by
  have aborted := abortRoute_frame k s
  have named := abortRoute_routeAborted k s
  generalize (abortRoute k s).rr.routes = v at aborted
  rw [aborted] at named ⊢
  have ended := endJob_kept (s := { s with rr := { s.rr with routes := v } }) (k := k) o c kept
  have timer := stopReplyTimer_frame k { s with rr := { s.rr with routes := v } }
  have stopped := stopReplyTimer_route k { s with rr := { s.rr with routes := v } }
  generalize (stopReplyTimer k { s with rr := { s.rr with routes := v } }).rr.routes = w at timer
  rw [timer] at ended stopped
  have frame := evaluateSpace_frame (endJob k o c { s with rr := { s.rr with routes := v } })
  have posted := evaluateSpace_posted (s := s) (u := endJob k o c { s with rr := { s.rr with routes := v } })
    (posts := postsTo (s.job k).owner [endedRecord s k (outcomeCauseByte o c)]) (by rw [ended]) (by rw [ended]) fun x => by
      rw [ended]
      exact post_unitAfter (s.job k).owner (jobEndedEvent s k o c) s x
  refine ⟨_, rfl, posted, fun z => ?_, ?_⟩
  · rw [endJobAlone, frame, ended]
    refine (stopped z).trans ?_
    change (if (s.job k).route = some z then _ else _) = _
    rw [named z]
    split <;> rfl
  · rw [endJobAlone]
    generalize (evaluateSpace (endJob k o c { s with rr := { s.rr with routes := v } })).eus = v1 at frame
    generalize (evaluateSpace (endJob k o c { s with rr := { s.rr with routes := v } })).sp.marks = m1 at frame
    rw [frame, ended]
    rfl

/-- The same where the job holds no segment. -/
theorem endAborted_dry (o : JobOutcome) (c : Cause) (kept : (s.job k).orphaned = false) (dry : (s.job k).chain = []) :
    ∃ t, endJobAlone k o c (abortRoute k s) = t ∧
      postedAheadOfSpace s t (postsTo (s.job k).owner [endedRecord s k (outcomeCauseByte o c)]) ∧ routeAborted s t k ∧
      t = { s with
        eus := t.eus
        jm := { s.jm with jobs := upd s.jm.jobs k (endedJob (s.job k) o c) }
        sp := { s.sp with marks := t.sp.marks }
        rr := { s.rr with routes := t.rr.routes } } := by
  obtain ⟨t, run, posted, routes, frame⟩ := endAborted_spec o c kept
  rw [dry, List.map_nil, List.nil_append, List.length_nil, Nat.sub_zero, State.used, upd_self] at frame
  exact ⟨t, run, posted, routes, frame⟩

/-- The route table where one route has become ABORTED. -/
theorem routes_of_aborted (own : (s.job k).route = some r) (aborted : routeAborted s t k) :
    t.rr.routes = upd s.rr.routes r { s.route r with state := .aborted, buffer := [], timer := none } := by
  refine Vector.ext fun i bound => ?_
  have at_i := aborted ⟨i, bound⟩
  have new : (upd s.rr.routes r { s.route r with state := .aborted, buffer := [], timer := none })[(⟨i, bound⟩ : RouteId)] =
      if r = ⟨i, bound⟩ then { s.route r with state := .aborted, buffer := [], timer := none } else s.route ⟨i, bound⟩ :=
    upd_get ..
  refine Eq.trans at_i (Eq.trans ?_ new.symm)
  rw [own]
  by_cases here : r = ⟨i, bound⟩
  · rw [if_pos (by rw [here]), if_pos here, here]
  · rw [if_neg fun e => here (Option.some.inj e), if_neg here]

/-! ## A dry wait runs out -/

/-- The job in slot `a` is STARVED and off the link, its owner told (R65). -/
abbrev waitOver (s : State) (a : SlotId) : State :=
  { s with
    eus := upd s.eus (s.job a).owner (takePost (s.port (s.job a).owner).detached
      { kind := .jobStarved, handle := some (s.handle a), route := (s.job a).route, code := 0 } (s.eu (s.job a).owner)),
    jm := { s.jm with jobs := upd s.jm.jobs a { s.job a with state := .starved } },
    du := { s.du with active := none }, le := { s.le with dryTimer := none } }

/-- The decision that a leaving has started is open (R64). -/
abbrev decisionOpen (s : State) : State := { s with du := { s.du with leaving := true } }

theorem starved_eq (s : State) (a : SlotId) : starved s a = waitOver s a := by
  have job : (dropActive (s.setJob a { s.job a with state := .starved })).job a = { s.job a with state := .starved } :=
    State.setJob_job_same ..
  rw [starved]
  dsimp only
  rw [job]
  rfl

theorem exec_dryWaitExpiry (running : s.le.dryTimer ≠ none) (active : s.du.active = some a) :
    exec .dryWaitExpiry s = .next (if nextPrompts a (openDecision (starved s a)) then openDecision (starved s a)
      else boundaryWork (leaveLink (starved s a))) := by
  obtain ⟨d, timer⟩ := Option.ne_none_iff_exists'.mp running
  change execDryWaitExpiry s = _
  rw [execDryWaitExpiry, timer, active]

theorem eligibilityEvent_eq_some {e : Host.Outcome State Fault Refusal} (x : Instr) (s : State) :
    eligibilityEvent x s = some e ↔ canMakeEligible x ∧ exec x s = e := by
  cases x <;> simp [eligibilityEvent, canMakeEligible, exec, execAppend, execClose, execSetPriority]

/-- The command waiting next falls together with the expiry exactly where it makes the open decision (R64, R65). -/
theorem nextPrompts_iff (a : SlotId) (s : State) : nextPrompts a s = true ↔ fallsTogether s a := by
  rw [nextPrompts]
  constructor
  · intro prompts
    split at prompts
    · cases prompts
    · next x rest queue =>
      split at prompts
      · next u event =>
        obtain ⟨can, run⟩ := (eligibilityEvent_eq_some x _).mp event
        rw [Bool.and_eq_true, Bool.not_eq_true', decide_eq_true_eq] at prompts
        exact ⟨x, rest, u, queue, can, run, prompts⟩
      all_goals cases prompts
  · rintro ⟨x, rest, u, queue, can, run, decides, waits⟩
    rw [queue]
    dsimp only
    rw [(eligibilityEvent_eq_some x _).mpr ⟨can, run⟩]
    dsimp only
    rw [decides, waits]
    rfl

/-- A dry job that leaves the link leaves the order of work nothing to do where there was nothing. -/
theorem activeHead_of_dry (active : s.du.active = some a) (dry : (s.job a).chain = []) : activeHead s = none := by
  rw [activeHead, active]
  simp only [headEntry, dry, Option.map_none]

theorem waitOver_done (active : s.du.active = some a) (dry : (s.job a).chain = []) (done : nothingToDo s) :
    nothingToDo (waitOver s a) :=
  nothingToDo_of_same (s := s) rfl rfl rfl rfl rfl (activeHead_of_dry active dry).symm done

theorem openDecision_eq (active : s.du.active = some a) (still : busyLink s ∨ (s.job a).chain = [] ∧ nothingToDo s) :
    openDecision (waitOver s a) = decisionOpen (waitOver s a) := by
  rcases still with busy | ⟨dry, done⟩
  · exact boundaryWork_busy (s := decisionOpen (waitOver s a)) busy
  · exact boundaryWork_of_nothingToDo (s := decisionOpen (waitOver s a)) (waitOver_done active dry done)

/-- The expiry where nothing falls together with it: the leaving decision, and the work of the link (R59, R65). -/
theorem dryWaitExpiry_passes (running : s.le.dryTimer ≠ none) (active : s.du.active = some a)
    (still : busyLink s ∨ (s.job a).chain = [] ∧ nothingToDo s) (nothing : ¬ fallsTogether (decisionOpen (waitOver s a)) a)
    (follows : followedBy (waitOver s a) n) :
    exec .dryWaitExpiry s = .next (boundaryWork (passedTo (waitOver s a) n)) := by
  have calm : ¬ nextPrompts a (decisionOpen (waitOver s a)) = true := fun p => nothing ((nextPrompts_iff a _).mp p)
  rw [exec_dryWaitExpiry running active, starved_eq, openDecision_eq active still, if_neg calm,
    leaveLink_followed (s := waitOver s a) rfl follows]

/-- The expiry where a command falls together with it (R64). -/
theorem dryWaitExpiry_opens (running : s.le.dryTimer ≠ none) (active : s.du.active = some a)
    (still : busyLink s ∨ (s.job a).chain = [] ∧ nothingToDo s) (falls : fallsTogether (decisionOpen (waitOver s a)) a) :
    exec .dryWaitExpiry s = .next (decisionOpen (waitOver s a)) := by
  rw [exec_dryWaitExpiry running active, starved_eq, openDecision_eq active still, if_pos ((nextPrompts_iff a _).mpr falls)]

/-! ## SET_PRIORITY that falls together with the expiry -/

/-- The open decision with SET_PRIORITY taken from the queue, the dry wait of `a` having run out. -/
abbrev decisionFor (s : State) (a : SlotId) (rest : List Instr) : State := { decisionOpen (waitOver s a) with pending := rest }

theorem waitOver_job (other : z ≠ a) : (waitOver s a).job z = s.job z := upd_ne _ _ (Ne.symm other)

theorem waitOver_chain (z : SlotId) : ((waitOver s a).job z).chain = (s.job z).chain :=
  withJob_chain (s := s) (k := a) (j := { s.job a with state := .starved }) rfl z

theorem setPriority_decides {p : Fin 8} {rest : List Instr} (port : taking s h) (own : ownHandle s h hd k) (other : k ≠ a)
    (ready : (s.job k).state = .ready) (raised : (s.job k).priority < p)
    (prompts : (s.job k).priority = 0 ∨ openChannel s k) (busy : busyLink s)
    (follows : followedBy (withPriority (waitOver s a) k p) n) :
    ∃ t, exec (.setPriority h hd (BitVec.ofNat 8 p.val)) (decisionFor s a rest) = .next t ∧ answeredWith s t h .ok [] ∧
      t = { passedTo (decided (withPriority (decisionFor s a rest) k p)) n with ports := t.ports } := by
  have job : (decisionFor s a rest).job k = s.job k := waitOver_job other
  have own' : ownHandle (decisionFor s a rest) h hd k := by
    rw [ownHandle, job]
    exact own
  have up : recovering (withPriority (decisionFor s a rest) k p) = false := by
    rw [recovering]
    rcases busy with l | l
    · rw [show (withPriority (decisionFor s a rest) k p).le.link = .sending from l]
    · rw [show (withPriority (decisionFor s a rest) k p).le.link = .reverse from l]
  obtain ⟨named, heads⟩ := follows
  have responds : respondsWith (withPriority (decisionFor s a rest) k p) (.decides n) :=
    ⟨up, rfl, rfl, leavesTo_of_same rfl rfl rfl rfl rfl rfl rfl named⟩
  have judged := judgeSetPriority_changes own' (.inr (.inl (by rw [job]; exact ready))) (p := p)
  rw [priorityChanged_responded (r := .decides n) (by rw [job]; exact raised) (by rw [job]; exact ready)
      ⟨(Option.some_ne_none k).symm, .inl ⟨by rw [openChannel, job]; exact prompts, responds⟩⟩ fun z holder => by
        have head := heads z holder
        rw [withPriority_head] at head
        exact head,
    onwards, boundaryWork_responded_still (u := withPriority (decisionFor s a rest) k p) (.inl busy)] at judged
  obtain ⟨t, served, answered, rest'⟩ := serve_answered (s := decisionFor s a rest) port _ judged
    (by rw [(responded_handsOn _ (.decides n)).rest])
  exact ⟨t, exec_setPriority.trans served, answered, rest'⟩

/-- The successor is another job than the starved one, which has no entry to send. -/
theorem passedTo_starved {p : Fin 8} {rest : List Instr} (other : k ≠ a) (dry : (s.job a).chain = [])
    (follows : followedBy (withPriority (waitOver s a) k p) n) :
    ((passedTo (decided (withPriority (decisionFor s a rest) k p)) n).job a).state = .starved := by
  obtain ⟨named, heads⟩ := follows
  have before : (withPriority (decisionFor s a rest) k p).job a = { s.job a with state := .starved } := by
    rw [withJob_job, if_neg other]
    exact upd_same ..
  have off : n.holder ≠ some a := fun holder => by
    refine heads a holder ?_
    rw [withPriority_head, headEntry, waitOver_chain, dry]
  cases n with
  | nobody => exact congrArg Job.state before
  | selected x =>
    have apart : x ≠ a := fun e => off (by rw [e]; rfl)
    refine (congrArg Job.state (upd_ne _ _ apart)).trans (congrArg Job.state before)
  | resumed x =>
    have apart : x ≠ a := fun e => off (by rw [e]; rfl)
    refine (congrArg Job.state (upd_ne _ _ apart)).trans (congrArg Job.state before)

theorem passedTo_leaving (n : Successor) : (passedTo (decided s) n).du.leaving = false := by cases n <;> rfl

/-- Settles O45: the expiry of the dry wait with and without a command that falls together with it, and that of a reply timer. -/
theorem dryWaitsAndRepliesRunOut : Obligations.DryWaitsAndRepliesRunOut := by
  intro s
  have dryRun : exec .dryWaitExpiry s = execDryWaitExpiry s := rfl
  have replyRun : ∀ r, exec (.replyTimerExpiry r) s = execReplyTimerExpiry r s := fun _ => rfl
  refine ⟨fun off => ?_, fun a running active => ⟨fun n nothing follows => ⟨fun still => ?_,
    fun m kind b holder head idle dry done opened elsewhere => ?_⟩, fun falls still => ?_,
    fun h hd k n rest p queue port own other ready raised dry prompts follows busy => ?_⟩, fun r off => ?_,
    fun r x running owner own kept dry => ?_⟩
  · rw [dryRun, execDryWaitExpiry]
    rcases off with off | off <;> rw [off]
    cases s.le.dryTimer <;> rfl
  · have still' : busyLink s ∨ (s.job a).chain = [] ∧ nothingToDo s := still.imp_right And.right
    rw [dryWaitExpiry_passes running active still' nothing follows]
    rcases still with busy | ⟨rfl, dry, done⟩
    · rw [boundaryWork_busy ((passedTo_handsOn (waitOver s a) n).busy busy)]
    · rw [boundaryWork_of_nothingToDo (waitOver_done active dry done)]
  · rw [dryWaitExpiry_passes running active (.inr ⟨dry, done⟩) nothing follows]
    have channel : ((waitOver s a).job m).channel = (s.job m).channel := by
      refine (congrArg Job.channel (upd_get ..)).trans ?_
      split
      · next here => rw [← here]
      · rfl
    have works := boundaryWork_selects (passedTo_handsOn (waitOver s a) n) (passedTo_holder holder) idle
      (waitOver_done active dry done) opened ((headEntry_of_chain (waitOver_chain m)).trans head)
      (by rw [channel]; exact elsewhere)
    rw [works, channel]
  · exact dryWaitExpiry_opens running active (still.imp_right id) falls
  · have job : (waitOver s a).job k = s.job k := waitOver_job other
    have same : withPriority (waitOver s a) k p = withJob (waitOver s a) k { s.job k with priority := p } := by
      rw [withPriority, job]
    have follows' : followedBy (withPriority (waitOver s a) k p) n := by
      rw [same]
      exact ⟨leavesTo_of_same rfl rfl rfl rfl rfl rfl rfl follows.1, follows.2⟩
    obtain ⟨t, run, answered, frame⟩ := setPriority_decides (rest := rest) port own other ready raised prompts busy follows'
    have falls : fallsTogether (decisionOpen (waitOver s a)) a := by
      refine ⟨_, rest, t, queue, .inr (.inr (.inr ⟨h, hd, _, rfl⟩)), run, ?_, ?_⟩
      · rw [frame]
        exact passedTo_leaving n
      · rw [frame]
        exact passedTo_starved other dry follows'
    refine ⟨dryWaitExpiry_opens running active (.inl busy) falls, t, ?_, answered, ?_⟩
    · exact ((stepRunsTheFrontCommand (decisionOpen (waitOver s a))).1 _ rest queue).trans run
    · have job' : (decisionFor s a rest).job k = s.job k := job
      rw [passedTo_ports, withPriority, job'] at frame
      exact frame
  · rw [replyRun, execReplyTimerExpiry]
    rcases off with off | off <;> rw [off]
    cases (s.route r).timer <;> rfl
  · obtain ⟨d, timer⟩ := Option.ne_none_iff_exists'.mp running
    obtain ⟨t, run, posted, aborted, frame⟩ := endAborted_dry .failed .replyTimeout kept dry
    have code : outcomeCauseByte .failed .replyTimeout = 0x25#8 := rfl
    have routes := routes_of_aborted own aborted
    generalize t.rr.routes = v at routes frame
    rw [code] at posted
    rw [routes] at frame
    refine ⟨t, ?_, posted, frame⟩
    rw [replyRun, execReplyTimerExpiry, timer, owner]
    exact congrArg Host.Outcome.next run

end Sys2Proof.Machine
end

section
/-! SUPPORT. Jobs that become READY, close and complete (R12 to R14, R44, R92), as whole states, and CLOSE. -/

namespace Sys2Proof.Machine

variable {s t u x : State} {h : HostId} {hd : Byte} {a k m z : SlotId} {n : Successor} {r : Response} {kind : ByteKind} {b : Byte}
  {j : Job}

/-! ## Chains of events in the Dispatch Unit -/

theorem settle_of_head (f : Nat) (active : s.du.active = some m) (head : headEntry s m ≠ none) : settle f s = s := by
  cases f with
  | zero => rfl
  | succ f =>
    have busy : ((headEntry s m).isSome || entryOffered s m) = true := by
      rw [Option.isSome_iff_ne_none.mpr head]
      rfl
    rw [settle, active]
    exact if_pos busy

/-- Rounds end with a successor that has an entry to send, or with nobody. -/
theorem settle_followed (f : Nat) (idle : s.du.active = none) (follows : followedBy s n) :
    settle f (leavingDecision s) = passedTo s n := by
  obtain ⟨named, heads⟩ := follows
  rw [leavingDecision_eq named]
  have active := passedTo_active idle n
  cases holder : n.holder with
  | none =>
    rw [holder] at active
    exact settle_inactive f active
  | some m =>
    rw [holder] at active
    exact settle_of_head f active (by rw [(passedTo_handsOn s n).headEntry]; exact heads m holder)

/-- A dry CLOSED job completes its transmission, and the link passes on (R59, R92). -/
theorem settled_passes (active : s.du.active = some a) (dry : headEntry s a = none) (unoffered : entryOffered s a = false)
    (closed : (s.job a).closed = true) (follows : followedBy (completeTransmission a s) n) :
    settled s = passedTo (completeTransmission a s) n := by
  rw [settled, settleFuel, settle, active]
  simp only [dry, unoffered, closed, Option.isSome_none, Bool.or_self, Bool.false_eq_true, if_false, if_true]
  exact settle_followed _ (completeTransmission_du a s).2.2 follows

/-! ## Completion -/

/-- The job in slot `k` has left the link, its claim released (R46, R58, R92). -/
abbrev letGo (s : State) (k : SlotId) : State :=
  { s with du := { s.du with active := none, claims := claimsWithout s k }, le := { s.le with dryTimer := none } }

theorem letGo_eq (k : SlotId) (s : State) : dropActive (releaseClaim k s) = letGo s k := by
  rw [releaseClaim, letGo, claimsWithout]
  split <;> rfl

/-- With its route, if any, no longer OPEN, the job ends (R92). -/
theorem completeTransmission_ends (over' : ∀ r, (s.job k).route = some r → (s.route r).state ≠ .opened) :
    completeTransmission k s = endJobAlone k .done .none (letGo s k) := by
  rw [completeTransmission, letGo_eq]
  cases own : (s.job k).route with
  | none => rw [show ((letGo s k).job k).route = none from own]
  | some r =>
    rw [show ((letGo s k).job k).route = some r from own]
    exact if_neg (over' r own)

/-- With its route OPEN, the job awaits its reply (R92, R113). -/
theorem completeTransmission_awaits {r : RouteId} (own : (s.job k).route = some r) (opened : (s.route r).state = .opened) :
    completeTransmission k s = { letGo s k with
      jm := { s.jm with jobs := upd s.jm.jobs k { s.job k with state := .awaitReply } },
      rr := { s.rr with routes := upd s.rr.routes r { s.route r with timer := some s.su.settings.replyTime } } } := by
  rw [completeTransmission, letGo_eq, show ((letGo s k).job k).route = some r from own]
  exact if_pos opened

/-! ## A job joins the ready set -/

theorem joins_job (s : State) (k : SlotId) (j : Job) (z : SlotId) :
    (joins s k j).job z =
      if k = z then { j with state := .ready, readySeq := some s.jm.nextSeq, seqTaken := some s.jm.nextSeq } else s.job z :=
  upd_get ..

theorem joinReady_withJob (s : State) (k : SlotId) (j : Job) : joinReady k (withJob s k j) = joins s k j := by
  have job : (withJob s k j).job k = j := upd_same ..
  rw [joinReady]
  dsimp only
  rw [job, State.setJob]
  simp only [upd_upd]

/-- The job becomes READY, and DU answers in the words of the statements (R12, R44). -/
theorem enterReady_responded (answers : answersTo (joins s k j) k (j.priority ≠ 0) r)
    (heads : ∀ z, r.holder = some z → headEntry (joins s k j) z ≠ none) :
    enterReady k (withJob s k j) = responded (joins s k j) r := by
  have priority : ((joins s k j).job k).priority = j.priority := by rw [joins_job, if_pos rfl]
  rw [enterReady, joinReady_withJob, priority]
  obtain ⟨-, ⟨prompts, responds⟩ | ⟨silent, rfl⟩⟩ := answers
  · rw [if_neg prompts]
    exact respondEligible_responded responds heads
  · exact if_pos (not_not.mp silent)

/-- What DU's answer makes of the state of a READY job that is not the active one. -/
theorem responded_state (answers : answersTo s k p r) (ready : (s.job k).state = .ready) :
    ((responded s r).job k).state = if r.holder = some k then .active else .ready := by
  obtain ⟨idle, answered⟩ := answers
  have takes : ∀ (u : State) (m : SlotId), (u.job k).state = .ready →
      ((takesLink u m).job k).state = if some m = some k then .active else .ready := fun u m before => by
    refine (congrArg Job.state (upd_get ..)).trans ?_
    by_cases here : m = k
    · rw [if_pos here, if_pos (by rw [here])]
    · rw [if_neg here, if_neg fun e => here (Option.some.inj e)]
      exact before
  cases r with
  | waits => exact ready
  | selected m => exact takes s m ready
  | preempts a m =>
    have active : s.du.active = some a := by
      rcases answered with ⟨-, active, -⟩ | ⟨-, no⟩
      · exact active
      · cases no
    have other : a ≠ k := fun e => idle (by rw [active, e])
    exact takes (suspends s a) m ((congrArg Job.state (upd_ne _ _ other)).trans ready)
  | decides n =>
    cases n with
    | nobody => exact ready
    | selected m => exact takes (decided s) m ready
    | resumed z =>
      change _ = if some z = some k then _ else _
      refine (congrArg Job.state (upd_get ..)).trans ?_
      by_cases here : z = k
      · rw [if_pos here, if_pos (congrArg some here)]
      · rw [if_neg here, if_neg fun e => here (Option.some.inj e)]
        exact ready

/-! ## Where the link is not disturbed -/

/-- The link goes on as it was where neither it nor DU has anything to do about the job concerned. -/
theorem boundaryWork_undisturbed (quiet : undisturbed s k) (link : t.le.link = s.le.link)
    (list : t.le.abandon = s.le.abandon) (stall : t.le.stall = s.le.stall) (timer : t.le.stallTimer = s.le.stallTimer)
    (pins : t.pins = s.pins) (active : t.du.active = s.du.active) (others : ∀ z, z ≠ k → (t.job z).chain = (s.job z).chain) :
    boundaryWork t = t := by
  rcases quiet with ⟨idle, waiting⟩ | ⟨done, other⟩
  · exact boundaryWork_elsewhere (by rw [link]; exact idle) (by rw [link]; exact waiting)
  · exact boundaryWork_of_same link list stall timer pins active
      (fun x is => others x fun e => other (by rw [is, e])) done

/-! ## CLOSE -/

theorem exec_close : exec (.close h hd) s = serve h (judgeClose h hd) s := rfl

theorem judgeClose_badState (own : ownHandle s h hd k) (spent : closable (s.job k) = false) :
    judgeClose h hd s = refuse s .badState := by
  rw [judgeClose, withOwnJob_own own]
  exact if_neg (by simp [spent])

theorem judgeClose_closes (own : ownHandle s h hd k) (takes : closable (s.job k) = true) :
    judgeClose h hd s =
      { state := boundaryWork (closeJob k s), code := .ok,
        payload := [jobStateByte ((boundaryWork (closeJob k s)).job k).state] } := by
  rw [judgeClose, withOwnJob_own own]
  exact if_pos takes

/-- The job marked CLOSED. -/
abbrev closedJob (s : State) (k : SlotId) : Job := { s.job k with closed := true }

/-- The job holds nothing and has not begun (R13, R14). -/
abbrev unusedJob (j : Job) : Bool := decide (j.queued = 0) && !j.begun

theorem closeJob_eq (k : SlotId) (s : State) :
    closeJob k s = match (s.job k).state with
      | .filling | .starved =>
        if unusedJob (s.job k) then endUnused k (withJob s k (closedJob s k)) else enterReady k (withJob s k (closedJob s k))
      | .ready => if unusedJob (s.job k) then endUnused k (withJob s k (closedJob s k)) else withJob s k (closedJob s k)
      | .active => settled (withJob s k (closedJob s k))
      | .suspended | .free | .cancelling | .awaitReply | .ended => withJob s k (closedJob s k) := by
  rw [closeJob]
  simp only [closed_job]
  rfl

theorem unusedJob_iff : unusedJob j = true ↔ j.queued = 0 ∧ j.begun = false := by
  rw [unusedJob, Bool.and_eq_true, decide_eq_true_eq, Bool.not_eq_true']

theorem closeJob_ends (unused : (s.job k).queued = 0 ∧ (s.job k).begun = false)
    (state : (s.job k).state = .filling ∨ (s.job k).state = .starved ∨ (s.job k).state = .ready) :
    closeJob k s = endUnused k (withJob s k (closedJob s k)) := by
  rw [closeJob_eq]
  rcases state with q | q | q <;> simp only [q, unusedJob_iff.mpr unused, if_true]

theorem closeJob_readies (used : ¬ ((s.job k).queued = 0 ∧ (s.job k).begun = false))
    (state : (s.job k).state = .filling ∨ (s.job k).state = .starved) :
    closeJob k s = enterReady k (withJob s k (closedJob s k)) := by
  rw [closeJob_eq]
  rcases state with q | q <;> simp only [q, unusedJob_iff, used, if_false]

theorem closeJob_active (state : (s.job k).state = .active) : closeJob k s = settled (withJob s k (closedJob s k)) := by
  rw [closeJob_eq]
  simp only [state]

/-- A job that has nothing to send and has not begun ends DONE (R14). -/
theorem endUnused_spec (j : Job) (owned : j.owner = (s.job k).owner) (route : j.route = (s.job k).route)
    (kept : j.orphaned = false) (dry : j.chain = []) :
    ∃ t, endUnused k (withJob s k j) = t ∧
      postedAheadOfSpace s t (postsTo (s.job k).owner [endedRecord s k 0x10#8]) ∧ routeAborted s t k ∧
      t = { s with
        eus := t.eus
        jm := { s.jm with jobs := upd s.jm.jobs k (endedJob j .done .none) }
        sp := { s.sp with marks := t.sp.marks }
        du := { s.du with ready := s.du.ready.erase k }
        rr := { s.rr with routes := t.rr.routes } } := by
  have job : ({ withJob s k j with du := { s.du with ready := s.du.ready.erase k } } : State).job k = j := upd_same ..
  obtain ⟨t, run, posted, aborted, frame⟩ := endAborted_dry
    (s := { withJob s k j with du := { s.du with ready := s.du.ready.erase k } }) (k := k) .done .none
    (by rw [job]; exact kept) (by rw [job]; exact dry)
  have record : endedRecord { withJob s k j with du := { s.du with ready := s.du.ready.erase k } } k (outcomeCauseByte .done .none) =
      endedRecord s k 0x10#8 := by
    simp only [endedRecord, job, route]
    rfl
  rw [record, job, owned] at posted
  refine ⟨t, run, posted, fun z => (aborted z).trans ?_, ?_⟩
  · rw [job, route]
    rfl
  · rw [job] at frame
    simp only [upd_upd] at frame
    exact frame

end Sys2Proof.Machine
end

section
/-! SUPPORT. CLOSE (R13, R14, R44, R92): the jobs it ends, makes READY, marks and completes. -/

namespace Sys2Proof.Machine

variable {s t u v : State} {h : HostId} {hd : Byte} {a k m z : SlotId} {n : Successor} {r : Response} {kind : ByteKind} {b : Byte}
  {j : Job}

theorem closable_of (opened : j.closed = false) (state : j.state = .filling ∨ j.state = .starved ∨ j.state = .ready ∨
    j.state = .active ∨ j.state = .suspended) : closable j = true := by
  rw [closable, opened]
  rcases state with q | q | q | q | q <;> rw [q] <;> rfl

/-! ## Joined jobs and the link -/

theorem joins_chain (chain : j.chain = (s.job k).chain) (z : SlotId) : ((joins s k j).job z).chain = (s.job z).chain := by
  rw [joins_job]
  split
  · next here => rw [← here, chain]
  · rfl

theorem joins_done (chain : j.chain = (s.job k).chain) (done : nothingToDo s) : nothingToDo (joins s k j) :=
  nothingToDo_of_same (s := s) rfl rfl rfl rfl rfl
    (activeHead_of_same (s := s) (t := joins s k j) rfl fun x _ => joins_chain chain x) done

theorem joins_channel (channel : j.channel = (s.job k).channel) (z : SlotId) :
    ((joins s k j).job z).channel = (s.job z).channel := by
  rw [joins_job]
  split
  · next here => rw [← here, channel]
  · rfl

/-! ## A successor and the rest of the part -/

theorem passedTo_job (other : n.holder ≠ some z) : (passedTo u n).job z = u.job z := by
  cases n with
  | nobody => rfl
  | selected x => exact upd_ne _ _ fun e => other (congrArg some e)
  | resumed x => exact upd_ne _ _ fun e => other (congrArg some e)

/-- A job with no entry to send is not the successor. -/
theorem holder_ne_of_dry (follows : followedBy u n) (dry : (u.job z).chain = []) : n.holder ≠ some z := fun holder =>
  follows.2 z holder (by rw [headEntry, dry])

/-- The decision names the same successor where jobs, link and Dispatch Unit are the same. -/
theorem followedBy_of_same (jobs : v.jm.jobs = u.jm.jobs) (ready : v.du.ready = u.du.ready) (stack : v.du.stack = u.du.stack)
    (claims : v.du.claims = u.du.claims) (rotation : v.du.rotation = u.du.rotation) (link : v.le.link = u.le.link)
    (su : v.su = u.su) (follows : followedBy u n) : followedBy v n :=
  ⟨leavesTo_of_same jobs ready stack claims rotation link su follows.1, fun z holder => by
    rw [headEntry, State.job, jobs]
    exact follows.2 z holder⟩

/-! ## The judgements of CLOSE -/

theorem jobStateByte_answered (holds : Prop) [Decidable holds] :
    jobStateByte (if holds then .active else .ready) = if holds then 0x03#8 else 0x02#8 := by
  split <;> rfl

/-- An unused job ends, and the link goes on as it was (R14). -/
theorem closeJob_unused (kept : (s.job k).orphaned = false)
    (state : (s.job k).state = .filling ∨ (s.job k).state = .starved ∨ (s.job k).state = .ready)
    (unused : (s.job k).queued = 0 ∧ (s.job k).begun = false) (dry : (s.job k).chain = []) (quiet : undisturbed s k) :
    ∃ u, closeJob k s = u ∧ boundaryWork u = u ∧ u.job k = endedJob (closedJob s k) .done .none ∧
      postedAheadOfSpace s u (postsTo (s.job k).owner [endedRecord s k 0x10#8]) ∧ routeAborted s u k ∧
      u = { s with
        eus := u.eus
        jm := { s.jm with jobs := upd s.jm.jobs k (endedJob (closedJob s k) .done .none) }
        sp := { s.sp with marks := u.sp.marks }
        du := { s.du with ready := s.du.ready.erase k }
        rr := { s.rr with routes := u.rr.routes } } := by
  obtain ⟨u, run, posted, aborted, frame⟩ := endUnused_spec (s := s) (k := k) (closedJob s k) rfl rfl kept dry
  have others : ∀ z, u.job z = if k = z then endedJob (closedJob s k) .done .none else s.job z := fun z => by
    rw [frame]
    exact upd_get ..
  refine ⟨u, (closeJob_ends unused state).trans run, ?_, by rw [others, if_pos rfl], posted, aborted, frame⟩
  exact boundaryWork_undisturbed quiet (by rw [frame]) (by rw [frame]) (by rw [frame]) (by rw [frame]) (by rw [frame])
    (by rw [frame]) fun z off => by rw [others, if_neg (Ne.symm off)]

theorem judgeClose_ends (own : ownHandle s h hd k) (opened : (s.job k).closed = false)
    (state : (s.job k).state = .filling ∨ (s.job k).state = .starved ∨ (s.job k).state = .ready)
    (unused : (s.job k).queued = 0 ∧ (s.job k).begun = false) (dry : (s.job k).chain = []) (quiet : undisturbed s k) :
    ∃ u, judgeClose h hd s = { state := u, code := .ok, payload := [0x08#8] } ∧
      postedAheadOfSpace s u (postsTo h [endedRecord s k 0x10#8]) ∧ routeAborted s u k ∧
      u = { s with
        eus := u.eus
        jm := { s.jm with jobs := upd s.jm.jobs k (endedJob (closedJob s k) .done .none) }
        sp := { s.sp with marks := u.sp.marks }
        du := { s.du with ready := s.du.ready.erase k }
        rr := { s.rr with routes := u.rr.routes } } := by
  obtain ⟨u, run, still, job, posted, aborted, frame⟩ := closeJob_unused own.2.2.2.2 state unused dry quiet
  have judged := judgeClose_closes own (closable_of opened (by tauto))
  rw [run, still, job] at judged
  exact ⟨u, judged, own.2.2.2.1 ▸ posted, aborted, frame⟩

section
variable (own : ownHandle s h hd k) (opened : (s.job k).closed = false)
  (state : (s.job k).state = .filling ∨ (s.job k).state = .starved)
  (used : ¬ ((s.job k).queued = 0 ∧ (s.job k).begun = false))
  (answers : answersTo (joins s k (closedJob s k)) k ((s.job k).priority ≠ 0) r)
include own opened state used answers

theorem judgeClose_readies (heads : ∀ z, r.holder = some z → headEntry s z ≠ none)
    (works : boundaryWork (responded (joins s k (closedJob s k)) r) = u)
    (same : (u.job k).state = ((responded (joins s k (closedJob s k)) r).job k).state) :
    judgeClose h hd s =
      { state := u, code := .ok, payload := [if r.holder = some k then 0x03#8 else 0x02#8] } := by
  have joined : enterReady k (withJob s k (closedJob s k)) = responded (joins s k (closedJob s k)) r :=
    enterReady_responded answers fun z holder => by
      rw [headEntry_of_chain (joins_chain (j := closedJob s k) rfl z)]
      exact heads z holder
  have ready : ((joins s k (closedJob s k)).job k).state = .ready := by rw [joins_job, if_pos rfl]
  have judged := judgeClose_closes own (closable_of opened (by tauto))
  rw [closeJob_readies used state, joined, works, same, responded_state answers ready, jobStateByte_answered] at judged
  exact judged

end

/-- CLOSE only marks a SUSPENDED job, a READY one with something to send, and an ACTIVE one that goes on sending (R13). -/
theorem closeJob_onlyMarks (state : (s.job k).state = .suspended ∨
    (s.job k).state = .ready ∧ ¬ ((s.job k).queued = 0 ∧ (s.job k).begun = false) ∨
    (s.job k).state = .active ∧ s.du.active = some k ∧ (headEntry s k ≠ none ∨ entryOffered s k = true)) :
    closeJob k s = withJob s k (closedJob s k) := by
  rw [closeJob_eq]
  rcases state with q | ⟨q, used⟩ | ⟨q, active, busy⟩
  · simp only [q]
  · simp only [q, unusedJob_iff, used, if_false]
  · simp only [q]
    refine settled_busy (s := withJob s k (closedJob s k)) active ?_
    rw [headEntry_of_job (j := closedJob s k) rfl]
    exact busy

theorem judgeClose_marks (own : ownHandle s h hd k) (opened : (s.job k).closed = false) (done : nothingToDo s)
    (state : (s.job k).state = .suspended ∨ (s.job k).state = .ready ∧ ¬ ((s.job k).queued = 0 ∧ (s.job k).begun = false) ∨
      (s.job k).state = .active ∧ s.du.active = some k ∧ (headEntry s k ≠ none ∨ entryOffered s k = true)) :
    judgeClose h hd s =
      { state := withJob s k (closedJob s k), code := .ok, payload := [jobStateByte (s.job k).state] } := by
  have marked := closeJob_onlyMarks state
  have still : boundaryWork (withJob s k (closedJob s k)) = withJob s k (closedJob s k) :=
    boundaryWork_of_nothingToDo (nothingToDo_of_job (j := closedJob s k) rfl done)
  have same : ((withJob s k (closedJob s k)).job k).state = (s.job k).state := by rw [withJob_job, if_pos rfl]
  have judged := judgeClose_closes own (closable_of opened (by tauto))
  rw [marked, still, same] at judged
  exact judged

/-! ## An ACTIVE job that has run dry -/

/-- The job in slot `k`, its record now `j`, has left the link. -/
abbrev handedOn (s : State) (k : SlotId) (j : Job) : State := withJob (letGo s k) k j

/-- An IDLE link with nothing to do has no entry of the active job to send. -/
theorem activeHead_of_idle (link : s.le.link = .idle) (done : nothingToDo s) : activeHead s = none := by
  rcases done with ⟨no, -⟩ | ⟨-, -, -, head, -⟩ | ⟨waiting, -⟩
  · exact absurd link no
  · exact head
  · rw [link] at waiting
    cases waiting

section
variable (idle : v.du.active = none) (le : v.le = { s.le with dryTimer := none }) (pins : v.pins = s.pins)
include idle le pins

/-- The link that a job with nothing to send has left has nothing new to do. -/
theorem left_done (head : activeHead s = none) (done : nothingToDo s) : nothingToDo v :=
  nothingToDo_of_same (s := s) (by rw [le]) (by rw [le]) (by rw [le]) (by rw [le]) pins
    ((activeHead_inactive idle).trans head.symm) done

/-- The link behind a job that has left it dry goes on as it was. -/
theorem boundaryWork_left_still (active : s.du.active = some k) (dry : (s.job k).chain = [])
    (still : busyLink s ∨ n = .nobody ∧ nothingToDo s) : boundaryWork (passedTo v n) = passedTo v n := by
  rcases still with busy | ⟨rfl, done⟩
  · refine boundaryWork_busy ((passedTo_handsOn v n).busy ?_)
    rw [busyLink, le]
    exact busy
  · exact boundaryWork_of_nothingToDo (left_done idle le pins (activeHead_of_dry active dry) done)

/-- On an IDLE link, the SELECT of its successor is offered. -/
theorem boundaryWork_left_selects (others : ∀ z, z ≠ k → v.job z = s.job z) (gone : (v.job k).chain = [])
    (heads : ∀ z, n.holder = some z → headEntry v z ≠ none) (holder : n.holder = some m)
    (head : headEntry s m = some (entryOf kind b)) (link : s.le.link = .idle) (done : nothingToDo s)
    (opened : forwardOpen s) (elsewhere : s.le.current ≠ some (s.job m).channel) :
    boundaryWork (passedTo v n) = selectOffered (passedTo v n) (s.job m).channel := by
  have other : m ≠ k := by
    rintro rfl
    refine heads m holder ?_
    rw [headEntry, gone]
  have same := others m other
  have opened' : forwardOpen v := by
    rw [forwardOpen, noStall, pins, le]
    exact opened
  have works := boundaryWork_selects (passedTo_handsOn v n) (passedTo_holder holder) (b := b) (kind := kind)
    (by rw [le]; exact link) (left_done idle le pins (activeHead_of_idle link done) done) opened'
    (by rw [headEntry, same]; exact head) (by rw [le, same]; exact elsewhere)
  rw [same] at works
  exact works

end

/-! ## A job completes -/

theorem claimsWithout_withJob (channel : j.channel = (s.job k).channel) : claimsWithout (withJob s k j) k = claimsWithout s k := by
  rw [claimsWithout, withJob_job, if_pos rfl, channel, claimsWithout]
  rfl

/-- The job ends DONE, and is posted to its owner ahead of any SPACE (R16, R92). -/
theorem completed_spec (kept : (s.job k).orphaned = false) (dry : (s.job k).chain = [])
    (over' : ∀ r, (s.job k).route = some r → (s.route r).state ≠ .opened) :
    ∃ v, completeTransmission k s = v ∧
      postedAheadOfSpace s v (postsTo (s.job k).owner [endedRecord s k 0x10#8]) ∧
      v = { handedOn s k (endedJob (s.job k) .done .none) with
        eus := v.eus
        sp := { s.sp with marks := v.sp.marks }
        rr := (stopReplyTimer k (letGo s k)).rr } := by
  obtain ⟨posted, frame⟩ := endJobAlone_posted (s := letGo s k) (k := k) .done .none kept dry
  exact ⟨_, completeTransmission_ends over', posted, frame⟩

/-- A job without a route ends so. -/
theorem completed_unrouted (kept : (s.job k).orphaned = false) (dry : (s.job k).chain = []) (unrouted : (s.job k).route = none) :
    ∃ v, completeTransmission k s = v ∧
      postedAheadOfSpace s v (postsTo (s.job k).owner [endedRecord s k 0x10#8]) ∧
      v = { handedOn s k (endedJob (s.job k) .done .none) with eus := v.eus, sp := { s.sp with marks := v.sp.marks } } := by
  obtain ⟨v, run, posted, frame⟩ := completed_spec kept dry (by rw [unrouted]; nofun)
  have timer : (stopReplyTimer k (letGo s k)).rr = s.rr := by rw [stopReplyTimer, show ((letGo s k).job k).route = none from unrouted]
  rw [timer] at frame
  exact ⟨v, run, posted, frame⟩

/-! ## CLOSE of an ACTIVE job that has run dry -/

section
variable (own : ownHandle s h hd k) (opened : (s.job k).closed = false) (state : (s.job k).state = .active)
  (active : s.du.active = some k) (dry : (s.job k).chain = []) (unoffered : entryOffered s k = false)
include own opened state active dry unoffered

/-- The job completes its transmission, and the link passes to the successor (R59, R92). -/
theorem judgeClose_passes (completes : completeTransmission k (withJob s k (closedJob s k)) = v) (follows : followedBy v n)
    (works : boundaryWork (passedTo v n) = u) (same : (u.job k).state = ((passedTo v n).job k).state)
    (gone : (v.job k).chain = []) :
    judgeClose h hd s = { state := u, code := .ok, payload := [jobStateByte (v.job k).state] } := by
  have head : headEntry (withJob s k (closedJob s k)) k = none := by
    rw [headEntry_of_job (j := closedJob s k) rfl, headEntry, dry]
  have passes : settled (withJob s k (closedJob s k)) = passedTo v n := by
    subst completes
    exact settled_passes active head unoffered (by rw [withJob_job, if_pos rfl]) follows
  have judged := judgeClose_closes own (closable_of opened (by tauto))
  rw [closeJob_active state, passes, works, same, passedTo_job (holder_ne_of_dry follows gone)] at judged
  exact judged

end

end Sys2Proof.Machine
end

section
/-! SUPPORT. CLOSE, all clauses (R13, R14, R44, R92). -/

namespace Sys2Proof.Machine

variable {s t u v w : State} {h : HostId} {hd : Byte} {a k m z : SlotId} {n : Successor} {r : Response} {kind : ByteKind} {b : Byte}
  {j : Job} {payload : List Byte} {p : HostId → List Event}

/-- A request judged with an answer that touches no port. -/
theorem serve_judged {body : State → Reply} {code : AnswerCode} (port : taking s h) (judged : body s = ⟨u, code, payload⟩)
    (ports : u.ports = s.ports) :
    ∃ t, serve h body s = .next t ∧ answeredWith s t h code payload ∧ t = { u with ports := t.ports } :=
  serve_answered port _ judged ports

/-- What was posted stands where event units, pool and settings do. -/
theorem postedAheadOfSpace.later (posted : postedAheadOfSpace s u p) (eus : t.eus = u.eus) (sp : t.sp = u.sp) (su : t.su = u.su) :
    postedAheadOfSpace s t p := by
  intro x
  obtain ⟨eu, mark⟩ := posted x
  have allow : allowance t x = allowance u x := allowance_of_same (by rw [sp]) su x
  rw [spaceRecords_of_same rfl allow, spaceDue_of_same rfl allow, State.eu, State.mark, eus, sp]
  exact ⟨eu, mark⟩

/-- A successor has the link, whatever the ports, event units and pool are. -/
theorem passedTo_told (u : State) (n : Successor) (q : Vector Port 4) (e : Vector EventUnit 4) (p : SegmentPool) :
    { passedTo { u with eus := e, sp := p } n with ports := q } = { passedTo { u with ports := q } n with eus := e, sp := p } := by
  cases n <;> rfl

/-- Nor do the routes matter. -/
theorem passedTo_routed (u : State) (n : Successor) (q : Vector Port 4) (w : ReplyRouter) :
    { passedTo { u with rr := w } n with ports := q } = { passedTo { u with ports := q } n with rr := w } := by
  cases n <;> rfl

/-! ## The two completions of CLOSE -/

section
variable (port : taking s h) (own : ownHandle s h hd k) (opened : (s.job k).closed = false) (state : (s.job k).state = .active)
  (active : s.du.active = some k) (dry : (s.job k).chain = []) (unoffered : entryOffered s k = false)
include port own opened state active dry unoffered

/-- CLOSE of an ACTIVE job that has run dry, once its completion and its successor are known: the link stands still, or offers the
SELECT of the successor. -/
theorem close_passes (completes : completeTransmission k (withJob s k (closedJob s k)) = v)
    (frame : v = { handedOn s k j with eus := v.eus, sp := { s.sp with marks := v.sp.marks }, rr := v.rr })
    (gone : j.chain = []) (named : leavesTo v n) (heads : ∀ z, n.holder = some z → headEntry v z ≠ none) :
    (busyLink s ∨ n = .nobody ∧ nothingToDo s →
      ∃ t, exec (.close h hd) s = .next t ∧ answeredWith s t h .ok [jobStateByte j.state] ∧
        t = { passedTo v n with ports := t.ports }) ∧
    (∀ m kind b, n.holder = some m → headEntry s m = some (entryOf kind b) → s.le.link = .idle → nothingToDo s →
      forwardOpen s → s.le.current ≠ some (s.job m).channel →
      ∃ t, exec (.close h hd) s = .next t ∧ answeredWith s t h .ok [jobStateByte j.state] ∧
        t = selectOffered { passedTo v n with ports := t.ports } (s.job m).channel) := by
  have job : v.job k = j := by
    rw [frame]
    exact upd_same ..
  have idle : v.du.active = none := by rw [frame]
  have le : v.le = { s.le with dryTimer := none } := by rw [frame]
  have pins : v.pins = s.pins := by rw [frame]
  have ports : v.ports = s.ports := by rw [frame]
  have dried : (v.job k).chain = [] := by rw [job, gone]
  refine ⟨fun still => ?_, fun m kind b holder head link done forward elsewhere => ?_⟩
  · have judged := judgeClose_passes own opened state active dry unoffered completes ⟨named, heads⟩
      (boundaryWork_left_still idle le pins active dry still) rfl dried
    rw [job] at judged
    obtain ⟨t, served, answered, rest⟩ := serve_judged port judged (by rw [(passedTo_handsOn v n).rest]; exact ports)
    exact ⟨t, exec_close.trans served, answered, rest⟩
  · have others : ∀ z, z ≠ k → v.job z = s.job z := fun z other => by
      rw [frame]
      exact upd_ne _ _ (Ne.symm other)
    have judged := judgeClose_passes own opened state active dry unoffered completes ⟨named, heads⟩
      (boundaryWork_left_selects idle le pins others dried heads holder head link done forward elsewhere) rfl dried
    rw [job] at judged
    obtain ⟨t, served, answered, rest⟩ := serve_judged port judged (by
      change (passedTo v n).ports = _
      rw [(passedTo_handsOn v n).rest]
      exact ports)
    exact ⟨t, exec_close.trans served, answered, rest⟩

end

/-- A job without a route ends DONE. -/
theorem closed_completes (own : ownHandle s h hd k) (dry : (s.job k).chain = []) (unrouted : (s.job k).route = none) :
    ∃ v, completeTransmission k (withJob s k (closedJob s k)) = v ∧
      postedAheadOfSpace s v (postsTo h [endedRecord s k 0x10#8]) ∧
      v = { handedOn s k (endedJob (closedJob s k) .done .none) with eus := v.eus, sp := { s.sp with marks := v.sp.marks } } := by
  have job : (withJob s k (closedJob s k)).job k = closedJob s k := upd_same ..
  obtain ⟨v, run, posted, frame⟩ := completed_unrouted (s := withJob s k (closedJob s k)) (k := k) (by rw [job]; exact own.2.2.2.2)
    (by rw [job]; exact dry) (by rw [job]; exact unrouted)
  have record : endedRecord (withJob s k (closedJob s k)) k 0x10#8 = endedRecord s k 0x10#8 := by
    rw [endedRecord, job]
    rfl
  rw [record, job, own.2.2.2.1] at posted
  rw [job, handedOn, letGo, claimsWithout_withJob (j := closedJob s k) rfl] at frame
  simp only [upd_upd] at frame
  exact ⟨v, run, posted, frame⟩

/-- A job whose route is OPEN awaits its reply. -/
theorem closed_awaits {r : RouteId} (route : (s.job k).route = some r) (waits : (s.route r).state = .opened) :
    completeTransmission k (withJob s k (closedJob s k)) =
      { handedOn s k { closedJob s k with state := .awaitReply } with
        rr := { s.rr with routes := upd s.rr.routes r { s.route r with timer := some s.su.settings.replyTime } } } := by
  have job : (withJob s k (closedJob s k)).job k = closedJob s k := upd_same ..
  rw [completeTransmission_awaits (s := withJob s k (closedJob s k)) (k := k) (r := r) (by rw [job]; exact route) waits, job, letGo,
    claimsWithout_withJob (j := closedJob s k) rfl]
  simp only [upd_upd]
  rfl

/-! ## The obligation -/

/-- Settles O22: the refusals, the jobs CLOSE ends, makes READY and marks, and its completion of a job that has run dry. -/
theorem closeMovesTheJob : Obligations.CloseMovesTheJob := by
  intro s h hd k port own
  have kept : (s.job k).orphaned = false := own.2.2.2.2
  have owner : (s.job k).owner = h := own.2.2.2.1
  refine ⟨fun spent => ?_, fun opened state unused dry quiet => ?_, fun opened state used r answers => ⟨fun still heads => ?_,
    fun m kind b holder head idle done forward elsewhere => ?_⟩, fun opened done state => ?_,
    fun opened state active dry empty unoffered => ⟨fun n unrouted follows => ?_, fun n r route waits follows => ?_⟩⟩
  · have closable : closable (s.job k) = false :=
      Bool.eq_false_iff.mpr fun takes => (closable_eq_true own.2.2.1).mp takes spent
    exact serve_refused port exec_close (judgeClose_badState own closable)
  · obtain ⟨u, judged, posted, aborted, frame⟩ := judgeClose_ends own opened state unused dry quiet
    obtain ⟨t, served, answered, rest⟩ := serve_judged port judged (by rw [frame])
    have eus : t.eus = u.eus := by rw [rest]
    have sp : t.sp = u.sp := by rw [rest]
    have rr : t.rr = u.rr := by rw [rest]
    refine ⟨t, exec_close.trans served, answered, fun x => ?_, posted.later eus sp (by rw [rest]), ?_⟩
    · rw [State.route, rr]
      exact aborted x
    · rw [eus, sp, rr]
      exact rest.trans (congrArg (fun v => { v with ports := t.ports }) frame)
  · have judged := judgeClose_readies own opened state used answers heads
      (boundaryWork_responded_still (still.imp_right fun ⟨nobody, done⟩ => ⟨nobody, joins_done (j := closedJob s k) rfl done⟩)) rfl
    obtain ⟨t, served, answered, rest⟩ := serve_judged port judged (by rw [(responded_handsOn _ r).rest])
    exact ⟨t, exec_close.trans served, answered, rest.trans (responded_ports _ r t.ports)⟩
  · have heads : ∀ z, r.holder = some z → headEntry s z ≠ none := fun z is => by
      obtain rfl := Option.some.inj (holder.symm.trans is)
      rw [head]
      nofun
    have channel : ((joins s k (closedJob s k)).job m).channel = (s.job m).channel := joins_channel (j := closedJob s k) rfl m
    have works := boundaryWork_selects (responded_handsOn (joins s k (closedJob s k)) r) (responded_holder holder) idle
      (joins_done (j := closedJob s k) rfl done) forward ((headEntry_of_chain (joins_chain (j := closedJob s k) rfl m)).trans head)
      (by rw [channel]; exact elsewhere)
    rw [channel] at works
    obtain ⟨t, served, answered, rest⟩ := serve_judged port (judgeClose_readies own opened state used answers heads works rfl)
      (by rw [(responded_handsOn _ r).rest])
    exact ⟨t, exec_close.trans served, answered,
      rest.trans (congrArg (selectOffered · (s.job m).channel) (responded_ports (joins s k (closedJob s k)) r t.ports))⟩
  · obtain ⟨t, served, answered, rest⟩ := serve_judged port (judgeClose_marks own opened done state) rfl
    exact ⟨t, exec_close.trans served, answered, rest⟩
  · obtain ⟨v, completes, posted, frame⟩ := closed_completes own dry unrouted
    have named : leavesTo v n := by
      rw [frame]
      exact leavesTo_of_same rfl rfl rfl rfl rfl rfl rfl follows.1
    have heads : ∀ z, n.holder = some z → headEntry v z ≠ none := by
      rw [frame]
      exact follows.2
    have shape : ∀ q, { passedTo v n with ports := q } =
        { passedTo { handedOn s k (endedJob (closedJob s k) .done .none) with ports := q } n with
          eus := v.eus, sp := { s.sp with marks := v.sp.marks } } := fun q =>
      (congrArg (fun v => { passedTo v n with ports := q }) frame).trans (passedTo_told ..)
    have outer := (passedTo_handsOn v n).rest
    obtain ⟨still, selects⟩ := close_passes port own opened state active dry unoffered completes
      (j := endedJob (closedJob s k) .done .none) (by rw [frame]) rfl named heads
    refine ⟨fun quiet => ?_, fun m kind b holder head link done forward elsewhere => ?_⟩
    · obtain ⟨t, run, answered, rest⟩ := still quiet
      have eus : t.eus = v.eus := by rw [rest, outer]
      have sp : t.sp = v.sp := by rw [rest, outer]
      refine ⟨t, run, ⟨answered, posted.later eus sp (by rw [rest, outer])⟩, ?_⟩
      beta_reduce
      rw [eus, sp]
      exact rest.trans (shape t.ports)
    · obtain ⟨t, run, answered, rest⟩ := selects m kind b holder head link done forward elsewhere
      have eus : t.eus = v.eus := by rw [rest, outer]
      have sp : t.sp = v.sp := by rw [rest, outer]
      refine ⟨t, run, ⟨answered, posted.later eus sp (by rw [rest, outer])⟩, ?_⟩
      beta_reduce
      rw [eus, sp]
      exact rest.trans (congrArg (selectOffered · (s.job m).channel) (shape t.ports))
  · have completes := closed_awaits route waits
    have shape : ∀ q, { passedTo (completeTransmission k (withJob s k (closedJob s k))) n with ports := q } =
        { passedTo { handedOn s k { closedJob s k with state := .awaitReply } with ports := q } n with
          rr := { s.rr with routes := upd s.rr.routes r { s.route r with timer := some s.su.settings.replyTime } } } := fun q =>
      (congrArg (fun v => { passedTo v n with ports := q }) completes).trans (passedTo_routed ..)
    have named : leavesTo (completeTransmission k (withJob s k (closedJob s k))) n := by
      rw [completes]
      exact leavesTo_of_same rfl rfl rfl rfl rfl rfl rfl follows.1
    have heads : ∀ z, n.holder = some z → headEntry (completeTransmission k (withJob s k (closedJob s k))) z ≠ none := by
      rw [completes]
      exact follows.2
    obtain ⟨still, selects⟩ := close_passes port own opened state active dry unoffered rfl
      (j := { closedJob s k with state := .awaitReply }) (by rw [completes]) dry named heads
    refine ⟨fun quiet => ?_, fun m kind b holder head link done forward elsewhere => ?_⟩
    · obtain ⟨t, run, answered, rest⟩ := still quiet
      exact ⟨t, run, answered, rest.trans (shape t.ports)⟩
    · obtain ⟨t, run, answered, rest⟩ := selects m kind b holder head link done forward elsewhere
      exact ⟨t, run, answered, rest.trans (congrArg (selectOffered · (s.job m).channel) (shape t.ports))⟩

end Sys2Proof.Machine
end

section
/-! SUPPORT. CANCEL (R16, R35, R66, R97, R129 to R135): a job that leaves the Dispatch Unit and ends, or joins the abandon list. -/

namespace Sys2Proof.Machine

variable {s t u v : State} {h : HostId} {hd : Byte} {a k m z : SlotId} {n : Successor} {kind : ByteKind} {b : Byte} {j : Job} {c : Cause}

/-! ## The Dispatch Unit lets go of a job -/

/-- The job in slot `k` is in neither the ready set nor the stack (R66). -/
abbrev offLists (s : State) (k : SlotId) : State :=
  { s with du := { s.du with ready := s.du.ready.erase k, stack := s.du.stack.erase k } }

theorem removeFromDispatch_inactive (other : s.du.active ≠ some k) : removeFromDispatch k s = offLists s k := by
  rw [removeFromDispatch, if_neg other]

theorem removeFromDispatch_active (active : s.du.active = some k) :
    removeFromDispatch k s = { offLists s k with
      du := { (offLists s k).du with active := none }, le := { s.le with dryTimer := none } } := by
  rw [removeFromDispatch, if_pos active]
  rfl

/-! ## The job ends, or joins the abandon list -/

/-- The job becomes CANCELLING, and its entry joins the abandon list (R131, R134). -/
def joinAbandonList (k : SlotId) (c : Cause) (s : State) : State :=
  let s := s.setJob k { s.job k with state := .cancelling }
  { s with le := { s.le with
      abandon := s.le.abandon ++ [{ job := s.handle k, channel := (s.job k).channel, cause := c }] } }

theorem cancelJob_eq (k : SlotId) (c : Cause) (s : State) :
    cancelJob k c s =
      if partlySent (s.job k) then joinAbandonList k c (discardChain k (abortRoute k (removeFromDispatch k s)))
      else endJob k .cancelled c (abortRoute k (removeFromDispatch k s)) := rfl

/-- A partly sent job, its route ABORTED and its chain freed. -/
theorem abandonAborted_eq (k : SlotId) (c : Cause) (s : State) :
    joinAbandonList k c (discardChain k (abortRoute k s)) = { s with
      jm := { s.jm with jobs := upd s.jm.jobs k { s.job k with chain := [], queued := 0, state := .cancelling } }
      sp := { s.sp with
        free := ((s.job k).chain.map fun g => g.id) ++ s.sp.free
        used := upd s.sp.used (s.job k).owner (s.used (s.job k).owner - (s.job k).chain.length) }
      rr := { s.rr with routes := (abortRoute k s).rr.routes }
      le := { s.le with abandon := s.le.abandon ++ [{ job := s.handle k, channel := (s.job k).channel, cause := c }] } } := by
  have frame := abortRoute_frame k s
  generalize (abortRoute k s).rr.routes = v at frame
  rw [frame, joinAbandonList]
  dsimp only
  rw [State.setJob_job_same, discardChain_job, if_pos rfl]
  simp only [State.setJob, discardChain, freeSegments, upd_upd, List.length_map]
  rfl

/-- The space waiters are then evaluated (R37, R131). -/
theorem abandonAborted_spec (k : SlotId) (c : Cause) (s : State) :
    ∃ t, evaluateSpace (joinAbandonList k c (discardChain k (abortRoute k s))) = t ∧
      (postedAheadOfSpace s t fun _ => []) ∧ routeAborted s t k ∧
      t = { s with
        eus := t.eus
        jm := { s.jm with jobs := upd s.jm.jobs k { s.job k with chain := [], queued := 0, state := .cancelling } }
        sp := { s.sp with
          free := ((s.job k).chain.map fun g => g.id) ++ s.sp.free
          used := upd s.sp.used (s.job k).owner (s.used (s.job k).owner - (s.job k).chain.length)
          marks := t.sp.marks }
        rr := { s.rr with routes := t.rr.routes }
        le := { s.le with abandon := s.le.abandon ++ [{ job := s.handle k, channel := (s.job k).channel, cause := c }] } } := by
  have named := abortRoute_routeAborted k s
  have acted := abandonAborted_eq k c s
  generalize joinAbandonList k c (discardChain k (abortRoute k s)) = w at acted
  have posted := evaluateSpace_posted (s := s) (u := w) (posts := fun _ => []) (by rw [acted]) (by rw [acted]) fun x => by
    rw [acted]
    rfl
  have frame := evaluateSpace_frame w
  refine ⟨_, rfl, posted, fun z => ?_, ?_⟩
  · rw [frame, acted]
    exact named z
  · generalize (evaluateSpace w).eus = v1 at frame
    generalize (evaluateSpace w).sp.marks = m1 at frame
    rw [frame, acted]

/-! ## The judgements of CANCEL -/

theorem exec_cancel : exec (.cancel h hd) s = serve h (judgeCancel h hd) s := rfl

/-- The cause of a CANCEL that host `h` is entitled to (R129). -/
abbrev entitled (s : State) (h : HostId) (k : SlotId) (c : Cause) : Prop :=
  (s.job k).owner = h ∧ c = .byOwner ∨ (s.job k).owner ≠ h ∧ s.su.holder = some h ∧ c = .byLeaseHolder

theorem judgeCancel_entitled (named : namesJob s hd k) (kept : (s.job k).orphaned = false) (who : entitled s h k c) :
    judgeCancel h hd s = match (s.job k).state with
      | .cancelling | .ended | .free => refuse s .badState
      | .filling | .ready | .active | .suspended | .starved | .awaitReply =>
        { state := acceptCancel k c s, code := .ok, payload := [jobStateByte ((acceptCancel k c s).job k).state] } := by
  rw [judgeCancel, findJob_eq_some.mpr named]
  dsimp only
  rcases who with ⟨owner, rfl⟩ | ⟨other, holder, rfl⟩
  · have own : ownsJob s h k = true := by simp [ownsJob, owner, kept]
    simp only [own, Bool.true_or, if_true] <;> rfl
  · simp only [ownsJob_eq_false (.inl other), holder, decide_true, Bool.or_true, if_true, Bool.false_eq_true, if_false] <;> rfl

theorem judgeCancel_badState (named : namesJob s hd k) (kept : (s.job k).orphaned = false) (who : entitled s h k c)
    (over' : (s.job k).state = .cancelling ∨ (s.job k).state = .ended) : judgeCancel h hd s = refuse s .badState := by
  rw [judgeCancel_entitled named kept who]
  rcases over' with state | state <;> rw [state]

/-- The link behind a cancelled job, once its successor, if it needs one, is known. -/
theorem judgeCancel_accepts (named : namesJob s hd k) (kept : (s.job k).orphaned = false) (who : entitled s h k c)
    (alive : (s.job k).state ≠ .cancelling ∧ (s.job k).state ≠ .ended) (acted : cancelActed k c s = u)
    (works : boundaryWork u = v) (same : (v.job k).state = (u.job k).state) :
    judgeCancel h hd s = { state := v, code := .ok, payload := [jobStateByte (u.job k).state] } := by
  have accepted : acceptCancel k c s = v := by rw [acceptCancel_eq, acted, onwards, works]
  rw [judgeCancel_entitled named kept who, accepted, same]
  obtain ⟨cancelling, ended⟩ := alive
  cases state : (s.job k).state with
  | free => exact absurd state named.2.2
  | cancelling => exact absurd state cancelling
  | ended => exact absurd state ended
  | _ => rfl

/-- The answer to a CANCEL, with what the cancellation `w` of the job posted and made of its route. -/
theorem serve_cancelled {w : State} {p : HostId → List Event} {payload : List Byte} (port : taking s h)
    (judged : judgeCancel h hd s = { state := v, code := .ok, payload := payload }) (ports : v.ports = s.ports)
    (eus : v.eus = w.eus) (sp : v.sp = w.sp) (rr : v.rr = w.rr) (su : v.su = w.su) (posted : postedAheadOfSpace s w p)
    (aborted : routeAborted s w k) :
    ∃ t, exec (.cancel h hd) s = .next t ∧
      (answeredWith s t h .ok payload ∧ routeAborted s t k ∧ postedAheadOfSpace s t p) ∧
      t.eus = w.eus ∧ t.sp = w.sp ∧ t.rr = w.rr ∧ t = { v with ports := t.ports } := by
  obtain ⟨t, served, answered, rest⟩ := serve_judged port judged ports
  have eus' : t.eus = w.eus := by rw [rest, eus]
  have sp' : t.sp = w.sp := by rw [rest, sp]
  have rr' : t.rr = w.rr := by rw [rest, rr]
  refine ⟨t, exec_cancel.trans served, ⟨answered, fun x => ?_, posted.later eus' sp' (by rw [rest, su])⟩, eus', sp', rr', rest⟩
  rw [State.route, rr']
  exact aborted x

/-! ## A job without partial output -/

section
variable (kept : (s.job k).orphaned = false) (alone : partlySent (s.job k) = false)
include kept alone

theorem cancelActed_ends (other : s.du.active ≠ some k) (c : Cause) :
    ∃ w, cancelActed k c s = w ∧ postedAheadOfSpace s w (postsTo (s.job k).owner [endedRecord s k (outcomeCauseByte .cancelled c)]) ∧
      routeAborted s w k ∧
      w = { offLists s k with
        eus := w.eus
        jm := { s.jm with jobs := upd s.jm.jobs k (endedJob (s.job k) .cancelled c) }
        sp := { s.sp with
          free := ((s.job k).chain.map fun g => g.id) ++ s.sp.free
          used := upd s.sp.used (s.job k).owner (s.used (s.job k).owner - (s.job k).chain.length)
          marks := w.sp.marks }
        rr := { s.rr with routes := w.rr.routes } } := by
  obtain ⟨w, run, spec⟩ := endAborted_spec (s := offLists s k) (k := k) .cancelled c kept
  refine ⟨w, ?_, spec⟩
  rw [cancelActed, if_neg other, cancelJob_eq, alone, removeFromDispatch_inactive other]
  exact run

theorem cancelActed_endsActive (active : s.du.active = some k) (c : Cause) :
    ∃ w, cancelActed k c s = leaveLink w ∧
      postedAheadOfSpace s w (postsTo (s.job k).owner [endedRecord s k (outcomeCauseByte .cancelled c)]) ∧
      routeAborted s w k ∧
      w = { offLists s k with
        eus := w.eus
        jm := { s.jm with jobs := upd s.jm.jobs k (endedJob (s.job k) .cancelled c) }
        sp := { s.sp with
          free := ((s.job k).chain.map fun g => g.id) ++ s.sp.free
          used := upd s.sp.used (s.job k).owner (s.used (s.job k).owner - (s.job k).chain.length)
          marks := w.sp.marks }
        du := { (offLists s k).du with active := none }
        le := { s.le with dryTimer := none }
        rr := { s.rr with routes := w.rr.routes } } := by
  obtain ⟨w, run, spec⟩ := endAborted_spec (s := { offLists s k with
    du := { (offLists s k).du with active := none }, le := { s.le with dryTimer := none } }) (k := k) .cancelled c kept
  refine ⟨w, ?_, spec⟩
  rw [cancelActed, if_pos active, cancelJob_eq, alone, removeFromDispatch_active active]
  exact congrArg leaveLink run

end

theorem entitled_byte (who : (s.job k).owner = h ∧ c = .byOwner ∧ b = 0x31#8 ∨
    (s.job k).owner ≠ h ∧ s.su.holder = some h ∧ c = .byLeaseHolder ∧ b = 0x32#8) :
    entitled s h k c ∧ outcomeCauseByte .cancelled c = b := by
  rcases who with ⟨owner, rfl, rfl⟩ | ⟨other, holder, rfl, rfl⟩
  · exact ⟨.inl ⟨owner, rfl⟩, rfl⟩
  · exact ⟨.inr ⟨other, holder, rfl⟩, rfl⟩

/-- Settles O24: the job ends, and the link of an ACTIVE one passes to its successor. -/
theorem cancelEndsAJobWithoutPartialOutput : Obligations.CancelEndsAJobWithoutPartialOutput := by
  intro s h hd k c code port named j kept who
  obtain ⟨who, byte⟩ := entitled_byte who
  refine ⟨fun over' => serve_refused port exec_cancel (judgeCancel_badState named kept who over'),
    fun cancelling ended alone => ⟨fun other quiet => ?_, fun n active follows => ?_⟩⟩
  · obtain ⟨w, acted, posted, aborted, frame⟩ := cancelActed_ends kept alone other c
    have job : w.job k = endedJob (s.job k) .cancelled c := by
      rw [frame]
      exact upd_same ..
    have still : boundaryWork w = w := by
      refine boundaryWork_undisturbed quiet (by rw [frame]) (by rw [frame]) (by rw [frame]) (by rw [frame]) (by rw [frame])
        (by rw [frame]) fun z off => ?_
      rw [frame]
      exact congrArg Job.chain (upd_ne _ _ (Ne.symm off))
    have judged := judgeCancel_accepts named kept who ⟨cancelling, ended⟩ acted still rfl
    rw [job] at judged
    rw [byte] at posted
    obtain ⟨t, run, answered, eus, sp, rr, rest⟩ := serve_cancelled port judged (by rw [frame]) rfl rfl rfl rfl posted aborted
    refine ⟨t, run, answered, ?_⟩
    beta_reduce
    rw [eus, sp, rr]
    exact rest.trans (congrArg (fun v => { v with ports := t.ports }) frame)
  · obtain ⟨w, acted, posted, aborted, frame⟩ := cancelActed_endsActive kept alone active c
    have job : w.job k = endedJob (s.job k) .cancelled c := by
      rw [frame]
      exact upd_same ..
    have follows' : followedBy w n := by
      rw [frame]
      exact followedBy_of_same rfl rfl rfl rfl rfl rfl rfl follows
    have idle : w.du.active = none := by rw [frame]
    have outer := (passedTo_handsOn w n).rest
    have gone : (w.job k).chain = [] := by rw [job]
    have state : ((passedTo w n).job k).state = .ended := by
      rw [passedTo_job (holder_ne_of_dry follows' gone), job]
    rw [leaveLink_followed idle follows'] at acted
    rw [byte] at posted
    have ports : w.ports = s.ports := by rw [frame]
    refine ⟨fun busy => ?_, fun m kind b holder head link done forward elsewhere => ?_⟩
    · have judged := judgeCancel_accepts named kept who ⟨cancelling, ended⟩ acted (boundaryWork_busy
        ((passedTo_handsOn w n).busy (by rw [frame]; exact busy))) rfl
      rw [state] at judged
      obtain ⟨t, run, answered, eus, sp, rr, rest⟩ := serve_cancelled port judged (by rw [outer, ports]) (by rw [outer])
        (by rw [outer]) (by rw [outer]) (by rw [outer]) posted aborted
      refine ⟨t, run, answered, ?_⟩
      beta_reduce
      rw [eus, sp, rr]
      exact rest.trans ((passedTo_ports ..).trans (congrArg (fun v => passedTo { v with ports := t.ports } n) frame))
    · have works := boundaryWork_left_selects idle (by rw [frame]) (by rw [frame]) (fun z off => by
        rw [frame]
        exact upd_ne _ _ (Ne.symm off)) gone follows'.2 holder head link done forward elsewhere
      have judged := judgeCancel_accepts named kept who ⟨cancelling, ended⟩ acted works rfl
      rw [state] at judged
      obtain ⟨t, run, answered, eus, sp, rr, rest⟩ := serve_cancelled port judged (by rw [outer, ports]) (by rw [outer])
        (by rw [outer]) (by rw [outer]) (by rw [outer]) posted aborted
      refine ⟨t, run, answered, ?_⟩
      beta_reduce
      rw [eus, sp, rr]
      exact rest.trans (congrArg (selectOffered · (s.job m).channel)
        ((passedTo_ports ..).trans (congrArg (fun v => passedTo { v with ports := t.ports } n) frame)))

end Sys2Proof.Machine
end

section
/-! SUPPORT. CANCEL of a partly sent job (R35, R131, R134, R135): the abandon list and the work of the link behind it. -/

namespace Sys2Proof.Machine

variable {s t u v w : State} {h : HostId} {hd : Byte} {a k m z : SlotId} {n : Successor} {kind : ByteKind} {b : Byte} {j : Job} {c : Cause}
  {e : AbandonEntry} {es : List AbandonEntry}

theorem alive_of_partlySent (partly : partlySent j = true) : j.state ≠ .cancelling ∧ j.state ≠ .ended := by
  rw [partlySent, Bool.and_eq_true] at partly
  obtain ⟨-, live⟩ := partly
  constructor <;> intro state <;> rw [state] at live <;> cases live

/-! ## The link starts on the head abandon entry -/

/-- An IDLE link that finds an abandon entry offers ABANDON on the entry's channel, or that channel's SELECT (R78, R135). -/
theorem boundaryWork_startsAbandon (idle : s.le.link = .idle) (opened : forwardOpen s) (list : s.le.abandon = e :: es)
    (head : activeHead s = none) :
    (s.le.current = some e.channel → boundaryWork s = offered s 0xF8#8 .control .abandon) ∧
      (s.le.current ≠ some e.channel → boundaryWork s = selectOffered s e.channel) := by
  have noBreak : ∀ x, activeHead s ≠ some (x, .brk) := by
    rw [head]
    nofun
  obtain ⟨rreq, prdy, pflt, calm⟩ := opened
  refine ⟨fun here => ?_, fun elsewhere => ?_⟩
  · rw [boundaryWork_abandons (.inl idle) rreq prdy pflt list noBreak here]
    exact makeOffer_noStall _ calm
  · rw [boundaryWork_at (.inl idle)]
    exact applyOrder_selectsAbandoned ⟨rreq, prdy, pflt, calm⟩ list noBreak elsewhere

/-- A WAITING link with nothing to do waits on for any abandon list that has work (R79, R88). -/
theorem nothingToDo_listed (waiting : s.le.link = .waiting) (done : nothingToDo s) (link : t.le.link = s.le.link)
    (pins : t.pins = s.pins) (stall : t.le.stall = s.le.stall)
    (head : activeHead t = activeHead s) (list : t.le.abandon ≠ []) : nothingToDo t := by
  rcases done with ⟨-, no⟩ | ⟨idle, -⟩ | ⟨-, rreq, noBreak, -, held, stalled⟩
  · exact absurd waiting no
  · rw [waiting] at idle
    cases idle
  · refine .inr (.inr ⟨link.trans waiting, by rw [pins]; exact rreq, by rw [head]; exact noBreak, ?_, by rw [pins]; exact held,
      by rw [stall]; exact stalled⟩)
    rw [forwardWork, List.isEmpty_eq_false_iff.mpr list]
    rfl

/-! ## The cancellation -/

section
variable (partly : partlySent (s.job k) = true)
include partly

theorem cancelActed_joins (other : s.du.active ≠ some k) (c : Cause) :
    ∃ w, cancelActed k c s = w ∧ (postedAheadOfSpace s w fun _ => []) ∧ routeAborted s w k ∧
      w = { offLists s k with
        eus := w.eus
        jm := { s.jm with jobs := upd s.jm.jobs k { s.job k with chain := [], queued := 0, state := .cancelling } }
        sp := { s.sp with
          free := ((s.job k).chain.map fun g => g.id) ++ s.sp.free
          used := upd s.sp.used (s.job k).owner (s.used (s.job k).owner - (s.job k).chain.length)
          marks := w.sp.marks }
        rr := { s.rr with routes := w.rr.routes }
        le := { s.le with abandon := s.le.abandon ++ [{ job := s.handle k, channel := (s.job k).channel, cause := c }] } } := by
  obtain ⟨w, run, spec⟩ := abandonAborted_spec k c (offLists s k)
  refine ⟨w, ?_, spec⟩
  rw [cancelActed, if_neg other, cancelJob_eq, partly, removeFromDispatch_inactive other]
  exact run

theorem cancelActed_joinsActive (active : s.du.active = some k) (c : Cause) :
    ∃ w, cancelActed k c s = leaveLink w ∧ (postedAheadOfSpace s w fun _ => []) ∧ routeAborted s w k ∧
      w = { offLists s k with
        eus := w.eus
        jm := { s.jm with jobs := upd s.jm.jobs k { s.job k with chain := [], queued := 0, state := .cancelling } }
        sp := { s.sp with
          free := ((s.job k).chain.map fun g => g.id) ++ s.sp.free
          used := upd s.sp.used (s.job k).owner (s.used (s.job k).owner - (s.job k).chain.length)
          marks := w.sp.marks }
        du := { (offLists s k).du with active := none }
        rr := { s.rr with routes := w.rr.routes }
        le := { s.le with
          abandon := s.le.abandon ++ [{ job := s.handle k, channel := (s.job k).channel, cause := c }], dryTimer := none } } := by
  obtain ⟨w, run, spec⟩ := abandonAborted_spec k c { offLists s k with
    du := { (offLists s k).du with active := none }, le := { s.le with dryTimer := none } }
  refine ⟨w, ?_, spec⟩
  rw [cancelActed, if_pos active, cancelJob_eq, partly, removeFromDispatch_active active]
  exact congrArg leaveLink run

end

/-- An IDLE link starts on the job that has been cancelled (R135). -/
theorem cancel_startsAbandon {p : HostId → List Event} (port : taking s h) (named : namesJob s hd k)
    (kept : (s.job k).orphaned = false) (who : entitled s h k c) (partly : partlySent (s.job k) = true)
    (acted : cancelActed k c s = w) (posted : postedAheadOfSpace s w p) (aborted : routeAborted s w k)
    (ports : w.ports = s.ports) (state : (w.job k).state = .cancelling) (idle : w.le.link = .idle) (opened : forwardOpen w)
    (list : w.le.abandon = e :: es) (head : activeHead w = none) :
    ∃ t, exec (.cancel h hd) s = .next t ∧
      (answeredWith s t h .ok [0x06#8] ∧ routeAborted s t k ∧ postedAheadOfSpace s t p) ∧
      t.eus = w.eus ∧ t.sp = w.sp ∧ t.rr = w.rr ∧
      (w.le.current = some e.channel → t = offered { w with ports := t.ports } 0xF8#8 .control .abandon) ∧
      (w.le.current ≠ some e.channel → t = selectOffered { w with ports := t.ports } e.channel) := by
  have alive := alive_of_partlySent partly
  obtain ⟨starts, selects⟩ := boundaryWork_startsAbandon idle opened list head
  by_cases here : w.le.current = some e.channel
  · have judged := judgeCancel_accepts named kept who alive acted (starts here) rfl
    rw [state] at judged
    obtain ⟨t, run, answered, eus, sp, rr, rest⟩ := serve_cancelled port judged ports rfl rfl rfl rfl posted aborted
    exact ⟨t, run, answered, eus, sp, rr, fun _ => rest, fun other => absurd here other⟩
  · have judged := judgeCancel_accepts named kept who alive acted (selects here) rfl
    rw [state] at judged
    obtain ⟨t, run, answered, eus, sp, rr, rest⟩ := serve_cancelled port judged ports rfl rfl rfl rfl posted aborted
    exact ⟨t, run, answered, eus, sp, rr, fun same => absurd same here, fun _ => rest⟩

/-- Settles O25: the entry joins the abandon list, and an IDLE link starts on it. -/
theorem cancelOfAPartlySentJobJoinsTheAbandonList : Obligations.CancelOfAPartlySentJobJoinsTheAbandonList := by
  intro s h hd k c port named j kept who partly
  have alive := alive_of_partlySent partly
  refine ⟨fun other away still => ?_, fun n active busy follows => ?_, fun link done forward alone => ?_⟩
  · obtain ⟨w, acted, posted, aborted, frame⟩ := cancelActed_joins partly other c
    have job : w.job k = { s.job k with chain := [], queued := 0, state := .cancelling } := by
      rw [frame]
      exact upd_same ..
    have works : boundaryWork w = w := by
      by_cases waiting : s.le.link = .waiting
      · have done := still.resolve_left (not_not_intro waiting)
        refine boundaryWork_of_nothingToDo (nothingToDo_listed waiting done (by rw [frame]) (by rw [frame]) (by rw [frame]) ?_ ?_)
        · refine activeHead_of_same (by rw [frame]) fun x is => ?_
          rw [frame]
          exact congrArg Job.chain (upd_ne _ _ fun e => other (by rw [is, e]))
        · rw [frame]
          exact List.append_ne_nil_of_right_ne_nil _ (List.cons_ne_nil _ _)
      · exact boundaryWork_elsewhere (by rw [frame]; exact away) (by rw [frame]; exact waiting)
    have judged := judgeCancel_accepts named kept who alive acted works rfl
    rw [job] at judged
    obtain ⟨t, run, answered, eus, sp, rr, rest⟩ := serve_cancelled port judged (by rw [frame]) rfl rfl rfl rfl posted aborted
    refine ⟨t, run, answered, ?_⟩
    beta_reduce
    rw [eus, sp, rr]
    exact rest.trans (congrArg (fun v => { v with ports := t.ports }) frame)
  · obtain ⟨w, acted, posted, aborted, frame⟩ := cancelActed_joinsActive partly active c
    have job : w.job k = { s.job k with chain := [], queued := 0, state := .cancelling } := by
      rw [frame]
      exact upd_same ..
    have follows' : followedBy w n := by
      rw [frame]
      exact followedBy_of_same rfl rfl rfl rfl rfl rfl rfl follows
    have outer := (passedTo_handsOn w n).rest
    have state : ((passedTo w n).job k).state = .cancelling := by
      rw [passedTo_job (holder_ne_of_dry follows' (by rw [job])), job]
    rw [leaveLink_followed (by rw [frame]) follows'] at acted
    have judged := judgeCancel_accepts named kept who alive acted (boundaryWork_busy
      ((passedTo_handsOn w n).busy (by rw [frame]; exact busy))) rfl
    rw [state] at judged
    obtain ⟨t, run, answered, eus, sp, rr, rest⟩ := serve_cancelled port judged (by rw [outer, frame]) (by rw [outer])
      (by rw [outer]) (by rw [outer]) (by rw [outer]) posted aborted
    refine ⟨t, run, answered, ?_⟩
    beta_reduce
    rw [eus, sp, rr]
    exact rest.trans ((passedTo_ports ..).trans (congrArg (fun v => passedTo { v with ports := t.ports } n) frame))
  · have empty := abandon_nil_of_idle link done
    have calm := activeHead_of_idle link done
    have list : s.le.abandon ++ [{ job := s.handle k, channel := (s.job k).channel, cause := c }] =
        [({ job := s.handle k, channel := (s.job k).channel, cause := c } : AbandonEntry)] := by rw [empty, List.nil_append]
    by_cases active : s.du.active = some k
    · obtain ⟨w, acted, posted, aborted, frame⟩ := cancelActed_joinsActive partly active c
      have follows' : followedBy w .nobody := by
        rw [frame]
        exact followedBy_of_same rfl rfl rfl rfl rfl rfl rfl (alone.resolve_left (not_not_intro active))
      have idle : w.du.active = none := by rw [frame]
      have current : w.le.current = s.le.current := by rw [frame]
      rw [leaveLink_followed idle follows'] at acted
      obtain ⟨t, run, answered, eus, sp, rr, starts, selects⟩ := cancel_startsAbandon port named kept who partly acted posted aborted
        (by rw [frame]) (by rw [frame]; exact congrArg Job.state (upd_same ..)) (by rw [frame]; exact link) (by rw [frame]; exact forward)
        (by rw [frame]; exact list) (activeHead_inactive idle)
      rw [current] at starts selects
      refine ⟨t, run, answered, ?_⟩
      beta_reduce
      rw [if_pos active, eus, sp, rr]
      have frame' := congrArg (fun v : State => { v with ports := t.ports }) frame
      exact ⟨fun here => (starts here).trans (congrArg (offered · 0xF8#8 .control .abandon) frame'),
        fun elsewhere => (selects elsewhere).trans (congrArg (selectOffered · (s.job k).channel) frame')⟩
    · obtain ⟨w, acted, posted, aborted, frame⟩ := cancelActed_joins partly active c
      have current : w.le.current = s.le.current := by rw [frame]
      have head : activeHead w = none := (activeHead_of_same (s := s) (by rw [frame]) fun x is => by
        rw [frame]
        exact congrArg Job.chain (upd_ne _ _ fun e => active (by rw [is, e]))).trans calm
      obtain ⟨t, run, answered, eus, sp, rr, starts, selects⟩ := cancel_startsAbandon port named kept who partly acted posted aborted
        (by rw [frame]) (by rw [frame]; exact congrArg Job.state (upd_same ..)) (by rw [frame]; exact link) (by rw [frame]; exact forward)
        (by rw [frame]; exact list) head
      rw [current] at starts selects
      refine ⟨t, run, answered, ?_⟩
      beta_reduce
      rw [if_neg active, eus, sp, rr]
      have frame' := congrArg (fun v : State => { v with ports := t.ports }) frame
      exact ⟨fun here => (starts here).trans (congrArg (offered · 0xF8#8 .control .abandon) frame'),
        fun elsewhere => (selects elsewhere).trans (congrArg (selectOffered · (s.job k).channel) frame')⟩

end Sys2Proof.Machine
end

section
/-! SUPPORT. Entries appended to a chain (R25, R27, R30), and the decisions of the Dispatch Unit about a job whose record has changed
in what they do not read. -/

namespace Sys2Proof.Machine

variable {s t u : State} {a k m z : SlotId} {n : Successor} {r : Response} {j : Job} {es : List Entry} {e : Entry}

/-! ## A chain that grows -/

/-- The chain of the job in slot `k` with these entries at its tail (R25). -/
abbrev grownChain (s : State) (k : SlotId) (es : List Entry) : List Segment :=
  writeTail (es.take (tailSpace (s.job k).chain)) (s.job k).chain ++
    writeFresh (s.sp.free.take (newSegments es.length (s.job k).chain)) (es.drop (tailSpace (s.job k).chain))

/-- The entries have joined the chain of the job in slot `k` (R25, R27, R28). -/
abbrev grown (s : State) (k : SlotId) (es : List Entry) : State :=
  { withJob s k { s.job k with chain := grownChain s k es, queued := (s.job k).queued + es.length } with
    sp := poolTook s (s.job k).owner (newSegments es.length (s.job k).chain) }

theorem appendEntries_grown (s : State) (k : SlotId) (es : List Entry) : appendEntries k es s = grown s k es := rfl

theorem grown_job (s : State) (k : SlotId) (es : List Entry) : (grown s k es).job k =
    { s.job k with chain := grownChain s k es, queued := (s.job k).queued + es.length } := upd_same ..

theorem chainGrew_of (room : newSegments es.length (s.job k).chain ≤ s.sp.free.length)
    (chain : (t.job k).chain = grownChain s k es) : chainGrew s t k es := by
  obtain ⟨c, frame, list, ids, sound⟩ := appendEntries_spec k es s room
  have same : grownChain s k es = c := by
    have both : ((grown s k es).job k).chain = _ := congrArg (fun v : State => (v.job k).chain) frame
    rw [grown_job] at both
    exact both.trans (congrArg Job.chain (upd_same ..))
  rw [chainGrew, chain, same]
  exact ⟨list, ids, sound⟩

/-- A head entry stays at the head. -/
theorem headEntry_grown (head : headEntry s k = some e) : headEntry (grown s k es) k = some e := by
  rw [headEntry, grown_job]
  rw [headEntry] at head
  dsimp only [grownChain]
  split at head
  · cases head
  · next g gs chain =>
    rw [chain]
    cases gs with
    | nil =>
      simp only [writeTail, List.cons_append, List.nil_append]
      rw [List.head?_append, head]
      rfl
    | cons g' gs =>
      simp only [writeTail, List.cons_append]
      exact head

/-- The first entry joins an absent chain at its head. -/
theorem headEntry_fresh (dry : (s.job k).chain = []) (room : newSegments es.length (s.job k).chain ≤ s.sp.free.length) :
    headEntry (grown s k es) k = es.head? := by
  obtain ⟨list, -, sound⟩ := chainGrew_of (t := grown s k es) room (by rw [grown_job])
  rw [dry] at list sound
  obtain ⟨segments, -⟩ := sound ⟨by simp, by simp⟩
  have entries : chainList ((grown s k es).job k).chain = es := list
  rw [headEntry]
  generalize ((grown s k es).job k).chain = c at *
  cases c with
  | nil =>
    rw [← entries]
    rfl
  | cons g gs =>
    obtain ⟨filled, -⟩ := segments g (List.mem_cons_self ..)
    rw [← entries, chainList, List.map_cons, List.flatten_cons, List.head?_append]
    change g.entries.head? = _
    cases own : g.entries with
    | nil => exact absurd own filled
    | cons x xs => rfl

/-- Nothing to append changes nothing. -/
theorem grown_nothing (dry : (s.job k).chain = []) : grown s k [] = s := by
  have same : grownChain s k [] = (s.job k).chain := by
    rw [grownChain, dry]
    rfl
  have none' : newSegments ([] : List Entry).length (s.job k).chain = 0 := by
    rw [dry]
    rfl
  have job : { s.job k with chain := (s.job k).chain, queued := (s.job k).queued + 0 } = s.job k := rfl
  rw [grown, same, none', List.length_nil, job]
  simp only [poolTook, List.drop_zero, Nat.add_zero, State.used, State.job, upd_self]

/-! ## The decisions read state, priority, channel and owner of a job -/

/-- The decisions of the Dispatch Unit read the same of every job. -/
abbrev sameRecords (s t : State) : Prop :=
  ∀ z, (t.job z).state = (s.job z).state ∧ (t.job z).priority = (s.job z).priority ∧ (t.job z).channel = (s.job z).channel ∧
    (t.job z).owner = (s.job z).owner

section
variable (same : sameRecords s t) (du : t.du = s.du)
include same du

theorem bestAdmissible_of_records (p : Option SlotId) : bestAdmissible t p = bestAdmissible s p := by
  have state := fun z => (same z).1
  have priority := fun z => (same z).2.1
  have channel := fun z => (same z).2.2.1
  have owner := fun z => (same z).2.2.2
  have claim : ∀ c, t.claim c = s.claim c := fun c => by rw [State.claim, du, State.claim]
  have pass : admissible t p = admissible s p := funext fun z => by
    simp only [admissible, eligible, channelOpen, state, priority, channel, claim, du]
  simp only [bestAdmissible, choose, topPriority, pass, du, priority, owner] <;> rfl

theorem leavesTo_of_records (link : t.le.link = s.le.link) (su : t.su = s.su) (named : leavesTo s n) : leavesTo t n := by
  have priority := fun z => (same z).2.1
  have best := bestAdmissible_of_records same du none
  have recov := recovering_of_link link
  cases n with
  | nobody => simpa only [leavesTo, recov, du, best] using named
  | selected k => simpa only [leavesTo, recov, du, best, priority, su] using named
  | resumed z => simpa only [leavesTo, recov, du, best, priority, su] using named

theorem respondsWith_of_records (link : t.le.link = s.le.link) (dry : t.le.dryTimer = s.le.dryTimer) (su : t.su = s.su)
    (answers : respondsWith s r) : respondsWith t r := by
  have priority := fun z => (same z).2.1
  have best := bestAdmissible_of_records same du none
  have recov := recovering_of_link link
  have urg : ∀ a m, urgent t a m ↔ urgent s a m := fun a m => by
    simp only [urgent, recov, bestAdmissible_of_records same du (some a), priority, su, du]
  cases r with
  | waits => simpa only [respondsWith, recov, du, dry, urg, best] using answers
  | selected m => simpa only [respondsWith, recov, du, best] using answers
  | preempts a m => simpa only [respondsWith, du, dry, urg] using answers
  | decides n =>
    obtain ⟨up, idle, leaving, named⟩ := answers
    exact ⟨recov.trans up, by rw [du]; exact idle, by rw [du]; exact leaving, leavesTo_of_records same du link su named⟩

end

end Sys2Proof.Machine
end

section
/-! SUPPORT. APPEND that joins the chain (R23, R25, R28, R33, R63). -/

namespace Sys2Proof.Machine

variable {s t u v : State} {h : HostId} {hd flags kd b : Byte} {bytes : List Byte} {a k m z : SlotId} {n : Successor} {r : Response}
  {j : Job} {es : List Entry} {e : Entry} {payload : List Byte}

/-! ## The judgement -/

/-- The answer to an accepted APPEND, once what it brings about is known (R33). -/
theorem judgeAppend_answers (own : ownHandle s h hd k) (legal : appendLegal kd flags bytes) (opened : (s.job k).closed = false)
    (live : (s.job k).state ≠ .cancelling ∧ (s.job k).state ≠ .awaitReply ∧ (s.job k).state ≠ .ended)
    (room : appendHasRoom s h k (appended kd flags bytes).length)
    (acted : appendActed k (appended kd flags bytes) (flags.getLsbD 1) s = u) (works : boundaryWork u = v) :
    judgeAppend h hd kd flags bytes s =
      { state := v, code := .ok
        payload := jobStateByte (v.job k).state :: (big16 (v.job k).queued ++ big16 (allowance v h)) } := by
  have takes : closable (s.job k) = true := (closable_eq_true own.2.2.1).mpr fun spent => by
    obtain ⟨x, y, z⟩ := live
    rcases spent with q | q | q | q
    · rw [opened] at q
      cases q
    · exact x q
    · exact y q
    · exact z q
  have accepted : acceptAppend k (appended kd flags bytes) (flags.getLsbD 1) s = v := by
    rw [acceptAppend_eq, acted, onwards, works]
  have judged := judgeAppend_accepts own legal takes room.1
  rw [accepted, appendPayload, twoBytes_eq_big16, twoBytes_eq_big16] at judged
  exact judged

/-- The answer served: the counts of the answer are those of the state after. -/
theorem serve_appended (port : taking s h) (judged : judgeAppend h hd kd flags bytes s =
    { state := v, code := .ok, payload := jobStateByte (v.job k).state :: (big16 (v.job k).queued ++ big16 (allowance v h)) })
    (ports : v.ports = s.ports) :
    ∃ t, exec (.append h hd kd flags bytes) s = .next t ∧
      answeredWith s t h .ok (jobStateByte (v.job k).state :: (big16 (v.job k).queued ++ big16 (allowance t h))) ∧
      t = { v with ports := t.ports } := by
  obtain ⟨t, served, answered, rest⟩ := serve_judged port judged ports
  have allow : allowance t h = allowance v h := allowance_of_same (by rw [rest]) (by rw [rest]) h
  rw [← allow] at answered
  exact ⟨t, exec_append.trans served, answered, rest⟩

/-! ## The entries join the chain -/

theorem entriesJoined_waits (state : (u.job k).state = .ready ∨ (u.job k).state = .suspended ∨
    ((u.job k).state = .filling ∨ (u.job k).state = .starved) ∧
      ((u.job k).stream = false ∨ (u.job k).queued < u.su.settings.startThreshold)) : entriesJoined k u = u := by
  rw [entriesJoined]
  rcases state with q | q | ⟨q, few⟩
  · rw [q]
  · rw [q]
  · have below : ¬ ((u.job k).stream && decide (u.su.settings.startThreshold ≤ (u.job k).queued)) = true := by
      rw [Bool.and_eq_true, decide_eq_true_eq]
      rintro ⟨stream, reached⟩
      rcases few with no | less
      · rw [no] at stream
        cases stream
      · omega
    rcases q with q | q <;> rw [q] <;> exact if_neg below

theorem entriesJoined_active (state : (u.job k).state = .active) :
    entriesJoined k u = { u with le := { u.le with dryTimer := none } } := by
  rw [entriesJoined, state]

/-- The state in which the entries have joined, the job CLOSED or not, its dry wait ended (R33, R63). -/
abbrev joinedTo (s : State) (k : SlotId) (es : List Entry) (close : Bool) : State :=
  { withJob s k { s.job k with chain := grownChain s k es, queued := (s.job k).queued + es.length, closed := close } with
    sp := poolTook s (s.job k).owner (newSegments es.length (s.job k).chain)
    le := { s.le with dryTimer := if (s.job k).state = .active then none else s.le.dryTimer } }

theorem joinedTo_job (s : State) (k : SlotId) (es : List Entry) (close : Bool) : (joinedTo s k es close).job k =
    { s.job k with chain := grownChain s k es, queued := (s.job k).queued + es.length, closed := close } := upd_same ..

theorem joinedTo_other {close : Bool} (other : z ≠ k) : (joinedTo s k es close).job z = s.job z := upd_ne _ _ (Ne.symm other)

theorem joinedTo_head {close : Bool} : headEntry (joinedTo s k es close) k = headEntry (grown s k es) k := by
  rw [headEntry, joinedTo_job, headEntry, grown_job]

/-- The entries join, and the job stays as it is: it does not become READY. -/
theorem entriesJoined_stays (opened : (s.job k).closed = false)
    (state : (s.job k).state = .ready ∨ (s.job k).state = .suspended ∨ (s.job k).state = .active ∨
      ((s.job k).state = .filling ∨ (s.job k).state = .starved) ∧
        ((s.job k).stream = false ∨ (s.job k).queued + es.length < s.su.settings.startThreshold)) :
    entriesJoined k (appendEntries k es s) = joinedTo s k es false := by
  have record : { s.job k with chain := grownChain s k es, queued := (s.job k).queued + es.length, closed := false } =
      { s.job k with chain := grownChain s k es, queued := (s.job k).queued + es.length } := by rw [← opened]
  rw [appendEntries_grown, joinedTo, record]
  by_cases active : (s.job k).state = .active
  · rw [entriesJoined_active (by rw [grown_job]; exact active), if_pos active]
  · rw [entriesJoined_waits (by rw [grown_job]; tauto), if_neg active]

/-- With CLOSE_AFTER the job is then only marked CLOSED. -/
theorem appendActed_joins (opened : (s.job k).closed = false) (close : Bool)
    (state : (s.job k).state = .ready ∨ (s.job k).state = .suspended ∨ (s.job k).state = .active ∨
      ((s.job k).state = .filling ∨ (s.job k).state = .starved) ∧
        ((s.job k).stream = false ∨ (s.job k).queued + es.length < s.su.settings.startThreshold))
    (room : newSegments es.length (s.job k).chain ≤ s.sp.free.length)
    (closing : close = true → (s.job k).state = .suspended ∨
      (s.job k).state = .ready ∧ ((s.job k).queued + es.length ≠ 0 ∨ (s.job k).begun = true) ∨
        (s.job k).state = .active ∧ s.du.active = some k ∧
          ((s.job k).chain = [] ∧ es ≠ [] ∨ headEntry s k ≠ none ∨ entryOffered s k = true)) :
    appendActed k es close s = joinedTo s k es close := by
  rw [appendActed, entriesJoined_stays opened state]
  cases close with
  | false => rfl
  | true =>
    rw [if_pos rfl, closeJob_onlyMarks]
    · rw [closedJob, joinedTo_job]
      simp only [withJob, joinedTo, upd_upd]
    · rw [joinedTo_job]
      rcases closing rfl with q | ⟨q, used⟩ | ⟨q, active, going⟩
      · exact .inl q
      · refine .inr (.inl ⟨q, fun ⟨none', unbegun⟩ => ?_⟩)
        rcases used with more | begun
        · exact more none'
        · rw [begun] at unbegun
          cases unbegun
      · refine .inr (.inr ⟨q, active, ?_⟩)
        rw [joinedTo_head]
        rcases going with ⟨dry, some'⟩ | head | offered'
        · refine .inl ?_
          rw [headEntry_fresh dry room]
          exact fun nothing => some' (List.head?_eq_none_iff.mp nothing)
        · obtain ⟨e, head⟩ := Option.ne_none_iff_exists'.mp head
          refine .inl ?_
          rw [headEntry_grown head]
          nofun
        · exact .inr offered'

/-! ## The link behind -/

/-- The link waits on for entries that join behind what it waits for (R79, R88). -/
theorem joinedTo_done {close : Bool} (waiting : s.le.link = .waiting) (done : nothingToDo s)
    (room : newSegments es.length (s.job k).chain ≤ s.sp.free.length)
    (held : headEntry s k ≠ none ∨ (s.job k).chain = [] ∧ es.head? ≠ some .brk) : nothingToDo (joinedTo s k es close) := by
  have here : ∀ x, x ≠ k → headEntry (joinedTo s k es close) x = headEntry s x := fun x other => by
    rw [headEntry, joinedTo_other other, headEntry]
  rcases done with ⟨-, no⟩ | ⟨idle, -⟩ | ⟨-, rreq, noBreak, work, off, stalled⟩
  · exact absurd waiting no
  · rw [waiting] at idle
    cases idle
  have same : s.du.active ≠ some k ∨ headEntry s k ≠ none → activeHead (joinedTo s k es close) = activeHead s := by
    intro known
    rw [activeHead, activeHead]
    cases active : s.du.active with
    | none => rfl
    | some x =>
      by_cases there : x = k
      · subst there
        obtain ⟨e, head⟩ := Option.ne_none_iff_exists'.mp (known.resolve_left fun no => no active)
        simp only [joinedTo_head, headEntry_grown head, head]
      · simp only [here x there]
  by_cases known : s.du.active ≠ some k ∨ headEntry s k ≠ none
  · refine .inr (.inr ⟨waiting, rreq, ?_, ?_, off, stalled⟩)
    · rw [same known]
      exact noBreak
    · rw [forwardWork, same known]
      exact work
  · obtain ⟨active, headless⟩ := not_or.mp known
    obtain ⟨dry, noBrk⟩ := held.resolve_left headless
    have active := not_not.mp active
    have before : activeHead s = none := activeHead_of_dry active dry
    rw [forwardWork, before, Option.isSome_none, Bool.or_false] at work
    refine .inr (.inr ⟨waiting, rreq, fun x brk => ?_, ?_, off, stalled⟩)
    · rw [activeHead, show (joinedTo s k es close).du.active = some k from active] at brk
      simp only [joinedTo_head, headEntry_fresh dry room] at brk
      obtain ⟨e, first, pair⟩ := Option.map_eq_some_iff.mp brk
      obtain ⟨-, rfl⟩ := Prod.mk.inj pair
      exact noBrk first
    · rw [forwardWork]
      exact Bool.or_eq_true_iff.mpr (.inl work)

/-- Settles O18: the entries join behind a link that has nothing to do about it, or CLOSE_AFTER alone ends an unused job. -/
theorem appendJoinsTheChain : Obligations.AppendJoinsTheChain := by
  intro s h hd kind flags bytes k es j port own legal opened
  have owner : (s.job k).owner = h := own.2.2.2.1
  refine ⟨fun state closing room quiet => ?_, fun flag none' state empty unbegun dry few quiet => ?_⟩
  · have acted := appendActed_joins opened (flags.getLsbD 1) state room.2 closing
    have still : boundaryWork (joinedTo s k es (flags.getLsbD 1)) = joinedTo s k es (flags.getLsbD 1) := by
      rcases quiet with quiet | ⟨waiting, done, held⟩
      · exact boundaryWork_undisturbed quiet rfl rfl rfl rfl rfl rfl fun z other => by rw [joinedTo_other other]
      · exact boundaryWork_of_nothingToDo (joinedTo_done waiting done room.2 held)
    have live : j.state ≠ .cancelling ∧ j.state ≠ .awaitReply ∧ j.state ≠ .ended := by
      rcases state with q | q | q | ⟨q | q, -⟩ <;> rw [show j.state = _ from q] <;> decide
    obtain ⟨t, run, answered, rest⟩ := serve_appended port (judgeAppend_answers own legal opened live room acted still) rfl
    rw [joinedTo_job] at answered
    have chain : (t.job k).chain = grownChain s k es := by
      rw [rest]
      exact congrArg Job.chain (joinedTo_job ..)
    refine ⟨t, run, answered, chainGrew_of room.2 chain, ?_⟩
    rw [chain]
    rw [joinedTo, owner] at rest
    exact rest
  · have nothing : appended kind flags bytes = [] := by
      rw [flag, none', appended, List.map_nil, List.nil_append]
      exact if_neg (by decide)
    have off : flags.getLsbD 1 = true := by
      rw [flag]
      decide
    have stays : (s.job k).state = .ready ∨ (s.job k).state = .suspended ∨
        ((s.job k).state = .filling ∨ (s.job k).state = .starved) ∧
          ((s.job k).stream = false ∨ (s.job k).queued < s.su.settings.startThreshold) := by
      have few' : j.stream = false ∨ j.queued < s.su.settings.startThreshold :=
        few.imp_right fun above => by rw [empty]; exact Nat.pos_of_ne_zero above
      rcases state with q | q | q
      · exact .inr (.inr ⟨.inl q, few'⟩)
      · exact .inr (.inr ⟨.inr q, few'⟩)
      · exact .inl q
    obtain ⟨u, closes, still, job, posted, aborted, frame⟩ := closeJob_unused own.2.2.2.2 state ⟨empty, unbegun⟩ dry quiet
    have acted : appendActed k (appended kind flags bytes) (flags.getLsbD 1) s = u := by
      rw [nothing, off, appendActed, appendEntries_grown, grown_nothing dry, entriesJoined_waits stays]
      exact closes
    have none'' : newSegments (appended kind flags bytes).length (s.job k).chain = 0 := by
      rw [nothing, show (s.job k).chain = [] from dry]
      rfl
    have live : j.state ≠ .cancelling ∧ j.state ≠ .awaitReply ∧ j.state ≠ .ended := by
      rcases state with q | q | q <;> rw [show j.state = _ from q] <;> decide
    have judged := judgeAppend_answers own legal opened live
      ⟨by rw [none'']; exact Nat.zero_le _, by rw [none'']; exact Nat.zero_le _⟩ acted still
    obtain ⟨t, run, answered, rest⟩ := serve_appended port judged (by rw [frame])
    rw [job] at answered
    rw [owner] at posted
    have eus : t.eus = u.eus := by rw [rest]
    have sp : t.sp = u.sp := by rw [rest]
    have rr : t.rr = u.rr := by rw [rest]
    refine ⟨t, run, answered, fun x => ?_, posted.later eus sp (by rw [rest]), ?_⟩
    · rw [State.route, rr]
      exact aborted x
    · rw [eus, sp, rr]
      exact rest.trans (congrArg (fun v => { v with ports := t.ports }) frame)

end Sys2Proof.Machine
end

section
/-! SUPPORT. APPEND that makes its job READY (R11, R12, R33, R44). -/

namespace Sys2Proof.Machine

variable {s t u v : State} {h : HostId} {hd flags kd b : Byte} {bytes : List Byte} {a k m z : SlotId} {n : Successor} {r : Response}
  {j : Job} {es : List Entry} {e : Entry} {close : Bool}

/-! ## CLOSED and the decisions go past each other -/

/-- The job in slot `k` marked CLOSED. -/
abbrev closing (s : State) (k : SlotId) : State := withJob s k (closedJob s k)

theorem closing_job (s : State) (k z : SlotId) : (closing s k).job z = if k = z then closedJob s z else s.job z := by
  rw [withJob_job]
  split
  · next here => rw [here]
  · rfl

/-- Two changes of one record each, in either order. -/
theorem upd_comm_map {n : Nat} (v : Vector Job n) (f g : Job → Job) (comm : ∀ x, f (g x) = g (f x)) (i l : Fin n) :
    upd (upd v i (f v[i])) l (g (upd v i (f v[i]))[l]) = upd (upd v l (g v[l])) i (f (upd v l (g v[l]))[i]) := by
  by_cases here : i = l
  · subst here
    rw [upd_same, upd_same, upd_upd, upd_upd, comm]
  · rw [upd_ne _ _ here, upd_ne _ _ (Ne.symm here)]
    exact Vector.ext fun q bound => by
      have left : ∀ w : Vector Job n, w[q] = w[(⟨q, bound⟩ : Fin n)] := fun _ => rfl
      rw [left, left, upd_get, upd_get, upd_get, upd_get]
      by_cases x : i = ⟨q, bound⟩
      · rw [if_pos x, if_neg fun y => here (x.trans y.symm), if_pos x]
      · rw [if_neg x, if_neg x]

theorem closing_takesLink (s : State) (k m : SlotId) : closing (takesLink s m) k = takesLink (closing s k) m := by
  have jobs := upd_comm_map s.jm.jobs (fun j => { j with state := .active, turn := 0, readySeq := none })
    (fun j => { j with closed := true }) (fun _ => rfl) m k
  have owner : ((closing s k).job m).owner = (s.job m).owner := by
    rw [closing_job]
    split <;> rfl
  exact (congrArg (fun v => { takesLink s m with jm := { s.jm with jobs := v } }) jobs).trans
    (congrArg (fun x => { takesLink (closing s k) m with du := { (takesLink s m).du with rotation := x } }) owner.symm)

theorem closing_resumes (s : State) (k m : SlotId) : closing (resumes s m) k = resumes (closing s k) m :=
  congrArg (fun v => { resumes s m with jm := { s.jm with jobs := v } })
    (upd_comm_map s.jm.jobs (fun j => { j with state := .active, turn := 0 }) (fun j => { j with closed := true }) (fun _ => rfl) m k)

theorem closing_suspends (s : State) (k a : SlotId) : closing (suspends s a) k = suspends (closing s k) a :=
  congrArg (fun v => { suspends s a with jm := { s.jm with jobs := v } })
    (upd_comm_map s.jm.jobs (fun j => { j with state := .suspended }) (fun j => { j with closed := true }) (fun _ => rfl) a k)

theorem closing_responded (s : State) (k : SlotId) (r : Response) : closing (responded s r) k = responded (closing s k) r := by
  cases r with
  | waits => rfl
  | selected m => exact closing_takesLink s k m
  | preempts a m =>
    refine (closing_takesLink (suspends s a) k m).trans ?_
    rw [closing_suspends]
  | decides n =>
    cases n with
    | nobody => rfl
    | selected m => exact closing_takesLink (decided s) k m
    | resumed z => exact closing_resumes (decided s) k z

/-! ## The job becomes READY -/

/-- The job's record with the entries at the tail of its chain, CLOSED or not. -/
abbrev grownJob (s : State) (k : SlotId) (es : List Entry) (close : Bool) : Job :=
  { s.job k with chain := grownChain s k es, queued := (s.job k).queued + es.length, closed := close }

/-- The state with the segments the entries took. -/
abbrev tookFor (s : State) (k : SlotId) (es : List Entry) : State :=
  { s with sp := poolTook s (s.job k).owner (newSegments es.length (s.job k).chain) }

/-- The entries have joined the chain of the job, and the job the ready set (R11, R12, R47). -/
abbrev joinsGrown (s : State) (k : SlotId) (es : List Entry) (close : Bool) : State :=
  joins (tookFor s k es) k (grownJob s k es close)

theorem joinsGrown_other (other : z ≠ k) : (joinsGrown s k es close).job z = s.job z := upd_ne _ _ (Ne.symm other)

theorem joinsGrown_head : headEntry (joinsGrown s k es close) k = headEntry (grown s k es) k := by
  rw [headEntry, headEntry, grown_job, joins_job, if_pos rfl]

theorem joinsGrown_channel (z : SlotId) : ((joinsGrown s k es close).job z).channel = (s.job z).channel :=
  joins_channel (s := tookFor s k es) (j := grownJob s k es close) rfl z

/-- DU answers the same whether the job is CLOSED, and whatever its chain. -/
theorem answersTo_grown {p : Vector Port 4} {c : List Segment} {q : Bool} {need : Nat} {x : HostId} {prompts : Prop}
    (answers : answersTo (joins { s with ports := p, sp := poolTook s x need } k
      { s.job k with chain := c, queued := (s.job k).queued + es.length, closed := q }) k prompts r) (close : Bool) :
    answersTo (joinsGrown s k es close) k prompts r := by
  have same : sameRecords (joins { s with ports := p, sp := poolTook s x need } k
      { s.job k with chain := c, queued := (s.job k).queued + es.length, closed := q }) (joinsGrown s k es close) := fun z => by
    rw [joins_job, joins_job]
    split <;> exact ⟨rfl, rfl, rfl, rfl⟩
  exact ⟨answers.1, answers.2.imp_left fun ⟨prompts, responds⟩ =>
    ⟨prompts, respondsWith_of_records same rfl rfl rfl rfl responds⟩⟩

/-- CLOSE_AFTER marks a job that has just become READY, whether DU has given it the link or not. -/
theorem closeJob_joined (used : (s.job k).queued + es.length ≠ 0 ∨ (s.job k).begun = true)
    (answers : answersTo (joinsGrown s k es false) k ((s.job k).priority ≠ 0) r)
    (heads : ∀ z, r.holder = some z → headEntry (joinsGrown s k es false) z ≠ none) :
    closeJob k (responded (joinsGrown s k es false) r) = responded (joinsGrown s k es true) r := by
  have joined : (joinsGrown s k es false).job k = { grownJob s k es false with
      state := .ready, readySeq := some s.jm.nextSeq, seqTaken := some s.jm.nextSeq } := upd_same ..
  have state := responded_state answers (congrArg Job.state joined)
  have hands := responded_handsOn (joinsGrown s k es false) r
  have queued := congrArg Job.queued (hands.job k)
  have begun := congrArg Job.begun (hands.job k)
  rw [joined] at queued begun
  rw [closeJob_onlyMarks]
  · rw [show withJob (responded (joinsGrown s k es false) r) k (closedJob (responded (joinsGrown s k es false) r) k) =
      closing (responded (joinsGrown s k es false) r) k from rfl, closing_responded, closing, closedJob, joined]
    simp only [withJob, upd_upd]
  · by_cases holder : r.holder = some k
    · rw [if_pos holder] at state
      refine .inr (.inr ⟨state, responded_holder holder, .inl ?_⟩)
      rw [hands.headEntry]
      exact heads k holder
    · rw [if_neg holder] at state
      refine .inr (.inl ⟨state, fun ⟨none', unbegun⟩ => ?_⟩)
      rcases used with more | sent
      · exact more (queued.symm.trans none')
      · exact Bool.false_ne_true (unbegun.symm.trans (begun.trans sent))

/-- An accepted APPEND that makes its job READY: DU answers, whether START_THRESHOLD or CLOSE_AFTER made it so (R11, R13, R33). -/
theorem appendActed_readies (opened : (s.job k).closed = false)
    (state : (s.job k).state = .filling ∨ (s.job k).state = .starved)
    (reaches : close = true ∨ (s.job k).stream = true ∧ s.su.settings.startThreshold ≤ (s.job k).queued + es.length)
    (used : (s.job k).queued + es.length ≠ 0 ∨ (s.job k).begun = true)
    (answers : ∀ close, answersTo (joinsGrown s k es close) k ((s.job k).priority ≠ 0) r)
    (heads : ∀ close, ∀ z, r.holder = some z → headEntry (joinsGrown s k es close) z ≠ none) :
    appendActed k es close s = responded (joinsGrown s k es close) r := by
  have readies : ∀ q, enterReady k (withJob (tookFor s k es) k (grownJob s k es q)) = responded (joinsGrown s k es q) r := fun q =>
    enterReady_responded (answers q) (heads q)
  have record : grown s k es = withJob (tookFor s k es) k (grownJob s k es false) := by
    rw [grownJob, ← opened]
  have joined : (grown s k es).job k = grownJob s k es false := by
    rw [record]
    exact upd_same ..
  have unused : ¬ ((grownJob s k es false).queued = 0 ∧ (grownJob s k es false).begun = false) := fun ⟨none', unbegun⟩ => by
    rcases used with more | begun
    · exact more none'
    · exact Bool.false_ne_true (unbegun.symm.trans begun)
  rw [appendActed, appendEntries_grown]
  by_cases reached : (s.job k).stream = true ∧ s.su.settings.startThreshold ≤ (s.job k).queued + es.length
  · have joins' : entriesJoined k (grown s k es) = responded (joinsGrown s k es false) r := by
      have pass : ((grownJob s k es false).stream &&
          decide (s.su.settings.startThreshold ≤ (grownJob s k es false).queued)) = true := by
        rw [Bool.and_eq_true, decide_eq_true_eq]
        exact reached
      rw [entriesJoined, joined, ← readies, ← record]
      rcases state with q | q <;> rw [show (grownJob s k es false).state = _ from q] <;> exact if_pos pass
    rw [joins']
    cases close with
    | false => rfl
    | true => exact closeJob_joined used (answers false) (heads false)
  · obtain rfl := reaches.resolve_right reached
    have few : (s.job k).stream = false ∨ (s.job k).queued + es.length < s.su.settings.startThreshold := by
      by_cases stream : (s.job k).stream = true
      · exact .inr (Nat.lt_of_not_le fun below => reached ⟨stream, below⟩)
      · exact .inl (Bool.eq_false_iff.mpr stream)
    have waits : entriesJoined k (grown s k es) = grown s k es :=
      entriesJoined_waits (.inr (.inr (by rw [joined]; exact ⟨state, few⟩)))
    have again : withJob (grown s k es) k (closedJob (grown s k es) k) = withJob (tookFor s k es) k (grownJob s k es true) := by
      rw [closedJob, joined, record]
      simp only [withJob, upd_upd]
    rw [waits, if_pos rfl, closeJob_readies (by rw [joined]; exact unused) (by rw [joined]; exact state), again]
    exact readies true

/-- The job given the link has an entry to send, if only one that has just come. -/
theorem joinsGrown_heads (room : newSegments es.length (s.job k).chain ≤ s.sp.free.length)
    (heads : ∀ z, r.holder = some z → headEntry s z ≠ none ∨ z = k ∧ (s.job k).chain = [] ∧ es ≠ []) (close : Bool) (z : SlotId)
    (holder : r.holder = some z) : headEntry (joinsGrown s k es close) z ≠ none := by
  by_cases here : z = k
  · subst here
    rw [joinsGrown_head]
    rcases heads z holder with head | ⟨-, dry, some'⟩
    · obtain ⟨e, head⟩ := Option.ne_none_iff_exists'.mp head
      rw [headEntry_grown head]
      nofun
    · rw [headEntry_fresh dry room]
      exact fun nothing => some' (List.head?_eq_none_iff.mp nothing)
  · rw [headEntry, joinsGrown_other here]
    exact (heads z holder).resolve_right fun there => here there.1

/-- The first entry of an APPEND with bytes is the entry of its first byte. -/
theorem appended_head (kd flags b : Byte) (bytes : List Byte) :
    (appended kd flags (b :: bytes)).head? = some (entryOf (if kd = 0x01#8 then .control else .data) b) := by
  rw [appended, List.map_cons, List.cons_append, List.head?_cons]
  split <;> rfl

/-- A job that is not the active one takes its entries without disturbing the link. -/
theorem joinsGrown_done (other : s.du.active ≠ some k) (done : nothingToDo s) : nothingToDo (joinsGrown s k es close) :=
  nothingToDo_of_same (s := s) rfl rfl rfl rfl rfl
    (activeHead_of_same (s := s) (t := joinsGrown s k es close) rfl fun x is => by
      rw [joinsGrown_other fun e => other (by rw [is, e])]) done

section
variable (port : taking s h) (own : ownHandle s h hd k) (legal : appendLegal kd flags bytes) (opened : (s.job k).closed = false)
  (state : (s.job k).state = .filling ∨ (s.job k).state = .starved)
  (room : appendHasRoom s h k (appended kd flags bytes).length)
  (acted : appendActed k (appended kd flags bytes) (flags.getLsbD 1) s =
    responded (joinsGrown s k (appended kd flags bytes) (flags.getLsbD 1)) r)
  (answers : answersTo (joinsGrown s k (appended kd flags bytes) (flags.getLsbD 1)) k ((s.job k).priority ≠ 0) r)
include port own legal opened state room acted answers

/-- The answer to an APPEND that made its job READY, once the work of the link is known. -/
theorem append_readies (works : boundaryWork (responded (joinsGrown s k (appended kd flags bytes) (flags.getLsbD 1)) r) = v)
    (jobs : v.jm.jobs = (responded (joinsGrown s k (appended kd flags bytes) (flags.getLsbD 1)) r).jm.jobs) (ports : v.ports = s.ports) :
    ∃ t, exec (.append h hd kd flags bytes) s = .next t ∧
      (answeredWith s t h .ok ((if r.holder = some k then 0x03#8 else 0x02#8) ::
        (big16 ((s.job k).queued + (appended kd flags bytes).length) ++ big16 (allowance t h))) ∧
        chainGrew s t k (appended kd flags bytes)) ∧
      (t.job k).chain = grownChain s k (appended kd flags bytes) ∧ t = { v with ports := t.ports } := by
  have live : (s.job k).state ≠ .cancelling ∧ (s.job k).state ≠ .awaitReply ∧ (s.job k).state ≠ .ended := by
    rcases state with q | q <;> rw [q] <;> decide
  obtain ⟨t, run, answered, rest⟩ := serve_appended port (judgeAppend_answers own legal opened live room acted works) ports
  have hands := (responded_handsOn (joinsGrown s k (appended kd flags bytes) (flags.getLsbD 1)) r).job k
  have job : v.job k = (responded (joinsGrown s k (appended kd flags bytes) (flags.getLsbD 1)) r).job k := by
    rw [State.job, jobs, State.job]
  have joined : (joinsGrown s k (appended kd flags bytes) (flags.getLsbD 1)).job k =
      { grownJob s k (appended kd flags bytes) (flags.getLsbD 1) with
        state := .ready, readySeq := some s.jm.nextSeq, seqTaken := some s.jm.nextSeq } := upd_same ..
  have queued := congrArg Job.queued hands
  have chain := congrArg Job.chain hands
  rw [joined] at queued chain
  have byte := responded_state answers (congrArg Job.state joined)
  rw [job, byte, queued, jobStateByte_answered] at answered
  have chain' : (t.job k).chain = grownChain s k (appended kd flags bytes) := by
    rw [rest]
    change (v.job k).chain = _
    rw [job, chain]
  exact ⟨t, run, ⟨answered, chainGrew_of room.2 chain'⟩, chain', rest⟩

end

/-- Settles O19: DU's answer to the job that has become READY, and the link behind it. -/
theorem appendMakesItsJobReady : Obligations.AppendMakesItsJobReady := by
  intro s h hd kind flags bytes k r es j c port own legal opened state reaches used room joined answered answers
  have owner : (s.job k).owner = h := own.2.2.2.1
  have answers' := answersTo_grown answers
  refine ⟨fun still heads => ?_, fun m holder head idle done forward elsewhere => ?_⟩
  · have acted := appendActed_readies opened state reaches used answers' (joinsGrown_heads room.2 heads)
    have works := boundaryWork_responded_still (u := joinsGrown s k es (flags.getLsbD 1))
      (still.imp_right fun ⟨nobody, done⟩ => ⟨nobody, joinsGrown_done answers.1 done⟩)
    obtain ⟨t, run, told, chain, rest⟩ := append_readies port own legal opened state room acted (answers' _) works rfl
      (by rw [(responded_handsOn _ r).rest])
    refine ⟨t, run, told, ?_⟩
    rw [responded_ports, joinsGrown, tookFor, owner] at rest
    change t = responded (joins _ k { s.job k with
      chain := (t.job k).chain, queued := (s.job k).queued + es.length, closed := flags.getLsbD 1 }) r
    rw [chain]
    exact rest
  · have sends : ∃ kd b, headEntry (joinsGrown s k es (flags.getLsbD 1)) m = some (entryOf kd b) := by
      by_cases here : m = k
      · subst here
        rw [joinsGrown_head]
        rcases head with ⟨-, dry, some'⟩ | ⟨kd, b, head⟩
        · obtain ⟨b, bs, rfl⟩ := List.exists_cons_of_ne_nil some'
          exact ⟨_, b, (headEntry_fresh dry room.2).trans (appended_head kind flags b bs)⟩
        · exact ⟨kd, b, headEntry_grown head⟩
      · obtain ⟨kd, b, head⟩ := head.resolve_left fun there => here there.1
        exact ⟨kd, b, by rw [headEntry, joinsGrown_other here]; exact head⟩
    have heads : ∀ z, r.holder = some z → headEntry s z ≠ none ∨ z = k ∧ (s.job k).chain = [] ∧ es ≠ [] := fun z is => by
      obtain rfl := Option.some.inj (holder.symm.trans is)
      rcases head with ⟨here, dry, some'⟩ | ⟨kd, b, head⟩
      · refine .inr ⟨here, dry, fun nothing => ?_⟩
        obtain ⟨b, bs, rfl⟩ := List.exists_cons_of_ne_nil some'
        have first := appended_head kind flags b bs
        rw [show appended kind flags (b :: bs) = [] from nothing] at first
        cases first
      · rw [head]
        exact .inl nofun
    have acted := appendActed_readies opened state reaches used answers' (joinsGrown_heads room.2 heads)
    obtain ⟨kd, b, sends⟩ := sends
    have works := boundaryWork_selects (responded_handsOn (joinsGrown s k es (flags.getLsbD 1)) r) (responded_holder holder) idle
      (joinsGrown_done answers.1 done) forward sends (by rw [joinsGrown_channel]; exact elsewhere)
    rw [joinsGrown_channel] at works
    obtain ⟨t, run, told, chain, rest⟩ := append_readies port own legal opened state room acted (answers' _) works rfl
      (by rw [(responded_handsOn _ r).rest])
    have rest' := rest.trans (congrArg (selectOffered · (s.job m).channel) (responded_ports _ r t.ports))
    refine ⟨t, run, told, ?_⟩
    rw [joinsGrown, tookFor, owner] at rest'
    change t = selectOffered (responded (joins _ k { s.job k with
      chain := (t.job k).chain, queued := (s.job k).queued + es.length, closed := flags.getLsbD 1 }) r) _
    rw [chain]
    exact rest'

end Sys2Proof.Machine
end

section
/-! SUPPORT. APPEND in a dry wait (R26, R63, R77, R84). -/

namespace Sys2Proof.Machine

variable {s t u v : State} {h : HostId} {hd flags kd b : Byte} {bytes : List Byte} {k : SlotId} {es : List Entry} {e : Entry}
  {close : Bool} {kind : ByteKind}

/-! ## A fresh chain and its head -/

/-- Into an absent chain the entries go by segments of 32 (R25). -/
theorem grownChain_fresh (dry : (s.job k).chain = []) :
    grownChain s k es = writeFresh (s.sp.free.take (newSegments es.length [])) es := by
  rw [grownChain, dry]
  rfl

/-- Its first segment, which stands at the head of the free list. -/
theorem grownChain_first (dry : (s.job k).chain = []) (some' : es ≠ []) (room : newSegments es.length (s.job k).chain ≤ s.sp.free.length) :
    ∃ i free gs, s.sp.free = i :: free ∧ grownChain s k es = { id := i, taken := 0, entries := es.take 32 } :: gs ∧
      (es.length = 1 → gs = []) := by
  have many := List.length_pos_iff.mpr some'
  rw [dry] at room
  have need : 1 ≤ newSegments es.length [] := by
    change 1 ≤ (es.length - 0 + 31) / 32
    omega
  rw [grownChain_fresh dry]
  cases list : s.sp.free with
  | nil =>
    rw [list, List.length_nil] at room
    omega
  | cons i free =>
    obtain ⟨q, more⟩ : ∃ q, newSegments es.length [] = q + 1 := ⟨_, (Nat.sub_add_cancel need).symm⟩
    refine ⟨i, free, writeFresh (free.take q) (es.drop 32), rfl, ?_, fun one => ?_⟩
    · rw [more, List.take_succ_cons]
      rfl
    · have q0 : q = 0 := by
        have count : newSegments es.length [] = (es.length - 0 + 31) / 32 := rfl
        omega
      rw [q0]
      rfl

/-- The head entry of a job whose entries have just come, taken: the rest of them stand in its chain, and the segment of an entry
that came alone returns to the free list (R26, R27). -/
theorem headTaken_fresh (dry : (s.job k).chain = []) (some' : es ≠ []) (room : newSegments es.length (s.job k).chain ≤ s.sp.free.length)
    (taken : headTaken (joinedTo s k es close) t k fun _ => []) :
    chainList (t.job k).chain = es.tail ∧
      (1 < es.length → t.eus = s.eus ∧ t.sp = poolTook s (s.job k).owner (newSegments es.length [])) ∧
      (es.length = 1 → (postedAheadOfSpace s t fun _ => []) ∧ t.sp = { s.sp with marks := t.sp.marks }) := by
  obtain ⟨i, free, gs, list, first, alone⟩ := grownChain_first dry some' room
  have entries : chainList (grownChain s k es) = es := by
    have grew := (chainGrew_of (t := grown s k es) room (by rw [grown_job])).1
    rw [grown_job, dry] at grew
    exact grew
  have chain : ((joinedTo s k es close).job k).chain = { id := i, taken := 0, entries := es.take 32 } :: gs := by
    rw [joinedTo_job]
    exact first
  obtain ⟨more, last⟩ := taken _ _ chain
  have count : (es.take 32).length = min 32 es.length := List.length_take
  dsimp only at more last
  rw [count] at more last
  rw [first, chainList, List.map_cons, List.flatten_cons] at entries
  have many := List.length_pos_iff.mpr some'
  by_cases one : es.length = 1
  · obtain ⟨rest, pool, units⟩ := last (by omega)
    refine ⟨?_, fun no => by omega, fun _ => ⟨fun x => ?_, ?_⟩⟩
    · obtain ⟨e, rfl⟩ := List.length_eq_one_iff.mp one
      rw [rest, alone rfl]
      rfl
    · obtain ⟨unit, mark⟩ := units x
      rw [List.append_nil] at unit
      exact ⟨unit, mark⟩
    · rw [pool, joinedTo_job]
      have need : newSegments es.length (s.job k).chain = 1 := by
        rw [dry, one]
        rfl
      simp only [need, list, List.drop_succ_cons, List.drop_zero, State.used, upd_same, upd_upd, Nat.add_sub_cancel, upd_self]
  · obtain ⟨rest, pool, units⟩ := more (by omega)
    refine ⟨?_, fun _ => ⟨Vector.ext fun i bound => units ⟨i, bound⟩, ?_⟩, fun no => absurd no one⟩
    · obtain ⟨e, es', rfl⟩ := List.exists_cons_of_ne_nil some'
      rw [rest, chainList, List.map_cons, List.flatten_cons]
      rw [List.take_succ_cons, List.cons_append] at entries
      exact List.cons.inj entries |>.2
    · rw [pool, ← dry]

/-- The first of the entries that have just come, taken. -/
theorem entryTaken_joined {w : Vector EventUnit 4} {p : SegmentPool} {c : List Segment} :
    entryTaken (joinedTo s k es close) k w p c = { s with
      eus := w, sp := p
      jm := { s.jm with
        jobs := upd s.jm.jobs k
          { s.job k with chain := c, queued := (s.job k).queued + es.length - 1, begun := true, closed := close } }
      du := { s.du with claims := if (s.job k).begun then s.du.claims else upd s.du.claims (s.job k).channel (some k) }
      le := { s.le with dryTimer := if (s.job k).state = .active then none else s.le.dryTimer } } := by
  simp only [entryTaken, joinedTo_job, upd_upd]

/-- Settles O20: the wait ends, and the order of work takes the first byte or offers the job's SELECT. -/
theorem appendInADryWaitIsOffered : Obligations.AppendInADryWaitIsOffered := by
  intro s h hd kd flags b bytes k es j offeredKind port own legal notClosing opened state active dry room idle list forward
  have owner : (s.job k).owner = h := own.2.2.2.1
  have some' : es ≠ [] := fun nothing => by
    have first := appended_head kd flags b bytes
    rw [show appended kd flags (b :: bytes) = [] from nothing] at first
    cases first
  have acted := appendActed_joins (es := es) opened (flags.getLsbD 1) (.inr (.inr (.inl state))) room.2
    (by rw [notClosing]; nofun)
  rw [notClosing] at acted
  have live : j.state ≠ .cancelling ∧ j.state ≠ .awaitReply ∧ j.state ≠ .ended := by
    rw [show j.state = _ from state]
    decide
  have job := joinedTo_job s k es false
  have head : headEntry (joinedTo s k es false) k = some (entryOf offeredKind b) := by
    rw [joinedTo_head, headEntry_fresh dry room.2]
    exact appended_head kd flags b bytes
  have channel : ((joinedTo s k es false).job k).channel = j.channel := by rw [job]
  have wait : { s.le with dryTimer := if (s.job k).state = .active then none else s.le.dryTimer } = { s.le with dryTimer := none } := by
    rw [if_pos state]
  have acted' : appendActed k es (flags.getLsbD 1) s = joinedTo s k es false := by rw [notClosing]; exact acted
  refine ⟨fun current => ?_, fun elsewhere => ?_⟩
  · obtain ⟨v, works, taken, frame⟩ := applyOrder_offersCalm (s := joinedTo s k es false) forward list active head
      (by rw [channel]; exact current)
    have done : boundaryWork (joinedTo s k es false) = v := (boundaryWork_at (s := joinedTo s k es false) (.inl idle)).trans works
    obtain ⟨left, some'', one⟩ := headTaken_fresh dry some' room.2 taken
    obtain ⟨t, run, answered, rest⟩ := serve_appended port (judgeAppend_answers own legal opened live room acted' done)
      (by rw [frame])
    have record : (v.job k).state = .active ∧ (v.job k).queued = j.queued + es.length - 1 := by
      rw [frame]
      refine ⟨(congrArg Job.state (upd_same ..)).trans ?_, (congrArg Job.queued (upd_same ..)).trans ?_⟩
      · rw [job]
        exact state
      · rw [job]
    rw [record.1, record.2] at answered
    have shape := rest.trans (congrArg (fun v => { v with ports := t.ports }) frame)
    rw [entryTaken_joined, wait, ← opened] at shape
    have eus : t.eus = v.eus := by rw [rest]
    have sp : t.sp = v.sp := by rw [rest]
    have chain : (t.job k).chain = (v.job k).chain := by rw [rest]; rfl
    rw [owner] at some''
    refine ⟨t, run, answered, ?_, fun many => ?_, fun alone => ?_, ?_⟩
    · rw [chain]
      exact left
    · rw [eus, sp]
      exact some'' many
    · rw [sp]
      exact ⟨(one alone).1.later eus sp (by rw [rest]), (one alone).2⟩
    · rw [eus, sp, chain]
      exact shape
  · have works : boundaryWork (joinedTo s k es false) = selectOffered (joinedTo s k es false) j.channel := by
      rw [boundaryWork_at (s := joinedTo s k es false) (.inl idle), applyOrder_selects (s := joinedTo s k es false) forward list
          active head (by rw [channel]; exact elsewhere), channel]
    obtain ⟨t, run, answered, rest⟩ := serve_appended port (judgeAppend_answers own legal opened live room acted' works) rfl
    have after : (selectOffered (joinedTo s k es false) j.channel).job k = grownJob s k es false := job
    rw [after, show (grownJob s k es false).state = .active from state] at answered
    have chain : (t.job k).chain = grownChain s k es := by
      rw [rest]
      exact congrArg Job.chain job
    refine ⟨t, run, answered, chainGrew_of room.2 chain, ?_⟩
    rw [chain]
    rw [joinedTo, wait, owner, ← opened] at rest
    rw [← dry]
    exact rest

end Sys2Proof.Machine
end

section
/-! SUPPORT. Break points and dry waits as the words of the statements give them, and a BREAK entry in the order of work (R54 to R57,
R62, R78, R86). -/

namespace Sys2Proof.Machine

variable {s t u v : State} {a k m z : SlotId} {n : Successor} {kind : ByteKind} {b : Byte} {f turn : Nat}

/-! ## Break points read what the other decisions read -/

section
variable (same : sameRecords s t) (du : t.du = s.du)
include same du

theorem urgent_of_records (link : t.le.link = s.le.link) (su : t.su = s.su) (a m : SlotId) : urgent t a m ↔ urgent s a m := by
  have priority := fun z => (same z).2.1
  simp only [urgent, recovering_of_link link, bestAdmissible_of_records same du (some a), priority, su, du]

theorem rival_of_records (a k : SlotId) : rival t a k ↔ rival s a k := by
  have state := fun z => (same z).1
  have priority := fun z => (same z).2.1
  have channel := fun z => (same z).2.2.1
  have owner := fun z => (same z).2.2.2
  have claim : ∀ c, t.claim c = s.claim c := fun c => by rw [State.claim, du, State.claim]
  simp only [rival, candidate, openTo, state, priority, channel, owner, claim, du]

theorem firstRival_of_records (a k : SlotId) : firstRival t a k ↔ firstRival s a k := by
  have owner := fun z => (same z).2.2.2
  simp only [firstRival, rival_of_records same du, owner, du]

theorem staysOn_of_records (link : t.le.link = s.le.link) (su : t.su = s.su) (a : SlotId) (turn : Nat) :
    staysOn t a turn ↔ staysOn s a turn := by
  simp only [staysOn, urgent_of_records same du link su, rival_of_records same du, spent, su]

end

theorem turnsAfter_inj (h x y : HostId) (same : turnsAfter h x = turnsAfter h y) : x = y := by
  revert h x y
  decide

/-- There is one first rival. -/
theorem firstRival_unique (first : firstRival s a k) (other : firstRival s a m) : k = m := by
  obtain ⟨rk, lk⟩ := first
  obtain ⟨rm, lm⟩ := other
  obtain ⟨turns, age⟩ := lk m rm
  obtain ⟨turns', age'⟩ := lm k rk
  have owner := turnsAfter_inj _ _ _ (le_antisymm turns turns')
  exact (List.idxOf_inj rk.1).mp (le_antisymm (age owner.symm) (age' owner))

theorem breakPoint_none_of_stays (stays : staysOn s a (s.job a).turn) : breakPoint s a = none := by
  cases up : recovering s with
  | true => exact breakPoint_recovering up
  | false => exact breakPoint_stays up stays

theorem breakPoint_firstRival (up : recovering s = false) (calm : ∀ k, ¬ urgent s a k) (done : spent s (s.job a).turn)
    (first : firstRival s a k) : breakPoint s a = some (yields s a k) := by
  obtain ⟨m, found, eq⟩ := breakPoint_yields up calm done ⟨k, first.1⟩
  rw [eq, firstRival_unique first found]

/-! ## A dry stream job -/

section
variable (active : s.du.active = some a) (dry : headEntry s a = none) (unoffered : entryOffered s a = false)
  (opened : (s.job a).closed = false) (stream : (s.job a).stream = true)
include active dry unoffered opened stream

theorem settled_drySteps : settled s = match breakPoint (startDryWait s) a with
    | none => startDryWait s
    | some v => settle (2 * s.du.ready.length + s.du.stack.length + 2) v := by
  rw [settled, settleFuel, settle, active]
  simp only [dry, unoffered, opened, stream, Option.isSome_none, Bool.or_self, Bool.false_eq_true, if_false, if_true] <;> rfl

/-- The dry wait starts where the break point changes nothing (R62). -/
theorem settled_waits (stays : breakPoint (startDryWait s) a = none) : settled s = startDryWait s := by
  rw [settled_drySteps active dry unoffered opened stream, stays]

/-- Where it gives the link to a job with an entry to send, that job has it. -/
theorem settled_changes (changes : breakPoint (startDryWait s) a = some v) (active' : v.du.active = some m)
    (head : headEntry v m ≠ none) : settled s = v := by
  rw [settled_drySteps active dry unoffered opened stream, changes]
  exact settle_of_head _ active' head

end

/-! ## A BREAK entry in the order of work -/

/-- A head that is no BREAK entry takes one application of the order. -/
theorem orderOfWork_noBreak (head : ∀ x, activeHead s ≠ some (x, .brk)) : orderOfWork (f + 1) s = applyOrder s := by
  rw [applyOrder, orderOfWork, orderOfWork]
  split
  · rfl
  · split
    · next x h => exact absurd h (head x)
    all_goals rfl

/-- A BREAK entry at the head is taken, and the order applied to what that leaves (R78 step 2). -/
theorem applyOrder_break (rreq : s.pins.rreq = false) (active : s.du.active = some a) (head : headEntry s a = some .brk)
    (taken : takeBreak a s = v) (next : ∀ x, activeHead v ≠ some (x, .brk)) : applyOrder s = applyOrder v := by
  have entry : activeHead s = some (a, .brk) := by
    rw [activeHead, active]
    simp only [head, Option.map_some]
  have more := takeHead_entries head
  rw [applyOrder, ← more, orderOfWork, rreq, entry, ← orderOfWork_noBreak (f := poolEntries (takeHead a s)) next, ← taken]
  rfl

end Sys2Proof.Machine
end

section
/-! SUPPORT. The acknowledgement of an entry (R54 to R57, R62, R74, R85, R86, R92, R132). -/

namespace Sys2Proof.Machine

variable {s t u v w : State} {a k m z : SlotId} {n : Successor} {kind : ByteKind} {b : Byte} {j : Job} {o : Offer} {x : Handle}
  {g : Segment} {gs : List Segment} {e : Entry} {es : List Entry}

/-! ## The counts rise -/

/-- The job's record with its sent and turn counts risen (R74, R85). -/
abbrev countedJob (j : Job) : Job := { j with sent := j.sent + 1, turn := if j.turn < 65535 then j.turn + 1 else j.turn }

/-- The acknowledgement has been counted for the job in slot `k`, its record then being `j`. -/
abbrev countedAs (s : State) (k : SlotId) (j : Job) : State := withJob (acknowledged s) k j

theorem countedAs_job (s : State) (k : SlotId) (j : Job) : (countedAs s k j).job k = j := upd_same ..

theorem countedAs_other (other : z ≠ k) : (countedAs s k j).job z = s.job z := upd_ne _ _ (Ne.symm other)

/-- The decisions read the same of a job that keeps state, priority, channel and owner. -/
theorem countedAs_records (state : j.state = (s.job k).state) (priority : j.priority = (s.job k).priority)
    (channel : j.channel = (s.job k).channel) (owner : j.owner = (s.job k).owner) : sameRecords s (countedAs s k j) := fun z => by
  rw [withJob_job]
  split
  · next here =>
    subst here
    exact ⟨state, priority, channel, owner⟩
  · exact ⟨rfl, rfl, rfl, rfl⟩

theorem entryAcknowledged_active (state : (s.job x.slot).state = .active) :
    entryAcknowledged x (acknowledged s) = settled (countedAs s x.slot (countedJob (s.job x.slot))) := by
  rw [entryAcknowledged]
  split
  · rfl
  all_goals next other => exact absurd (state.symm.trans other) nofun

theorem entryAcknowledged_cancelling (state : (s.job x.slot).state = .cancelling) :
    entryAcknowledged x (acknowledged s) = countedAs s x.slot { s.job x.slot with sent := (s.job x.slot).sent + 1 } := by
  rw [entryAcknowledged]
  split
  · next other => exact absurd (state.symm.trans other) nofun
  · rfl
  all_goals next other => exact absurd (state.symm.trans other) nofun

theorem exec_entry (latch : s.le.latch = some o) (origin : o.origin = .entry x) :
    exec .acknowledgement s = .next (applyOrder (entryAcknowledged x (acknowledged s))) := by
  rw [exec_acknowledgement latch, origin, originAcknowledged]

/-! ## The next entry is a BREAK -/

/-- A BREAK entry with an entry behind it in its segment, taken. -/
abbrev breakTaken (j : Job) (g : Segment) (gs : List Segment) (es : List Entry) : Job :=
  { j with chain := { g with taken := g.taken + 1, entries := es } :: gs, queued := j.queued - 1 }

theorem takeHead_counted (chain : j.chain = g :: gs) (entries : g.entries = .brk :: e :: es) :
    takeHead k (countedAs s k j) = countedAs s k (breakTaken j g gs (e :: es)) := by
  rw [takeHead_two (g := g) (gs := gs) (by rw [countedAs_job]; exact chain) entries, countedAs_job, State.setJob]
  simp only [upd_upd]

section
variable (state : j.state = (s.job k).state) (priority : j.priority = (s.job k).priority)
  (channel : j.channel = (s.job k).channel) (owner : j.owner = (s.job k).owner) (chain : j.chain = g :: gs)
  (entries : g.entries = .brk :: e :: es)
include state priority channel owner chain entries

/-- The active job goes on behind the BREAK entry (R57). -/
theorem takeBreak_stays (active : s.du.active = some k) (stays : staysOn s k j.turn) :
    takeBreak k (countedAs s k j) = countedAs s k (breakTaken j g gs (e :: es)) := by
  have same : sameRecords s (countedAs s k (breakTaken j g gs (e :: es))) := countedAs_records state priority channel owner
  have none' : breakPoint (countedAs s k (breakTaken j g gs (e :: es))) k = none := by
    refine breakPoint_none_of_stays ?_
    rw [countedAs_job]
    exact (staysOn_of_records same rfl rfl rfl k j.turn).mpr stays
  rw [takeBreak, takeHead_counted chain entries]
  rw [none']
  refine settled_of_head active ?_
  rw [headEntry, countedAs_job]
  nofun

/-- A job preempts it there (R55). -/
theorem takeBreak_preempts (u : urgent s k m) (head : headEntry s m ≠ none) (other : m ≠ k) :
    takeBreak k (countedAs s k j) = takesLink (suspends (countedAs s k (breakTaken j g gs (e :: es))) k) m := by
  have same : sameRecords s (countedAs s k (breakTaken j g gs (e :: es))) := countedAs_records state priority channel owner
  have some' := breakPoint_urgent ((urgent_of_records same rfl rfl rfl k m).mpr u)
  rw [takeBreak, takeHead_counted chain entries]
  rw [some']
  refine settled_of_head (m := m) rfl ?_
  rw [((suspends_handsOn _ k).trans (takesLink_handsOn _ m)).headEntry, headEntry, countedAs_other other]
  exact head

/-- It yields there (R56). -/
theorem takeBreak_yields (up : recovering s = false) (calm : ∀ z, ¬ urgent s k z) (done : spent s j.turn)
    (first : firstRival s k m) (head : headEntry s m ≠ none) (other : m ≠ k) :
    takeBreak k (countedAs s k j) = yields (countedAs s k (breakTaken j g gs (e :: es))) k m := by
  have same : sameRecords s (countedAs s k (breakTaken j g gs (e :: es))) := countedAs_records state priority channel owner
  have some' : breakPoint (countedAs s k (breakTaken j g gs (e :: es))) k =
      some (yields (countedAs s k (breakTaken j g gs (e :: es))) k m) := by
    refine breakPoint_firstRival up (fun z u => calm z ((urgent_of_records same rfl rfl rfl k z).mp u)) ?_
      ((firstRival_of_records same rfl k m).mpr first)
    rw [countedAs_job]
    exact done
  rw [takeBreak, takeHead_counted chain entries]
  rw [some']
  refine settled_of_head (m := m) rfl ?_
  rw [(yields_handsOn _ k m).headEntry, headEntry, countedAs_other other]
  exact head

end

/-! ## The next entry goes out -/

theorem headTaken_counted {p : HostId → List Event} (chain : j.chain = (s.job k).chain) (owner : j.owner = (s.job k).owner)
    (taken : headTaken (countedAs s k j) t k p) : headTaken s t k p := by
  intro g gs held
  have spec := taken g gs (by rw [countedAs_job, chain]; exact held)
  rw [countedAs_job, owner] at spec
  exact spec

theorem countedAs_head (chain : j.chain = g :: gs) : headEntry (countedAs s k j) k = g.entries.head? := by
  rw [headEntry, countedAs_job, chain]

/-- The head entry of the active job, whose channel is current, is taken and offered. -/
theorem applyOrder_counted (active : s.du.active = some k) (begun : j.begun = true) (current : s.le.current = some j.channel)
    (list : s.le.abandon = []) (opened : forwardOpen s) (head : headEntry (countedAs s k j) k = some (entryOf kind b)) :
    ∃ t, applyOrder (countedAs s k j) = t ∧ headTaken (countedAs s k j) t k (fun _ => []) ∧
      t = offered { countedAs s k { j with chain := (t.job k).chain, queued := j.queued - 1 } with eus := t.eus, sp := t.sp }
        b kind (.entry (s.handle k)) := by
  obtain ⟨t, run, taken, frame⟩ := applyOrder_offersCalm (s := countedAs s k j) opened list active head
    (by rw [countedAs_job]; exact current)
  rw [entryTaken_begun (by rw [countedAs_job]; exact begun), countedAs_job] at frame
  simp only [upd_upd] at frame
  exact ⟨t, run, taken, frame⟩

/-- Of an entry with others behind it in its segment nothing else is seen. -/
theorem applyOrder_countedMore (active : s.du.active = some k) (begun : j.begun = true) (current : s.le.current = some j.channel)
    (list : s.le.abandon = []) (opened : forwardOpen s) (chain : j.chain = g :: gs)
    (entries : g.entries = entryOf kind b :: e :: es) :
    applyOrder (countedAs s k j) =
      offered (countedAs s k (breakTaken j g gs (e :: es))) b kind (.entry (s.handle k)) := by
  obtain ⟨t, run, taken, frame⟩ := applyOrder_counted (kind := kind) (b := b) active begun current list opened
    (by rw [countedAs_head chain, entries]; rfl)
  obtain ⟨left, pool, units⟩ := (taken g gs (by rw [countedAs_job]; exact chain)).1 (by rw [entries]; simp)
  have eus : t.eus = s.eus := Vector.ext fun i bound => units ⟨i, bound⟩
  rw [left, eus, pool, entries] at frame
  rw [run]
  exact frame

end Sys2Proof.Machine
end

section
/-! SUPPORT. What follows an entry that has been acknowledged: a BREAK, the completion, the dry wait, the abandon list (R54 to R62, R78,
R92, R132). -/

namespace Sys2Proof.Machine

variable {s t u v w : State} {a k m z : SlotId} {n : Successor} {kind : ByteKind} {b : Byte} {j j' : Job} {o : Offer} {x : Handle}
  {g : Segment} {gs : List Segment} {e : Entry} {es : List Entry} {r : RouteId} {d : AbandonEntry} {ds : List AbandonEntry}

theorem activeHead_of_active (active : s.du.active = some a) : activeHead s = (headEntry s a).map fun e => (a, e) := by
  rw [activeHead, active]

/-- A byte is no BREAK entry. -/
theorem activeHead_byte (active : s.du.active = some a) (head : headEntry s a = some (entryOf kind b)) (y : SlotId) :
    activeHead s ≠ some (y, .brk) := by
  rw [activeHead_of_active active, head]
  cases kind <;> nofun

/-! ## The next entry is a BREAK -/

section
variable (active : s.du.active = some k) (list : s.le.abandon = []) (opened : forwardOpen s) (chain : j.chain = g :: gs)
include active list opened chain

theorem applyOrder_breakStays (entries : g.entries = .brk :: entryOf kind b :: e :: es) (state : j.state = (s.job k).state)
    (priority : j.priority = (s.job k).priority) (channel : j.channel = (s.job k).channel) (owner : j.owner = (s.job k).owner)
    (begun : j.begun = true) (current : s.le.current = some j.channel) (stays : staysOn s k j.turn) :
    applyOrder (countedAs s k j) =
      offered (countedAs s k { j with
        chain := { g with taken := g.taken + 2, entries := e :: es } :: gs, queued := j.queued - 2 })
        b kind (.entry (s.handle k)) := by
  have next : headEntry (countedAs s k (breakTaken j g gs (entryOf kind b :: e :: es))) k = some (entryOf kind b) := by
    rw [countedAs_head (g := { g with taken := g.taken + 1, entries := entryOf kind b :: e :: es }) rfl]
    rfl
  have taken := takeBreak_stays state priority channel owner chain entries active stays
  have order := applyOrder_break (s := countedAs s k j) opened.1 active (by rw [countedAs_head chain, entries]; rfl) taken
    (activeHead_byte active next)
  rw [order]
  exact applyOrder_countedMore (j := breakTaken j g gs (entryOf kind b :: e :: es)) active begun current list opened rfl rfl

/-- A job that takes the link at the BREAK has its SELECT offered. -/
theorem applyOrder_breakSelects (entries : g.entries = .brk :: e :: es) (taken : takeBreak k (countedAs s k j) = v)
    (f : HandsOn (countedAs s k j') v) (active' : v.du.active = some m) (other : m ≠ k)
    (head : headEntry s m = some (entryOf kind b)) (elsewhere : s.le.current ≠ some (s.job m).channel) :
    applyOrder (countedAs s k j) = selectOffered v (s.job m).channel := by
  have head' : headEntry v m = some (entryOf kind b) := by
    rw [f.headEntry, headEntry, countedAs_other other]
    exact head
  have channel : (v.job m).channel = (s.job m).channel := by rw [f.channel, countedAs_other other]
  rw [applyOrder_break (s := countedAs s k j) opened.1 active (by rw [countedAs_head chain, entries]; rfl) taken
    (activeHead_byte active' head'), applyOrder_selects (f.forwardOpen opened) (f.abandon.trans list) active' head', channel]
  rw [channel, f.current]
  exact elsewhere

end

/-- A READY job is not the active one. -/
theorem ne_of_candidate {p : Option SlotId} (state : (s.job k).state = .active) (cand : candidate s p m) : m ≠ k := by
  rintro rfl
  rw [cand.1] at state
  cases state

theorem urgent_candidate (u : urgent s a m) : candidate s (some a) m := (bestAdmissible_candidate u.2.1).2

/-! ## The chain has run dry -/

/-- With a reverse request, or with no work and no stall, the link grants a phase or is IDLE (R78). -/
theorem applyOrder_unheld (work : s.pins.rreq = true ∨ activeHead s = none ∧ s.le.abandon = [] ∧ noStall s) :
    applyOrder s = grantedOrIdle s := by
  rw [grantedOrIdle]
  by_cases rreq : s.pins.rreq = true
  · rw [if_pos rreq, applyOrder_grant rreq]
    rfl
  · obtain ⟨head, list, calm⟩ := work.resolve_left rreq
    rw [if_neg rreq]
    exact applyOrder_idle ⟨rfl, list, Bool.eq_false_iff.mpr rreq, calm⟩ head

/-- The state in which the job in slot `k`, its count risen and its record now `j`, has left the link. -/
abbrev countedLeft (s : State) (k : SlotId) (j : Job) : State :=
  { countedAs s k j with
    du := { s.du with active := none, claims := claimsWithout s k }
    le := { (acknowledged s).le with dryTimer := none } }

theorem handedOn_counted (channel : j.channel = (s.job k).channel) (j' : Job) :
    handedOn (countedAs s k j) k j' = countedLeft s k j' := by
  have claims : claimsWithout (countedAs s k j) k = claimsWithout s k := claimsWithout_withJob (s := acknowledged s) channel
  rw [handedOn, letGo, claims]
  simp only [withJob, upd_upd]

theorem passedTo_blocks (u : State) (n : Successor) (e : Vector EventUnit 4) (p : SegmentPool) (q : ReplyRouter) :
    passedTo { u with eus := e, sp := p, rr := q } n = { passedTo u n with eus := e, sp := p, rr := q } := by
  cases n <;> rfl

theorem passedTo_rr (u : State) (n : Successor) (q : ReplyRouter) :
    passedTo { u with rr := q } n = { passedTo u n with rr := q } := by
  cases n <;> rfl

/-- Nothing holds the link: a reverse request, or no work for it. -/
abbrev unheldFor (s : State) (n : Successor) : Prop := s.pins.rreq = true ∨ n = .nobody ∧ s.le.abandon = [] ∧ noStall s

theorem applyOrder_passed (idle : w.du.active = none) (pins : w.pins.rreq = s.pins.rreq) (list : w.le.abandon = s.le.abandon)
    (stall : w.le.stall = s.le.stall) (timer : w.le.stallTimer = s.le.stallTimer) (unheld : unheldFor s n) :
    applyOrder (passedTo w n) = grantedOrIdle (passedTo w n) := by
  refine applyOrder_unheld ?_
  rcases unheld with rreq | ⟨rfl, empty, calm⟩
  · refine .inl ?_
    rw [(passedTo_handsOn w n).pins, pins]
    exact rreq
  · exact .inr ⟨activeHead_inactive idle, list.trans empty, stall.trans calm.1, timer.trans calm.2⟩

theorem grantedOrIdle_blocks (u : State) : (grantedOrIdle u).eus = u.eus ∧ (grantedOrIdle u).sp = u.sp ∧
    (grantedOrIdle u).rr.routes = u.rr.routes ∧ (grantedOrIdle u).su = u.su := by
  rw [grantedOrIdle]
  split <;> exact ⟨rfl, rfl, rfl, rfl⟩

section
variable (active : s.du.active = some k) (dry : j.chain = []) (closed : j.closed = true) (channel : j.channel = (s.job k).channel)
include active dry closed channel

/-- The last entry of a CLOSED job: the job ends DONE, and the link passes on (R59, R92). -/
theorem applyOrder_completes (kept : j.orphaned = false) (owner : j.owner = (s.job k).owner) (route : j.route = (s.job k).route)
    (over' : ∀ r, (s.job k).route = some r → (s.route r).state ≠ .opened)
    (follows : followedBy (countedLeft s k (endedJob j .done .none)) n) (unheld : unheldFor s n) :
    ∃ t, applyOrder (settled (countedAs s k j)) = t ∧
      postedAheadOfSpace s t (postsTo (s.job k).owner [endedRecord s k 0x10#8]) ∧
      (∀ r, t.route r = if (s.job k).route = some r then { s.route r with timer := none } else s.route r) ∧
      t = grantedOrIdle { passedTo (countedLeft s k (endedJob j .done .none)) n with
        eus := t.eus, sp := { s.sp with marks := t.sp.marks }, rr := { s.rr with routes := t.rr.routes } } := by
  have job := countedAs_job s k j
  obtain ⟨w, run, posted, frame⟩ := completed_spec (s := countedAs s k j) (k := k) (by rw [job]; exact kept)
    (by rw [job]; exact dry) (by rw [job, route]; exact over')
  have routes := stopReplyTimer_route k (letGo (countedAs s k j) k)
  have timer := stopReplyTimer_frame k (letGo (countedAs s k j) k)
  generalize (stopReplyTimer k (letGo (countedAs s k j) k)).rr.routes = q at timer
  rw [timer] at frame routes
  have record : endedRecord (countedAs s k j) k 0x10#8 = endedRecord s k 0x10#8 := by
    rw [endedRecord, job, route]
    rfl
  rw [record, job, owner] at posted
  rw [job, handedOn_counted channel] at frame
  have follows' : followedBy w n := by
    rw [frame]
    exact followedBy_of_same rfl rfl rfl rfl rfl rfl rfl follows
  have passes : settled (countedAs s k j) = passedTo w n := by
    rw [settled_passes (s := countedAs s k j) active (by rw [headEntry, job, dry]) rfl (by rw [job]; exact closed)
      (by rw [run]; exact follows'), run]
  have order := applyOrder_passed (s := s) (w := w) (n := n) (by rw [frame]) (by rw [frame]) (by rw [frame]) (by rw [frame])
    (by rw [frame]) unheld
  obtain ⟨eus, sp, rr, su⟩ := grantedOrIdle_blocks (passedTo w n)
  have outer := (passedTo_handsOn w n).rest
  have eus' : (grantedOrIdle (passedTo w n)).eus = w.eus := eus.trans (by rw [outer])
  have sp' : (grantedOrIdle (passedTo w n)).sp = w.sp := sp.trans (by rw [outer])
  have rr' : (grantedOrIdle (passedTo w n)).rr.routes = w.rr.routes := rr.trans (by rw [outer])
  have named : w.rr.routes = q := by rw [frame]
  refine ⟨_, (congrArg applyOrder passes).trans order, posted.later eus' sp' (su.trans (by rw [outer])), fun y => ?_, ?_⟩
  · have at_y := routes y
    rw [show (letGo (countedAs s k j) k).job k = j from job, route] at at_y
    rw [State.route, rr', named]
    exact at_y
  · rw [eus', sp', rr', named]
    exact congrArg grantedOrIdle ((congrArg (passedTo · n) frame).trans (passedTo_blocks ..))

/-- With its route OPEN the job awaits its reply (R92, R113). -/
theorem applyOrder_awaits (route : j.route = some r) (waits : (s.route r).state = .opened)
    (follows : followedBy (countedLeft s k { j with state := .awaitReply }) n) (unheld : unheldFor s n) :
    applyOrder (settled (countedAs s k j)) = grantedOrIdle { passedTo (countedLeft s k { j with state := .awaitReply }) n with
      rr := { s.rr with routes := upd s.rr.routes r { s.route r with timer := some s.su.settings.replyTime } } } := by
  have job := countedAs_job s k j
  have completes : completeTransmission k (countedAs s k j) = { countedLeft s k { j with state := .awaitReply } with
      rr := { s.rr with routes := upd s.rr.routes r { s.route r with timer := some s.su.settings.replyTime } } } := by
    have left := handedOn_counted (s := s) channel { j with state := .awaitReply }
    rw [completeTransmission_awaits (s := countedAs s k j) (r := r) (by rw [job]; exact route) waits, job, ← left]
    rfl
  have follows' : followedBy (completeTransmission k (countedAs s k j)) n := by
    rw [completes]
    exact followedBy_of_same rfl rfl rfl rfl rfl rfl rfl follows
  have passes : settled (countedAs s k j) = passedTo (completeTransmission k (countedAs s k j)) n :=
    settled_passes (s := countedAs s k j) active (by rw [headEntry, job, dry]) rfl (by rw [job]; exact closed) follows'
  have order := applyOrder_passed (s := s) (w := completeTransmission k (countedAs s k j)) (n := n) (by rw [completes])
    (by rw [completes]) (by rw [completes]) (by rw [completes]) (by rw [completes]) unheld
  rw [passes, order, completes]
  exact congrArg grantedOrIdle (passedTo_rr ..)

end

section
variable (active : s.du.active = some k) (dry : j.chain = []) (opened : j.closed = false) (stream : j.stream = true)
include active dry opened stream

/-- The last entry of a stream job that is not CLOSED starts its dry wait (R62). -/
theorem applyOrder_startsWait (stays : breakPoint (startDryWait (countedAs s k j)) k = none) (unheld : unheldFor s .nobody) :
    applyOrder (settled (countedAs s k j)) = grantedOrIdle (startDryWait (countedAs s k j)) := by
  have job := countedAs_job s k j
  rw [settled_waits (s := countedAs s k j) active (by rw [headEntry, job, dry]) rfl (by rw [job]; exact opened)
    (by rw [job]; exact stream) stays]
  refine applyOrder_unheld (unheld.imp_right fun ⟨_, list, calm⟩ => ⟨?_, list, calm⟩)
  exact activeHead_of_dry (s := startDryWait (countedAs s k j)) active (by
    change ((countedAs s k j).job k).chain = []
    rw [job, dry])

/-- In the dry wait the break point gives the link to another job (R55, R56, R62). -/
theorem applyOrder_waitChanges (changes : breakPoint (startDryWait (countedAs s k j)) k = some v) (f : HandsOn (countedAs s k j) v)
    (active' : v.du.active = some m) (other : m ≠ k) (head : headEntry s m ≠ none) (rreq : s.pins.rreq = true) :
    applyOrder (settled (countedAs s k j)) = granted v := by
  have job := countedAs_job s k j
  rw [settled_changes (s := countedAs s k j) active (by rw [headEntry, job, dry]) rfl (by rw [job]; exact opened)
    (by rw [job]; exact stream) changes active' (by
      rw [f.headEntry, headEntry, countedAs_other other]
      exact head), applyOrder_grant (by rw [f.pins]; exact rreq)]
  rfl

end

theorem headEntry_of_first (chain : (s.job k).chain = g :: gs) {y : Entry} (entries : g.entries = y :: es) :
    headEntry s k ≠ none := by
  rw [headEntry, chain]
  dsimp only
  rw [entries]
  nofun

/-- Settles O40: the next entry, a BREAK and its decision, the completion, the dry wait, and the abandon list. -/
theorem acknowledgedEntriesAreCounted : Obligations.AcknowledgedEntriesAreCounted := by
  intro s o x latch origin k j counted u
  have run := exec_entry latch origin
  have sending : j.state = .active →
      exec .acknowledgement s = .next (applyOrder (settled (countedAs s k (countedJob (s.job k))))) := fun state => by
    rw [run, entryAcknowledged_active state]
  have same : sameRecords s (countedAs s k (countedJob (s.job k))) := countedAs_records rfl rfl rfl rfl
  have job := countedAs_job s k (countedJob (s.job k))
  have going : headEntry s k ≠ none → s.du.active = some k →
      settled (countedAs s k (countedJob (s.job k))) = countedAs s k (countedJob (s.job k)) := fun head active => by
    refine settled_of_head active ?_
    rw [headEntry, job]
    exact head
  refine ⟨fun state active begun current list opened => ⟨fun kind b head => ?_, fun g gs kind b e es chain entries stays => ?_,
    fun g gs e es m kind b chain entries head => ⟨fun preempts => ?_, fun calm done first elsewhere up => ?_⟩⟩,
    fun state active dry empty => ⟨fun n closed route kept follows unheld => ?_, fun n r closed route waits follows unheld => ?_,
      fun opened stream => ⟨fun stays unheld => ?_, fun m head rreq => ⟨fun preempts => ?_, fun calm done first up => ?_⟩⟩⟩,
    fun e es state head list current opened => ?_⟩
  · have head' : headEntry (countedAs s k (countedJob (s.job k))) k = some (entryOf kind b) := by
      rw [headEntry, job]
      exact head
    have busy : settled (countedAs s k (countedJob (s.job k))) = countedAs s k (countedJob (s.job k)) :=
      settled_of_head active (by rw [head']; nofun)
    obtain ⟨t, order, taken, frame⟩ := applyOrder_counted (j := countedJob (s.job k)) active begun current list opened head'
    refine ⟨t, ?_, headTaken_counted (j := countedJob (s.job k)) rfl rfl taken, frame⟩
    rw [sending state, busy, order]
  · have busy := going (headEntry_of_first chain entries) active
    rw [sending state, busy]
    exact congrArg Host.Outcome.next (applyOrder_breakStays (j := countedJob (s.job k)) active list opened chain entries rfl rfl rfl
      rfl begun current stays)
  · have cand := urgent_candidate preempts
    have other := ne_of_candidate state cand
    have busy := going (headEntry_of_first chain entries) active
    have taken := takeBreak_preempts (s := s) (k := k) (j := countedJob (s.job k)) rfl rfl rfl rfl chain entries preempts
      (by rw [head]; nofun) other
    rw [sending state, busy]
    refine congrArg Host.Outcome.next (applyOrder_breakSelects (s := s) (k := k) (j := countedJob (s.job k)) active list opened chain
      entries taken ((suspends_handsOn _ k).trans (takesLink_handsOn _ m)) rfl other head fun there => ?_)
    exact cand.2.2.2.2 k rfl (Option.some.inj (current.symm.trans there))
  · have other := ne_of_candidate state first.1.2.1
    have busy := going (headEntry_of_first chain entries) active
    have taken := takeBreak_yields (s := s) (k := k) (j := countedJob (s.job k)) rfl rfl rfl rfl chain entries up calm done first
      (by rw [head]; nofun) other
    rw [sending state, busy]
    exact congrArg Host.Outcome.next (applyOrder_breakSelects (s := s) (k := k) (j := countedJob (s.job k)) active list opened chain
      entries taken (yields_handsOn _ k m) rfl other head elsewhere)
  · have over' : ∀ r, (s.job k).route = some r → (s.route r).state ≠ .opened := fun r own => by
      rcases route with none' | ⟨r', own', complete⟩
      · rw [show (s.job k).route = none from none'] at own
        cases own
      · obtain rfl := Option.some.inj (own.symm.trans own')
        rw [complete]
        nofun
    obtain ⟨t, order, rest⟩ := applyOrder_completes (s := s) (k := k) (j := countedJob (s.job k)) active dry closed rfl kept rfl rfl over' follows unheld
    exact ⟨t, by rw [sending state, order], rest⟩
  · rw [sending state, applyOrder_awaits (s := s) (k := k) (j := countedJob (s.job k)) active dry closed rfl route waits follows unheld]
  · rw [sending state]
    have still : breakPoint (startDryWait (countedAs s k (countedJob (s.job k)))) k = none := by
      refine breakPoint_none_of_stays ?_
      rw [show (startDryWait (countedAs s k (countedJob (s.job k)))).job k = _ from job]
      exact (staysOn_of_records (t := startDryWait (countedAs s k (countedJob (s.job k)))) same rfl rfl rfl k _).mpr stays
    rw [applyOrder_startsWait (s := s) (k := k) (j := countedJob (s.job k)) active dry opened stream still unheld]
    rfl
  · have other := ne_of_candidate state (urgent_candidate preempts)
    have changes := breakPoint_urgent
      ((urgent_of_records (t := startDryWait (countedAs s k (countedJob (s.job k)))) same rfl rfl rfl k m).mpr preempts)
    rw [sending state, applyOrder_waitChanges (s := s) (k := k) (j := countedJob (s.job k)) active dry opened stream changes
      ((suspends_handsOn (countedAs s k (countedJob (s.job k))) k).trans (takesLink_handsOn _ m)) rfl other head rreq]
    rfl
  · have other := ne_of_candidate state first.1.2.1
    have changes := breakPoint_firstRival (s := startDryWait (countedAs s k (countedJob (s.job k)))) (a := k) (k := m) up
      (fun z now => calm z ((urgent_of_records (t := startDryWait (countedAs s k (countedJob (s.job k)))) same rfl rfl rfl k z).mp now))
      (by
        rw [show (startDryWait (countedAs s k (countedJob (s.job k)))).job k = _ from job]
        exact done)
      ((firstRival_of_records (t := startDryWait (countedAs s k (countedJob (s.job k)))) same rfl k m).mpr first)
    rw [sending state, applyOrder_waitChanges (s := s) (k := k) (j := countedJob (s.job k)) active dry opened stream changes
      (yields_handsOn (countedAs s k (countedJob (s.job k))) k m) rfl other head rreq]
    rfl
  · have chain : ∀ z, ((countedAs s k { s.job k with sent := (s.job k).sent + 1 }).job z).chain = (s.job z).chain := fun z =>
      withJob_chain (s := acknowledged s) (j := { s.job k with sent := (s.job k).sent + 1 }) rfl z
    have noBreak : ∀ y, activeHead (countedAs s k { s.job k with sent := (s.job k).sent + 1 }) ≠ some (y, .brk) := fun y => by
      rw [activeHead_of_same (s := s) (t := countedAs s k { s.job k with sent := (s.job k).sent + 1 }) rfl fun z _ => chain z]
      exact head y
    obtain ⟨rreq, prdy, pflt, calm⟩ := opened
    rw [run, entryAcknowledged_cancelling state, applyOrder_abandon (s := countedAs s k { s.job k with sent := (s.job k).sent + 1 })
      rreq prdy pflt list noBreak, if_pos current, offerAbandon,
      makeOffer_noStall _ (s := countedAs s k { s.job k with sent := (s.job k).sent + 1 }) calm]
    rfl

end Sys2Proof.Machine
end

section
/-! SUPPORT. The acknowledgement of ABANDON (R16, R22, R44, R46, R136). -/

namespace Sys2Proof.Machine

variable {s t u v w : State} {a k m z : SlotId} {n : Successor} {kind : ByteKind} {b : Byte} {j : Job} {o : Offer} {r : Response}
  {g : Segment} {gs : List Segment} {x : Entry} {es : List Entry} {e : AbandonEntry} {rest : List AbandonEntry} {c : Cause}

/-! ## An ORPHANED job is released -/

/-- The end of an ORPHANED job: its slot is FREE under the next generation, its chain freed (R2, R18, R22). -/
theorem endJob_orphaned (o : JobOutcome) (c : Cause) (orphan : (s.job k).orphaned = true) :
    endJob k o c s = { s with
      jm := { s.jm with
        jobs := upd s.jm.jobs k freeJob, gens := upd s.jm.gens k (s.gen k + 1),
        owned := upd s.jm.owned (s.job k).owner (s.owned (s.job k).owner - 1) }
      sp := { s.sp with
        free := ((s.job k).chain.map fun g => g.id) ++ s.sp.free
        used := upd s.sp.used (s.job k).owner (s.used (s.job k).owner - (s.job k).chain.length) }
      rr := { s.rr with routes := (endJob k o c s).rr.routes } } := by
  have eq : endJob k o c s = releaseSlot k (jobEnds k o c s) := by rw [endJob_eq, if_pos orphan]
  generalize (endJob k o c s) = t at eq ⊢
  have timer := stopReplyTimer_frame k (discardChain k s)
  rw [jobEnds] at eq
  generalize (stopReplyTimer k (discardChain k s)).rr.routes = q at timer
  rw [timer] at eq
  subst eq
  rw [releaseSlot, freeRouteOf_frame, State.setJob_job_same]
  simp only [discardChain, freeSegments, State.setJob, State.setOwned, upd_upd, List.length_map]
  rfl

/-- The same for a job that holds no segment, with the evaluation of the space waiters. -/
theorem endJobAlone_orphaned (o : JobOutcome) (c : Cause) (orphan : (s.job k).orphaned = true) (dry : (s.job k).chain = []) :
    ∃ w, endJobAlone k o c s = w ∧ (postedAheadOfSpace s w fun _ => []) ∧
      (∀ r, w.route r = if (s.job k).route = some r then freeRoute else s.route r) ∧
      w = { s with
        eus := w.eus
        jm := { s.jm with
          jobs := upd s.jm.jobs k freeJob, gens := upd s.jm.gens k (s.gen k + 1),
          owned := upd s.jm.owned (s.job k).owner (s.owned (s.job k).owner - 1) }
        sp := { s.sp with marks := w.sp.marks }
        rr := { s.rr with routes := w.rr.routes } } := by
  have ended := endJob_orphaned o c orphan
  rw [dry, List.map_nil, List.nil_append, List.length_nil, Nat.sub_zero, State.used, upd_self] at ended
  have routes : ∀ r, (endJob k o c s).route r = if (s.job k).route = some r then freeRoute else s.route r := fun r => by
    rw [endJob_route, if_pos orphan]
  rw [endJobAlone]
  generalize endJob k o c s = u at ended routes
  have frame := evaluateSpace_frame u
  have posted := evaluateSpace_posted (s := s) (u := u) (posts := fun _ => []) (by rw [ended]) (by rw [ended]) fun x => by
    rw [ended]
    rfl
  refine ⟨_, rfl, posted, fun r => ?_, ?_⟩
  · rw [frame]
    exact routes r
  · generalize (evaluateSpace u).eus = v1 at frame
    generalize (evaluateSpace u).sp.marks = m1 at frame
    rw [frame, ended]

/-! ## The acknowledgement -/

/-- The head entry has left the abandon list, and its channel's claim is released (R46, R136). -/
abbrev abandonDone (s : State) (e : AbandonEntry) (rest : List AbandonEntry) : State :=
  { acknowledged s with
    du := { s.du with claims := upd s.du.claims e.channel none }
    le := { (acknowledged s).le with abandon := rest } }

section
variable (latch : s.le.latch = some o) (origin : o.origin = .abandon) (list : s.le.abandon = e :: rest)
  (ended : endJobAlone e.job.slot .cancelled e.cause (abandonDone s e rest) = w)
include latch origin list ended

theorem exec_abandon : exec .acknowledgement s =
    .next (applyOrder (if eligibleOn w e.channel then respondEligible w else w)) := by
  have acked : abandonAcknowledged (acknowledged s) = if eligibleOn w e.channel then respondEligible w else w := by
    rw [abandonAcknowledged, show (acknowledged s).le.abandon = e :: rest from list, ← ended]
    rfl
  rw [exec_acknowledgement latch, origin, originAcknowledged, acked]

/-- Nobody becomes eligible (R46). -/
theorem exec_abandonAlone (none' : ∀ m ∈ w.du.ready, (w.job m).channel = e.channel → (w.job m).state ≠ .ready ∨ (w.job m).priority = 0) :
    exec .acknowledgement s = .next (applyOrder w) := by
  have nobody : eligibleOn w e.channel = false := by
    rw [eligibleOn, List.any_eq_false]
    intro m mem both
    rw [Bool.and_eq_true, decide_eq_true_eq, eligible_iff] at both
    obtain ⟨channel, ready, priority, -⟩ := both
    rcases none' m mem channel with other | zero
    · exact other ready
    · exact priority zero
  rw [exec_abandon latch origin list ended, nobody]
  rfl

/-- A READY job on the channel becomes eligible, and DU answers (R44, R46). -/
theorem exec_abandonResponds (mem : m ∈ w.du.ready) (ready : (w.job m).state = .ready) (channel : (w.job m).channel = e.channel)
    (priority : (w.job m).priority ≠ 0) (claims : w.claim e.channel = none) (responds : respondsWith w r)
    (heads : ∀ z, r.holder = some z → headEntry w z ≠ none) :
    exec .acknowledgement s = .next (applyOrder (responded w r)) := by
  have some' : eligibleOn w e.channel = true := by
    rw [eligibleOn, List.any_eq_true]
    refine ⟨m, mem, ?_⟩
    rw [Bool.and_eq_true, decide_eq_true_eq, eligible_iff]
    exact ⟨channel, ready, priority, .inl (by rw [channel]; exact claims)⟩
  rw [exec_abandon latch origin list ended, some', if_pos rfl, respondEligible_responded responds heads]

end

end Sys2Proof.Machine
end

section
/-! SUPPORT. The acknowledgement of ABANDON, all clauses (R16, R22, R44, R46, R136). -/

namespace Sys2Proof.Machine

variable {s t u v w : State} {a k m z : SlotId} {n : Successor} {kind : ByteKind} {b : Byte} {j : Job} {o : Offer} {r : Response}
  {g : Segment} {gs : List Segment} {x : Entry} {es : List Entry} {e e' : AbandonEntry} {rest es' : List AbandonEntry} {c : Cause}

/-- The state in which the cancelled job has ended, `v`, `q` and `y` being the units, the marks and the routes then. -/
abbrev abandonEnded (s : State) (e : AbandonEntry) (rest : List AbandonEntry) (v : Vector EventUnit 4)
    (q : Vector (Option Nat) 4) (y : Vector Route 16) : State :=
  { abandonDone s e rest with
    eus := v
    jm := { s.jm with jobs := upd s.jm.jobs e.job.slot (endedJob (s.job e.job.slot) .cancelled e.cause) }
    sp := { s.sp with marks := q }
    rr := { s.rr with routes := y } }

theorem abandonEnded_other {v : Vector EventUnit 4} {q : Vector (Option Nat) 4} {y : Vector Route 16} (other : z ≠ e.job.slot) :
    (abandonEnded s e rest v q y).job z = s.job z := upd_ne _ _ (Ne.symm other)

/-- The cancelled job ends (R16, R136). -/
theorem abandonEnds_spec (kept : (s.job e.job.slot).orphaned = false) (dry : (s.job e.job.slot).chain = []) :
    ∃ w, endJobAlone e.job.slot .cancelled e.cause (abandonDone s e rest) = w ∧
      postedAheadOfSpace s w (postsTo (s.job e.job.slot).owner [endedRecord s e.job.slot (outcomeCauseByte .cancelled e.cause)]) ∧
      (∀ r, w.route r = if (s.job e.job.slot).route = some r then { s.route r with timer := none } else s.route r) ∧
      w = abandonEnded s e rest w.eus w.sp.marks w.rr.routes := by
  obtain ⟨posted, frame⟩ := endJobAlone_posted (s := abandonDone s e rest) (k := e.job.slot) .cancelled e.cause kept dry
  have routes := stopReplyTimer_route e.job.slot (abandonDone s e rest)
  have timer := stopReplyTimer_frame e.job.slot (abandonDone s e rest)
  generalize (stopReplyTimer e.job.slot (abandonDone s e rest)).rr.routes = y at timer
  rw [timer] at frame routes
  generalize endJobAlone e.job.slot .cancelled e.cause (abandonDone s e rest) = w at posted frame
  have named : w.rr.routes = y := by rw [frame]
  refine ⟨w, rfl, posted, fun r => ?_, ?_⟩
  · rw [State.route, named]
    exact routes r
  · rw [named]
    exact frame

/-- A job that ended leaves the READY jobs on its channel as they were. -/
theorem abandonEnded_alone {v : Vector EventUnit 4} {q : Vector (Option Nat) 4} {y : Vector Route 16}
    (alone : ∀ m ∈ s.du.ready, (s.job m).channel = e.channel → (s.job m).state ≠ .ready ∨ (s.job m).priority = 0) :
    ∀ m ∈ (abandonEnded s e rest v q y).du.ready, ((abandonEnded s e rest v q y).job m).channel = e.channel →
      ((abandonEnded s e rest v q y).job m).state ≠ .ready ∨ ((abandonEnded s e rest v q y).job m).priority = 0 := by
  intro m mem channel
  by_cases here : m = e.job.slot
  · subst here
    refine .inl fun ready => ?_
    have ended : ((abandonEnded s e rest v q y).job e.job.slot).state = .ended := congrArg Job.state (upd_same ..)
    rw [ended] at ready
    cases ready
  · rw [abandonEnded_other here] at channel ⊢
    exact alone m mem channel

/-- Settles O41: the job ends or is released, and DU and the link answer. -/
theorem acknowledgedAbandonEndsTheJob : Obligations.AcknowledgedAbandonEndsTheJob := by
  intro s o e rest latch origin list dry k j alone
  refine ⟨fun kept => ?_, fun orphan alone empty rreq calm => ?_⟩
  · obtain ⟨w, ended, posted, routes, frame⟩ := abandonEnds_spec (s := s) (e := e) (rest := rest) kept dry
    have told : ∀ t : State, t.eus = w.eus → t.sp = w.sp → t.su = w.su → t.rr.routes = w.rr.routes →
        postedAheadOfSpace s t (postsTo j.owner [endedRecord s k (outcomeCauseByte .cancelled e.cause)]) ∧
          ∀ r, t.route r = if j.route = some r then { s.route r with timer := none } else s.route r := fun t eus sp su rr =>
      ⟨posted.later eus sp su, fun r => by
        rw [State.route, rr]
        exact routes r⟩
    refine ⟨fun ⟨idle, alone⟩ rreq calm => ?_, fun p r mem other ready channel priority responds heads => ?_⟩
    · have run := exec_abandonAlone latch origin list ended (by rw [frame]; exact abandonEnded_alone alone)
      refine ⟨fun empty => ?_, fun e' es' more elsewhere prdy pflt => ?_⟩
      · have order : applyOrder w = { w with le := { w.le with link := .idle } } :=
          applyOrder_noWork ⟨by rw [frame]; exact idle, by rw [frame]; exact empty, by rw [frame]; exact rreq,
            by rw [frame]; exact calm⟩
        refine ⟨_, run.trans (congrArg Host.Outcome.next order), told _ rfl rfl rfl rfl, ?_⟩
        exact congrArg (fun u : State => { u with le := { u.le with link := .idle } }) frame
      · have order : applyOrder w = selectOffered w e'.channel :=
          applyOrder_selectsAbandoned (by rw [frame]; exact ⟨rreq, prdy, pflt, calm⟩) (by rw [frame]; exact more)
            (by rw [activeHead_inactive (by rw [frame]; exact idle)]; nofun) (by rw [frame]; exact elsewhere)
        refine ⟨_, run.trans (congrArg Host.Outcome.next order), told _ rfl rfl rfl rfl, ?_⟩
        exact congrArg (selectOffered · e'.channel) frame
    · have mine : ∀ z, z ≠ k → w.job z = s.job z := fun z off => by
        rw [frame]
        exact abandonEnded_other off
      have responds' : respondsWith w r := by
        rw [frame]
        exact respondsWith_of_same rfl rfl rfl rfl rfl responds
      have heads' : ∀ z, r.holder = some z → headEntry w z ≠ none := fun z holder => by
        have off : z ≠ k := by
          rintro rfl
          exact heads _ holder (by rw [headEntry, dry])
        rw [headEntry, mine z off]
        exact heads z holder
      have run := exec_abandonResponds (m := p) latch origin list ended (by rw [frame]; exact mem) (by rw [mine p other]; exact ready)
        (by rw [mine p other]; exact channel) (by rw [mine p other]; exact priority)
        (by rw [frame]; exact upd_same ..) responds' heads'
      have hands := responded_handsOn w r
      refine ⟨fun rreq => ?_, fun m g gs kind b x es holder channel unbegun chain entries empty current opened => ?_⟩
      · have order : applyOrder (responded w r) = granted (responded w r) :=
          applyOrder_grant (by rw [hands.pins, frame]; exact rreq)
        have eus : (granted (responded w r)).eus = w.eus := by
          change (responded w r).eus = _
          rw [hands.rest]
        have sp : (granted (responded w r)).sp = w.sp := by
          change (responded w r).sp = _
          rw [hands.rest]
        have rr : (granted (responded w r)).rr.routes = w.rr.routes := by
          change (responded w r).rr.routes = _
          rw [hands.rest]
        have su : (granted (responded w r)).su = w.su := by
          change (responded w r).su = _
          rw [hands.rest]
        refine ⟨_, run.trans (congrArg Host.Outcome.next order), told _ eus sp su rr, ?_⟩
        beta_reduce
        rw [eus, sp, rr]
        exact congrArg (fun x => granted (responded x r)) frame
      · have off : m ≠ k := by
          rintro rfl
          rw [dry] at chain
          cases chain
        have hand := hands.job m
        have chain' : ((responded w r).job m).chain = g :: gs := by rw [hands.chain, mine m off, chain]
        have fresh : ((responded w r).job m).begun = false := by
          rw [hand]
          change (w.job m).begun = false
          rw [mine m off]
          exact unbegun
        have queued : ((responded w r).job m).queued = (s.job m).queued := by
          rw [hand]
          change (w.job m).queued = _
          rw [mine m off]
        have channel' : ((responded w r).job m).channel = e.channel := by rw [hands.channel, mine m off, channel]
        have handle : (responded w r).handle m = s.handle m := by
          rw [State.handle, State.gen, hands.gens, frame]
          rfl
        obtain ⟨t, order, taken, out⟩ := applyOrder_offersCalm (s := responded w r) (kind := kind) (b := b)
          (hands.forwardOpen (by rw [frame]; exact opened)) (hands.abandon.trans (by rw [frame]; exact empty)) (responded_holder holder)
          (by rw [headEntry, chain']; dsimp only; rw [entries]; rfl) (by rw [hands.current, channel', frame]; exact current)
        obtain ⟨left, pool, units⟩ := (taken g gs chain').1 (by rw [entries]; simp)
        have eus : t.eus = (responded w r).eus := Vector.ext fun i bound => units ⟨i, bound⟩
        have su : t.su = w.su := by
          rw [out]
          change (responded w r).su = _
          rw [hands.rest]
        have rr : t.rr.routes = w.rr.routes := by
          rw [out]
          change (responded w r).rr.routes = _
          rw [hands.rest]
        have eus' : t.eus = w.eus := by rw [eus, hands.rest]
        have sp' : t.sp = w.sp := by rw [pool, hands.rest]
        refine ⟨t, run.trans (congrArg Host.Outcome.next order), told t eus' sp' su rr, ?_⟩
        have same : abandonEnded s e rest t.eus t.sp.marks t.rr.routes = w := by
          rw [eus', sp', rr]
          exact frame.symm
        intro v
        have is : v = responded w r := congrArg (responded · r) same
        rw [is]
        rw [entryTaken, fresh, if_neg Bool.false_ne_true, handle, channel', queued, left, eus, pool, entries] at out
        exact out
  · obtain ⟨w, ended, posted, routes, frame⟩ := endJobAlone_orphaned (s := abandonDone s e rest) .cancelled e.cause orphan dry
    have job : w.job k = freeJob := by
      rw [frame]
      exact upd_same ..
    have none' : ∀ m ∈ w.du.ready, (w.job m).channel = e.channel → (w.job m).state ≠ .ready ∨ (w.job m).priority = 0 := by
      intro m mem channel
      by_cases here : m = k
      · subst here
        refine .inl ?_
        rw [job]
        nofun
      · have same : w.job m = s.job m := by
          rw [frame]
          exact upd_ne _ _ (Ne.symm here)
        rw [same] at channel ⊢
        refine alone.2 m ?_ channel
        rw [frame] at mem
        exact mem
    have order : applyOrder w = { w with le := { w.le with link := .idle } } :=
      applyOrder_noWork ⟨by rw [frame]; exact alone.1, by rw [frame]; exact empty, by rw [frame]; exact rreq,
        by rw [frame]; exact calm⟩
    refine ⟨_, (exec_abandonAlone latch origin list ended none').trans (congrArg Host.Outcome.next order), ?_, routes, posted, ?_⟩
    · change (w.job k).state = .free
      rw [job]
      rfl
    · change _ = { acknowledged s with
        eus := w.eus
        jm := { s.jm with
          jobs := upd s.jm.jobs k (w.job k), gens := upd s.jm.gens k (s.gen k + 1),
          owned := upd s.jm.owned j.owner (s.owned j.owner - 1) }
        sp := { s.sp with marks := w.sp.marks }
        du := { s.du with claims := upd s.du.claims e.channel none }
        rr := { s.rr with routes := w.rr.routes }
        le := { (acknowledged s).le with link := .idle, abandon := [] } }
      rw [job, ← empty]
      exact congrArg (fun u : State => { u with le := { u.le with link := .idle } }) frame

end Sys2Proof.Machine
end

section
/-! SUPPORT. The framing of requests (sections 9.1, 10.2 and 10.3): frames and bodies, and the eighteen requests by their parameter
sizes. -/

namespace Sys2Proof

variable {h : HostId} {op len : Byte} {ps rest frame : List Byte} {c : Instr}

/-! ## Sums and CHECK -/

theorem sum8_append (xs ys : List Byte) : sum8 (xs ++ ys) = sum8 xs + sum8 ys := by
  induction xs with
  | nil => simp [sum8]
  | cons x xs ih => rw [List.cons_append, sum8, sum8, ih, BitVec.add_assoc]

theorem sum8_withCheck (bs : List Byte) : sum8 (withCheck bs) = 0 := by
  rw [withCheck, sum8_append, checkOf, sum8, sum8]
  simp

/-- The byte that completes a sum to 00h is the CHECK. -/
theorem eq_checkOf {bs : List Byte} {x : Byte} (whole : sum8 (bs ++ [x]) = 0) : x = checkOf bs := by
  rw [sum8_append, sum8, sum8] at whole
  rw [checkOf]
  bv_omega

/-! ## Frames and bodies -/

/-- OPCODE and parameters that pass the framing check (R166). -/
abbrev legalBody (op : Byte) (ps : List Byte) : Prop :=
  op ∈ requestCodes ∧ ps.length ≤ 248 ∧ paramSizeFits op ps.length = true

/-- The frame of a body. -/
abbrev frameOfBody (op : Byte) (ps : List Byte) : List Byte := withCheck (op :: BitVec.ofNat 8 ps.length :: ps)

theorem len_toNat (short : ps.length ≤ 248) : (BitVec.ofNat 8 ps.length).toNat = ps.length := by
  rw [BitVec.toNat_ofNat]
  omega

/-- The frame of a legal body is whole, passes the check, and spells what the body spells. -/
theorem decodeRequest_frameOfBody (legal : legalBody op ps) : decodeRequest h (frameOfBody op ps) = decodeBody h op ps := by
  obtain ⟨code, short, fits⟩ := legal
  have len := len_toNat short
  have shape : frameOfBody op ps = op :: BitVec.ofNat 8 ps.length :: (ps ++ [checkOf (op :: BitVec.ofNat 8 ps.length :: ps)]) := rfl
  have whole : frameComplete (frameOfBody op ps) = true := by
    rw [shape, frameComplete, len, decide_eq_true_eq, List.length_append, List.length_singleton]
  have sound : frameFaulty (frameOfBody op ps) = false := by
    have sum : sum8 (frameOfBody op ps) = 0 := sum8_withCheck _
    rw [shape] at sum ⊢
    rw [frameFaulty, sum, len, fits]
    simp only [code, Config.maxLen]
    simp only [ne_eq, not_true_eq_false, decide_false, Bool.not_true, Bool.or_self, Bool.false_or, Bool.or_false]
    exact decide_eq_false (Nat.not_lt.mpr short)
  rw [shape] at whole sound ⊢
  rw [decodeRequest, whole, sound]
  exact congrArg (decodeBody h op) List.dropLast_concat

/-- A whole frame that passes the check is the frame of a legal body. -/
theorem frame_of_sound (whole : frameComplete frame = true) (sound : frameFaulty frame = false) :
    ∃ op ps, legalBody op ps ∧ frame = frameOfBody op ps := by
  match frame, whole, sound with
  | op :: len :: rest, whole, sound =>
    rw [frameComplete, decide_eq_true_eq] at whole
    simp only [frameFaulty, Bool.or_eq_false_iff, decide_eq_false_iff_not, not_not, not_lt, Bool.not_eq_false'] at sound
    obtain ⟨⟨⟨sum, code⟩, short⟩, fits⟩ := sound
    obtain ⟨ps, x, rfl⟩ : ∃ ps x, rest = ps ++ [x] := by
      obtain rfl | ⟨ps, x, eq⟩ := rest.eq_nil_or_concat
      · simp at whole
      · exact ⟨ps, x, by rw [eq, List.concat_eq_append]⟩
    have size : ps.length = len.toNat := by simpa using whole
    have same : len = BitVec.ofNat 8 ps.length := by
      rw [size]
      rw [BitVec.ofNat_toNat, BitVec.setWidth_eq]
    have short : len.toNat ≤ 248 := short
    refine ⟨op, ps, ⟨code, by omega, by rw [size]; exact fits⟩, ?_⟩
    have check := eq_checkOf (bs := op :: len :: ps) sum
    rw [frameOfBody, withCheck, ← same, ← check]
    rfl

end Sys2Proof
end

section
/-! SUPPORT. The bodies of the eighteen requests (sections 10.2 and 10.3). -/

namespace Sys2Proof

variable {h : HostId} {op a b d : Byte} {ps : List Byte} {c : Instr}

/-- The body spells the request, which can reach the part on port `h`. -/
abbrev spells (h : HostId) (op : Byte) (ps : List Byte) (c : Instr) : Prop :=
  decodeBody h op ps = some c ∧ requestHost c = some h ∧ c.wellFormed = true ∧ requestBody c = some (op, ps)

/-! ## A 16-bit value in two bytes -/

theorem wordOf16_bytes (v : BitVec 16) : wordOf16 (v.extractLsb' 8 8) (v.extractLsb' 0 8) = v := by
  refine BitVec.eq_of_getLsbD_eq fun i bound => ?_
  rw [wordOf16, BitVec.getLsbD_append]
  split
  · next low => simp [low]
  · next high =>
    have upper : i - 8 < 8 := by omega
    simp [upper, show 8 + (i - 8) = i by omega]

theorem bytesOf16_word (hi lo : Byte) : bytesOf16 (wordOf16 hi lo) = [hi, lo] := by
  have upper : (wordOf16 hi lo).extractLsb' 8 8 = hi := by
    refine BitVec.eq_of_getLsbD_eq fun i bound => ?_
    rw [BitVec.getLsbD_extractLsb', wordOf16, BitVec.getLsbD_append]
    simp [bound]
  have lower : (wordOf16 hi lo).extractLsb' 0 8 = lo := by
    refine BitVec.eq_of_getLsbD_eq fun i bound => ?_
    rw [BitVec.getLsbD_extractLsb', wordOf16, BitVec.getLsbD_append]
    simp [bound]
  rw [bytesOf16, upper, lower]

/-! ## Bodies by their size -/

theorem spells_none (mem : op ∈ [0x01#8, 0x02#8, 0x30#8, 0x40#8, 0x41#8, 0x50#8, 0x51#8]) : ∃ c, spells h op [] c := by
  simp only [List.mem_cons, List.not_mem_nil, or_false] at mem
  rcases mem with rfl | rfl | rfl | rfl | rfl | rfl | rfl <;> exact ⟨_, rfl, rfl, rfl, rfl⟩

theorem spells_one (mem : op ∈ [0x12#8, 0x14#8, 0x15#8, 0x16#8, 0x31#8]) (a : Byte) : ∃ c, spells h op [a] c := by
  simp only [List.mem_cons, List.not_mem_nil, or_false] at mem
  rcases mem with rfl | rfl | rfl | rfl | rfl <;> exact ⟨_, rfl, rfl, rfl, rfl⟩

theorem spells_two (mem : op ∈ [0x13#8, 0x20#8, 0x43#8]) (a b : Byte) : ∃ c, spells h op [a, b] c := by
  simp only [List.mem_cons, List.not_mem_nil, or_false] at mem
  rcases mem with rfl | rfl | rfl <;> exact ⟨_, rfl, rfl, rfl, rfl⟩

theorem spells_open (a b d : Byte) : ∃ c, spells h 0x10#8 [a, b, d] c := ⟨_, rfl, rfl, rfl, rfl⟩

theorem spells_set (a b hi lo : Byte) : ∃ c, spells h 0x42#8 [a, b, hi, lo] c := by
  refine ⟨.setSetting h a b (wordOf16 hi lo), rfl, rfl, rfl, ?_⟩
  rw [requestBody, bytesOf16_word]

theorem spells_append (a b d : Byte) (bytes : List Byte) (short : bytes.length ≤ 245) :
    ∃ c, spells h 0x11#8 (a :: b :: d :: bytes) c :=
  ⟨.append h a b d bytes, rfl, rfl, decide_eq_true short, rfl⟩

/-- Every legal body spells a request (R166). -/
theorem legalBody_spells (legal : legalBody op ps) : ∃ c, spells h op ps c := by
  obtain ⟨-, short, fits⟩ := legal
  rw [paramSizeFits] at fits
  split at fits
  · next code =>
    subst code
    match ps, of_decide_eq_true fits with
    | a :: b :: d :: bytes, _ =>
      rw [List.length_cons, List.length_cons, List.length_cons] at short
      exact spells_append a b d bytes (by omega)
  split at fits
  · next code =>
    subst code
    match ps, of_decide_eq_true fits with
    | [a, b, d], _ => exact spells_open a b d
  split at fits
  · next code =>
    subst code
    match ps, of_decide_eq_true fits with
    | [a, b, hi, lo], _ => exact spells_set a b hi lo
  split at fits
  · next code =>
    match ps, of_decide_eq_true fits with
    | [a, b], _ => exact spells_two code a b
  split at fits
  · next code =>
    match ps, of_decide_eq_true fits with
    | [a], _ => exact spells_one code a
  split at fits
  · next code =>
    match ps, of_decide_eq_true fits with
    | [], _ => exact spells_none code
  · cases fits

/-- Every request that can reach the part has a legal body, which spells it. -/
theorem request_legalBody (host : requestHost c = some h) (fits : c.wellFormed = true) :
    ∃ op ps, requestBody c = some (op, ps) ∧ legalBody op ps ∧ decodeBody h op ps = some c := by
  cases c with
  | append x a b d bytes =>
    obtain rfl := Option.some.inj host
    have short : bytes.length ≤ 245 := of_decide_eq_true fits
    refine ⟨0x11#8, a :: b :: d :: bytes, rfl, ⟨by decide, ?_, ?_⟩, rfl⟩
    · rw [List.length_cons, List.length_cons, List.length_cons]
      omega
    · exact decide_eq_true (p := 3 ≤ (a :: b :: d :: bytes).length) (by simp)
  | setSetting x i n v =>
    obtain rfl := Option.some.inj host
    refine ⟨_, _, rfl, ⟨by decide, by simp [bytesOf16], rfl⟩, ?_⟩
    exact congrArg (fun w => some (Instr.setSetting x i n w)) (wordOf16_bytes v)
  | ident | last | openJob | close | setPriority | cancel | release | jobStatus | readReply | fetchEvent | subscribe | leaseTake
  | leaseDrop | getSetting | linkStatus | linkReset =>
    obtain rfl := Option.some.inj host
    exact ⟨_, _, rfl, ⟨by decide, by simp, rfl⟩, rfl⟩
  | _ => cases host

/-- Settles O3: requests and their bodies, bodies and their frames. -/
theorem requestFramesEncodeAndDecode : Obligations.RequestFramesEncodeAndDecode := by
  constructor
  · intro c h host fits
    obtain ⟨op, ps, body, legal, decodes⟩ := request_legalBody host fits
    exact ⟨frameOfBody op ps, by rw [encodeRequest, body]; rfl, (decodeRequest_frameOfBody legal).trans decodes⟩
  · intro h frame whole sound
    obtain ⟨op, ps, legal, rfl⟩ := frame_of_sound whole sound
    obtain ⟨c, decodes, host, fits, body⟩ := legalBody_spells (h := h) legal
    exact ⟨c, (decodeRequest_frameOfBody legal).trans decodes, host, fits, by rw [encodeRequest, body]; rfl⟩

end Sys2Proof
end

section
/-! SUPPORT. One job of a host at its port reset (R21, R22, R39, R66): released, or ORPHANED and on the abandon list. -/

namespace Sys2Proof.Machine

variable {s t u : State} {h : HostId} {a k m z : SlotId} {j : Job} {c : Cause} {l : List SlotId}

/-! ## Which jobs go, and what becomes of them -/

/-- A job of host `h` of which DU lets go (R66). -/
abbrev lost (h : HostId) (j : Job) : Bool := decide (j.owner = h) && !decide (j.state ∈ [JobState.free, .ended, .cancelling])

/-- A job of host `h` that goes on the abandon list (R131). -/
abbrev abandoned (h : HostId) (j : Job) : Bool := decide (j.owner = h) && partlySent j

/-- A job of host `h` whose slot is released, ENDED jobs aside (R22). -/
abbrev dropped (h : HostId) (j : Job) : Bool := lost h j && !partlySent j

/-- What becomes of a record, ENDED jobs aside (R21). -/
def orphanedRecord (h : HostId) (j : Job) : Job :=
  if abandoned h j then { j with orphaned := true, chain := [], queued := 0, state := .cancelling }
  else if dropped h j then freeJob
  else if j.owner = h ∧ j.state = .cancelling then { j with orphaned := true }
  else j

/-- DU lets go of a job, active or not. -/
theorem removeFromDispatch_eq (k : SlotId) (s : State) : removeFromDispatch k s = { s with
    du := { s.du with
      ready := s.du.ready.erase k, stack := s.du.stack.erase k, active := if s.du.active = some k then none else s.du.active }
    le := { s.le with dryTimer := if s.du.active = some k then none else s.le.dryTimer } } := by
  rw [removeFromDispatch]
  split <;> rfl

/-- What changes where a job of the host is orphaned or released: the job table, the pool without its marks, the routes, and the
structures named. -/
structure Dropped (h : HostId) (s t : State) (k : SlotId) : Prop where
  job : ∀ z, t.job z = if k = z then orphanedRecord h (s.job k) else s.job z
  gen : ∀ z, t.gen z = if k = z ∧ dropped h (s.job k) = true then s.gen k + 1 else s.gen z
  frame : t = { s with
    jm := t.jm
    sp := { t.sp with marks := s.sp.marks }
    rr := { s.rr with routes := t.rr.routes }
    du := { s.du with
      ready := if lost h (s.job k) then s.du.ready.erase k else s.du.ready
      stack := if lost h (s.job k) then s.du.stack.erase k else s.du.stack
      active := if lost h (s.job k) = true ∧ s.du.active = some k then none else s.du.active }
    le := { s.le with
      abandon := s.le.abandon ++ if abandoned h (s.job k) then
        [{ job := s.handle k, channel := (s.job k).channel, cause := .byOwner }] else []
      dryTimer := if lost h (s.job k) = true ∧ s.du.active = some k then none else s.le.dryTimer } }

theorem Dropped.nothing (kept : lost h (s.job k) = false) (record : orphanedRecord h (s.job k) = s.job k)
    (off : abandoned h (s.job k) = false) : Dropped h s s k where
  job z := by
    split
    · next here => rw [← here, record]
    · rfl
  gen z := by
    rw [if_neg fun both => by rw [dropped, kept] at both; cases both.2]
  frame := by
    simp only [kept, off, Bool.false_eq_true, false_and, if_false, List.append_nil]

theorem lost_of_partlySent (own : (s.job k).owner = h) (partly : partlySent (s.job k) = true) : lost h (s.job k) = true := by
  rw [partlySent, Bool.and_eq_true] at partly
  obtain ⟨-, live⟩ := partly
  have off : (s.job k).state ∉ [JobState.free, .ended, .cancelling] := fun mem => by
    rw [List.mem_cons, List.mem_cons, List.mem_singleton] at mem
    rcases mem with q | q | q <;> rw [q] at live <;> cases live
  rw [lost, decide_eq_true own, decide_eq_false off]
  rfl

/-- The job in slot `k` marked ORPHANED, and let go of by DU. -/
abbrev letGoOrphan (s : State) (k : SlotId) : State := removeFromDispatch k (withJob s k { s.job k with orphaned := true })

theorem letGoOrphan_job (s : State) (k : SlotId) : (letGoOrphan s k).job k = { s.job k with orphaned := true } := by
  rw [letGoOrphan, removeFromDispatch_eq]
  exact upd_same ..

section
variable (gone : lost h (s.job k) = true)
include gone

/-- A partly sent job joins the abandon list, ORPHANED (R131, R134). -/
theorem cancelOrphan_partly (own : (s.job k).owner = h) (partly : partlySent (s.job k) = true) :
    Dropped h s (cancelJob k .byOwner (withJob s k { s.job k with orphaned := true })) k := by
  have job : (withJob s k { s.job k with orphaned := true }).job k = { s.job k with orphaned := true } := upd_same ..
  have off : abandoned h (s.job k) = true := by rw [abandoned, decide_eq_true own, partly]; rfl
  have record : orphanedRecord h (s.job k) =
      { s.job k with orphaned := true, chain := [], queued := 0, state := .cancelling } := by rw [orphanedRecord, if_pos off]
  have held : dropped h (s.job k) = false := by rw [dropped, partly, Bool.not_true, Bool.and_false]
  have eq : cancelJob k .byOwner (withJob s k { s.job k with orphaned := true }) =
      joinAbandonList k .byOwner (discardChain k (abortRoute k (letGoOrphan s k))) := by
    have still : partlySent ((withJob s k { s.job k with orphaned := true }).job k) = true := by rw [job]; exact partly
    rw [cancelJob_eq, still]
    rfl
  have frame := abandonAborted_eq k .byOwner (letGoOrphan s k)
  generalize (abortRoute k (letGoOrphan s k)).rr.routes = v at frame
  rw [← eq, letGoOrphan_job, letGoOrphan, removeFromDispatch_eq] at frame
  simp only [upd_upd] at frame
  generalize cancelJob k .byOwner (withJob s k { s.job k with orphaned := true }) = t at frame
  refine ⟨fun z => ?_, fun z => ?_, ?_⟩
  · rw [frame, record]
    exact upd_get ..
  · rw [held, if_neg fun both => Bool.false_ne_true both.2, frame]
    rfl
  · simp only [gone, off, true_and, if_true]
    rw [frame]
    rfl

/-- A job without partial output is released (R22). -/
theorem cancelOrphan_alone (whole : partlySent (s.job k) = false) :
    Dropped h s (cancelJob k .byOwner (withJob s k { s.job k with orphaned := true })) k := by
  have job : (withJob s k { s.job k with orphaned := true }).job k = { s.job k with orphaned := true } := upd_same ..
  have off : abandoned h (s.job k) = false := by rw [abandoned, whole, Bool.and_false]
  have held : dropped h (s.job k) = true := by rw [dropped, gone, whole]; rfl
  have record : orphanedRecord h (s.job k) = freeJob := by
    rw [orphanedRecord, off, if_neg Bool.false_ne_true, if_pos held]
  have eq : cancelJob k .byOwner (withJob s k { s.job k with orphaned := true }) =
      endJob k .cancelled .byOwner (abortRoute k (letGoOrphan s k)) := by
    have still : partlySent ((withJob s k { s.job k with orphaned := true }).job k) = false := by rw [job]; exact whole
    rw [cancelJob_eq, still]
    rfl
  have aborted := abortRoute_frame k (letGoOrphan s k)
  generalize (abortRoute k (letGoOrphan s k)).rr.routes = v at aborted
  rw [aborted] at eq
  have orphan : ({ letGoOrphan s k with rr := { (letGoOrphan s k).rr with routes := v } } : State).job k =
      { s.job k with orphaned := true } := letGoOrphan_job s k
  have frame := endJob_orphaned (s := { letGoOrphan s k with rr := { (letGoOrphan s k).rr with routes := v } }) (k := k) .cancelled
    .byOwner (by rw [orphan])
  rw [← eq, orphan, letGoOrphan, removeFromDispatch_eq] at frame
  simp only [upd_upd] at frame
  generalize cancelJob k .byOwner (withJob s k { s.job k with orphaned := true }) = t at frame
  refine ⟨fun z => ?_, fun z => ?_, ?_⟩
  · rw [frame, record]
    exact upd_get ..
  · rw [frame, held]
    refine (upd_get ..).trans ?_
    by_cases here : k = z
    · rw [if_pos here]
      exact (if_pos (⟨here, rfl⟩ : k = z ∧ true = true)).symm
    · rw [if_neg here]
      exact (if_neg fun both : k = z ∧ true = true => here both.1).symm
  · simp only [gone, off, true_and, if_true, Bool.false_eq_true, if_false, List.append_nil]
    rw [frame]

end

/-- One slot at the port reset of host `h`, ENDED jobs aside (R21). -/
theorem orphanSlot_dropped (over' : (s.job k).owner = h → (s.job k).state ≠ .ended) : Dropped h s (orphanSlot h s k) k := by
  rw [orphanSlot]
  by_cases own : (s.job k).owner = h
  · rw [if_pos own]
    have cancels : lost h (s.job k) = true →
        Dropped h s (cancelJob k .byOwner (withJob s k { s.job k with orphaned := true })) k := fun gone => by
      cases partly : partlySent (s.job k) with
      | true => exact cancelOrphan_partly gone own partly
      | false => exact cancelOrphan_alone gone partly
    have off : lost h (s.job k) = false → partlySent (s.job k) = false := fun kept =>
      Bool.eq_false_iff.mpr fun partly => Bool.false_ne_true (kept.symm.trans (lost_of_partlySent own partly))
    cases state : (s.job k).state with
    | free =>
      have kept : lost h (s.job k) = false := by rw [lost, state]; simp
      have whole := off kept
      exact .nothing kept (by simp [orphanedRecord, kept, whole, state]) (by rw [abandoned, whole, Bool.and_false])
    | ended => exact absurd state (over' own)
    | cancelling =>
      have kept : lost h (s.job k) = false := by rw [lost, state]; simp
      have whole := off kept
      have held : dropped h (s.job k) = false := by rw [dropped, kept, Bool.false_and]
      have away : abandoned h (s.job k) = false := by rw [abandoned, whole, Bool.and_false]
      refine ⟨fun z => ?_, fun z => ?_, ?_⟩
      · rw [State.setJob_job]
        simp [orphanedRecord, kept, whole, state, own]
      · rw [held, if_neg fun both => Bool.false_ne_true both.2]
        rfl
      · simp only [kept, away, Bool.false_eq_true, false_and, if_false, List.append_nil]
        rfl
    | filling | ready | active | suspended | starved | awaitReply =>
      exact cancels (by rw [lost, decide_eq_true own, state]; simp)
  · rw [if_neg own]
    have other : lost h (s.job k) = false := by rw [lost, decide_eq_false own, Bool.false_and]
    have away : abandoned h (s.job k) = false := by rw [abandoned, decide_eq_false own, Bool.false_and]
    exact .nothing other (by simp [orphanedRecord, own]) away

end Sys2Proof.Machine
end

section
/-! SUPPORT. All jobs of a host at its port reset (R21, R67, R149). -/

namespace Sys2Proof.Machine

variable {s t u : State} {h : HostId} {a k m z : SlotId} {j : Job} {l : List SlotId}

/-! ## The ENDED jobs -/

/-- The record is that of an ENDED job of host `h` (R21). -/
abbrev endedOf (h : HostId) (j : Job) : Prop := j.owner = h ∧ j.state = .ended

/-- What the release of ENDED jobs changes. -/
structure EndedReleased (h : HostId) (s t : State) (l : List SlotId) : Prop where
  job : ∀ z, t.job z = if z ∈ l ∧ endedOf h (s.job z) then freeJob else s.job z
  gen : ∀ z, t.gen z = if z ∈ l ∧ endedOf h (s.job z) then s.gen z + 1 else s.gen z
  frame : t = { s with jm := t.jm, rr := { s.rr with routes := t.rr.routes } }

theorem releaseEnded_job (h : HostId) (s : State) (k z : SlotId) :
    (releaseEnded h s k).job z = if k = z ∧ endedOf h (s.job z) then freeJob else s.job z := by
  rw [releaseEnded]
  by_cases here : k = z
  · subst here
    by_cases over' : endedOf h (s.job k)
    · rw [if_pos over', releaseSlot_job, if_pos rfl]
      exact (if_pos ⟨rfl, over'⟩).symm
    · rw [if_neg over']
      exact (if_neg fun both => over' both.2).symm
  · have same : (if endedOf h (s.job k) then releaseSlot k s else s).job z = s.job z := by
      split
      · rw [releaseSlot_job, if_neg here]
      · rfl
    exact same.trans (if_neg fun both => here both.1).symm

theorem releaseEnded_gen (h : HostId) (s : State) (k z : SlotId) :
    (releaseEnded h s k).gen z = if k = z ∧ endedOf h (s.job z) then s.gen z + 1 else s.gen z := by
  rw [releaseEnded]
  by_cases here : k = z
  · subst here
    by_cases over' : endedOf h (s.job k)
    · rw [if_pos over', releaseSlot_gen, if_pos rfl]
      exact (if_pos ⟨rfl, over'⟩).symm
    · rw [if_neg over']
      exact (if_neg fun both => over' both.2).symm
  · have same : (if endedOf h (s.job k) then releaseSlot k s else s).gen z = s.gen z := by
      split
      · rw [releaseSlot_gen, if_neg here]
      · rfl
    exact same.trans (if_neg fun both => here both.1).symm

theorem releaseEnded_frame (h : HostId) (s : State) (k : SlotId) : releaseEnded h s k =
    { s with jm := (releaseEnded h s k).jm, rr := { s.rr with routes := (releaseEnded h s k).rr.routes } } := by
  rw [releaseEnded]
  split
  · have frame := releaseSlot_frame k s
    generalize releaseSlot k s = t at frame
    rw [frame]
  · rfl

theorem releaseEnded_released (l : List SlotId) (distinct : l.Nodup) (s : State) :
    EndedReleased h s (l.foldl (releaseEnded h) s) l := by
  induction l generalizing s with
  | nil => exact ⟨fun z => by simp, fun z => by simp, rfl⟩
  | cons k l ih =>
    obtain ⟨fresh, distinct⟩ := List.nodup_cons.mp distinct
    obtain ⟨job, gen, frame⟩ := ih distinct (releaseEnded h s k)
    have apart : ∀ z ∈ l, ∀ p : Prop, ¬ (k = z ∧ p) := fun z mem _ both => fresh (both.1 ▸ mem)
    have other : ∀ z ∈ l, (releaseEnded h s k).job z = s.job z := fun z mem => by
      rw [releaseEnded_job, if_neg (apart z mem _)]
    rw [List.foldl_cons]
    refine ⟨fun z => ?_, fun z => ?_, ?_⟩
    · rw [job]
      by_cases mem : z ∈ l
      · simp only [other z mem, mem, List.mem_cons, or_true, true_and]
      · rw [if_neg fun both => mem both.1, releaseEnded_job]
        simp only [List.mem_cons, mem, or_false, eq_comm]
    · rw [gen]
      by_cases mem : z ∈ l
      · have same : (releaseEnded h s k).gen z = s.gen z := by rw [releaseEnded_gen, if_neg (apart z mem _)]
        simp only [other z mem, same, mem, List.mem_cons, or_true, true_and]
      · rw [if_neg fun both => mem both.1, releaseEnded_gen]
        simp only [List.mem_cons, mem, or_false, eq_comm]
    · generalize l.foldl (releaseEnded h) (releaseEnded h s k) = t at frame
      rw [frame, releaseEnded_frame]

/-! ## The others -/

/-- What the fold over the slots changes, no ENDED job of the host being left. -/
structure AllDropped (h : HostId) (s t : State) (l : List SlotId) : Prop where
  job : ∀ z, t.job z = if z ∈ l then orphanedRecord h (s.job z) else s.job z
  gen : ∀ z, t.gen z = if z ∈ l ∧ dropped h (s.job z) = true then s.gen z + 1 else s.gen z
  frame : t = { s with
    jm := t.jm
    sp := { t.sp with marks := s.sp.marks }
    rr := { s.rr with routes := t.rr.routes }
    du := { s.du with
      ready := s.du.ready.diff (l.filter fun k => lost h (s.job k))
      stack := s.du.stack.diff (l.filter fun k => lost h (s.job k))
      active := t.du.active }
    le := { s.le with
      abandon := s.le.abandon ++ (l.filter fun k => abandoned h (s.job k)).map fun k =>
        { job := s.handle k, channel := (s.job k).channel, cause := .byOwner }
      dryTimer := t.le.dryTimer } }
  kept : (∀ a ∈ l, s.du.active = some a → lost h (s.job a) = false) →
    t.du.active = s.du.active ∧ t.le.dryTimer = s.le.dryTimer
  left : ∀ a ∈ l, s.du.active = some a → lost h (s.job a) = true → t.du.active = none ∧ t.le.dryTimer = none

theorem orphanSlot_allDropped (l : List SlotId) (distinct : l.Nodup) (s : State)
    (over' : ∀ z ∈ l, (s.job z).owner = h → (s.job z).state ≠ .ended) :
    AllDropped h s (l.foldl (orphanSlot h) s) l := by
  induction l generalizing s with
  | nil =>
    refine ⟨fun z => by simp, fun z => by simp, ?_, fun _ => ⟨rfl, rfl⟩, by simp⟩
    simp only [List.foldl_nil, List.filter_nil, List.diff_nil, List.map_nil, List.append_nil]
  | cons k l ih =>
    obtain ⟨fresh, distinct⟩ := List.nodup_cons.mp distinct
    obtain ⟨job₁, gen₁, frame₁⟩ := orphanSlot_dropped (over' k (List.mem_cons_self ..))
    have other : ∀ z ∈ l, (orphanSlot h s k).job z = s.job z := fun z mem => by
      rw [job₁, if_neg fun e : k = z => fresh (e ▸ mem)]
    have step := ih distinct (orphanSlot h s k) fun z mem => by
      rw [other z mem]
      exact over' z (List.mem_cons_of_mem _ mem)
    obtain ⟨job, gen, frame, kept, left⟩ := step
    have gones : (l.filter fun z => lost h ((orphanSlot h s k).job z)) = l.filter fun z => lost h (s.job z) :=
      List.filter_congr fun z mem => by rw [other z mem]
    have listed : (l.filter fun z => abandoned h ((orphanSlot h s k).job z)) = l.filter fun z => abandoned h (s.job z) :=
      List.filter_congr fun z mem => by rw [other z mem]
    have genOther : ∀ z ∈ l, (orphanSlot h s k).gen z = s.gen z := fun z mem => by
      rw [gen₁, if_neg fun both : k = z ∧ dropped h (s.job k) = true => fresh (both.1 ▸ mem)]
    have entries : ((l.filter fun z => abandoned h (s.job z)).map fun z =>
        ({ job := (orphanSlot h s k).handle z, channel := ((orphanSlot h s k).job z).channel, cause := .byOwner } : AbandonEntry)) =
        (l.filter fun z => abandoned h (s.job z)).map fun z =>
          { job := s.handle z, channel := (s.job z).channel, cause := .byOwner } :=
      List.map_congr_left fun z mem => by
        have mem := (List.mem_filter.mp mem).1
        rw [State.handle, genOther z mem, other z mem, State.handle]
    rw [gones, listed, entries] at frame
    have active₁ : (orphanSlot h s k).du.active =
        if lost h (s.job k) = true ∧ s.du.active = some k then none else s.du.active := by rw [frame₁]
    have dry₁ : (orphanSlot h s k).le.dryTimer =
        if lost h (s.job k) = true ∧ s.du.active = some k then none else s.le.dryTimer := by rw [frame₁]
    rw [List.foldl_cons]
    generalize l.foldl (orphanSlot h) (orphanSlot h s k) = t at job gen frame kept left
    generalize orphanSlot h s k = s₁ at *
    refine ⟨fun z => ?_, fun z => ?_, ?_, fun off => ?_, fun a mem active gone => ?_⟩
    · rw [job]
      by_cases mem : z ∈ l
      · rw [if_pos mem, if_pos (List.mem_cons_of_mem _ mem), other z mem]
      · rw [if_neg mem, job₁]
        by_cases here : k = z
        · rw [if_pos here, if_pos (here ▸ List.mem_cons_self ..), here]
        · rw [if_neg here, if_neg fun both => (List.mem_cons.mp both).elim (fun e => here e.symm) mem]
    · rw [gen]
      by_cases mem : z ∈ l
      · simp only [other z mem, genOther z mem, mem, List.mem_cons, or_true, true_and]
      · rw [if_neg fun both : z ∈ l ∧ _ => mem both.1, gen₁]
        by_cases here : k = z
        · subst here
          simp only [List.mem_cons, true_or, true_and]
        · rw [if_neg fun both : k = z ∧ _ => here both.1,
            if_neg fun both : z ∈ k :: l ∧ _ => (List.mem_cons.mp both.1).elim (fun e => here e.symm) mem]
    · have erased : ∀ q : List SlotId, (if lost h (s.job k) then q.erase k else q).diff (l.filter fun z => lost h (s.job z)) =
          q.diff ((k :: l).filter fun z => lost h (s.job z)) := fun q => by
        rw [List.filter_cons]
        split
        · rw [List.diff_cons]
        · rfl
      have joined : (if abandoned h (s.job k) then
            [({ job := s.handle k, channel := (s.job k).channel, cause := .byOwner } : AbandonEntry)] else []) ++
          ((l.filter fun z => abandoned h (s.job z)).map fun z =>
            { job := s.handle z, channel := (s.job z).channel, cause := .byOwner }) =
          ((k :: l).filter fun z => abandoned h (s.job z)).map fun z =>
            { job := s.handle z, channel := (s.job z).channel, cause := .byOwner } := by
        rw [List.filter_cons]
        split
        · rw [List.map_cons, List.singleton_append]
        · rw [List.nil_append]
      rw [← joined, ← erased, ← erased, ← List.append_assoc]
      generalize (l.filter fun z => abandoned h (s.job z)).map (fun z =>
        ({ job := s.handle z, channel := (s.job z).channel, cause := .byOwner } : AbandonEntry)) = later at frame
      generalize (l.filter fun z => lost h (s.job z)) = gone at frame
      rw [frame, frame₁]
    · have same : s₁.du.active = s.du.active ∧ s₁.le.dryTimer = s.le.dryTimer := by
        have apart : ¬ (lost h (s.job k) = true ∧ s.du.active = some k) := fun both =>
          Bool.false_ne_true ((off k (List.mem_cons_self ..) both.2).symm.trans both.1)
        rw [active₁, dry₁, if_neg apart, if_neg apart]
        exact ⟨rfl, rfl⟩
      obtain ⟨still, timer⟩ := kept fun z mem active => by
        rw [other z mem]
        exact off z (List.mem_cons_of_mem _ mem) (same.1 ▸ active)
      exact ⟨still.trans same.1, timer.trans same.2⟩
    · by_cases here : a = k
      · subst here
        have none₁ : s₁.du.active = none := active₁.trans (if_pos ⟨gone, active⟩)
        obtain ⟨still, timer⟩ := kept fun z _ active => absurd (none₁.symm.trans active) nofun
        exact ⟨still.trans none₁, timer.trans (dry₁.trans (if_pos ⟨gone, active⟩))⟩
      · have mem : a ∈ l := (List.mem_cons.mp mem).resolve_left here
        refine left a mem (active₁.trans ((if_neg fun both : _ ∧ s.du.active = some k => ?_).trans active)) (by rw [other a mem]; exact gone)
        exact here (Option.some.inj (active.symm.trans both.2))

end Sys2Proof.Machine
end

section
/-! SUPPORT. What the port reset leaves of the jobs, the link and the event units (R21, R37, R39, R161). -/

namespace Sys2Proof.Machine

variable {s t u v : State} {h x : HostId} {a k m z : SlotId} {j : Job} {n : Successor}

/-! ## Both passes over the job table -/

/-- What becomes of a record at the port reset of host `h` (R21). -/
def resetRecord (h : HostId) (j : Job) : Job := if endedOf h j then freeJob else orphanedRecord h j

/-- What both passes over the job table change. -/
structure JobsFall (h : HostId) (s t : State) : Prop where
  job : ∀ z, t.job z = resetRecord h (s.job z)
  gen : ∀ z, t.gen z = if endedOf h (s.job z) ∨ dropped h (s.job z) = true then s.gen z + 1 else s.gen z
  frame : t = { s with
    jm := t.jm
    sp := { t.sp with marks := s.sp.marks }
    rr := { s.rr with routes := t.rr.routes }
    du := { s.du with
      ready := s.du.ready.diff (allSlots.filter fun k => lost h (s.job k))
      stack := s.du.stack.diff (allSlots.filter fun k => lost h (s.job k))
      active := t.du.active }
    le := { s.le with
      abandon := s.le.abandon ++ (allSlots.filter fun k => abandoned h (s.job k)).map fun k =>
        { job := s.handle k, channel := (s.job k).channel, cause := .byOwner }
      dryTimer := t.le.dryTimer } }
  kept : (∀ a, s.du.active = some a → lost h (s.job a) = false) → t.du.active = s.du.active ∧ t.le.dryTimer = s.le.dryTimer
  left : ∀ a, s.du.active = some a → lost h (s.job a) = true → t.du.active = none ∧ t.le.dryTimer = none

theorem lost_freeJob : lost h freeJob = false := by simp [lost, freeJob]

theorem abandoned_freeJob : abandoned h freeJob = false := by simp [abandoned, partlySent, freeJob]

theorem orphanedRecord_freeJob : orphanedRecord h freeJob = freeJob := by
  rw [orphanedRecord, abandoned_freeJob, dropped, lost_freeJob]
  simp [freeJob]

theorem lost_of_ended (over' : endedOf h j) : lost h j = false := by simp [lost, over'.2]

theorem abandoned_of_ended (over' : endedOf h j) : abandoned h j = false := by simp [abandoned, partlySent, over'.2]

/-- The jobs that ENDED go first, and then the others (R21). -/
theorem jobsFall (h : HostId) (s : State) : JobsFall h s (allSlots.foldl (orphanSlot h) (allSlots.foldl (releaseEnded h) s)) := by
  have first := releaseEnded_released (h := h) allSlots allSlots_nodup s
  generalize allSlots.foldl (releaseEnded h) s = u at *
  obtain ⟨job₁, gen₁, frame₁⟩ := first
  simp only [mem_allSlots, true_and] at job₁ gen₁
  have second := orphanSlot_allDropped (h := h) allSlots allSlots_nodup u fun z _ own state => by
    rw [job₁] at own state
    by_cases over' : endedOf h (s.job z)
    · rw [if_pos over'] at state
      cases state
    · rw [if_neg over'] at own state
      exact over' ⟨own, state⟩
  generalize allSlots.foldl (orphanSlot h) u = t at *
  obtain ⟨job, gen, frame, kept, left⟩ := second
  have gone : ∀ z, lost h (u.job z) = lost h (s.job z) := fun z => by
    rw [job₁]
    split
    · next over' => rw [lost_freeJob, lost_of_ended over']
    · rfl
  have off : ∀ z, abandoned h (u.job z) = abandoned h (s.job z) := fun z => by
    rw [job₁]
    split
    · next over' => rw [abandoned_freeJob, abandoned_of_ended over']
    · rfl
  have active : u.du.active = s.du.active := by rw [frame₁]
  have dry : u.le.dryTimer = s.le.dryTimer := by rw [frame₁]
  refine ⟨fun z => ?_, fun z => ?_, ?_, fun none' => ?_, fun a holds lose => ?_⟩
  · rw [job, if_pos (mem_allSlots z), job₁, resetRecord]
    split
    · exact orphanedRecord_freeJob
    · rfl
  · rw [gen, gen₁]
    simp only [mem_allSlots, true_and]
    by_cases over' : endedOf h (s.job z)
    · have none' : dropped h (u.job z) = false := by rw [dropped, gone, lost_of_ended over', Bool.false_and]
      rw [none', if_neg Bool.false_ne_true, if_pos over', if_pos (.inl over')]
    · rw [job₁, if_neg over', if_neg over']
      simp only [over', false_or]
  · simp only [gone, off] at frame
    have entries : ((allSlots.filter fun z => abandoned h (s.job z)).map fun z =>
        ({ job := u.handle z, channel := (u.job z).channel, cause := .byOwner } : AbandonEntry)) =
        (allSlots.filter fun z => abandoned h (s.job z)).map fun z =>
          { job := s.handle z, channel := (s.job z).channel, cause := .byOwner } :=
      List.map_congr_left fun z mem => by
        have partly := (List.mem_filter.mp mem).2
        have over' : ¬ endedOf h (s.job z) := fun over' => Bool.false_ne_true ((abandoned_of_ended over').symm.trans partly)
        rw [State.handle, gen₁, if_neg over', job₁, if_neg over', State.handle]
    rw [entries] at frame
    generalize (allSlots.filter fun z => abandoned h (s.job z)).map (fun z =>
      ({ job := s.handle z, channel := (s.job z).channel, cause := .byOwner } : AbandonEntry)) = later at frame
    generalize (allSlots.filter fun z => lost h (s.job z)) = losses at frame
    rw [frame, frame₁]
  · obtain ⟨still, timer⟩ := kept fun a _ holds => (gone a).trans (none' a (active ▸ holds))
    exact ⟨still.trans active, timer.trans dry⟩
  · exact left a (mem_allSlots a) (active.trans holds) ((gone a).trans lose)

/-! ## The record of each job -/

theorem resetRecord_other (other : j.owner ≠ h ∨ j.state = .free) : resetRecord h j = j := by
  rw [resetRecord, if_neg, orphanedRecord]
  · rcases other with other | free
    · simp [other]
    · simp [partlySent, free]
  · rintro ⟨own, state⟩
    rcases other with other | free
    · exact other own
    · rw [free] at state
      cases state

theorem resetRecord_cancelling (own : j.owner = h) (state : j.state = .cancelling) :
    resetRecord h j = { j with orphaned := true } := by
  simp [resetRecord, orphanedRecord, partlySent, own, state]

theorem resetRecord_partly (own : j.owner = h) (partly : partlySent j = true) :
    resetRecord h j = { j with state := .cancelling, orphaned := true, chain := [], queued := 0 } := by
  have off : abandoned h j = true := by rw [abandoned, decide_eq_true own, partly]; rfl
  rw [resetRecord, if_neg fun over' => Bool.false_ne_true ((abandoned_of_ended over').symm.trans off), orphanedRecord, if_pos off]

theorem dropped_of_whole (own : j.owner = h) (free : j.state ≠ .free) (cancelling : j.state ≠ .cancelling)
    (whole : partlySent j = false) : endedOf h j ∨ dropped h j = true := by
  by_cases ended : j.state = .ended
  · exact .inl ⟨own, ended⟩
  · exact .inr (by simp [dropped, lost, own, free, cancelling, ended, whole])

theorem resetRecord_whole (gone : endedOf h j ∨ dropped h j = true) : resetRecord h j = freeJob := by
  rw [resetRecord]
  split
  · rfl
  · next alive =>
    have gone := gone.resolve_left alive
    have whole : abandoned h j = false := by
      rw [dropped, Bool.and_eq_true, Bool.not_eq_true'] at gone
      rw [abandoned, gone.2, Bool.and_false]
    rw [orphanedRecord, whole, if_neg Bool.false_ne_true, if_pos gone]

theorem not_dropped_of_partly (partly : partlySent j = true) : ¬ (endedOf h j ∨ dropped h j = true) := by
  rintro (⟨-, state⟩ | gone)
  · rw [partlySent, state, Bool.and_false] at partly
    cases partly
  · rw [dropped, partly, Bool.not_true, Bool.and_false] at gone
    cases gone

theorem not_dropped_of_cancelling (state : j.state = .cancelling) : ¬ (endedOf h j ∨ dropped h j = true) := by
  rintro (⟨-, ended⟩ | gone)
  · rw [state] at ended
    cases ended
  · simp [dropped, lost, state] at gone

theorem not_dropped_of_other (other : j.owner ≠ h ∨ j.state = .free) : ¬ (endedOf h j ∨ dropped h j = true) := by
  rintro (⟨own, ended⟩ | gone)
  · rcases other with other | free
    · exact other own
    · rw [free] at ended
      cases ended
  · rcases other with other | free
    · simp [dropped, lost, other] at gone
    · simp [dropped, lost, free] at gone

/-! ## The lease leaves the rest alone -/

theorem dropLeaseOf_blocks (h : HostId) (s : State) :
    dropLeaseOf h s = { s with eus := (dropLeaseOf h s).eus, su := (dropLeaseOf h s).su } := by
  rw [dropLeaseOf]
  dsimp only
  split
  · rw [handover_frame]
  · rfl

theorem dropLeaseOf_waiter (other : s.su.holder ≠ some h) :
    dropLeaseOf h s = { s with su := { s.su with waiters := s.su.waiters.filter fun x => decide (x ≠ h) } } := by
  rw [dropLeaseOf]
  exact if_neg other

theorem allowance_of_settings (used : t.sp.used = s.sp.used) (settings : t.su.settings = s.su.settings) (x : HostId) :
    allowance t x = allowance s x := by
  simp only [allowance, unusedReserve, sharedFree, State.used, used, settings]

end Sys2Proof.Machine
end

section
/-! The jobs of a host whose port is reset: what each becomes, and the link after it (R21, R22, R39, R67, R149). -/

namespace Sys2Proof.Machine

variable {s t u v e : State} {h x : HostId} {a k m z : SlotId} {n : Successor}

/-! ## The part after the jobs of the host have gone -/

/-- The slots of the jobs DU has let go of. -/
abbrev lostSlots (h : HostId) (s : State) : List SlotId := allSlots.filter fun k => lost h (s.job k)

/-- The slots of the jobs that join the abandon list. -/
abbrev abandonedSlots (h : HostId) (s : State) : List SlotId := allSlots.filter fun k => abandoned h (s.job k)

/-- The ready set and the stack without the jobs of the host. -/
abbrev duWithout (h : HostId) (s : State) : DispatchUnit :=
  { s.du with ready := s.du.ready.diff (lostSlots h s), stack := s.du.stack.diff (lostSlots h s) }

/-- The abandon list with the jobs of the host, in ascending slot order (R134). -/
abbrev listWith (h : HostId) (s : State) : List AbandonEntry :=
  s.le.abandon ++ (abandonedSlots h s).map fun k => { job := s.handle k, channel := (s.job k).channel, cause := .byOwner }

/-- The jobs of the host are gone, no one has the link in the place of one, and the space waiters are evaluated. -/
abbrev emptied (s : State) (h : HostId) : State :=
  evaluateSpace (allSlots.foldl (orphanSlot h) (allSlots.foldl (releaseEnded h) (portDropped s h)))

theorem emptied_falls (s : State) (h : HostId) :
    (∀ z, (emptied s h).job z = resetRecord h (s.job z)) ∧
    (∀ z, (emptied s h).gen z = if endedOf h (s.job z) ∨ dropped h (s.job z) = true then s.gen z + 1 else s.gen z) ∧
    (∀ x, x ≠ h → (emptied s h).eu x = unitAfter s x (spaceRecords s (emptied s h) x) ∧
      (emptied s h).mark x = if spaceDue s (emptied s h) x then none else s.mark x) ∧
    emptied s h = { s with
      ports := (emptied s h).ports, eus := (emptied s h).eus, jm := (emptied s h).jm, sp := (emptied s h).sp
      rr := (emptied s h).rr
      du := { duWithout h s with active := (emptied s h).du.active }
      le := { s.le with abandon := listWith h s, dryTimer := (emptied s h).le.dryTimer } } ∧
    ((∀ a, s.du.active = some a → lost h (s.job a) = false) →
      (emptied s h).du.active = s.du.active ∧ (emptied s h).le.dryTimer = s.le.dryTimer) ∧
    (∀ a, s.du.active = some a → lost h (s.job a) = true →
      (emptied s h).du.active = none ∧ (emptied s h).le.dryTimer = none) := by
  have falls := jobsFall h (portDropped s h)
  rw [emptied]
  generalize allSlots.foldl (orphanSlot h) (allSlots.foldl (releaseEnded h) (portDropped s h)) = w at *
  obtain ⟨job, gen, frame, kept, left⟩ := falls
  have spec := evaluateSpace_spec w
  have allow := evaluateSpace_allowance w
  have after := evaluateSpace_frame w
  generalize evaluateSpace w = e at *
  have jm : e.jm = w.jm := by rw [after]
  have du : e.du = w.du := by rw [after]
  have le : e.le = w.le := by rw [after]
  refine ⟨fun z => ?_, fun z => ?_, fun x other => ?_, ?_, fun off => ?_, fun a holds gone => ?_⟩
  · rw [State.job, jm]
    exact job z
  · rw [State.gen, jm]
    exact gen z
  · obtain ⟨mark, eu⟩ := spec x
    have port : w.port x = s.port x := by
      rw [State.port, frame]
      exact upd_ne _ _ fun e => other e.symm
    have unit : w.eu x = s.eu x := by
      rw [State.eu, frame]
      exact upd_ne _ _ fun e => other e.symm
    have same : w.mark x = s.mark x := by
      rw [State.mark, frame]
      exact upd_ne _ _ fun e => other e.symm
    have due : spaceDue s e x = spaceDue w w x := spaceDue_of_same same.symm (allow x)
    rw [mark, eu, unitAfter, port, unit, same, spaceRecords, spaceRecords, due]
    exact ⟨rfl, rfl⟩
  · rw [after]
    generalize e.eus = q, e.sp.marks = p
    rw [frame]
    rfl
  · rw [du, le]
    exact kept off
  · rw [du, le]
    exact left a holds gone

/-- What the statement tells of the part `t` after the port reset, the link and the Dispatch Unit being as in `u`. -/
abbrev becomes (h : HostId) (s t u : State) : Prop :=
  (∀ k, (s.job k).owner = h → (s.job k).state ≠ .free → (s.job k).state ≠ .cancelling → partlySent (s.job k) = false →
    (t.job k).state = .free ∧ t.gen k = s.gen k + 1) ∧
  (∀ k, (s.job k).owner = h → partlySent (s.job k) = true →
    t.job k = { s.job k with state := .cancelling, orphaned := true, chain := [], queued := 0 } ∧ t.gen k = s.gen k) ∧
  (∀ k, (s.job k).owner = h → (s.job k).state = .cancelling →
    t.job k = { s.job k with orphaned := true } ∧ t.gen k = s.gen k) ∧
  (∀ k, (s.job k).owner ≠ h ∨ (s.job k).state = .free → t.job k = u.job k ∧ t.gen k = s.gen k) ∧
  (s.su.holder ≠ some h → ∀ x, x ≠ h → t.eu x = unitAfter s x (spaceRecords s t x) ∧
    t.mark x = if spaceDue s t x then none else s.mark x) ∧
  t.du = u.du ∧ t.le = u.le ∧ t.pins = u.pins

/-- `v` has the generations, event units, pool and settings of `e`. -/
abbrev sameOutside (e v : State) : Prop := (∀ z, v.gen z = e.gen z) ∧ v.eus = e.eus ∧ v.sp = e.sp ∧ v.su = e.su

/-- The statement's words, from what the jobs of the host have left and what the link has done since. -/
theorem becomes_of (outside : sameOutside (emptied s h) v)
    (own : ∀ z, (s.job z).owner = h → (s.job z).state ≠ .free → v.job z = (emptied s h).job z)
    (others : ∀ z, (s.job z).owner ≠ h ∨ (s.job z).state = .free → v.job z = u.job z)
    (du : v.du = u.du) (le : v.le = u.le) (pins : v.pins = u.pins) : becomes h s (dropLeaseOf h v) u := by
  obtain ⟨job, gen, told, frame, -, -⟩ := emptied_falls s h
  have held : (emptied s h).su = s.su := by rw [frame]
  generalize emptied s h = e at *
  obtain ⟨gens, eus, sp, su⟩ := outside
  have blocks := dropLeaseOf_blocks h v
  have waiter := dropLeaseOf_waiter (h := h) (s := v)
  generalize dropLeaseOf h v = t at *
  have jm : t.jm = v.jm := by rw [blocks]
  have pool : t.sp = v.sp := by rw [blocks]
  have jobs : ∀ z, t.job z = v.job z := fun z => by rw [State.job, jm, State.job]
  have gened : ∀ z, t.gen z = v.gen z := fun z => by rw [State.gen, jm, State.gen]
  refine ⟨fun k mine free cancelling whole => ?_, fun k mine partly => ?_, fun k mine state => ?_, fun k other => ?_,
    fun holder x other => ?_, ?_, ?_, ?_⟩
  · have gone := dropped_of_whole mine free cancelling whole
    rw [jobs, own k mine free, job, resetRecord_whole gone, gened, gens, gen, if_pos gone]
    exact ⟨rfl, rfl⟩
  · have free : (s.job k).state ≠ .free := fun free => by
      rw [partlySent, free, Bool.and_false] at partly
      cases partly
    rw [jobs, own k mine free, job, resetRecord_partly mine partly, gened, gens, gen, if_neg (not_dropped_of_partly partly)]
    exact ⟨rfl, rfl⟩
  · have free : (s.job k).state ≠ .free := by
      rw [state]
      nofun
    rw [jobs, own k mine free, job, resetRecord_cancelling mine state, gened, gens, gen,
      if_neg (not_dropped_of_cancelling state)]
    exact ⟨rfl, rfl⟩
  · rw [jobs, others k other, gened, gens, gen, if_neg (not_dropped_of_other other)]
    exact ⟨rfl, rfl⟩
  · have after := waiter (by rw [su, held]; exact holder)
    have unit : t.eu x = e.eu x := by rw [State.eu, after, State.eu, ← eus]
    have mark : t.mark x = e.mark x := by rw [State.mark, pool, sp, State.mark]
    have allow : allowance t x = allowance e x :=
      allowance_of_settings (by rw [pool, sp]) (by rw [after, ← su]) x
    rw [unit, mark, spaceRecords, spaceDue_of_same (s := s) rfl allow]
    exact told x other
  · rw [blocks]
    exact du
  · rw [blocks]
    exact le
  · rw [blocks]
    exact pins

/-! ## Another host's job has the link, or none -/

section
variable (off : ∀ a, s.du.active = some a → (s.job a).owner ≠ h)
include off

theorem orphanJobs_kept : orphanJobs h (portDropped s h) = emptied s h := by
  rw [orphanJobs]
  change (if (match s.du.active with | none => false | some a => decide ((s.job a).owner = h)) = true then
    leaveLink (emptied s h) else emptied s h) = emptied s h
  cases active : s.du.active with
  | none => rfl
  | some a => exact if_neg fun own => off a active (of_decide_eq_true own)

theorem emptied_kept : (emptied s h).du = duWithout h s ∧ (emptied s h).le = { s.le with abandon := listWith h s } ∧
    (emptied s h).pins = s.pins ∧ (emptied s h).su = s.su := by
  obtain ⟨-, -, -, frame, kept, -⟩ := emptied_falls s h
  obtain ⟨active, dry⟩ := kept fun a holds => by rw [lost, decide_eq_false (off a holds), Bool.false_and]
  generalize emptied s h = e at *
  refine ⟨?_, ?_, by rw [frame], by rw [frame]⟩
  · rw [frame, active]
  · rw [frame, dry]

theorem emptied_activeHead : activeHead (emptied s h) = activeHead s := by
  obtain ⟨job, -⟩ := emptied_falls s h
  obtain ⟨du, -⟩ := emptied_kept off
  refine activeHead_of_same (by rw [du]) fun x holds => ?_
  rw [job, resetRecord_other (.inl (off x holds))]

/-- The link goes on as it was. -/
theorem emptied_still (still : s.le.link ≠ .idle ∧ s.le.link ≠ .waiting ∨
    nothingToDo s ∧ (abandonedSlots h s = [] ∨ s.le.link = .waiting)) : boundaryWork (emptied s h) = emptied s h := by
  obtain ⟨-, le, pins, -⟩ := emptied_kept off
  have head := emptied_activeHead off
  rcases still with away | ⟨done, still⟩
  · exact boundaryWork_elsewhere (by rw [le]; exact away.1) (by rw [le]; exact away.2)
  · refine boundaryWork_of_nothingToDo ?_
    cases slots : abandonedSlots h s with
    | nil =>
      have list : (emptied s h).le.abandon = s.le.abandon := by rw [le, listWith, slots, List.map_nil, List.append_nil]
      exact nothingToDo_of_same (by rw [le]) list (by rw [le]) (by rw [le]) pins head done
    | cons z zs =>
      have waiting := still.resolve_left (by rw [slots]; nofun)
      exact nothingToDo_listed waiting done (by rw [le]) pins (by rw [le]) head (by rw [le, listWith, slots]; simp)

/-- The words of the statement where the link does what it does in the state the statement names. -/
theorem becomes_kept (work : State → State) (jm : ∀ q, (work q).jm = q.jm) (eus : ∀ q, (work q).eus = q.eus)
    (sp : ∀ q, (work q).sp = q.sp) (su : ∀ q, (work q).su = q.su) (du : ∀ q, (work q).du = q.du)
    (linked : ∀ q p : State, q.le = p.le → q.pins = p.pins → q.su = p.su →
      (work q).le = (work p).le ∧ (work q).pins = (work p).pins) :
    becomes h s (dropLeaseOf h (work (emptied s h)))
      (work { s with du := duWithout h s, le := { s.le with abandon := listWith h s } }) := by
  obtain ⟨du', le, pins, su'⟩ := emptied_kept off
  obtain ⟨job, -⟩ := emptied_falls s h
  obtain ⟨le', pins'⟩ := linked (emptied s h) { s with du := duWithout h s, le := { s.le with abandon := listWith h s } } le pins su'
  refine becomes_of ⟨fun z => by rw [State.gen, jm, State.gen], eus _, sp _, su _⟩ (fun z _ _ => by rw [State.job, jm, State.job])
    (fun z other => ?_) (by rw [du, du, du']) le' pins'
  rw [State.job, jm, State.job, jm]
  exact (job z).trans (resetRecord_other other)

end

/-! ## A job of the host has the link -/

theorem choose_congr {l : List SlotId} (same : ∀ z ∈ l, t.job z = s.job z) (h : HostId) : choose t h l = choose s h l := by
  have top : topPriority t l = topPriority s l := List.foldl_ext _ _ _ fun p z mem => by rw [same z mem]
  have best : (l.filter fun k => decide ((t.job k).priority = topPriority t l)) =
      l.filter fun k => decide ((s.job k).priority = topPriority s l) := List.filter_congr fun z mem => by rw [same z mem, top]
  have first : ∀ x, (l.filter fun k => decide ((s.job k).priority = topPriority s l)).find? (fun k => decide ((t.job k).owner = x)) =
      (l.filter fun k => decide ((s.job k).priority = topPriority s l)).find? fun k => decide ((s.job k).owner = x) := fun x => by
    rw [← List.head?_filter, ← List.head?_filter]
    exact congrArg _ (List.filter_congr fun z mem => by rw [same z (List.mem_filter.mp mem).1])
  simp only [choose, best, first]

theorem mem_lostSlots : z ∈ lostSlots h s ↔ lost h (s.job z) = true := by
  rw [lostSlots, List.mem_filter]
  exact and_iff_right (mem_allSlots z)

section
variable (distinct : s.du.ready.Nodup) (apart : s.du.stack.Nodup) (suspended : ∀ z ∈ s.du.stack, (s.job z).state = .suspended)

omit distinct in
include apart suspended in
/-- No job of the host is left on the stack. -/
theorem owner_of_mem_stack (mem : z ∈ (duWithout h s).stack) : (s.job z).owner ≠ h ∧ (s.job z).state = .suspended := by
  obtain ⟨mem, kept⟩ := (List.Nodup.mem_sdiff_iff apart).mp mem
  have state := suspended z mem
  exact ⟨fun own => kept (mem_lostSlots.mpr (by simp [lost, own, state])), state⟩

include distinct in
/-- No READY job of the host is left in the ready set. -/
theorem owner_of_mem_ready (mem : z ∈ (duWithout h s).ready) (state : (s.job z).state = .ready) : (s.job z).owner ≠ h := by
  obtain ⟨-, kept⟩ := (List.Nodup.mem_sdiff_iff distinct).mp mem
  exact fun own => kept (mem_lostSlots.mpr (by simp [lost, own, state]))

/-- The record of a job is READY after the fall only where it was. -/
theorem ready_of_resetRecord {j : Job} (state : (resetRecord h j).state = .ready) : j.state = .ready := by
  rw [resetRecord] at state
  split at state
  · cases state
  · rw [orphanedRecord] at state
    split at state
    · cases state
    · split at state
      · cases state
      · split at state <;> exact state

/-- The state the leaving decision reads, in the words of the statement. -/
abbrev leftBehind (s : State) (h : HostId) : State := { s with du := { duWithout h s with active := none } }

include distinct apart suspended

theorem emptied_best (active : s.du.active = some a) (gone : lost h (s.job a) = true) :
    bestAdmissible (emptied s h) none = bestAdmissible (leftBehind s h) none := by
  obtain ⟨job, -, -, frame, -, left⟩ := emptied_falls s h
  obtain ⟨idle, -⟩ := left a active gone
  generalize emptied s h = e at *
  have du : e.du = (leftBehind s h).du := by
    rw [frame, idle]
  have other : ∀ z, (s.job z).owner ≠ h → e.job z = s.job z := fun z other => by rw [job, resetRecord_other (.inl other)]
  have pass : ∀ z ∈ (duWithout h s).ready, admissible e none z = admissible (leftBehind s h) none z := fun z mem => by
    by_cases own : (s.job z).owner = h
    · have unready : ((leftBehind s h).job z).state ≠ .ready := fun state => owner_of_mem_ready distinct mem state own
      have gone' : (e.job z).state ≠ .ready := fun state => unready (ready_of_resetRecord ((congrArg Job.state (job z)).symm.trans state))
      simp only [admissible, eligible, unready, gone', decide_false, Bool.false_and]
    · have stacked : ((duWithout h s).stack ++ (none : Option SlotId).toList).all
            (fun j => decide ((e.job j).channel ≠ (s.job z).channel)) =
          ((duWithout h s).stack ++ (none : Option SlotId).toList).all
            fun j => decide ((s.job j).channel ≠ (s.job z).channel) := by
        refine Bool.eq_iff_iff.mpr ?_
        simp only [List.all_eq_true, Option.toList_none, List.append_nil]
        exact forall₂_congr fun j mem => by rw [other j (owner_of_mem_stack apart suspended mem).1]
      have claim : ∀ c, e.claim c = s.claim c := fun c => by rw [State.claim, du, State.claim]
      rw [admissible, admissible, eligible, eligible, channelOpen, channelOpen, other z own, claim, du]
      exact congrArg _ stacked
  rw [bestAdmissible, bestAdmissible, du]
  have same : (leftBehind s h).du.ready.filter (admissible e none) =
      (leftBehind s h).du.ready.filter (admissible (leftBehind s h) none) := List.filter_congr pass
  rw [same]
  refine choose_congr (fun z mem => ?_) _
  obtain ⟨mem, admits⟩ := List.mem_filter.mp mem
  obtain ⟨state, -⟩ := admissible_iff.mp admits
  exact other z (owner_of_mem_ready distinct mem state)

/-- The successor is of another host. -/
theorem holder_other (named : leavesTo (leftBehind s h) n) (holder : n.holder = some z) :
    (s.job z).owner ≠ h ∧ (s.job z).state ≠ .free := by
  cases n with
  | nobody => cases holder
  | selected k =>
    cases holder
    obtain ⟨-, best, -⟩ := named
    obtain ⟨mem, state, -⟩ := bestAdmissible_candidate best
    have state : (s.job z).state = .ready := state
    exact ⟨owner_of_mem_ready distinct mem state, by rw [state]; nofun⟩
  | resumed k =>
    cases holder
    obtain ⟨-, top, -⟩ := named
    obtain ⟨other, state⟩ := owner_of_mem_stack apart suspended (List.mem_of_getLast? top)
    exact ⟨other, by rw [state]; nofun⟩

theorem emptied_followed (active : s.du.active = some a) (gone : lost h (s.job a) = true)
    (follows : followedBy (leftBehind s h) n) : followedBy (emptied s h) n := by
  have best := emptied_best distinct apart suspended active gone
  obtain ⟨named, heads⟩ := follows
  have away := fun z => holder_other (z := z) distinct apart suspended named
  obtain ⟨job, -, -, frame, -, left⟩ := emptied_falls s h
  obtain ⟨idle, -⟩ := left a active gone
  generalize emptied s h = e at *
  have du : e.du = (leftBehind s h).du := by
    rw [frame, idle]
  have su : e.su = (leftBehind s h).su := by rw [frame]
  have recov : recovering e = recovering (leftBehind s h) := recovering_of_link (by rw [frame])
  have other : ∀ z, (s.job z).owner ≠ h → e.job z = (leftBehind s h).job z := fun z other =>
    (job z).trans (resetRecord_other (.inl other))
  have stacked : ∀ z, (leftBehind s h).du.stack.getLast? = some z → e.job z = (leftBehind s h).job z := fun z top =>
    other z (owner_of_mem_stack apart suspended (List.mem_of_getLast? top)).1
  have ready : ∀ z, bestAdmissible (leftBehind s h) none = some z → e.job z = (leftBehind s h).job z := fun z chosen => by
    obtain ⟨mem, state, -⟩ := bestAdmissible_candidate chosen
    exact other z (owner_of_mem_ready distinct mem state)
  refine ⟨?_, fun z holder => ?_⟩
  · cases n with
    | nobody => exact named.imp recov.trans fun both => ⟨by rw [du]; exact both.1, best.trans both.2⟩
    | selected k =>
      obtain ⟨up, chosen, above⟩ := named
      refine ⟨recov.trans up, best.trans chosen, fun top last => ?_⟩
      rw [du] at last
      rw [stacked top last, ready k chosen, su]
      exact above top last
    | resumed k =>
      obtain ⟨up, last, below⟩ := named
      refine ⟨recov.trans up, by rw [du]; exact last, fun top chosen => ?_⟩
      have chosen := best.symm.trans chosen
      rw [stacked k last, ready top chosen, su]
      exact below top chosen
  · rw [headEntry_of_chain (congrArg Job.chain (other z (away z holder).1))]
    exact heads z holder

end

/-- The leaving decision is made where the active job was of the host (R67). -/
theorem orphanJobs_left (active : s.du.active = some a) (own : (s.job a).owner = h) :
    orphanJobs h (portDropped s h) = leaveLink (emptied s h) := by
  rw [orphanJobs]
  change (if (match s.du.active with | none => false | some a => decide ((s.job a).owner = h)) = true then
    leaveLink (emptied s h) else emptied s h) = leaveLink (emptied s h)
  rw [active]
  exact if_pos (decide_eq_true own)

/-- The link passes to the successor of the job that is gone (R67). -/
theorem orphanJobs_passes (distinct : s.du.ready.Nodup) (apart : s.du.stack.Nodup)
    (suspended : ∀ z ∈ s.du.stack, (s.job z).state = .suspended) (active : s.du.active = some a)
    (own : (s.job a).owner = h) (gone : lost h (s.job a) = true) (follows : followedBy (leftBehind s h) n) :
    orphanJobs h (portDropped s h) = passedTo (emptied s h) n := by
  have idle : (emptied s h).du.active = none := by
    obtain ⟨-, -, -, -, -, left⟩ := emptied_falls s h
    exact (left a active gone).1
  rw [← leaveLink_followed idle (emptied_followed distinct apart suspended active gone follows)]
  exact orphanJobs_left active own

theorem passedTo_outside (e : State) (n : Successor) : sameOutside e (passedTo e n) := by
  cases n <;> exact ⟨fun _ => rfl, rfl, rfl, rfl⟩

theorem passedTo_le (e : State) (n : Successor) : (passedTo e n).le = e.le := by cases n <;> rfl

/-- The records after the link has passed agree where they agreed, the successor's included. -/
theorem passedTo_records (n : Successor) (here : t.job k = u.job k) :
    (passedTo t n).job k = (passedTo u n).job k := by
  by_cases holder : n.holder = some k
  · cases n with
    | nobody => cases holder
    | selected x =>
      cases holder
      refine (upd_same ..).trans (Eq.trans ?_ (upd_same ..).symm)
      rw [here]
    | resumed x =>
      cases holder
      refine (upd_same ..).trans (Eq.trans ?_ (upd_same ..).symm)
      rw [here]
  · rw [passedTo_job holder, passedTo_job holder, here]

/-- Settles O10: what the fall of the host's jobs leaves, and what the link does in it. -/
theorem portResetEndsOrOrphansTheJobs : Obligations.PortResetEndsOrOrphansTheJobs := by
  intro s h low distinct apart suspended partly dropped entries du became
  have run := exec_portReset low
  refine ⟨fun off => ⟨fun still => ?_, fun k first idle done opened => ?_⟩, fun a n active state own busy follows => ?_⟩
  · rw [orphanJobs_kept off, emptied_still off still] at run
    have told := becomes_kept off (fun q => q) (fun _ => rfl) (fun _ => rfl) (fun _ => rfl) (fun _ => rfl) (fun _ => rfl)
      fun q p le pins _ => ⟨le, pins⟩
    exact ⟨_, run, told⟩
  · rw [orphanJobs_kept off] at run
    obtain ⟨-, le, pins, -⟩ := emptied_kept off
    have idle' : (emptied s h).le.link = .idle := by rw [le]; exact idle
    have opened' : forwardOpen (emptied s h) := by
      rw [forwardOpen, noStall, pins, le]
      exact opened
    have head : activeHead (emptied s h) = none := (emptied_activeHead off).trans (activeHead_of_idle idle done)
    obtain ⟨zs, slots⟩ := List.head?_eq_some_iff.mp first
    have slots : abandonedSlots h s = k :: zs := slots
    have list : (emptied s h).le.abandon = { job := s.handle k, channel := (s.job k).channel, cause := .byOwner } ::
        zs.map fun z => { job := s.handle z, channel := (s.job z).channel, cause := .byOwner } := by
      rw [le, listWith, slots, abandon_nil_of_idle idle done]
      rfl
    obtain ⟨here, elsewhere⟩ := boundaryWork_startsAbandon idle' opened' list head
    have current : (emptied s h).le.current = s.le.current := by rw [le]
    refine ⟨_, run, fun at' => ?_, fun away => ?_⟩
    · rw [here (current.trans at')]
      exact becomes_kept off (fun q => offered q 0xF8#8 .control .abandon) (fun _ => rfl) (fun _ => rfl) (fun _ => rfl)
        (fun _ => rfl) (fun _ => rfl) fun q p le pins su => by simp only [le, pins, su, and_self]
    · rw [elsewhere (by rw [current]; exact away)]
      exact becomes_kept off (fun q => selectOffered q (s.job k).channel) (fun _ => rfl) (fun _ => rfl) (fun _ => rfl)
        (fun _ => rfl) (fun _ => rfl) fun q p le pins su => by simp only [le, pins, su, and_self]
  · have gone : lost h (s.job a) = true := by simp [lost, own, state]
    have away := fun z => holder_other (z := z) distinct apart suspended follows.1
    obtain ⟨job, -, -, frame, -, left⟩ := emptied_falls s h
    obtain ⟨none', dry⟩ := left a active gone
    have busy' : busyLink (passedTo (emptied s h) n) := (passedTo_handsOn _ n).busy (by rw [busyLink, frame]; exact busy)
    rw [orphanJobs_passes distinct apart suspended active own gone follows, boundaryWork_busy busy'] at run
    refine ⟨_, run, becomes_of (passedTo_outside _ n) (fun z mine _ => ?_) (fun z other => ?_) ?_ ?_ ?_⟩
    · exact passedTo_job fun holder => (away z holder).1 mine
    · exact passedTo_records n ((job z).trans (resetRecord_other other))
    · have du' : (emptied s h).du = { du with active := none } := by
        rw [frame, none']
      cases n with
      | nobody => exact du'
      | selected x =>
        have record : (emptied s h).job x = s.job x := (job x).trans (resetRecord_other (.inl (away x rfl).1))
        simp only [du', record]
        rfl
      | resumed x => simp only [du']
    · rw [passedTo_le, passedTo_le, frame, dry]
    · rw [(passedTo_handsOn _ n).pins, (passedTo_handsOn _ n).pins, frame]

end Sys2Proof.Machine
end

section
/-! SUPPORT. Every step keeps the settings in their ranges, the hosts within their JOB_LIMIT and the stack within three jobs, and makes
no job ACTIVE in recovery (R7, R52, R70, R150 to R153). -/

namespace Sys2Proof.Machine

variable {s t u : State} {h : HostId} {k : SlotId}

/-! ## Ranges -/

/-- From `s` to `t` settings, owned-slot counts and stack stay in range. -/
structure RangesKept (s t : State) : Prop where
  settings : settingsSound s → settingsSound t
  limits : limitsSound s → limitsSound t
  stack : stackSound s → stackSound t

namespace RangesKept

theorem refl (s : State) : RangesKept s s := ⟨id, id, id⟩

theorem trans (a : RangesKept s t) (b : RangesKept t u) : RangesKept s u :=
  ⟨b.settings ∘ a.settings, b.limits ∘ a.limits, b.stack ∘ a.stack⟩

theorem of_counts (settings : t.su.settings = s.su.settings) (owned : ∀ h, t.owned h ≤ s.owned h)
    (stack : s.du.stack.length ≤ 3 → t.du.stack.length ≤ 3) : RangesKept s t :=
  ⟨fun sound n => by rw [settings]; exact sound n,
    fun sound h => by rw [settings]; exact (owned h).trans (sound h), stack⟩

theorem of_effect (a : Effect s t) : RangesKept s t := by
  obtain ⟨p, -, a⟩ := a
  exact .of_counts (by rw [a.su]) a.owned a.stack

theorem of_internal (a : Internal s t) : RangesKept s t := .of_effect a.effect

/-- Neither the job table, the Dispatch Unit nor the settings change. -/
theorem of_rest (settings : t.su.settings = s.su.settings) (jm : t.jm = s.jm) (du : t.du = s.du) : RangesKept s t :=
  .of_counts settings (fun h => by rw [State.owned, jm, State.owned]) (by rw [du]; exact id)

end RangesKept

theorem judgeOpen_ranges (h : HostId) (c p f : Byte) (s : State) : RangesKept s (judgeOpen h c p f s).state := by
  rcases judgeOpen_cases h c p f s with e | ⟨k, ch, pr, stream, reply, r, room, -, -, e⟩
  · rw [e]
    exact .refl s
  · have su := judgeOpen_su h c p f s
    have owned : ∀ x, (judgeOpen h c p f s).state.owned x = if h = x then s.owned h + 1 else s.owned x := fun x => by
      rw [e]
      cases r <;> exact upd_get ..
    have du : (judgeOpen h c p f s).state.du = s.du := by
      rw [e]
      cases r <;> rfl
    refine ⟨fun sound => by rw [settingsSound, su]; exact sound, fun sound x => ?_, fun sound => by rw [stackSound, du]; exact sound⟩
    rw [owned, su]
    split
    · next here => exact here ▸ room
    · exact sound x

theorem jobLimit_withSetting (x : Settings) (n : SettingName) (v : Nat) (h : HostId) :
    (withSetting x n v).jobLimit[h] = if .jobLimit h = n then v else x.jobLimit[h] :=
  settingValue_withSetting x n (.jobLimit h) v

theorem judgeSet_ranges (h : HostId) (i n : Byte) (v : BitVec 16) (s : State) : RangesKept s (judgeSet h i n v s).state := by
  rcases judgeSet_cases h i n v s with e | ⟨name, -, -, range, stands, e⟩
  · rw [e]
    exact .refl s
  · rw [e, applySetting_frame]
    refine ⟨fun sound m => ?_, fun sound x => ?_, id⟩
    · dsimp only
      rw [settingValue_withSetting]
      split
      · next here => exact here.symm ▸ range
      · exact sound m
    · dsimp only
      rw [jobLimit_withSetting]
      split
      · next here =>
        rw [← here] at stands
        exact of_decide_eq_true stands
      · exact sound x

/-- A request keeps the ranges where its judgement does. -/
theorem serve_ranges {body : State → Reply} (e : serve h body s = .next t) (kept : RangesKept s (body s).state) :
    RangesKept s t := by
  rcases serve_cases e with ⟨-, rfl⟩ | ⟨-, -, rfl⟩ | ⟨-, -, rfl⟩
  · exact .refl _
  · exact .of_rest rfl rfl rfl
  · exact kept.trans (.of_rest rfl rfl rfl)

theorem judgeAppend_ranges (h : HostId) (b kind flags : Byte) (bytes : List Byte) (s : State) :
    RangesKept s (judgeAppend h b kind flags bytes s).state := by
  rcases judgeAppend_cases h b kind flags bytes s with e | ⟨need, e⟩ | ⟨k, kd, -, -, -, -, e⟩ <;> rw [e]
  · exact .refl s
  · exact .of_rest rfl rfl rfl
  · have acted := (appendActed_offLink k (appendList kd bytes (breakAfter flags)) (closeAfter flags) s).toInternal
    have joined : RangesKept s (appendEntries k (appendList kd bytes (breakAfter flags)) s) :=
      .of_counts rfl (fun _ => le_rfl) id
    exact joined.trans (.of_internal (acted.trans (onwards_internal _)))

theorem handover_ranges (s : State) : RangesKept s (handover s) :=
  .of_rest (handover_settings s) (by rw [handover_frame]) (by rw [handover_frame])

theorem portReset_ranges (e : execPortReset h s = .next t) : RangesKept s t := by
  rw [execPortReset_eq] at e
  split at e <;> obtain rfl := next_inj e
  · exact .refl _
  · have worked := (orphanJobs_internal h (portDropped s h)).trans (boundaryWork_internal _)
    have dropped : RangesKept s (portDropped s h) := .of_rest rfl rfl rfl
    generalize boundaryWork (orphanJobs h (portDropped s h)) = w at *
    refine (dropped.trans (.of_internal worked)).trans (.of_rest ?_ ?_ ?_)
    · rw [dropLeaseOf_su]
      split
      · exact handover_settings _
      · rfl
    · rw [dropLeaseOf_blocks]
    · rw [dropLeaseOf_blocks]

theorem exec_ranges {c : Instr} (e : exec c s = .next t) : RangesKept s t := by
  cases c with
  | partReset =>
    obtain ⟨-, su, -, jm, -, du, -⟩ := execPartReset_rest e
    exact ⟨fun _ => settingsSound_of_reset su, fun _ h => (owned_of_reset jm h).le.trans (Nat.zero_le _),
      fun _ => by rw [stackSound, du]; exact Nat.zero_le _⟩
  | rstRelease =>
    change execRstRelease s = _ at e
    rw [execRstRelease] at e
    split at e <;> obtain rfl := next_inj e <;> exact .of_rest rfl rfl rfl
  | poolInitEnd =>
    change execPoolInitEnd s = _ at e
    rw [execPoolInitEnd] at e
    split at e <;> obtain rfl := next_inj e <;> exact .of_rest rfl rfl rfl
  | portReset h => exact portReset_ranges e
  | hkrstRelease h | chipSelectAssert h | chipSelectRelease h | answerSent h | ident h | last h =>
    obtain ⟨p, rfl⟩ := portCommand_frame (h := h) (frame := []) (by simp) e
    exact .of_rest rfl rfl rfl
  | framingFault h frame =>
    obtain ⟨p, rfl⟩ := portCommand_frame (h := h) (frame := frame) (by simp) e
    exact .of_rest rfl rfl rfl
  | openJob h c p f => exact serve_ranges e (judgeOpen_ranges ..)
  | append h b k f bs => exact serve_ranges e (judgeAppend_ranges ..)
  | close h b => exact serve_ranges e (.of_internal (judgeClose_internal h b s))
  | setPriority h b p => exact serve_ranges e (.of_internal (judgeSetPriority_internal h b p s))
  | cancel h b => exact serve_ranges e (.of_internal (judgeCancel_internal h b s))
  | release h b => exact serve_ranges e (.of_internal (judgeRelease_internal h b s))
  | jobStatus h b => exact serve_ranges e (by rw [judgeJobStatus_state]; exact .refl s)
  | readReply h b m =>
    refine serve_ranges e ?_
    rcases judgeReadReply_cases h b m s with e | ⟨r, e⟩ <;> rw [e]
    exacts [.refl s, .of_rest rfl rfl rfl]
  | fetchEvent h =>
    refine serve_ranges e ?_
    rw [judgeFetchEvent]
    split <;> exact .of_rest rfl rfl rfl
  | subscribe h f =>
    refine serve_ranges e ?_
    rw [judgeSubscribe]
    split <;> exact .of_rest rfl rfl rfl
  | leaseTake h =>
    refine serve_ranges e ?_
    rw [judgeLeaseTake]
    split <;> exact .of_rest rfl rfl rfl
  | leaseDrop h =>
    refine serve_ranges e ?_
    rw [judgeLeaseDrop]
    split
    · exact handover_ranges s
    · split <;> exact .of_rest rfl rfl rfl
  | setSetting h i n v => exact serve_ranges e (judgeSet_ranges ..)
  | getSetting h i n => exact serve_ranges e (by rw [judgeGet_state]; exact .refl s)
  | linkStatus h => exact serve_ranges e (.refl s)
  | linkReset h => exact serve_ranges e (.of_effect (judgeLinkReset_effect h s))
  | reverseByte kind b =>
    rcases reverseByte_effect e with a | ⟨v, r, x, before, -, after⟩
    · exact .of_effect a
    · have stored : RangesKept v (v.setRoute r x) := .of_rest rfl rfl rfl
      exact ((RangesKept.of_effect before).trans stored).trans (.of_effect after)
  | leaseTermExpiry =>
    rcases leaseTermExpiry_cases e with rfl | ⟨h, -, rfl⟩
    · exact .refl _
    · exact (RangesKept.of_internal (post_offLink ..).toInternal).trans (handover_ranges _)
  | lrstPulseEnd => exact .of_effect (lrstPulseEnd_effect e)
  | acknowledgement => exact .of_effect (acknowledgement_effect e)
  | acknowledgeTimeout => exact .of_effect (acknowledgeTimeout_effect e)
  | rreqRise | rreqFall | prdyFall | pfltChange => exact .of_effect (levelCommand_effect (by simp) e)
  | prdyRise => exact .of_effect (prdyRise_effect e)
  | revIdleExpiry => exact .of_effect (revIdleExpiry_effect e)
  | stallTimerExpiry => exact .of_effect (stallTimerExpiry_effect e)
  | dryWaitExpiry => exact .of_internal (dryWaitExpiry_internal e)
  | wakeTimerExpiry => exact .of_effect (wakeTimerExpiry_effect e)
  | replyTimerExpiry r => exact .of_internal (replyTimerExpiry_internal e)

/-! ## Recovery makes no job ACTIVE -/

/-- From `s` to `t` no job became ACTIVE, if both are in recovery (R70). -/
def RecoveryIdle (s t : State) : Prop := recovering s = true → recovering t = true → s.du.active = none → t.du.active = none

theorem RecoveryIdle.of_du (du : t.du = s.du) : RecoveryIdle s t := fun _ _ idle => by rw [du]; exact idle

theorem RecoveryIdle.of_offLink (a : OffLink s t) : RecoveryIdle s t := fun down _ => a.idle down

/-- The order of work leaves the link in none of the states of recovery (R78). -/
theorem LinkMove.up (m : LinkMove s t) : recovering t = false := by
  cases m with
  | grants => rfl
  | holds =>
    rw [holdOff]
    split <;> rfl
  | idles => rw [goIdle_frame]; rfl
  | offers o => rw [recovering, (makeOffer_link o s).1]

theorem applyOrder_up (s : State) : recovering (applyOrder s) = false := by
  obtain ⟨u, -, move⟩ := orderOfWork_moves (P := fun _ => True) (fun _ _ _ _ => trivial) (fun _ _ _ _ _ _ => trivial)
    (poolEntries s + 1) (s := s) trivial
  exact move.up

theorem enterIdle_up (s : State) : recovering (enterIdle s) = false := applyOrder_up _

theorem RecoveryIdle.of_up (up : recovering t = false) : RecoveryIdle s t := fun _ down => absurd (up.symm.trans down) nofun

/-- In recovery the link is at no boundary (R77). -/
theorem boundaryWork_recovering (down : recovering s = true) : boundaryWork s = s := by
  refine boundaryWork_elsewhere (fun idle => ?_) fun waiting => ?_
  · rw [recovering, idle] at down
    cases down
  · rw [recovering, waiting] at down
    cases down

theorem RecoveryIdle.boundary (a : OffLink s t) : RecoveryIdle s (boundaryWork t) := fun down _ idle => by
  rw [boundaryWork_recovering (a.recovering.trans down)]
  exact a.idle down idle

theorem enterWaking_recoveryIdle (s : State) : RecoveryIdle s (enterWaking s) := by
  rw [enterWaking]
  split
  · exact .of_up (enterIdle_up _)
  · exact .of_du rfl

theorem portReset_recoveryIdle (e : execPortReset h s = .next t) : RecoveryIdle s t := by
  rw [execPortReset_eq] at e
  split at e <;> obtain rfl := next_inj e
  · exact .of_du rfl
  · have du := congrArg State.du (dropLeaseOf_blocks h (boundaryWork (orphanJobs h (portDropped s h))))
    intro down _ idle
    rw [du, boundaryWork_recovering ((orphanJobs_offLink h (portDropped s h)).recovering.trans down)]
    exact (orphanJobs_offLink h (portDropped s h)).idle down idle

theorem resetLink_active (fault : LastFault) (c : Cause) (s : State) : (resetLink fault c s).du.active = none := by
  rw [resetLink, evaluateSpace_frame]
  rfl

/-- A request makes no job ACTIVE in recovery where its judgement does not. -/
theorem serve_recoveryIdle {body : State → Reply} (e : serve h body s = .next t) (idle : RecoveryIdle s (body s).state) :
    RecoveryIdle s t := by
  rcases serve_cases e with ⟨-, rfl⟩ | ⟨-, -, rfl⟩ | ⟨-, -, rfl⟩
  · exact .of_du rfl
  · exact .of_du rfl
  · exact idle

theorem exec_recoveryIdle {c : Instr} (e : exec c s = .next t) : RecoveryIdle s t := by
  cases c with
  | partReset =>
    obtain ⟨-, -, -, -, -, du, -⟩ := execPartReset_rest e
    exact fun _ _ _ => by rw [du]; rfl
  | rstRelease =>
    change execRstRelease s = _ at e
    rw [execRstRelease] at e
    split at e <;> obtain rfl := next_inj e <;> exact .of_du rfl
  | poolInitEnd =>
    change execPoolInitEnd s = _ at e
    rw [execPoolInitEnd] at e
    split at e <;> obtain rfl := next_inj e <;> exact .of_du rfl
  | portReset h => exact portReset_recoveryIdle e
  | hkrstRelease h | chipSelectAssert h | chipSelectRelease h | answerSent h | ident h | last h =>
    obtain ⟨p, rfl⟩ := portCommand_frame (h := h) (frame := []) (by simp) e
    exact .of_du rfl
  | framingFault h frame =>
    obtain ⟨p, rfl⟩ := portCommand_frame (h := h) (frame := frame) (by simp) e
    exact .of_du rfl
  | openJob h c p f =>
    refine serve_recoveryIdle e (.of_du ?_)
    rcases judgeOpen_cases h c p f s with e | ⟨k, ch, pr, stream, reply, r, -, -, -, e⟩ <;> rw [e]
    cases r <;> rfl
  | append h b k f bs =>
    refine serve_recoveryIdle e ?_
    rcases judgeAppend_cases h b k f bs s with e | ⟨need, e⟩ | ⟨z, kd, -, -, -, -, e⟩ <;> rw [e]
    · exact .of_du rfl
    · exact .of_du rfl
    · have worked : RecoveryIdle (appendEntries z (appendList kd bs (breakAfter f)) s)
          (acceptAppend z (appendList kd bs (breakAfter f)) (closeAfter f) s) := .boundary (appendActed_offLink ..)
      exact fun down up idle => worked down up idle
  | close h b =>
    refine serve_recoveryIdle e ?_
    rcases judgeClose_cases h b s with e | ⟨k, -, -, e⟩ <;> rw [e]
    exacts [.of_du rfl, .boundary (closeJob_offLink k s)]
  | setPriority h b p =>
    refine serve_recoveryIdle e ?_
    rcases judgeSetPriority_cases h b p s with e | ⟨k, q, -, -, e⟩ <;> rw [e]
    exacts [.of_du rfl, .boundary (priorityChanged_offLink k q s)]
  | cancel h b =>
    refine serve_recoveryIdle e ?_
    rcases judgeCancel_cases h b s with e | ⟨k, c, -, -, e⟩ <;> rw [e]
    · exact .of_du rfl
    · rw [acceptCancel_eq]
      exact .boundary (cancelActed_offLink k c s)
  | release h b =>
    refine serve_recoveryIdle e ?_
    rcases judgeRelease_cases h b s with e | ⟨k, -, ended, e⟩ <;> rw [e]
    exacts [.of_du rfl, .of_offLink (releaseSlot_ended_offLink ended)]
  | jobStatus h b => exact serve_recoveryIdle e (.of_du (by rw [judgeJobStatus_state]))
  | readReply h b m =>
    refine serve_recoveryIdle e (.of_du ?_)
    rcases judgeReadReply_cases h b m s with e | ⟨r, e⟩ <;> rw [e]
    rfl
  | fetchEvent h =>
    refine serve_recoveryIdle e (.of_du ?_)
    rw [judgeFetchEvent]
    split <;> rfl
  | subscribe h f =>
    refine serve_recoveryIdle e (.of_du ?_)
    rw [judgeSubscribe]
    split <;> rfl
  | leaseTake h =>
    refine serve_recoveryIdle e (.of_du ?_)
    rw [judgeLeaseTake]
    split <;> rfl
  | leaseDrop h =>
    refine serve_recoveryIdle e (.of_du ?_)
    rw [judgeLeaseDrop]
    split
    · rw [handover_frame]
    · split <;> rfl
  | setSetting h i n v =>
    refine serve_recoveryIdle e (.of_du ?_)
    rcases judgeSet_cases h i n v s with e | ⟨name, -, -, -, -, e⟩ <;> rw [e]
    rw [applySetting_frame]
  | getSetting h i n => exact serve_recoveryIdle e (.of_du (by rw [judgeGet_state]))
  | linkStatus h => exact serve_recoveryIdle e (.of_du rfl)
  | linkReset h =>
    refine serve_recoveryIdle e ?_
    rw [judgeLinkReset]
    split
    · intro _ _ _
      dsimp only
      exact resetLink_active .resetRequested .linkReset s
    · exact .of_du rfl
  | reverseByte kind b =>
    rcases reverseByte_cases e with ⟨-, rfl⟩ | ⟨phase, -⟩
    · exact .of_du rfl
    · intro down
      rw [recovering, phase] at down
      cases down
  | leaseTermExpiry =>
    rcases leaseTermExpiry_cases e with rfl | ⟨h, -, rfl⟩
    · exact .of_du rfl
    · exact .of_du (by rw [handover_frame, post_frame])
  | lrstPulseEnd =>
    rcases lrstPulseEnd_cases e with rfl | ⟨-, rfl⟩
    · exact .of_du rfl
    · exact enterWaking_recoveryIdle s
  | acknowledgement =>
    rcases acknowledgement_cases e with ⟨-, rfl⟩ | ⟨o, -, rfl⟩
    · exact .of_du rfl
    · exact .of_up (applyOrder_up _)
  | acknowledgeTimeout =>
    rcases acknowledgeTimeout_cases e with rfl | ⟨-, after⟩
    · exact .of_du rfl
    · rw [after]
      exact fun _ _ _ => resetLink_active _ _ s
  | rreqRise | rreqFall | prdyFall | pfltChange =>
    rcases levelCommand_cases (by simp) e with rfl | ⟨rreq, prdy, pflt, rfl⟩
    · exact .of_du rfl
    · exact fun down _ idle => by
        rw [boundaryWork_recovering (s := { s with pins := { s.pins with rreq := rreq, prdy := prdy, pflt := pflt } }) down]
        exact idle
  | prdyRise =>
    rcases prdyRise_cases e with rfl | ⟨-, ⟨-, rfl⟩ | ⟨-, rfl⟩ | ⟨-, rfl⟩ | rfl⟩
    · exact .of_du rfl
    · exact .of_up (applyOrder_up _)
    · exact .of_up (enterIdle_up _)
    · exact .of_du rfl
    · exact .of_du rfl
  | revIdleExpiry =>
    rcases revIdleExpiry_cases e with rfl | ⟨-, rfl⟩
    · exact .of_du rfl
    · exact .of_up (applyOrder_up _)
  | stallTimerExpiry =>
    rcases stallTimerExpiry_cases e with rfl | ⟨-, rfl⟩
    · exact .of_du rfl
    · exact .of_du (by rw [postLinkGroup_frame])
  | wakeTimerExpiry =>
    rcases wakeTimerExpiry_cases e with rfl | ⟨-, rfl⟩
    · exact .of_du rfl
    · exact .of_du (by rw [postLinkGroup_frame])
  | dryWaitExpiry =>
    rcases dryWaitExpiry_cases e with rfl | ⟨a, active, -⟩
    · exact .of_du rfl
    · exact fun _ _ idle => absurd (idle.symm.trans active) nofun
  | replyTimerExpiry r => exact .of_offLink (replyTimerExpiry_offLink e)

end Sys2Proof.Machine
end

section
/-! SUPPORT. The tables in agreement but for the leaving decision: what each of the agreements reads of the part, so that a change of
one job's record is judged once (R1, R45, R47, R52, R95, R134). -/

namespace Sys2Proof.Machine

variable {s t u : State} {h : HostId} {a k m z : SlotId} {j : Job}

/-! ## The agreements -/

/-- The suspended jobs from the bottom of the stack, and the active job last. -/
abbrev lineOf (s : State) : List SlotId := s.du.stack ++ s.du.active.toList

/-- Priorities rise along the line, channels differ, and each is unclaimed or the job's own (R43, R45, R55). -/
structure LineSound (s : State) : Prop where
  priorities : ((lineOf s).map fun k => (s.job k).priority).Pairwise (· < ·)
  channels : ((lineOf s).map fun k => (s.job k).channel).Nodup
  opened : ∀ k ∈ lineOf s, s.claim (s.job k).channel = none ∨ s.claim (s.job k).channel = some k

/-- The tables agree, but for what the leaving decision sees to. -/
structure Agree (s : State) : Prop where
  jobs : jobsSound s
  claims : claimsSound s
  ready : readySound s
  stackNodup : s.du.stack.Nodup
  stackDepth : s.du.stack.length ≤ 3
  stack : ∀ k, k ∈ s.du.stack ↔ (s.job k).state = .suspended
  active : ∀ k, s.du.active = some k ↔ (s.job k).state = .active
  leaving : s.du.leaving = true → s.du.active = none
  line : LineSound s
  recovery : recovering s = true → s.du.active = none ∧ s.du.stack = [] ∧ s.du.leaving = false
  abandon : abandonSound s
  routes : routesSound s

/-- The leaving decision has been made: with no job active no job is left on the stack, and none that could be selected. -/
def Decided (s : State) : Prop :=
  s.du.active = none → s.du.leaving = false →
    s.du.stack = [] ∧ (recovering s = false → ∀ k ∈ s.du.ready, ¬ candidate s none k)

theorem tablesSound_iff : tablesSound s ↔ Agree s ∧ Decided s := by
  constructor
  · rintro ⟨jobs, claims, ready, ⟨nodup, depth, stack, active, empty, leaving, priorities, channels, opened, recovery⟩, waiting,
      abandon, routes⟩
    exact ⟨⟨jobs, claims, ready, nodup, depth, stack, active, leaving, ⟨priorities, channels, opened⟩, recovery, abandon, routes⟩,
      fun idle decided => ⟨empty idle decided, fun up => waiting up idle decided⟩⟩
  · rintro ⟨⟨jobs, claims, ready, nodup, depth, stack, active, leaving, ⟨priorities, channels, opened⟩, recovery, abandon, routes⟩,
      decided⟩
    exact ⟨jobs, claims, ready, ⟨nodup, depth, stack, active, fun idle made => (decided idle made).1, leaving, priorities, channels,
      opened, recovery⟩, fun up idle made => (decided idle made).2 up, abandon, routes⟩

theorem Decided.of_active (active : s.du.active = some a) : Decided s := fun idle => absurd (idle.symm.trans active) nofun

theorem Decided.of_leaving (leaving : s.du.leaving = true) : Decided s := fun _ made => absurd (made.symm.trans leaving) nofun

/-! ## What each agreement reads -/

/-- The job's channel is claimed for it (R45). -/
abbrev claiming (j : Job) : Prop :=
  j.begun = true ∧ (j.state = .active ∨ j.state = .suspended ∨ j.state = .ready ∨ j.state = .starved ∨ j.state = .cancelling)

/-- The counts of owned slots read owners and which slots are FREE. -/
theorem ownedCount_of (same : ∀ z, (t.job z).owner = (s.job z).owner ∧ ((t.job z).state = .free ↔ (s.job z).state = .free))
    (h : HostId) : (allSlots.filter fun k => decide ((t.job k).owner = h) && decide ((t.job k).state ≠ .free)) =
      allSlots.filter fun k => decide ((s.job k).owner = h) && decide ((s.job k).state ≠ .free) :=
  List.filter_congr fun z _ => by
    obtain ⟨owner, free⟩ := same z
    simp only [owner, ne_eq, free]

theorem jobsSound_of (sound : jobsSound s) (owned : t.jm.owned = s.jm.owned)
    (same : ∀ z, (t.job z).owner = (s.job z).owner ∧ ((t.job z).state = .free ↔ (s.job z).state = .free))
    (each : ∀ k, ((t.job k).state = .filling → (t.job k).begun = false) ∧
      ((t.job k).state = .cancelling → (t.job k).begun = true) ∧
      ((t.job k).state = .ready → (t.job k).readySeq.isSome = true ∧ (t.job k).readySeq = (t.job k).seqTaken ∧
        (t.job k).readySeq.getD 0 < t.jm.nextSeq)) : jobsSound t :=
  ⟨fun h => by rw [ownedCount_of same, State.owned, owned]; exact sound.1 h, each⟩

theorem claimsSound_of (sound : claimsSound s) (claims : t.du.claims = s.du.claims)
    (same : ∀ z, (t.job z).channel = (s.job z).channel ∧ (claiming (t.job z) ↔ claiming (s.job z))) : claimsSound t := by
  intro c k
  obtain ⟨channel, held⟩ := same k
  rw [State.claim, claims, channel]
  exact (sound c k).trans (and_congr_right' held.symm)

theorem abandonSound_of (sound : abandonSound s) (list : t.le.abandon = s.le.abandon) (gens : t.jm.gens = s.jm.gens)
    (same : ∀ z, (t.job z).channel = (s.job z).channel ∧ ((t.job z).state = .cancelling ↔ (s.job z).state = .cancelling)) :
    abandonSound t := by
  obtain ⟨slots, channels, named, listed⟩ := sound
  refine ⟨by rw [list]; exact slots, by rw [list]; exact channels, fun e mem => ?_, fun k state => ?_⟩
  · obtain ⟨handle, state, channel⟩ := named e (list ▸ mem)
    exact ⟨by rw [State.handle, State.gen, gens]; exact handle, (same _).2.mpr state, (same _).1.trans channel⟩
  · rw [list]
    exact listed k ((same k).2.mp state)

/-- The routes have the owners they had, the same are FREE, and no timer was started. -/
abbrev routesKept (s t : State) : Prop :=
  ∀ r, (t.route r).owner = (s.route r).owner ∧ ((t.route r).state = .free ↔ (s.route r).state = .free) ∧
    ((t.route r).timer ≠ none → (s.route r).timer ≠ none)

theorem routesKept_of_same (routes : t.rr.routes = s.rr.routes) : routesKept s t := fun r => by
  have same : t.route r = s.route r := by rw [State.route, routes, State.route]
  rw [same]
  exact ⟨rfl, Iff.rfl, id⟩

theorem routesSound_of (sound : routesSound s) (routes : routesKept s t) (gens : t.jm.gens = s.jm.gens)
    (same : ∀ z, (t.job z).route = (s.job z).route ∧ ((t.job z).state = .free ↔ (s.job z).state = .free) ∧
      ((s.job z).state = .awaitReply → (t.job z).state = .awaitReply ∨
        ∀ r, (s.job z).route = some r → (t.route r).timer = none)) : routesSound t := by
  obtain ⟨owned, named, mine, stopped⟩ := sound
  have handle : ∀ z, t.handle z = s.handle z := fun z => by rw [State.handle, State.gen, gens, State.handle, State.gen]
  refine ⟨fun r => ?_, fun r x owner => ?_, fun k r live route => ?_, fun r owner => ?_⟩
  · rw [(routes r).1, (routes r).2.1]
    exact owned r
  · rw [(routes r).1] at owner
    obtain ⟨names, live, route, waits⟩ := named r x owner
    refine ⟨by rw [handle]; exact names, fun free => live ((same _).2.1.mp free), (same _).1.trans route, fun runs => ?_⟩
    exact ((same _).2.2 (waits ((routes r).2.2 runs))).resolve_right fun off => runs (off r route)
  · rw [(routes r).1, handle]
    exact mine k r (fun free => live ((same k).2.1.mpr free)) ((same k).1.symm.trans route)
  · by_contra runs
    exact (routes r).2.2 runs (stopped r ((routes r).1.symm.trans owner))

/-- The ready set is the same and its members have the numbers they had. -/
theorem readySound_of (sound : readySound s) (list : t.du.ready = s.du.ready)
    (same : ∀ z, ((t.job z).state = .ready ↔ (s.job z).state = .ready) ∧
      ((s.job z).state = .ready → (t.job z).readySeq = (s.job z).readySeq)) : readySound t := by
  obtain ⟨nodup, mem, age⟩ := sound
  refine ⟨by rw [list]; exact nodup, fun k => by rw [list, (same k).1]; exact mem k, ?_⟩
  rw [list, List.map_congr_left fun z inside => by rw [(same z).2 ((mem z).mp inside)]]
  exact age

/-- A job that is READY no more leaves the ready set. -/
theorem readySound_erase (sound : readySound s) (k : SlotId) (list : t.du.ready = s.du.ready.erase k)
    (gone : (t.job k).state ≠ .ready) (others : ∀ z, z ≠ k → t.job z = s.job z) : readySound t := by
  obtain ⟨nodup, mem, age⟩ := sound
  refine ⟨by rw [list]; exact nodup.erase k, fun z => ?_, ?_⟩
  · rw [list, nodup.mem_erase_iff]
    by_cases here : z = k
    · rw [here]
      exact ⟨fun both => absurd rfl both.1, fun state => absurd state gone⟩
    · rw [others z here, ← mem z]
      exact and_iff_right here
  · rw [list, List.map_congr_left fun z inside => by rw [others z (nodup.mem_erase_iff.mp inside).1]]
    exact age.sublist (List.erase_sublist.map _)

/-- The line shrinks to a part of itself. -/
theorem LineSound.shrink (sound : LineSound s) (part : (lineOf t).Sublist (lineOf s))
    (same : ∀ z ∈ lineOf t, (t.job z).priority = (s.job z).priority ∧ (t.job z).channel = (s.job z).channel)
    (claims : ∀ z ∈ lineOf t, t.claim (s.job z).channel = none ∨ t.claim (s.job z).channel = s.claim (s.job z).channel) :
    LineSound t := by
  refine ⟨?_, ?_, fun z mem => ?_⟩
  · rw [List.map_congr_left fun z mem => (same z mem).1]
    exact sound.priorities.sublist (part.map _)
  · rw [List.map_congr_left fun z mem => (same z mem).2]
    exact sound.channels.sublist (part.map _)
  · rw [(same z mem).2]
    rcases claims z mem with none' | same'
    · exact .inl none'
    · rw [same']
      exact sound.opened z (part.subset mem)

/-! ## The same tables -/

/-- What the agreements read of a job. -/
structure SameRecord (i j : Job) : Prop where
  state : j.state = i.state
  owner : j.owner = i.owner
  channel : j.channel = i.channel
  begun : j.begun = i.begun
  route : j.route = i.route
  readySeq : j.readySeq = i.readySeq
  seqTaken : j.seqTaken = i.seqTaken
  priority : i.state = .active ∨ i.state = .suspended → j.priority = i.priority

theorem SameRecord.refl (j : Job) : SameRecord j j := ⟨rfl, rfl, rfl, rfl, rfl, rfl, rfl, fun _ => rfl⟩

theorem SameRecord.of_eq {i j : Job} (same : j = i) : SameRecord i j := same ▸ .refl j

/-- What the agreements read of the part is the same. -/
structure SameTables (s t : State) : Prop where
  job : ∀ z, SameRecord (s.job z) (t.job z)
  gens : t.jm.gens = s.jm.gens
  owned : t.jm.owned = s.jm.owned
  nextSeq : t.jm.nextSeq = s.jm.nextSeq
  du : t.du = s.du
  abandon : t.le.abandon = s.le.abandon
  link : recovering t = recovering s
  routes : routesKept s t

theorem Agree.line_state (agree : Agree s) (mem : z ∈ lineOf s) : (s.job z).state = .active ∨ (s.job z).state = .suspended := by
  rcases List.mem_append.mp mem with stacked | held
  · exact .inr ((agree.stack z).mp stacked)
  · exact .inl ((agree.active z).mp (Option.mem_toList.mp held))

theorem SameTables.agree (same : SameTables s t) (agree : Agree s) : Agree t := by
  obtain ⟨job, gens, owned, nextSeq, du, abandon, link, routes⟩ := same
  have state : ∀ z, (t.job z).state = (s.job z).state := fun z => (job z).state
  have line : lineOf t = lineOf s := by rw [lineOf, du]
  have held : ∀ z, claiming (t.job z) ↔ claiming (s.job z) := fun z => by rw [claiming, claiming, (job z).begun, state]
  refine ⟨jobsSound_of agree.jobs owned (fun z => ⟨(job z).owner, by rw [state]⟩) fun k => ?_,
    claimsSound_of agree.claims (by rw [du]) fun z => ⟨(job z).channel, held z⟩,
    readySound_of agree.ready (by rw [du]) fun z => ⟨by rw [state], fun _ => (job z).readySeq⟩,
    by rw [du]; exact agree.stackNodup, by rw [du]; exact agree.stackDepth, fun k => by rw [du, state]; exact agree.stack k,
    fun k => by rw [du, state]; exact agree.active k, by rw [du]; exact agree.leaving,
    agree.line.shrink (by rw [line]) (fun z mem => ?_) (fun z _ => .inr (by rw [State.claim, du, State.claim])),
    by rw [link, du]; exact agree.recovery,
    abandonSound_of agree.abandon abandon gens fun z => ⟨(job z).channel, by rw [state]⟩,
    routesSound_of agree.routes routes gens fun z => ⟨(job z).route, by rw [state], fun waits => .inl ((state z).trans waits)⟩⟩
  · rw [state, (job k).begun, (job k).readySeq, (job k).seqTaken, nextSeq]
    exact agree.jobs.2 k
  · exact ⟨(job z).priority (agree.line_state (line ▸ mem)), (job z).channel⟩

theorem SameTables.decided (same : SameTables s t) (priority : ∀ z, (t.job z).priority = (s.job z).priority)
    (decided : Decided s) : Decided t := by
  obtain ⟨job, -, -, -, du, -, link, -⟩ := same
  have cand : ∀ k, candidate t none k ↔ candidate s none k := fun k => by
    have claim : ∀ c, t.claim c = s.claim c := fun c => by rw [State.claim, du, State.claim]
    simp only [candidate, openTo, (job _).state, priority, (job _).channel, claim, du]
  intro idle made
  rw [du] at idle made ⊢
  obtain ⟨empty, none'⟩ := decided idle made
  exact ⟨empty, fun up k mem => (cand k).not.mpr (none' (link.symm.trans up) k mem)⟩

/-- The tables are the same, whatever else has changed. -/
theorem SameTables.of_same (jobs : t.jm = s.jm) (du : t.du = s.du) (abandon : t.le.abandon = s.le.abandon)
    (link : recovering t = recovering s) (routes : t.rr.routes = s.rr.routes) : SameTables s t :=
  ⟨fun z => .of_eq (by rw [State.job, jobs, State.job]), by rw [jobs], by rw [jobs], by rw [jobs], du, abandon, link,
    routesKept_of_same routes⟩

theorem SameTables.tables (same : SameTables s t) (priority : ∀ z, (t.job z).priority = (s.job z).priority)
    (sound : Agree s ∧ Decided s) : Agree t ∧ Decided t :=
  ⟨same.agree sound.1, same.decided priority sound.2⟩

end Sys2Proof.Machine
end

section
/-! SUPPORT. The changes of the Dispatch Unit, each of which keeps the tables in agreement (R45, R49, R52, R53, R55, R56, R61). -/

namespace Sys2Proof.Machine

variable {s t u : State} {h : HostId} {a k m z : SlotId} {j : Job}

/-! ## One job moves -/

/-- From `s` to `t` the job in slot `k` has moved on in its life, neither from nor to a FREE slot or the abandon list; the other jobs,
the counts and the abandon list are as they were. -/
structure Moved (s t : State) (k : SlotId) : Prop where
  others : ∀ z, z ≠ k → t.job z = s.job z
  owner : (t.job k).owner = (s.job k).owner
  channel : (t.job k).channel = (s.job k).channel
  begun : (t.job k).begun = (s.job k).begun
  route : (t.job k).route = (s.job k).route
  live : (s.job k).state ≠ .free ∧ (t.job k).state ≠ .free
  kept : (s.job k).state ≠ .cancelling ∧ (t.job k).state ≠ .cancelling
  gens : t.jm.gens = s.jm.gens
  owned : t.jm.owned = s.jm.owned
  abandon : t.le.abandon = s.le.abandon

namespace Moved

variable (moved : Moved s t k)
include moved

theorem each {P : Job → Job → Prop} (same : ∀ j, P j j) (here : P (s.job k) (t.job k)) (z : SlotId) : P (s.job z) (t.job z) := by
  by_cases e : z = k
  · rw [e]
    exact here
  · rw [moved.others z e]
    exact same _

theorem channels (z : SlotId) : (t.job z).channel = (s.job z).channel :=
  moved.each (P := fun i j => j.channel = i.channel) (fun _ => rfl) moved.channel z

theorem free_iff (z : SlotId) : (t.job z).state = .free ↔ (s.job z).state = .free :=
  moved.each (P := fun i j => j.state = .free ↔ i.state = .free) (fun _ => Iff.rfl)
    (iff_of_false moved.live.2 moved.live.1) z

theorem jobsSound (sound : jobsSound s) (later : s.jm.nextSeq ≤ t.jm.nextSeq)
    (own : ((t.job k).state = .filling → (t.job k).begun = false) ∧
      ((t.job k).state = .ready → (t.job k).readySeq.isSome = true ∧ (t.job k).readySeq = (t.job k).seqTaken ∧
        (t.job k).readySeq.getD 0 < t.jm.nextSeq)) : Machine.jobsSound t := by
  refine jobsSound_of sound moved.owned (fun z => ⟨?_, moved.free_iff z⟩) fun z => ?_
  · exact moved.each (P := fun i j => j.owner = i.owner) (fun _ => rfl) moved.owner z
  · by_cases e : z = k
    · rw [e]
      exact ⟨own.1, fun state => absurd state moved.kept.2, own.2⟩
    · rw [moved.others z e]
      obtain ⟨filling, cancelling, ready⟩ := sound.2 z
      exact ⟨filling, cancelling, fun state => ⟨(ready state).1, (ready state).2.1, (ready state).2.2.trans_le later⟩⟩

theorem claimsSound (sound : claimsSound s) (claims : t.du.claims = s.du.claims)
    (held : claiming (t.job k) ↔ claiming (s.job k)) : Machine.claimsSound t :=
  claimsSound_of sound claims fun z =>
    ⟨moved.channels z, moved.each (P := fun i j => claiming j ↔ claiming i) (fun _ => Iff.rfl) held z⟩

theorem abandonSound (sound : abandonSound s) : Machine.abandonSound t :=
  abandonSound_of sound moved.abandon moved.gens fun z => ⟨moved.channels z,
    moved.each (P := fun i j => j.state = .cancelling ↔ i.state = .cancelling) (fun _ => Iff.rfl)
      (iff_of_false moved.kept.2 moved.kept.1) z⟩

theorem routesSound (sound : routesSound s) (routes : routesKept s t)
    (waits : (s.job k).state = .awaitReply → (t.job k).state = .awaitReply ∨
      ∀ r, (s.job k).route = some r → (t.route r).timer = none) : Machine.routesSound t := by
  refine routesSound_of sound routes moved.gens fun z => ⟨?_, moved.free_iff z, ?_⟩
  · exact moved.each (P := fun i j => j.route = i.route) (fun _ => rfl) moved.route z
  · exact moved.each (P := fun i j => i.state = .awaitReply → j.state = .awaitReply ∨
      ∀ r, i.route = some r → (t.route r).timer = none) (fun _ waits => .inl waits) waits z

/-- The other jobs are in a state or out of it as they were. -/
theorem state_iff {x : JobState} (was : (s.job k).state ≠ x) (is : (t.job k).state ≠ x) (z : SlotId) :
    (t.job z).state = x ↔ (s.job z).state = x :=
  moved.each (P := fun i j => j.state = x ↔ i.state = x) (fun _ => Iff.rfl) (iff_of_false is was) z

end Moved

/-! ## The link is given to a job -/

theorem makeActive_job (k : SlotId) (s : State) (z : SlotId) : (makeActive k s).job z =
    if k = z then { s.job k with state := .active, turn := 0, readySeq := none } else s.job z := upd_get ..

theorem resumeTop_job (k : SlotId) (s : State) (z : SlotId) : (resumeTop k s).job z =
    if k = z then { s.job k with state := .active, turn := 0 } else s.job z := upd_get ..

theorem pushActive_job (a : SlotId) (s : State) (z : SlotId) : (pushActive a s).job z =
    if a = z then { s.job a with state := .suspended } else s.job z := upd_get ..

/-- A job whose record is changed in its own slot only. -/
theorem moved_of_record {i : Job} (job : ∀ z, t.job z = if k = z then i else s.job z) (owner : i.owner = (s.job k).owner)
    (channel : i.channel = (s.job k).channel) (begun : i.begun = (s.job k).begun) (route : i.route = (s.job k).route)
    (live : (s.job k).state ≠ .free ∧ i.state ≠ .free) (kept : (s.job k).state ≠ .cancelling ∧ i.state ≠ .cancelling)
    (gens : t.jm.gens = s.jm.gens) (owned : t.jm.owned = s.jm.owned) (abandon : t.le.abandon = s.le.abandon) : Moved s t k := by
  have here : t.job k = i := by rw [job, if_pos rfl]
  refine ⟨fun z other => by rw [job, if_neg other.symm], ?_, ?_, ?_, ?_, ?_, ?_, gens, owned, abandon⟩ <;> rw [here]
  exacts [owner, channel, begun, route, live, kept]

/-- Along a strictly rising list everything is below what is above its last. -/
theorem below_of_last {l : List SlotId} {p : SlotId → Fin 8} {q : Fin 8} (rising : (l.map p).Pairwise (· < ·))
    (last : ∀ top, l.getLast? = some top → p top < q) : ∀ z ∈ l, p z < q := by
  induction l with
  | nil => exact fun _ mem => absurd mem List.not_mem_nil
  | cons x l ih =>
    intro z mem
    obtain ⟨first, rest⟩ := List.pairwise_cons.mp rising
    cases l with
    | nil =>
      rw [List.mem_singleton.mp mem]
      exact last x rfl
    | cons y l =>
      have later := ih rest fun top e => last top ((List.getLast?_cons_cons ..).trans e)
      rcases List.mem_cons.mp mem with rfl | mem
      · exact (first (p y) (List.mem_cons_self ..)).trans (later y (List.mem_cons_self ..))
      · exact later z mem

theorem lineOf_idle (idle : s.du.active = none) : lineOf s = s.du.stack := by
  rw [lineOf, idle, Option.toList_none, List.append_nil]

/-- A job above the stack, on a channel of none on it, joins the line. -/
theorem LineSound.enter {l : List SlotId} (sound : LineSound s) (was : lineOf s = l) (is : lineOf t = l ++ [k])
    (same : ∀ z ∈ l, (t.job z).priority = (s.job z).priority ∧ (t.job z).channel = (s.job z).channel)
    (claims : t.du.claims = s.du.claims) (above : ∀ z ∈ l, (s.job z).priority < (t.job k).priority)
    (apart : ∀ z ∈ l, (s.job z).channel ≠ (t.job k).channel)
    (opened : s.claim (t.job k).channel = none ∨ s.claim (t.job k).channel = some k) : LineSound t := by
  obtain ⟨rising, distinct, open'⟩ := sound
  rw [was] at rising distinct open'
  have claim : ∀ c, t.claim c = s.claim c := fun c => by rw [State.claim, claims, State.claim]
  refine ⟨?_, ?_, fun z mem => ?_⟩
  · rw [is, List.map_append, List.map_congr_left fun z mem => (same z mem).1]
    refine List.pairwise_append.mpr ⟨rising, List.pairwise_singleton .., fun p below q here => ?_⟩
    obtain ⟨z, mem, rfl⟩ := List.mem_map.mp below
    rw [List.map_singleton, List.mem_singleton] at here
    exact here ▸ above z mem
  · rw [is, List.map_append, List.map_congr_left fun z mem => (same z mem).2]
    refine List.nodup_append.mpr ⟨distinct, List.nodup_singleton _, fun p below q here e => ?_⟩
    obtain ⟨z, mem, rfl⟩ := List.mem_map.mp below
    rw [List.map_singleton, List.mem_singleton] at here
    exact apart z mem (e.trans here)
  · rw [is] at mem
    rw [claim]
    rcases List.mem_append.mp mem with below | here
    · rw [(same z below).2]
      exact open' z below
    · rw [List.mem_singleton.mp here]
      exact opened

/-- A candidate above the top of the stack becomes ACTIVE (R50, R60). -/
theorem Agree.makeActive (agree : Agree s) (idle : s.du.active = none) (up : recovering s = false)
    (cand : candidate s none k) (made : s.du.leaving = false)
    (above : ∀ top, s.du.stack.getLast? = some top → (s.job top).priority < (s.job k).priority) :
    Agree (Machine.makeActive k s) := by
  obtain ⟨state, -, opened, apart, -⟩ := cand
  have job := makeActive_job k s
  have here : (Machine.makeActive k s).job k = { s.job k with state := .active, turn := 0, readySeq := none } := by
    rw [job, if_pos rfl]
  have claims : (Machine.makeActive k s).du.claims = s.du.claims := rfl
  have moved : Moved s (Machine.makeActive k s) k := moved_of_record job rfl rfl rfl rfl ⟨by rw [state]; nofun, nofun⟩
    ⟨by rw [state]; nofun, nofun⟩ rfl rfl rfl
  have line : lineOf (Machine.makeActive k s) = s.du.stack ++ [k] := rfl
  have was := agree.line
  have stacked : ∀ z ∈ s.du.stack, (Machine.makeActive k s).job z = s.job z := fun z inside =>
    moved.others z fun e => by
      have state' := (agree.stack z).mp inside
      rw [e, state] at state'
      cases state'
  have priority : ∀ z ∈ s.du.stack, (s.job z).priority < (s.job k).priority := by
    refine below_of_last ?_ above
    have rising := was.priorities
    rw [lineOf_idle idle] at rising
    exact rising
  refine ⟨moved.jobsSound agree.jobs le_rfl (by rw [here]; exact ⟨nofun, nofun⟩),
    moved.claimsSound agree.claims claims (by rw [here]; simp [claiming, state]),
    readySound_erase agree.ready k rfl (by rw [here]; nofun) moved.others, agree.stackNodup, agree.stackDepth,
    fun z => (agree.stack z).trans (moved.state_iff (by rw [state]; nofun) (by rw [here]; nofun) z).symm, fun z => ?_,
    fun open' => absurd (made.symm.trans open') nofun, ?_, fun down => absurd (up.symm.trans down) nofun,
    moved.abandonSound agree.abandon,
    moved.routesSound agree.routes (routesKept_of_same rfl) fun waits => absurd (state.symm.trans waits) nofun⟩
  · by_cases e : z = k
    · rw [e, here]
      exact iff_of_true rfl rfl
    · rw [moved.others z e, ← agree.active, idle]
      exact iff_of_false (fun q => e (Option.some.inj q).symm) nofun
  · refine was.enter (lineOf_idle idle) line (fun z inside => by rw [stacked z inside]; exact ⟨rfl, rfl⟩) claims ?_ ?_ ?_
    · rw [here]
      exact priority
    · rw [here]
      exact apart
    · rw [here]
      exact opened

/-- The top of the stack resumes (R61). -/
theorem Agree.resumeTop (agree : Agree s) (idle : s.du.active = none) (up : recovering s = false)
    (top : s.du.stack.getLast? = some k) (made : s.du.leaving = false) : Agree (Machine.resumeTop k s) := by
  have job := resumeTop_job k s
  have here : (Machine.resumeTop k s).job k = { s.job k with state := .active, turn := 0 } := by rw [job, if_pos rfl]
  have state := (agree.stack k).mp (List.mem_of_getLast? top)
  have moved : Moved s (Machine.resumeTop k s) k := moved_of_record job rfl rfl rfl rfl ⟨by rw [state]; nofun, nofun⟩
    ⟨by rw [state]; nofun, nofun⟩ rfl rfl rfl
  have whole : s.du.stack = s.du.stack.dropLast ++ [k] := (List.dropLast_append_getLast? k top).symm
  have claims : (Machine.resumeTop k s).du.claims = s.du.claims := rfl
  have stack : (Machine.resumeTop k s).du.stack = s.du.stack.dropLast := rfl
  have line : lineOf (Machine.resumeTop k s) = lineOf s := whole.symm.trans (lineOf_idle idle).symm
  have nodup := agree.stackNodup
  have fresh : k ∉ s.du.stack.dropLast := by
    rw [whole] at nodup
    exact fun mem => (List.nodup_append.mp nodup).2.2 k mem k (List.mem_singleton_self k) rfl
  refine ⟨moved.jobsSound agree.jobs le_rfl (by rw [here]; exact ⟨nofun, nofun⟩),
    moved.claimsSound agree.claims claims (by rw [here]; simp [claiming, state]),
    readySound_of agree.ready rfl fun z => ⟨moved.state_iff (by rw [state]; nofun) (by rw [here]; nofun) z, fun ready => ?_⟩,
    nodup.sublist (List.dropLast_sublist _), (List.dropLast_sublist _).length_le.trans agree.stackDepth, fun z => ?_, fun z => ?_,
    fun open' => absurd (made.symm.trans open') nofun, agree.line.shrink (by rw [line]) (fun z _ => ⟨?_, moved.channels z⟩)
      (fun z _ => .inr rfl), fun down => absurd (up.symm.trans down) nofun, moved.abandonSound agree.abandon,
    moved.routesSound agree.routes (routesKept_of_same rfl) fun waits => absurd (state.symm.trans waits) nofun⟩
  · rw [moved.others z fun e => by rw [e, state] at ready; cases ready]
  · rw [stack]
    by_cases e : z = k
    · rw [e, here]
      exact iff_of_false fresh nofun
    · rw [moved.others z e, ← agree.stack, whole, List.dropLast_concat, List.mem_append, List.mem_singleton]
      exact (or_iff_left e).symm
  · by_cases e : z = k
    · rw [e, here]
      exact iff_of_true rfl rfl
    · rw [moved.others z e, ← agree.active, idle]
      exact iff_of_false (fun q => e (Option.some.inj q).symm) nofun
  · exact moved.each (P := fun i j => j.priority = i.priority) (fun _ => rfl) (by rw [here]) z

/-- The active job is pushed on the stack (R52). -/
theorem Agree.pushActive (agree : Agree s) (active : s.du.active = some a) (room : s.du.stack.length < 3) :
    Agree (Machine.pushActive a s) := by
  have job := pushActive_job a s
  have here : (Machine.pushActive a s).job a = { s.job a with state := .suspended } := by rw [job, if_pos rfl]
  have state := (agree.active a).mp active
  have moved : Moved s (Machine.pushActive a s) a := moved_of_record job rfl rfl rfl rfl ⟨by rw [state]; nofun, nofun⟩
    ⟨by rw [state]; nofun, nofun⟩ rfl rfl rfl
  have claims : (Machine.pushActive a s).du.claims = s.du.claims := rfl
  have stack : (Machine.pushActive a s).du.stack = s.du.stack ++ [a] := rfl
  have line : lineOf (Machine.pushActive a s) = lineOf s := by
    rw [lineOf, lineOf, stack, active]
    exact List.append_nil _
  have fresh : a ∉ s.du.stack := fun mem => by
    have suspended := (agree.stack a).mp mem
    rw [state] at suspended
    cases suspended
  refine ⟨moved.jobsSound agree.jobs le_rfl (by rw [here]; exact ⟨nofun, nofun⟩),
    moved.claimsSound agree.claims claims (by rw [here]; simp [claiming, state]),
    readySound_of agree.ready rfl fun z => ⟨moved.state_iff (by rw [state]; nofun) (by rw [here]; nofun) z, fun ready => ?_⟩,
    List.nodup_append.mpr ⟨agree.stackNodup, List.nodup_singleton a, fun x mem y single e => ?_⟩, ?_, fun z => ?_, fun z => ?_,
    fun _ => rfl, agree.line.shrink (by rw [line]) (fun z _ => ⟨?_, moved.channels z⟩)
      (fun z _ => .inr rfl), fun down => ?_, moved.abandonSound agree.abandon,
    moved.routesSound agree.routes (routesKept_of_same rfl) fun waits => absurd (state.symm.trans waits) nofun⟩
  · rw [moved.others z fun e => by rw [e, state] at ready; cases ready]
  · rw [e, List.mem_singleton.mp single] at mem
    exact fresh mem
  · rw [stack, List.length_append]
    exact room
  · rw [stack, List.mem_append, List.mem_singleton]
    by_cases e : z = a
    · rw [e, here]
      exact iff_of_true (.inr rfl) rfl
    · rw [moved.others z e, ← agree.stack]
      exact or_iff_left e
  · refine iff_of_false nofun fun active' => ?_
    by_cases e : z = a
    · rw [e, here] at active'
      cases active'
    · rw [moved.others z e, ← agree.active, active] at active'
      exact e (Option.some.inj active').symm
  · exact moved.each (P := fun i j => j.priority = i.priority) (fun _ => rfl) (by rw [here]) z
  · exact absurd ((agree.recovery down).1.symm.trans active) nofun

/-- A job that was FILLING, STARVED or ACTIVE joins the ready set at the tail (R12, R56). -/
theorem Agree.join (agree : Agree s) (was : (s.job k).state = .filling ∨ (s.job k).state = .starved ∨ (s.job k).state = .active)
    (job : ∀ z, t.job z = if k = z then
      { s.job k with state := .ready, readySeq := some s.jm.nextSeq, seqTaken := some s.jm.nextSeq } else s.job z)
    (du : t.du = { s.du with
      ready := s.du.ready ++ [k], active := if s.du.active = some k then none else s.du.active })
    (seq : t.jm.nextSeq = s.jm.nextSeq + 1) (gens : t.jm.gens = s.jm.gens) (owned : t.jm.owned = s.jm.owned)
    (abandon : t.le.abandon = s.le.abandon) (link : recovering t = recovering s) (routes : t.rr.routes = s.rr.routes) : Agree t := by
  have here : t.job k = { s.job k with state := .ready, readySeq := some s.jm.nextSeq, seqTaken := some s.jm.nextSeq } := by
    rw [job, if_pos rfl]
  have out {x : JobState} (f : x ≠ .filling) (v : x ≠ .starved) (c : x ≠ .active) : (s.job k).state ≠ x := by
    rcases was with w | w | w <;> rw [w]
    exacts [f.symm, v.symm, c.symm]
  have unready : (s.job k).state ≠ .ready := out nofun nofun nofun
  have unstacked : (s.job k).state ≠ .suspended := out nofun nofun nofun
  have moved : Moved s t k := moved_of_record job rfl rfl rfl rfl ⟨out nofun nofun nofun, nofun⟩ ⟨out nofun nofun nofun, nofun⟩
    gens owned abandon
  have claims : t.du.claims = s.du.claims := by rw [du]
  have stack : t.du.stack = s.du.stack := by rw [du]
  have active : t.du.active = if s.du.active = some k then none else s.du.active := by rw [du]
  have ready : t.du.ready = s.du.ready ++ [k] := by rw [du]
  have part : (lineOf t).Sublist (lineOf s) := by
    rw [lineOf, stack, active]
    refine List.Sublist.append_left ?_ _
    split
    · exact List.nil_sublist _
    · exact List.Sublist.refl _
  have kept : ∀ z ∈ s.du.ready, t.job z = s.job z := fun z mem =>
    moved.others z fun e => unready (e ▸ (agree.ready.2.1 z).mp mem)
  have away : ∀ z ∈ lineOf t, t.job z = s.job z := fun z mem => moved.others z fun e => by
    rw [e] at mem
    rcases List.mem_append.mp mem with stacked | held
    · exact unstacked ((agree.stack k).mp (stack ▸ stacked))
    · have held := Option.mem_toList.mp held
      rw [active] at held
      split at held
      · cases held
      · next other => exact other held
  refine ⟨moved.jobsSound agree.jobs (by rw [seq]; exact Nat.le_succ _) ⟨by rw [here]; nofun, fun _ => ?_⟩,
    moved.claimsSound agree.claims claims ?_, ⟨?_, fun z => ?_, ?_⟩, by rw [stack]; exact agree.stackNodup,
    by rw [stack]; exact agree.stackDepth,
    fun z => by rw [stack]; exact (agree.stack z).trans (moved.state_iff unstacked (by rw [here]; nofun) z).symm, fun z => ?_,
    fun open' => ?_, agree.line.shrink part (fun z mem => by rw [away z mem]; exact ⟨rfl, rfl⟩)
      (fun z _ => .inr (by rw [State.claim, claims, State.claim])), fun down => ?_, moved.abandonSound agree.abandon,
    moved.routesSound agree.routes (routesKept_of_same routes) fun waits => absurd waits (out nofun nofun nofun)⟩
  · rw [here, seq]
    exact ⟨rfl, rfl, Nat.lt_succ_self _⟩
  · rw [here]
    refine ⟨fun held => ⟨held.1, ?_⟩, fun held => ⟨held.1, .inr (.inr (.inl rfl))⟩⟩
    rcases was with w | w | w
    · exact absurd ((agree.jobs.2 k).1 w) (by rw [held.1]; nofun)
    · exact .inr (.inr (.inr (.inl w)))
    · exact .inl w
  · rw [ready]
    refine List.nodup_append.mpr ⟨agree.ready.1, List.nodup_singleton k, fun x mem y single e => ?_⟩
    rw [e, List.mem_singleton.mp single] at mem
    exact unready ((agree.ready.2.1 k).mp mem)
  · rw [ready, List.mem_append, List.mem_singleton]
    by_cases e : z = k
    · rw [e, here]
      exact iff_of_true (.inr rfl) rfl
    · rw [moved.others z e, ← agree.ready.2.1]
      exact or_iff_left e
  · rw [ready, List.map_append, List.map_congr_left fun z mem => by rw [kept z mem]]
    refine List.pairwise_append.mpr ⟨agree.ready.2.2, List.pairwise_singleton .., fun p below q single => ?_⟩
    obtain ⟨z, mem, rfl⟩ := List.mem_map.mp below
    rw [List.map_singleton, List.mem_singleton, here] at single
    rw [single]
    exact ((agree.jobs.2 z).2.2 ((agree.ready.2.1 z).mp mem)).2.2
  · rw [active]
    by_cases e : z = k
    · rw [e, here]
      refine iff_of_false (fun held => ?_) nofun
      split at held
      · cases held
      · next other => exact other held
    · rw [moved.others z e, ← agree.active]
      split
      · next held => exact iff_of_false nofun fun held' => e (Option.some.inj (held.symm.trans held')).symm
      · exact Iff.rfl
  · have idle := agree.leaving (by rw [du] at open'; exact open')
    rw [active, idle]
    rfl
  · obtain ⟨idle, empty, made⟩ := agree.recovery (link.symm.trans down)
    refine ⟨?_, stack.trans empty, by rw [du]; exact made⟩
    rw [active, idle]
    rfl

/-- The record of the job in slot `a` marked BEGUN, and its channel claimed (R45). -/
abbrev begunAs (s : State) (a : SlotId) : State := (s.setJob a { s.job a with begun := true }).setClaim (s.job a).channel (some a)

/-- The active job's first entry is put on the link: it takes its claim (R45). -/
theorem Agree.begunAs (agree : Agree s) (active : s.du.active = some a) : Agree (Machine.begunAs s a) := by
  have state := (agree.active a).mp active
  have job : ∀ z, (Machine.begunAs s a).job z = if a = z then { s.job a with begun := true } else s.job z := fun z => upd_get ..
  have claim : ∀ c, (Machine.begunAs s a).claim c = if (s.job a).channel = c then some a else s.claim c := fun c => upd_get ..
  have line : lineOf (Machine.begunAs s a) = lineOf s := rfl
  have here : (Machine.begunAs s a).job a = { s.job a with begun := true } := by rw [job, if_pos rfl]
  have others : ∀ z, z ≠ a → (Machine.begunAs s a).job z = s.job z := fun z e => by rw [job, if_neg (Ne.symm e)]
  have each {P : Job → Job → Prop} (same : ∀ j, P j j) (own : P (s.job a) { s.job a with begun := true }) (z : SlotId) :
      P (s.job z) ((Machine.begunAs s a).job z) := by
    by_cases e : z = a
    · rw [e, here]
      exact own
    · rw [others z e]
      exact same _
  have states : ∀ z, ((Machine.begunAs s a).job z).state = (s.job z).state :=
    each (P := fun i j => j.state = i.state) (fun _ => rfl) rfl
  have channels : ∀ z, ((Machine.begunAs s a).job z).channel = (s.job z).channel :=
    each (P := fun i j => j.channel = i.channel) (fun _ => rfl) rfl
  have inLine : a ∈ lineOf s := List.mem_append_right _ (Option.mem_toList.mpr active)
  refine ⟨jobsSound_of agree.jobs rfl (fun z => ⟨each (P := fun i j => j.owner = i.owner) (fun _ => rfl) rfl z, by rw [states]⟩)
      fun z => ?_, fun c z => ?_,
    readySound_of agree.ready rfl fun z => ⟨by rw [states],
      fun _ => each (P := fun i j => j.readySeq = i.readySeq) (fun _ => rfl) rfl z⟩,
    agree.stackNodup, agree.stackDepth, fun z => by rw [states]; exact agree.stack z, fun z => by rw [states]; exact agree.active z,
    agree.leaving, ⟨?_, ?_, fun z mem => ?_⟩, agree.recovery,
    abandonSound_of agree.abandon rfl rfl fun z => ⟨channels z, by rw [states]⟩,
    routesSound_of agree.routes (routesKept_of_same rfl) rfl fun z =>
      ⟨each (P := fun i j => j.route = i.route) (fun _ => rfl) rfl z, by rw [states], fun waits => .inl ((states z).trans waits)⟩⟩
  · by_cases e : z = a
    · rw [e, here]
      dsimp only
      rw [state]
      exact ⟨nofun, nofun, nofun⟩
    · rw [others z e]
      exact agree.jobs.2 z
  · rw [claim]
    by_cases e : z = a
    · rw [e, here]
      refine ⟨fun held => ⟨?_, rfl, .inl state⟩, fun held => if_pos held.1⟩
      by_contra other
      rw [if_neg other] at held
      exact other ((agree.claims c a).mp held).1
    · rw [others z e]
      split
      · next same =>
        refine iff_of_false (fun held => e (Option.some.inj held).symm) fun held => ?_
        have taken := (agree.claims c z).mpr held
        rw [← same] at taken
        rcases agree.line.opened a inLine with none' | own <;> rw [taken] at *
        · cases none'
        · exact e (Option.some.inj own)
      · exact agree.claims c z
  · rw [line, List.map_congr_left fun z _ => each (P := fun i j => j.priority = i.priority) (fun _ => rfl) rfl z]
    exact agree.line.priorities
  · rw [line, List.map_congr_left fun z _ => channels z]
    exact agree.line.channels
  · rw [claim, channels]
    split
    · next same =>
      right
      rw [List.inj_on_of_nodup_map agree.line.channels inLine mem same]
    · exact agree.line.opened z mem

theorem Agree.begins (agree : Agree s) (active : s.du.active = some a) : Agree (beginJob a s) := by
  rw [beginJob]
  split
  · exact agree
  · exact agree.begunAs active

end Sys2Proof.Machine
end

section
/-! SUPPORT. A job leaves the Dispatch Unit, its slot is released, or a job is created: the tables stay in agreement (R2, R9, R18, R46,
R66, R96 to R98, R134). -/

namespace Sys2Proof.Machine

variable {s t u : State} {h : HostId} {a k m z : SlotId} {j : Job} {c : Cause}

/-! ## A job leaves the Dispatch Unit -/

/-- No entry of the abandon list is about a job that is not CANCELLING. -/
theorem Agree.unlisted (agree : Agree s) (alive : (s.job k).state ≠ .cancelling) :
    ∀ e ∈ s.le.abandon, e.job.slot ≠ k := fun e mem here => by
  obtain ⟨-, -, named, -⟩ := agree.abandon
  exact alive (here ▸ (named e mem).2.1)

/-- The claim of the job outlasts its leaving (R45, R46). -/
abbrev keepsClaim (j : Job) : Prop := j.state = .starved ∨ j.state = .cancelling

/-- From `s` to `t` the record of the job in slot `k` is that of a job which has left the Dispatch Unit: it is STARVED, awaits its
reply, has ENDED or is CANCELLING. -/
structure Departed (s t : State) (k : SlotId) : Prop where
  others : ∀ z, z ≠ k → t.job z = s.job z
  owner : (t.job k).owner = (s.job k).owner
  channel : (t.job k).channel = (s.job k).channel
  begun : (t.job k).begun = (s.job k).begun
  route : (t.job k).route = (s.job k).route
  live : (s.job k).state ≠ .free
  out : keepsClaim (t.job k) ∨ (t.job k).state = .awaitReply ∨ (t.job k).state = .ended
  partly : (t.job k).state = .cancelling → (s.job k).begun = true ∧ (s.job k).state ≠ .cancelling
  gens : t.jm.gens = s.jm.gens
  owned : t.jm.owned = s.jm.owned
  nextSeq : t.jm.nextSeq = s.jm.nextSeq
  routes : ∀ r, (t.route r).owner = (s.route r).owner ∧ ((t.route r).state = .free ↔ (s.route r).state = .free) ∧
    ((t.route r).timer ≠ none → (s.route r).timer ≠ none ∧ (s.job k).route ≠ some r ∨
      (t.job k).state = .awaitReply ∧ (s.job k).route = some r)

/-- From `s` to `t` the job in slot `k` has left the Dispatch Unit or, where no list of it held the job, moved on outside it, a
CANCELLING one with an abandon entry of cause `c`. -/
structure Retired (s t : State) (k : SlotId) (c : Cause) : Prop extends Departed s t k where
  held : keepsClaim (t.job k) → (s.job k).begun = true → claiming (s.job k)
  ready : t.du.ready = s.du.ready.erase k
  stack : t.du.stack = s.du.stack.erase k
  active : t.du.active = if s.du.active = some k then none else s.du.active
  leaving : t.du.leaving = s.du.leaving
  claims : ∀ x, t.claim x = if s.claim x = some k ∧ ¬ keepsClaim (t.job k) then none else s.claim x
  abandon : t.le.abandon = if (t.job k).state = .cancelling then
      s.le.abandon ++ [{ job := s.handle k, channel := (s.job k).channel, cause := c }]
    else s.le.abandon.filter fun e => decide (e.job.slot ≠ k)
  link : recovering t = recovering s

namespace Departed

variable (gone : Departed s t k)
include gone

/-- The job is in none of the states it could be in inside the Dispatch Unit. -/
theorem outside {x : JobState} (out : x ≠ .starved ∧ x ≠ .awaitReply ∧ x ≠ .ended ∧ x ≠ .cancelling) : (t.job k).state ≠ x := by
  rcases gone.out with (e | e) | e | e <;> rw [e]
  exacts [out.1.symm, out.2.2.2.symm, out.2.1.symm, out.2.2.1.symm]

theorem each {P : Job → Job → Prop} (same : ∀ j, P j j) (here : P (s.job k) (t.job k)) (z : SlotId) : P (s.job z) (t.job z) := by
  by_cases e : z = k
  · rw [e]
    exact here
  · rw [gone.others z e]
    exact same _

theorem free_iff (z : SlotId) : (t.job z).state = .free ↔ (s.job z).state = .free :=
  gone.each (P := fun i j => j.state = .free ↔ i.state = .free) (fun _ => Iff.rfl)
    (iff_of_false (gone.outside (by simp)) gone.live) z

theorem jobsSound (sound : jobsSound s) : Machine.jobsSound t := by
  refine jobsSound_of sound gone.owned
    (fun z => ⟨gone.each (P := fun i j => j.owner = i.owner) (fun _ => rfl) gone.owner z, gone.free_iff z⟩) fun z => ?_
  by_cases e : z = k
  · rw [e]
    refine ⟨fun state => absurd state (gone.outside (by simp)), fun state => ?_,
      fun state => absurd state (gone.outside (by simp))⟩
    rw [gone.begun]
    exact (gone.partly state).1
  · rw [gone.others z e, gone.nextSeq]
    exact sound.2 z

theorem routesSound (sound : routesSound s) : Machine.routesSound t := by
  obtain ⟨owned, named, mine, stopped⟩ := sound
  have handle : ∀ z, t.handle z = s.handle z := fun z => by rw [State.handle, State.gen, gone.gens, State.handle, State.gen]
  have route : ∀ z, (t.job z).route = (s.job z).route :=
    gone.each (P := fun i j => j.route = i.route) (fun _ => rfl) gone.route
  refine ⟨fun r => ?_, fun r x owner => ?_, fun z r live of => ?_, fun r none' => ?_⟩
  · rw [(gone.routes r).1, (gone.routes r).2.1]
    exact owned r
  · rw [(gone.routes r).1] at owner
    obtain ⟨names, live, of, waits⟩ := named r x owner
    refine ⟨by rw [handle]; exact names, fun free => live ((gone.free_iff _).mp free), (route _).trans of, fun runs => ?_⟩
    rcases (gone.routes r).2.2 runs with ⟨ran, other⟩ | ⟨waits', of'⟩
    · rw [gone.others _ fun e => other (e ▸ of)]
      exact waits ran
    · have owner' := mine k r gone.live of'
      rw [owner] at owner'
      rw [Option.some.inj owner']
      exact waits'
  · rw [(gone.routes r).1, handle]
    exact mine z r (fun free => live ((gone.free_iff z).mpr free)) ((route z).symm.trans of)
  · rw [(gone.routes r).1] at none'
    by_contra runs
    rcases (gone.routes r).2.2 runs with ⟨ran, -⟩ | ⟨-, of⟩
    · exact ran (stopped r none')
    · exact absurd (none'.symm.trans (mine k r gone.live of)) nofun

end Departed

namespace Retired

variable (gone : Retired s t k c)
include gone

theorem claimsSound (agree : Agree s) : Machine.claimsSound t := by
  intro x z
  rw [gone.claims]
  by_cases e : z = k
  · rw [e, gone.channel]
    by_cases keeps : keepsClaim (t.job k)
    · rw [if_neg fun both => both.2 keeps]
      refine (agree.claims x k).trans (and_congr_right' ?_)
      refine ⟨fun held => ⟨gone.begun.trans held.1, ?_⟩, fun held => gone.held keeps (gone.begun.symm.trans held.1)⟩
      exact .inr (.inr (.inr keeps))
    · refine iff_of_false (fun held => ?_) fun held => ?_
      · split at held
        · cases held
        · next other => exact other ⟨held, keeps⟩
      · obtain ⟨-, -, held⟩ := held
        rcases held with held | held | held | held
        · exact gone.outside (by simp) held
        · exact gone.outside (by simp) held
        · exact gone.outside (by simp) held
        · exact keeps held
  · rw [gone.others z e]
    refine Iff.trans ?_ (agree.claims x z)
    split
    · next mine => exact iff_of_false nofun fun held => e (Option.some.inj (held.symm.trans mine.1))
    · exact Iff.rfl

theorem line_part : (lineOf t).Sublist (lineOf s) := by
  rw [lineOf, gone.stack, gone.active]
  refine List.Sublist.append List.erase_sublist ?_
  split
  · exact List.nil_sublist _
  · exact List.Sublist.refl _

theorem line_other (agree : Agree s) (mem : z ∈ lineOf t) : t.job z = s.job z := gone.others z fun e => by
  rw [e] at mem
  rcases List.mem_append.mp mem with stacked | held
  · rw [gone.stack, agree.stackNodup.mem_erase_iff] at stacked
    exact stacked.1 rfl
  · have held := Option.mem_toList.mp held
    rw [gone.active] at held
    split at held
    · cases held
    · next other => exact other held

theorem abandonSound (agree : Agree s) : Machine.abandonSound t := by
  obtain ⟨slots, channels, named, listed⟩ := agree.abandon
  have handle : ∀ z, t.handle z = s.handle z := fun z => by rw [State.handle, State.gen, gone.gens, State.handle, State.gen]
  have abandon := gone.abandon
  by_cases partly : (t.job k).state = .cancelling
  · rw [if_pos partly] at abandon
    obtain ⟨begun, alive⟩ := gone.partly partly
    have away := agree.unlisted alive
    have claim := (agree.claims _ k).mpr ⟨rfl, gone.held (.inr partly) begun⟩
    have apart : ∀ e ∈ s.le.abandon, e.channel ≠ (s.job k).channel := fun e mem same => by
      obtain ⟨-, state, channel⟩ := named e mem
      have other := (agree.claims _ e.job.slot).mpr
        ⟨rfl, (agree.jobs.2 e.job.slot).2.1 state, .inr (.inr (.inr (.inr state)))⟩
      rw [channel, same, claim] at other
      exact away e mem (Option.some.inj other).symm
    rw [Machine.abandonSound, abandon, List.map_append, List.map_append]
    refine ⟨List.nodup_append.mpr ⟨slots, List.nodup_singleton _, fun x mem y single e => ?_⟩,
      List.nodup_append.mpr ⟨channels, List.nodup_singleton _, fun x mem y single e => ?_⟩, fun e mem => ?_, fun z state => ?_⟩
    · obtain ⟨e', listed, rfl⟩ := List.mem_map.mp mem
      rw [List.map_singleton, List.mem_singleton] at single
      exact away e' listed (e.trans single)
    · obtain ⟨e', listed, rfl⟩ := List.mem_map.mp mem
      rw [List.map_singleton, List.mem_singleton] at single
      exact apart e' listed (e.trans single)
    · rcases List.mem_append.mp mem with mem | single
      · rw [handle, gone.others _ (away e mem)]
        exact named e mem
      · rw [List.mem_singleton.mp single]
        exact ⟨(handle k).symm, partly, gone.channel⟩
    · rw [List.mem_append]
      by_cases e : z = k
      · exact .inr (by rw [e]; exact List.mem_singleton_self _)
      · rw [gone.others z e] at state
        exact .inl (listed z state)
  · rw [if_neg partly] at abandon
    have part : t.le.abandon.Sublist s.le.abandon := by
      rw [abandon]
      exact List.filter_sublist
    refine ⟨slots.sublist (part.map _), channels.sublist (part.map _), fun e mem => ?_, fun z state => ?_⟩
    · have other : e.job.slot ≠ k := by
        rw [abandon] at mem
        exact of_decide_eq_true (List.mem_filter.mp mem).2
      rw [handle, gone.others _ other]
      exact named e (part.subset mem)
    · have other : z ≠ k := fun e => partly (e ▸ state)
      rw [gone.others z other] at state
      obtain ⟨e, mem, slot⟩ := List.mem_map.mp (listed z state)
      refine List.mem_map.mpr ⟨e, ?_, slot⟩
      rw [abandon]
      exact List.mem_filter.mpr ⟨mem, decide_eq_true (by rw [slot]; exact other)⟩

/-- The tables stay in agreement where a job leaves the Dispatch Unit. -/
theorem agree (agree : Agree s) : Agree t := by
  refine ⟨gone.jobsSound agree.jobs, gone.claimsSound agree,
    readySound_erase agree.ready k gone.ready (gone.outside (by simp)) gone.others, by rw [gone.stack]; exact agree.stackNodup.erase k,
    by rw [gone.stack]; exact List.erase_sublist.length_le.trans agree.stackDepth, fun z => ?_, fun z => ?_, fun open' => ?_,
    agree.line.shrink gone.line_part (fun z mem => by rw [gone.line_other agree mem]; exact ⟨rfl, rfl⟩) fun z _ => ?_, fun down => ?_,
    gone.abandonSound agree, gone.routesSound agree.routes⟩
  · rw [gone.stack, agree.stackNodup.mem_erase_iff]
    by_cases e : z = k
    · rw [e]
      exact iff_of_false (fun both => both.1 rfl) (gone.outside (by simp))
    · rw [gone.others z e, ← agree.stack]
      exact and_iff_right e
  · rw [gone.active]
    by_cases e : z = k
    · rw [e]
      refine iff_of_false (fun held => ?_) (gone.outside (by simp))
      split at held
      · cases held
      · next other => exact other held
    · rw [gone.others z e, ← agree.active]
      split
      · next held => exact iff_of_false nofun fun held' => e (Option.some.inj (held'.symm.trans held))
      · exact Iff.rfl
  · rw [gone.active, agree.leaving (gone.leaving ▸ open')]
    rfl
  · rw [gone.claims]
    split
    · exact .inl rfl
    · exact .inr rfl
  · obtain ⟨idle, empty, made⟩ := agree.recovery (gone.link.symm.trans down)
    refine ⟨by rw [gone.active, idle]; rfl, by rw [gone.stack, empty]; rfl, gone.leaving.trans made⟩

/-- No job becomes a candidate where no claim falls and the active job stays. -/
theorem decided (agree : Agree s) (other : s.du.active ≠ some k) (claims : ∀ x, t.claim x = s.claim x) (decided : Decided s) :
    Decided t := by
  intro idle made
  rw [gone.active, if_neg other] at idle
  obtain ⟨empty, none'⟩ := decided idle (gone.leaving.symm.trans made)
  have empty' : t.du.stack = [] := by rw [gone.stack, empty]; rfl
  refine ⟨empty', fun up z mem cand => ?_⟩
  rw [gone.ready, agree.ready.1.mem_erase_iff] at mem
  have same := gone.others z mem.1
  refine none' (gone.link.symm.trans up) z mem.2 ?_
  obtain ⟨state, priority, opened, -, -⟩ := cand
  rw [same] at state priority opened
  rw [claims] at opened
  exact ⟨state, priority, opened, by rw [empty]; exact fun j mem => absurd mem List.not_mem_nil, fun j e => absurd e nofun⟩

/-- No claim falls where the job claims none or keeps its claim. -/
theorem claims_of (agree : Agree s) (none' : ¬ claiming (s.job k) ∨ keepsClaim (t.job k)) (x : ChannelId) : t.claim x = s.claim x := by
  rw [gone.claims]
  refine if_neg fun both => ?_
  rcases none' with none' | keeps
  · exact none' ((agree.claims x k).mp both.1).2
  · exact both.2 keeps

end Retired

end Sys2Proof.Machine
end

section
/-! SUPPORT. A slot is released or taken outside the Dispatch Unit (R2, R9, R18, R22, R96, R98). -/

namespace Sys2Proof.Machine

variable {s t u : State} {h : HostId} {a k m z : SlotId} {j : Job} {c : Cause} {r : RouteId}

/-! ## A job outside the Dispatch Unit -/

/-- The job is in none of the lists of the Dispatch Unit, nor on the abandon list. -/
abbrev outside (j : Job) : Prop := j.state = .free ∨ j.state = .filling ∨ j.state = .ended

theorem outside_ne {x : JobState} (out : outside j) (other : x ≠ .free ∧ x ≠ .filling ∧ x ≠ .ended) : j.state ≠ x := by
  rcases out with e | e | e <;> rw [e]
  exacts [other.1.symm, other.2.1.symm, other.2.2.symm]

theorem not_claiming (out : outside j) : ¬ claiming j := fun held => by
  obtain ⟨-, held⟩ := held
  rcases out with e | e | e <;> simp [e] at held

/-- From `s` to `t` a slot outside the Dispatch Unit has been taken or released. -/
structure Beside (s t : State) (k : SlotId) : Prop where
  others : ∀ z, z ≠ k → t.job z = s.job z
  was : outside (s.job k)
  now : outside (t.job k)
  unbegun : (t.job k).state = .filling → (t.job k).begun = false
  gens : ∀ z, z ≠ k → t.gen z = s.gen z
  nextSeq : t.jm.nextSeq = s.jm.nextSeq
  du : t.du = s.du
  le : t.le = s.le

namespace Beside

variable (beside : Beside s t k)
include beside

theorem each {P : Job → Job → Prop} (same : ∀ j, P j j) (here : P (s.job k) (t.job k)) (z : SlotId) : P (s.job z) (t.job z) := by
  by_cases e : z = k
  · rw [e]
    exact here
  · rw [beside.others z e]
    exact same _

theorem state_iff {x : JobState} (other : x ≠ .free ∧ x ≠ .filling ∧ x ≠ .ended) (z : SlotId) :
    (t.job z).state = x ↔ (s.job z).state = x :=
  beside.each (P := fun i j => j.state = x ↔ i.state = x) (fun _ => Iff.rfl)
    (iff_of_false (outside_ne beside.now other) (outside_ne beside.was other)) z

theorem handle_other (other : z ≠ k) : t.handle z = s.handle z := by rw [State.handle, beside.gens z other, State.handle]

theorem recovering : Machine.recovering t = Machine.recovering s := recovering_of_link (by rw [beside.le])

theorem claimsSound (sound : claimsSound s) : Machine.claimsSound t := by
  intro x z
  rw [State.claim, beside.du]
  by_cases e : z = k
  · rw [e]
    refine iff_of_false (fun held => ?_) fun held => ?_
    · exact not_claiming beside.was ((sound x k).mp held).2
    · exact not_claiming beside.now held.2
  · rw [beside.others z e]
    exact sound x z

theorem abandonSound (sound : abandonSound s) : Machine.abandonSound t := by
  obtain ⟨slots, channels, named, listed⟩ := sound
  refine ⟨by rw [beside.le]; exact slots, by rw [beside.le]; exact channels, fun e mem => ?_, fun z state => ?_⟩
  · rw [beside.le] at mem
    obtain ⟨handle, state, channel⟩ := named e mem
    have other : e.job.slot ≠ k := fun here => outside_ne beside.was (by simp) (here ▸ state)
    rw [beside.handle_other other, beside.others _ other]
    exact ⟨handle, state, channel⟩
  · rw [beside.le]
    exact listed z ((beside.state_iff (by simp) z).mp state)

theorem line_other (agree : Agree s) (mem : z ∈ lineOf s) : t.job z = s.job z := beside.others z fun e => by
  rcases agree.line_state mem with state | state <;> rw [e] at state
  exacts [outside_ne beside.was (by simp) state, outside_ne beside.was (by simp) state]

theorem jobsSound (sound : jobsSound s)
    (owned : ∀ h, t.owned h = (allSlots.filter fun k => decide ((t.job k).owner = h) && decide ((t.job k).state ≠ .free)).length) :
    Machine.jobsSound t := by
  refine ⟨owned, fun z => ?_⟩
  by_cases e : z = k
  · rw [e]
    exact ⟨beside.unbegun, fun state => absurd state (outside_ne beside.now (by simp)),
      fun state => absurd state (outside_ne beside.now (by simp))⟩
  · rw [beside.others z e, beside.nextSeq]
    exact sound.2 z

theorem agree (agree : Agree s)
    (owned : ∀ h, t.owned h = (allSlots.filter fun k => decide ((t.job k).owner = h) && decide ((t.job k).state ≠ .free)).length)
    (routes : routesSound t) : Agree t := by
  have du := beside.du
  have line : lineOf t = lineOf s := by rw [lineOf, du]
  refine ⟨beside.jobsSound agree.jobs owned, beside.claimsSound agree.claims,
    readySound_of agree.ready (by rw [du]) fun z => ⟨beside.state_iff (by simp) z, fun state => ?_⟩,
    by rw [du]; exact agree.stackNodup, by rw [du]; exact agree.stackDepth,
    fun z => by rw [du]; exact (agree.stack z).trans (beside.state_iff (by simp) z).symm,
    fun z => by rw [du]; exact (agree.active z).trans (beside.state_iff (by simp) z).symm, by rw [du]; exact agree.leaving,
    agree.line.shrink (by rw [line]) (fun z mem => ?_) (fun z _ => .inr (by rw [State.claim, du, State.claim])),
    by rw [beside.recovering, du]; exact agree.recovery, beside.abandonSound agree.abandon, routes⟩
  · rw [beside.others z fun e => by rw [e] at state; exact outside_ne beside.was (by simp) state]
  · rw [beside.line_other agree (line ▸ mem)]
    exact ⟨rfl, rfl⟩

theorem decided (decided : Decided s) : Decided t := by
  intro idle made
  rw [beside.du] at idle made ⊢
  obtain ⟨empty, none'⟩ := decided idle made
  refine ⟨empty, fun up z mem cand => none' (beside.recovering.symm.trans up) z mem ?_⟩
  obtain ⟨state, priority, opened, -, -⟩ := cand
  have same := beside.others z fun e => by rw [e] at state; exact outside_ne beside.now (by simp) state
  rw [same] at state priority opened
  rw [State.claim, beside.du] at opened
  exact ⟨state, priority, opened, by rw [empty]; exact fun j mem => absurd mem List.not_mem_nil, fun j e => absurd e nofun⟩

end Beside

/-! ## The counts of owned slots -/

/-- A predicate that holds of one more member of a list counts one more. -/
theorem length_filter_succ {α : Type} {p q : α → Bool} {x : α} {l : List α} (nodup : l.Nodup) (mem : x ∈ l) (yes : p x = true)
    (no : q x = false) (same : ∀ y, y ≠ x → p y = q y) : (l.filter p).length = (l.filter q).length + 1 := by
  induction l with
  | nil => cases mem
  | cons y l ih =>
    obtain ⟨fresh, nodup⟩ := List.nodup_cons.mp nodup
    by_cases here : y = x
    · subst here
      have rest : l.filter p = l.filter q := List.filter_congr fun z inside => same z fun e => fresh (e ▸ inside)
      rw [List.filter_cons_of_pos yes, List.filter_cons_of_neg (by rw [no]; exact Bool.false_ne_true), rest, List.length_cons]
    · have mem := (List.mem_cons.mp mem).resolve_left fun e => here e.symm
      rw [List.filter_cons, List.filter_cons, same y here]
      split
      · rw [List.length_cons, List.length_cons, ih nodup mem]
      · exact ih nodup mem

/-- The slot in `k` counts for its owner where it is not FREE. -/
abbrev counted (s : State) (h : HostId) (k : SlotId) : Bool := decide ((s.job k).owner = h) && decide ((s.job k).state ≠ .free)

theorem ownedCount_taken (others : ∀ z, z ≠ k → t.job z = s.job z) (free : (s.job k).state = .free) (live : (t.job k).state ≠ .free)
    (h : HostId) : (allSlots.filter (counted t h)).length =
      if (t.job k).owner = h then (allSlots.filter (counted s h)).length + 1 else (allSlots.filter (counted s h)).length := by
  have no : counted s h k = false := by simp [counted, free]
  have same : ∀ y, y ≠ k → counted t h y = counted s h y := fun y e => by rw [counted, counted, others y e]
  split
  · next own => exact length_filter_succ allSlots_nodup (mem_allSlots k) (by simp [counted, own, live]) no same
  · next other =>
    refine congrArg List.length (List.filter_congr fun y _ => ?_)
    by_cases e : y = k
    · rw [e, no]
      simp [counted, other]
    · exact same y e

/-! ## Release -/

theorem releaseSlot_route (k : SlotId) (s : State) (r : RouteId) :
    (releaseSlot k s).route r = if (s.job k).route = some r then freeRoute else s.route r := freeRouteOf_route k s r

theorem releaseSlot_beside (ended : (s.job k).state = .ended) : Beside s (releaseSlot k s) k := by
  have frame := releaseSlot_frame k s
  have job := releaseSlot_job k
  have gen := releaseSlot_gen k
  have here : (releaseSlot k s).job k = freeJob := by rw [job, if_pos rfl]
  refine ⟨fun z e => by rw [job, if_neg (Ne.symm e)], .inr (.inr ended), .inl (by rw [here]; rfl), fun state => ?_,
    fun z e => by rw [gen, if_neg (Ne.symm e)], ?_, ?_, ?_⟩
  · rw [here] at state
    cases state
  all_goals rw [frame]

/-- Two jobs have different handles (R2). -/
theorem slot_of_handle {x y : SlotId} (same : s.handle x = s.handle y) : x = y := congrArg Handle.slot same

theorem releaseSlot_routesSound (sound : routesSound s) (ended : (s.job k).state = .ended) : routesSound (releaseSlot k s) := by
  obtain ⟨owned, named, mine, stopped⟩ := sound
  have beside := releaseSlot_beside ended
  have route := releaseSlot_route k s
  have here : ((releaseSlot k s).job k).state = .free := by rw [releaseSlot_job, if_pos rfl]; rfl
  have live : (s.job k).state ≠ .free := by rw [ended]; nofun
  refine ⟨fun r => ?_, fun r x owner => ?_, fun z r live' of => ?_, fun r none' => ?_⟩
  · rw [route]
    split
    · exact iff_of_true rfl rfl
    · exact owned r
  · rw [route] at owner ⊢
    by_cases own : (s.job k).route = some r
    · rw [if_pos own] at owner
      cases owner
    · rw [if_neg own] at owner ⊢
      obtain ⟨names, there, of, waits⟩ := named r x owner
      have other : x.slot ≠ k := fun e => own (e ▸ of)
      rw [beside.handle_other other, beside.others _ other]
      exact ⟨names, there, of, waits⟩
  · have other : z ≠ k := fun e => live' (e ▸ here)
    rw [beside.others z other] at live' of
    have owner := mine z r live' of
    rw [route, if_neg fun own => other (slot_of_handle (Option.some.inj (owner.symm.trans (mine k r live own)))),
      beside.handle_other other]
    exact owner
  · rw [route] at none' ⊢
    split at none'
    · next own => rw [if_pos own]; rfl
    · next own => rw [if_neg own]; exact stopped r none'

theorem releaseSlot_counts (sound : jobsSound s) (ended : (s.job k).state = .ended) (h : HostId) :
    (releaseSlot k s).owned h = (allSlots.filter (counted (releaseSlot k s) h)).length := by
  have beside := releaseSlot_beside ended
  have free : ((releaseSlot k s).job k).state = .free := by rw [releaseSlot_job, if_pos rfl]; rfl
  have count := ownedCount_taken (s := releaseSlot k s) (t := s) (k := k) (fun z e => (beside.others z e).symm) free
    (by rw [ended]; nofun) h
  rw [releaseSlot_owned, sound.1, count]
  split <;> rfl

theorem releaseSlot_jobsSound (sound : jobsSound s) (ended : (s.job k).state = .ended) : jobsSound (releaseSlot k s) :=
  (releaseSlot_beside ended).jobsSound sound (releaseSlot_counts sound ended)

/-- The slot of an ENDED job is released (R2, R18, R22). -/
theorem Agree.release (agree : Agree s) (ended : (s.job k).state = .ended) : Agree (releaseSlot k s) :=
  (releaseSlot_beside ended).agree agree (releaseSlot_counts agree.jobs ended) (releaseSlot_routesSound agree.routes ended)

/-! ## Creation -/

/-- The lowest FREE slot and, with REPLY, the lowest FREE route become a job's (R9, R96). -/
theorem Agree.create (agree : Agree s) (h : HostId) (ch : ChannelId) (p : Fin 8) (stream reply : Bool) (route : Option RouteId)
    (free : (s.job k).state = .free) (unused : ∀ r, route = some r → (s.route r).state = .free) :
    Agree (createJob h k ch p stream reply route s).state ∧ Beside s (createJob h k ch p stream reply route s).state k := by
  have job : ∀ z, (createJob h k ch p stream reply route s).state.job z =
      if k = z then openedJob h ch p stream reply route else s.job z := fun z => by
    cases route <;> exact upd_get ..
  have rest : (createJob h k ch p stream reply route s).state.jm.gens = s.jm.gens ∧
      (createJob h k ch p stream reply route s).state.jm.nextSeq = s.jm.nextSeq ∧
      (createJob h k ch p stream reply route s).state.du = s.du ∧ (createJob h k ch p stream reply route s).state.le = s.le := by
    cases route <;> exact ⟨rfl, rfl, rfl, rfl⟩
  have owned : ∀ x, (createJob h k ch p stream reply route s).state.owned x = if h = x then s.owned h + 1 else s.owned x :=
    fun x => by cases route <;> exact upd_get ..
  have routes : ∀ r, (createJob h k ch p stream reply route s).state.route r =
      if route = some r then openedRoute (s.handle k) else s.route r := fun r => by
    cases route with
    | none => rfl
    | some y =>
      refine (upd_get ..).trans ?_
      by_cases e : y = r
      · rw [if_pos e, if_pos (congrArg some e)]
        rfl
      · rw [if_neg e, if_neg fun q => e (Option.some.inj q)]
        rfl
  generalize (createJob h k ch p stream reply route s).state = t at *
  obtain ⟨gens, nextSeq, du, le⟩ := rest
  have here : t.job k = openedJob h ch p stream reply route := by rw [job, if_pos rfl]
  have handle : ∀ z, t.handle z = s.handle z := fun z => by rw [State.handle, State.gen, gens, State.handle, State.gen]
  have others : ∀ z, z ≠ k → t.job z = s.job z := fun z e => by rw [job, if_neg (Ne.symm e)]
  have beside : Beside s t k := ⟨others, .inl free, .inr (.inl (by rw [here]; rfl)), fun _ => by rw [here]; rfl,
    fun z _ => by rw [State.gen, gens, State.gen], nextSeq, du, le⟩
  refine ⟨beside.agree agree (fun x => ?_) ?_, beside⟩
  · have count := ownedCount_taken others free (by rw [here]; nofun) x
    have own : (t.job k).owner = h := by rw [here]; rfl
    rw [owned, count, own]
    split
    · next e => rw [← e, agree.jobs.1]
    · exact agree.jobs.1 x
  · obtain ⟨unowned, named, mine, stopped⟩ := agree.routes
    refine ⟨fun r => ?_, fun r x owner => ?_, fun z r live of => ?_, fun r none' => ?_⟩
    · rw [routes]
      split
      · exact iff_of_false nofun nofun
      · exact unowned r
    · rw [routes] at owner ⊢
      by_cases new : route = some r
      · rw [if_pos new] at owner ⊢
        rw [← Option.some.inj owner, handle]
        refine ⟨rfl, ?_, ?_, fun runs => absurd rfl runs⟩
        · rw [State.handle, here]
          nofun
        · rw [State.handle, here]
          exact new
      · rw [if_neg new] at owner ⊢
        obtain ⟨names, there, of, waits⟩ := named r x owner
        rw [handle, others _ fun e => there (by rw [e]; exact free)]
        exact ⟨names, there, of, waits⟩
    · rw [routes, handle]
      by_cases e : z = k
      · rw [e, here] at of
        have new : route = some r := of
        rw [if_pos new, e]
        rfl
      · rw [others z e] at live of
        have owner := mine z r live of
        rw [if_neg fun new => ?_]
        · exact owner
        · rw [(unowned r).mp (unused r new)] at owner
          cases owner
    · rw [routes] at none' ⊢
      split at none'
      · cases none'
      · next new => rw [if_neg new]; exact stopped r none'

end Sys2Proof.Machine
end

section
/-! SUPPORT. The ends of jobs keep the tables in agreement (R14, R16, R22, R66, R92, R97, R109, R114, R136). -/

namespace Sys2Proof.Machine

variable {s t u v : State} {h : HostId} {a k m z : SlotId} {j : Job} {o : JobOutcome} {c : Cause} {r : RouteId}

/-! ## What leaves the tables as they are -/

/-- One record changed in what the agreements do not read. -/
theorem SameTables.of_record {i : Job} (record : SameRecord (s.job k) i) (job : ∀ z, t.job z = if k = z then i else s.job z)
    (gens : t.jm.gens = s.jm.gens) (owned : t.jm.owned = s.jm.owned) (nextSeq : t.jm.nextSeq = s.jm.nextSeq)
    (du : t.du = s.du) (abandon : t.le.abandon = s.le.abandon) (link : recovering t = recovering s)
    (routes : routesKept s t) : SameTables s t :=
  ⟨fun z => by
    rw [job]
    split
    · next here => exact here ▸ record
    · exact .refl _, gens, owned, nextSeq, du, abandon, link, routes⟩

theorem SameTables.refl (s : State) : SameTables s s := .of_same rfl rfl rfl rfl rfl

theorem SameTables.of_post (h : HostId) (e : Event) (s : State) : SameTables s (post h e s) := .of_same rfl rfl rfl rfl rfl

theorem SameTables.of_postLinkGroup (e : Event) (s : State) : SameTables s (postLinkGroup e s) := by
  rw [postLinkGroup_frame]
  exact .of_same rfl rfl rfl rfl rfl

theorem SameTables.of_postStatusGroup (e : Event) (s : State) : SameTables s (postStatusGroup e s) := by
  rw [postStatusGroup_frame]
  exact .of_same rfl rfl rfl rfl rfl

theorem SameTables.of_evaluateSpace (s : State) : SameTables s (evaluateSpace s) := by
  rw [evaluateSpace_frame]
  exact .of_same rfl rfl rfl rfl rfl

theorem same_priority_of_jm (jm : t.jm = s.jm) (z : SlotId) : (t.job z).priority = (s.job z).priority := by
  rw [State.job, jm, State.job]

/-- The tables agree, and the leaving decision has been made. -/
abbrev Settled (s : State) : Prop := Agree s ∧ Decided s

theorem Settled.evaluated (sound : Settled s) : Settled (evaluateSpace s) :=
  (SameTables.of_evaluateSpace s).tables (same_priority_of_jm (by rw [evaluateSpace_frame])) sound

theorem Settled.posted (sound : Settled s) (h : HostId) (e : Event) : Settled (post h e s) :=
  (SameTables.of_post h e s).tables (same_priority_of_jm rfl) sound

theorem Settled.groupPosted (sound : Settled s) (e : Event) : Settled (postLinkGroup e s) :=
  (SameTables.of_postLinkGroup e s).tables (same_priority_of_jm (by rw [postLinkGroup_frame])) sound

/-! ## A job ends -/

/-- From `s` to `u` the job in slot `k` has been let go of, its record being as it was: it has left the lists of the Dispatch Unit and
the abandon list, and any claim of its own. -/
structure LetOff (s u : State) (k : SlotId) : Prop where
  jm : u.jm = s.jm
  ready : u.du.ready = s.du.ready.erase k
  stack : u.du.stack = s.du.stack.erase k
  active : u.du.active = if s.du.active = some k then none else s.du.active
  leaving : u.du.leaving = s.du.leaving
  claims : ∀ x, u.claim x = if s.claim x = some k then none else s.claim x
  abandon : u.le.abandon = s.le.abandon.filter fun e => decide (e.job.slot ≠ k)
  link : recovering u = recovering s
  routes : routesKept s u

/-- A job with no claim and no abandon entry, once it has left the lists of the Dispatch Unit. -/
theorem LetOff.of_removed (agree : Agree s) (jm : u.jm = s.jm) (ready : u.du.ready = s.du.ready.erase k)
    (stack : u.du.stack = s.du.stack.erase k) (active : u.du.active = if s.du.active = some k then none else s.du.active)
    (leaving : u.du.leaving = s.du.leaving) (claims : u.du.claims = s.du.claims) (abandon : u.le.abandon = s.le.abandon)
    (link : recovering u = recovering s) (routes : routesKept s u) (unclaimed : ¬ claiming (s.job k))
    (alive : (s.job k).state ≠ .cancelling) : LetOff s u k := by
  refine ⟨jm, ready, stack, active, leaving, fun x => ?_, ?_, link, routes⟩
  · rw [State.claim, claims, if_neg fun taken => unclaimed ((agree.claims x k).mp taken).2, State.claim]
  · rw [abandon]
    exact (List.filter_eq_self.mpr fun e mem => decide_eq_true (agree.unlisted alive e mem)).symm

/-- A job that the Dispatch Unit does not hold, with no claim and no abandon entry, is let go of as it stands. -/
theorem LetOff.of_rest (agree : Agree s) (jm : u.jm = s.jm) (du : u.du = s.du) (abandon : u.le.abandon = s.le.abandon)
    (link : recovering u = recovering s) (routes : routesKept s u)
    (idle : (s.job k).state = .filling ∨ (s.job k).state = .starved ∨ (s.job k).state = .awaitReply)
    (unclaimed : ¬ claiming (s.job k)) : LetOff s u k := by
  have out {x : JobState} (other : x ≠ .filling ∧ x ≠ .starved ∧ x ≠ .awaitReply) : (s.job k).state ≠ x := by
    rcases idle with e | e | e <;> rw [e]
    exacts [other.1.symm, other.2.1.symm, other.2.2.symm]
  refine .of_removed agree jm ?_ ?_ ?_ (by rw [du]) (by rw [du]) abandon link routes unclaimed (out (by simp))
  · rw [du, List.erase_of_not_mem fun mem => out (by simp) ((agree.ready.2.1 k).mp mem)]
  · rw [du, List.erase_of_not_mem fun mem => out (by simp) ((agree.stack k).mp mem)]
  · rw [du, if_neg fun active => out (by simp) ((agree.active k).mp active)]

/-- The part of the end of a job that is its own record, chain and reply timer. -/
theorem jobEnds_frame (k : SlotId) (o : JobOutcome) (c : Cause) (s : State) : jobEnds k o c s = { s with
    jm := { s.jm with jobs := (jobEnds k o c s).jm.jobs }
    sp := (jobEnds k o c s).sp
    rr := { s.rr with routes := (jobEnds k o c s).rr.routes } } := by
  have timer := stopReplyTimer_frame k (discardChain k s)
  rw [jobEnds]
  generalize stopReplyTimer k (discardChain k s) = t at timer
  rw [timer]
  rfl

theorem jobEnds_job (k : SlotId) (o : JobOutcome) (c : Cause) (s : State) (z : SlotId) :
    (jobEnds k o c s).job z = if k = z then endedJob (s.job k) o c else s.job z := by
  rw [State.setJob_job]
  by_cases here : k = z
  · rw [if_pos here, if_pos here]
  · rw [if_neg here, if_neg here, stopReplyTimer_frame]
    exact (discardChain_job k z s).trans (if_neg here)

/-- The end of a job, its record as it was until then, is one way to leave the Dispatch Unit (R16). -/
theorem jobEnds_departed (jm : u.jm = s.jm) (routes : routesKept s u) (live : (s.job k).state ≠ .free) (o : JobOutcome) (c : Cause) :
    Departed s (jobEnds k o c u) k := by
  have frame := jobEnds_frame k o c u
  have job := jobEnds_job k o c u
  have route := jobEnds_route k o c u
  have same : ∀ z, u.job z = s.job z := fun z => by rw [State.job, jm, State.job]
  have here : (jobEnds k o c u).job k = endedJob (s.job k) o c := by rw [job, if_pos rfl, same]
  generalize jobEnds k o c u = t at *
  refine ⟨fun z e => by rw [job, if_neg (Ne.symm e), same], by rw [here], by rw [here], by rw [here], by rw [here], live,
    .inr (.inr (by rw [here])), fun state => ?_, by rw [frame, jm], by rw [frame, jm], by rw [frame, jm], fun r => ?_⟩
  · rw [here] at state
    cases state
  · obtain ⟨owner, free, timer⟩ := routes r
    rw [route, same]
    split
    · exact ⟨owner, free, fun runs => absurd rfl runs⟩
    · next other => exact ⟨owner, free, fun runs => .inl ⟨timer runs, other⟩⟩

namespace LetOff

variable (off : LetOff s u k) (agree : Agree s) (live : (s.job k).state ≠ .free)
include off

theorem job (z : SlotId) : u.job z = s.job z := by rw [State.job, off.jm, State.job]

include live

theorem retired (o : JobOutcome) (c : Cause) : Retired s (jobEnds k o c u) k c := by
  have departed := jobEnds_departed off.jm off.routes live o c
  have frame := jobEnds_frame k o c u
  have here : (jobEnds k o c u).job k = endedJob (s.job k) o c := by rw [jobEnds_job, if_pos rfl, off.job]
  generalize jobEnds k o c u = t at *
  have du : t.du = u.du := by rw [frame]
  have le : t.le = u.le := by rw [frame]
  have lost : ¬ keepsClaim (t.job k) := by rw [here]; rintro (e | e) <;> cases e
  refine ⟨departed, fun keeps => absurd keeps lost, by rw [du, off.ready], by rw [du, off.stack], by rw [du, off.active],
    by rw [du, off.leaving], fun x => ?_, ?_, ?_⟩
  · rw [State.claim, du]
    refine (off.claims x).trans (if_congr (and_iff_left lost).symm rfl rfl)
  · rw [le, off.abandon, if_neg fun state => lost (.inr state)]
  · exact (recovering_of_link (by rw [le])).trans off.link

include agree

theorem endJob (o : JobOutcome) (c : Cause) : Agree (Machine.endJob k o c u) := by
  have ended := (off.retired live o c).agree agree
  rw [endJob_eq]
  split
  · exact ended.release (by rw [jobEnds_job, if_pos rfl])
  · exact (SameTables.of_post ..).agree ended

theorem endJobAlone (o : JobOutcome) (c : Cause) : Agree (Machine.endJobAlone k o c u) :=
  (SameTables.of_evaluateSpace _).agree (off.endJob agree live o c)

/-- The end of a job that holds no claim and is not ACTIVE leaves nothing to decide. -/
theorem endJob_settled (decided : Decided s) (other : s.du.active ≠ some k) (unclaimed : ¬ claiming (s.job k)) (o : JobOutcome)
    (c : Cause) : Settled (Machine.endJob k o c u) := by
  have gone := off.retired live o c
  have agreed := gone.agree agree
  have made := gone.decided agree other (gone.claims_of agree (.inl unclaimed)) decided
  refine ⟨off.endJob agree live o c, ?_⟩
  have state : ((jobEnds k o c u).job k).state = .ended := by rw [jobEnds_job, if_pos rfl]
  rw [endJob_eq]
  split
  · exact (releaseSlot_beside state).decided made
  · exact (Settled.posted ⟨agreed, made⟩ ..).2

theorem endJobAlone_settled (decided : Decided s) (other : s.du.active ≠ some k) (unclaimed : ¬ claiming (s.job k)) (o : JobOutcome)
    (c : Cause) : Settled (Machine.endJobAlone k o c u) :=
  (off.endJob_settled agree live decided other unclaimed o c).evaluated

end LetOff

/-! ## Routes -/

/-- The route of a job that is not FREE is not FREE. -/
theorem route_live (sound : routesSound s) (live : (s.job k).state ≠ .free) (own : (s.job k).route = some r) :
    (s.route r).state ≠ .free := fun free => by
  obtain ⟨owned, -, mine, -⟩ := sound
  exact absurd (((owned r).mp free).symm.trans (mine k r live own)) nofun

theorem abortRoute_kept_of (sound : routesSound s) (live : (s.job k).state ≠ .free) (jm : u.jm = s.jm)
    (routes : u.rr.routes = s.rr.routes) : routesKept s (abortRoute k u) := fun r => by
  have job : (u.job k).route = (s.job k).route := by rw [State.job, jm, State.job]
  have route : u.route r = s.route r := by rw [State.route, routes, State.route]
  rw [abortRoute_route, job, route]
  split
  · next own => exact ⟨rfl, iff_of_false nofun (route_live sound live own), fun runs => absurd rfl runs⟩
  · exact ⟨rfl, Iff.rfl, id⟩

theorem abortRoute_kept (sound : routesSound s) (live : (s.job k).state ≠ .free) : routesKept s (abortRoute k s) :=
  abortRoute_kept_of sound live rfl rfl

end Sys2Proof.Machine
end

section
/-! SUPPORT. The decisions of the Dispatch Unit keep the tables in agreement, and leave nothing to decide (R44, R50, R51, R54 to R57,
R59 to R62, R92). -/

namespace Sys2Proof.Machine

variable {s t u v : State} {h : HostId} {a k m z : SlotId} {j : Job} {c : Cause} {r : RouteId} {n : Successor}

/-! ## Completion -/

theorem letGo_claim (agree : Agree s) (k : SlotId) (x : ChannelId) :
    (letGo s k).claim x = if s.claim x = some k then none else s.claim x := by
  rw [State.claim, letGo, claimsWithout]
  dsimp only
  by_cases mine : s.claim (s.job k).channel = some k
  · rw [if_pos mine, upd_get]
    by_cases here : (s.job k).channel = x
    · rw [if_pos here, if_pos (here ▸ mine)]
    · rw [if_neg here, if_neg fun taken => here ((agree.claims x k).mp taken).1]
      rfl
  · rw [if_neg mine, if_neg fun taken => ?_]
    · rfl
    · obtain ⟨channel, -⟩ := (agree.claims x k).mp taken
      exact mine (channel ▸ taken)

theorem Agree.not_ready (agree : Agree s) (state : (s.job k).state ≠ .ready) : s.du.ready.erase k = s.du.ready :=
  List.erase_of_not_mem fun mem => state ((agree.ready.2.1 k).mp mem)

theorem Agree.not_stacked (agree : Agree s) (state : (s.job k).state ≠ .suspended) : s.du.stack.erase k = s.du.stack :=
  List.erase_of_not_mem fun mem => state ((agree.stack k).mp mem)

theorem Agree.unlisted_filter (agree : Agree s) (alive : (s.job k).state ≠ .cancelling) :
    (s.le.abandon.filter fun e => decide (e.job.slot ≠ k)) = s.le.abandon :=
  List.filter_eq_self.mpr fun e mem => decide_eq_true (agree.unlisted alive e mem)

theorem letGo_letOff (agree : Agree s) (active : s.du.active = some k) : LetOff s (letGo s k) k := by
  have state := (agree.active k).mp active
  exact ⟨rfl, (agree.not_ready (by rw [state]; nofun)).symm, (agree.not_stacked (by rw [state]; nofun)).symm, (if_pos active).symm,
    rfl, letGo_claim agree k, (agree.unlisted_filter (by rw [state]; nofun)).symm, rfl, routesKept_of_same rfl⟩

theorem Agree.awaits (agree : Agree s) (active : s.du.active = some k) (own : (s.job k).route = some r) :
    Agree (awaitReply k r (letGo s k)) := by
  have state := (agree.active k).mp active
  have off := letGo_letOff agree active
  have job : ∀ z, (awaitReply k r (letGo s k)).job z = if k = z then { s.job k with state := .awaitReply } else s.job z :=
    fun z => upd_get ..
  have route : ∀ x, (awaitReply k r (letGo s k)).route x =
      if r = x then { s.route r with timer := some s.su.settings.replyTime } else s.route x := fun x => upd_get ..
  have here : (awaitReply k r (letGo s k)).job k = { s.job k with state := .awaitReply } := by rw [job, if_pos rfl]
  have rest : (awaitReply k r (letGo s k)).jm.gens = s.jm.gens ∧ (awaitReply k r (letGo s k)).jm.owned = s.jm.owned ∧
      (awaitReply k r (letGo s k)).jm.nextSeq = s.jm.nextSeq ∧ (awaitReply k r (letGo s k)).du = (letGo s k).du ∧
      (awaitReply k r (letGo s k)).le = (letGo s k).le := ⟨rfl, rfl, rfl, rfl, rfl⟩
  generalize awaitReply k r (letGo s k) = t at *
  obtain ⟨gens, owned, nextSeq, du, le⟩ := rest
  have lost : ¬ keepsClaim (t.job k) := by rw [here]; rintro (e | e) <;> cases e
  have gone : Retired s t k .none := by
    refine ⟨⟨fun z e => by rw [job, if_neg (Ne.symm e)], by rw [here], by rw [here], by rw [here], by rw [here],
      by rw [state]; nofun, .inr (.inl (by rw [here])), fun cancelling => absurd (.inr cancelling) lost,
      gens, owned, nextSeq, fun x => ?_⟩, fun keeps => absurd keeps lost, by rw [du]; exact off.ready, by rw [du]; exact off.stack,
      by rw [du]; exact off.active, by rw [du], fun x => ?_, ?_, recovering_of_link (by rw [le])⟩
    · rw [route]
      split
      · next e => exact e ▸ ⟨rfl, Iff.rfl, fun _ => .inr ⟨by rw [here], own⟩⟩
      · next e => exact ⟨rfl, Iff.rfl, fun runs => .inl ⟨runs, fun own' => e (Option.some.inj (own.symm.trans own'))⟩⟩
    · rw [State.claim, du]
      exact (off.claims x).trans (if_congr (and_iff_left lost).symm rfl rfl)
    · rw [le, if_neg fun cancelling => lost (.inr cancelling)]
      exact off.abandon
  exact gone.agree agree

theorem completeTransmission_leaving (k : SlotId) (s : State) : (completeTransmission k s).du.leaving = s.du.leaving := by
  rw [completeTransmission, letGo_eq]
  have ended : (endJobAlone k .done .none (letGo s k)).du.leaving = s.du.leaving := by
    rw [endJobAlone, evaluateSpace_frame, endJob_frame]
  split
  · exact ended
  · split
    · rfl
    · exact ended

/-- The completion of transmission, ahead of the leaving decision (R92). -/
theorem Agree.completes (agree : Agree s) (active : s.du.active = some k) : Agree (completeTransmission k s) := by
  have off := letGo_letOff agree active
  have live : (s.job k).state ≠ .free := by
    rw [(agree.active k).mp active]
    nofun
  rw [completeTransmission, letGo_eq]
  split
  · exact off.endJobAlone agree live .done .none
  · next r own =>
    split
    · exact agree.awaits active own
    · exact off.endJobAlone agree live .done .none

/-! ## The leaving decision -/

theorem no_candidate (none' : bestAdmissible s none = none) : ∀ k ∈ s.du.ready, ¬ candidate s none k := fun k mem cand => by
  have admits : k ∈ s.du.ready.filter (admissible s none) := List.mem_filter.mpr ⟨mem, admissible_iff.mpr cand⟩
  rw [choose_none.mp none'] at admits
  cases admits

/-- The decision that is made where no job is active settles what was open (R59, R60). -/
theorem Agree.leaves (agree : Agree s) (idle : s.du.active = none) (made : s.du.leaving = false) : Settled (leavingDecision s) := by
  obtain ⟨n, named⟩ := leavesTo_exists s
  rw [leavingDecision_eq named]
  cases n with
  | nobody =>
    refine ⟨agree, fun _ _ => ?_⟩
    rcases named with down | ⟨empty, none'⟩
    · exact ⟨(agree.recovery down).2.1, fun up => absurd (up.symm.trans down) nofun⟩
    · exact ⟨empty, fun _ => no_candidate none'⟩
  | selected k =>
    obtain ⟨up, best, above⟩ := named
    have entered : Agree (Machine.makeActive k s) := agree.makeActive idle up (bestAdmissible_candidate best).2 made
      fun top last => (above top last).1
    exact ⟨entered, Decided.of_active (s := takesLink s k) (a := k) rfl⟩
  | resumed z =>
    obtain ⟨up, top, -⟩ := named
    have resumed : Agree (Machine.resumeTop z s) := agree.resumeTop idle up top made
    exact ⟨resumed, Decided.of_active (s := resumes s z) (a := z) rfl⟩

/-! ## Break points -/

theorem Agree.settledLeaving (agree : Agree s) (active : s.du.active = some a) : s.du.leaving = false := by
  by_contra open'
  exact absurd ((agree.leaving (by simpa using open')).symm.trans active) nofun

theorem Agree.preempts (agree : Agree s) (active : s.du.active = some a) (urgent : urgent s a k) :
    Agree (takesLink (suspends s a) k) := by
  obtain ⟨up, best, room, above, -⟩ := urgent
  obtain ⟨-, state, priority, opened, apart, other⟩ := bestAdmissible_candidate best
  have pushed := agree.pushActive active room
  have differs : k ≠ a := fun e => other a rfl (e ▸ rfl)
  have job := pushActive_job a s
  have same : ∀ z, z ≠ a → (Machine.pushActive a s).job z = s.job z := fun z e => by rw [job, if_neg (Ne.symm e)]
  have channel : ∀ z, ((Machine.pushActive a s).job z).channel = (s.job z).channel := fun z => by
    rw [job]
    split
    · next e => rw [← e]
    · rfl
  have stack : (Machine.pushActive a s).du.stack = s.du.stack ++ [a] := rfl
  have cand : candidate (Machine.pushActive a s) none k := by
    refine ⟨by rw [same k differs]; exact state, by rw [same k differs]; exact priority, by rw [same k differs]; exact opened,
      fun j mem => ?_, nofun⟩
    rw [channel, channel]
    rw [stack] at mem
    rcases List.mem_append.mp mem with below | here
    · exact apart j below
    · rw [List.mem_singleton.mp here]
      exact other a rfl
  have above' : ∀ top, (Machine.pushActive a s).du.stack.getLast? = some top →
      ((Machine.pushActive a s).job top).priority < ((Machine.pushActive a s).job k).priority := fun top last => by
    rw [stack, List.getLast?_concat] at last
    rw [← Option.some.inj last, same k differs, job, if_pos rfl]
    exact above
  exact pushed.makeActive rfl up cand (agree.settledLeaving active) above'

/-- The active job back in the ready set, the link free for its rival. -/
abbrev returned (s : State) (a : SlotId) : State :=
  { joins s a (s.job a) with
    du := { s.du with ready := s.du.ready ++ [a], active := none }, le := { s.le with dryTimer := none } }

theorem Agree.yields (agree : Agree s) (active : s.du.active = some a) (up : recovering s = false) (first : firstRival s a k) :
    Agree (Machine.yields s a k) := by
  obtain ⟨⟨mem, ⟨state, priority, opened, apart, -⟩, level, other⟩, -⟩ := first
  have was := (agree.active a).mp active
  have differs : k ≠ a := fun e => other (e ▸ rfl)
  have job : ∀ z, (returned s a).job z = if a = z then
      { s.job a with state := .ready, readySeq := some s.jm.nextSeq, seqTaken := some s.jm.nextSeq } else s.job z := fun z => upd_get ..
  have back : Agree (returned s a) := agree.join (k := a) (.inr (.inr was)) job
    (by rw [if_pos active]) rfl rfl rfl rfl rfl rfl
  have same : ∀ z, z ≠ a → (returned s a).job z = s.job z := fun z e => by rw [job, if_neg (Ne.symm e)]
  have off : ∀ z ∈ s.du.stack, z ≠ a := fun z mem e => by
    have suspended := (agree.stack z).mp mem
    rw [e, was] at suspended
    cases suspended
  have stack : (returned s a).du.stack = s.du.stack := rfl
  have cand : candidate (returned s a) none k := by
    refine ⟨by rw [same k differs]; exact state, by rw [same k differs]; exact priority, by rw [same k differs]; exact opened,
      fun j mem => ?_, nofun⟩
    rw [stack] at mem
    rw [same k differs, same j (off j mem)]
    exact apart j mem
  have above : ∀ top, (returned s a).du.stack.getLast? = some top →
      ((returned s a).job top).priority < ((returned s a).job k).priority := fun top last => by
    rw [stack] at last
    have inside := List.mem_of_getLast? last
    rw [same k differs, same top (off top inside), level]
    have rising := agree.line.priorities
    rw [lineOf, active, Option.toList_some, List.map_append] at rising
    exact (List.pairwise_append.mp rising).2.2 _ (List.mem_map_of_mem inside) _ (by simp)
  have entered : Agree (Machine.makeActive k (returned s a)) := back.makeActive rfl up cand (agree.settledLeaving active) above
  exact entered

theorem Agree.breakPoint (agree : Agree s) (active : s.du.active = some a) (changed : breakPoint s a = some t) : Settled t := by
  obtain ⟨up, ⟨k, urgent, rfl⟩ | ⟨-, -, k, first, rfl⟩⟩ := breakPoint_cases changed
  · exact ⟨agree.preempts active urgent, Decided.of_active (s := takesLink (suspends s a) k) (a := k) rfl⟩
  · exact ⟨agree.yields active up first, Decided.of_active (s := Machine.yields s a k) (a := k) rfl⟩

/-! ## What is brought about at once -/

theorem SameTables.of_dryWait (s : State) : SameTables s (startDryWait s) := .of_same rfl rfl rfl rfl rfl

theorem Settled.settled (sound : Settled s) : Settled (Machine.settled s) := by
  refine settled_keeps (P := Settled) (fun u a sound active _ _ _ => ?_) (fun u a sound active _ _ _ _ => ?_)
    (fun u a v sound active _ _ changed => sound.1.breakPoint active changed) sound
  · have agree := sound.1.completes active
    exact agree.leaves (completeTransmission_du a u).2.2
      ((completeTransmission_leaving a u).trans (sound.1.settledLeaving active))
  · exact (SameTables.of_dryWait u).tables (same_priority_of_jm rfl) sound

theorem Agree.leaveLink (agree : Agree s) (idle : s.du.active = none) (made : s.du.leaving = false) : Settled (Machine.leaveLink s) :=
  (agree.leaves idle made).settled

theorem Agree.closeDecision (agree : Agree s) : Agree (Machine.closeDecision s) := by
  obtain ⟨jobs, claims, ready, nodup, depth, stack, active, -, line, recovery, abandon, routes⟩ := agree
  exact ⟨jobs, claims, ready, nodup, depth, stack, active, nofun, ⟨line.priorities, line.channels, line.opened⟩,
    fun down => ⟨(recovery down).1, (recovery down).2.1, rfl⟩, abandon, routes⟩

/-- DU's response settles what an eligible job has opened (R44, R51, R64). -/
theorem Agree.responds (agree : Agree s) (empty : s.du.active = none → s.du.leaving = false → s.du.stack = []) :
    Settled (respondEligible s) := by
  rw [respondEligible]
  split
  · next down =>
    exact ⟨agree, fun _ _ => ⟨(agree.recovery down).2.1, fun up => absurd (up.symm.trans down) nofun⟩⟩
  · next up =>
    have up : recovering s = false := by simpa using up
    split
    · next idle =>
      split
      · exact agree.closeDecision.leaveLink idle rfl
      · next made =>
        have made : s.du.leaving = false := by simpa using made
        split
        · next none' => exact ⟨agree, fun _ _ => ⟨empty idle made, fun _ => no_candidate none'⟩⟩
        · next k best =>
          have entered := agree.makeActive idle up (bestAdmissible_candidate best).2 made
            (by rw [empty idle made]; exact fun top last => absurd last nofun)
          exact Settled.settled ⟨entered, .of_active (a := k) rfl⟩
    · next a active =>
      split
      · split
        · exact ⟨agree, .of_active active⟩
        · next v preempted =>
          have changed : Machine.breakPoint s a = some v := by rw [Machine.breakPoint, if_neg (by simp [up]), preempted]
          exact (agree.breakPoint active changed).settled
      · exact ⟨agree, .of_active active⟩

theorem Settled.responds (sound : Settled s) : Settled (respondEligible s) :=
  sound.1.responds fun idle made => (sound.2 idle made).1

/-- A job that was FILLING or STARVED enters READY, and DU answers (R12, R44). -/
theorem Settled.enterReady (sound : Settled s) (was : (s.job k).state = .filling ∨ (s.job k).state = .starved) :
    Settled (Machine.enterReady k s) := by
  obtain ⟨agree, decided⟩ := sound
  have inactive : s.du.active ≠ some k := fun active => by
    have state := (agree.active k).mp active
    rcases was with w | w <;> rw [w] at state <;> cases state
  have job : ∀ z, (joinReady k s).job z = if k = z then
      { s.job k with state := .ready, readySeq := some s.jm.nextSeq, seqTaken := some s.jm.nextSeq } else s.job z := fun z => upd_get ..
  have joined : Agree (joinReady k s) := agree.join (k := k) (was.imp_right .inl) job
    (by rw [if_neg inactive]; rfl) rfl rfl rfl rfl rfl rfl
  have priority : ((joinReady k s).job k).priority = (s.job k).priority := by rw [job, if_pos rfl]
  rw [Machine.enterReady]
  split
  · next zero =>
    refine ⟨joined, fun idle made => ?_⟩
    obtain ⟨empty, none'⟩ := decided idle made
    refine ⟨empty, fun up z mem cand => ?_⟩
    by_cases e : z = k
    · exact cand.2.1 (e ▸ zero)
    · have mem : z ∈ s.du.ready := (List.mem_append.mp mem).resolve_right fun here => e (List.mem_singleton.mp here)
      obtain ⟨state, level, opened, -, -⟩ := cand
      rw [job, if_neg (Ne.symm e)] at state level opened
      exact none' up z mem ⟨state, level, opened, by rw [empty]; exact fun j mem => absurd mem List.not_mem_nil, nofun⟩
  · exact joined.responds fun idle made => (decided idle made).1

end Sys2Proof.Machine
end

section
/-! SUPPORT. The order of work keeps the tables in agreement and decided (R45, R54, R57, R77, R78, R84, R86). -/

namespace Sys2Proof.Machine

variable {s t u v : State} {h : HostId} {a k m z : SlotId} {j : Job} {o : JobOutcome} {c : Cause} {r : RouteId}

/-! ## Changes the tables do not read -/

namespace Settled

theorem of_rest (sound : Settled s) (jm : t.jm = s.jm) (du : t.du = s.du) (abandon : t.le.abandon = s.le.abandon)
    (link : recovering t = recovering s) (routes : t.rr.routes = s.rr.routes) : Settled t :=
  (SameTables.of_same jm du abandon link routes).tables (same_priority_of_jm jm) sound

theorem of_record {i : Job} (sound : Settled s) (record : SameRecord (s.job k) i) (priority : i.priority = (s.job k).priority)
    (jm : t.jm = { s.jm with jobs := upd s.jm.jobs k i }) (du : t.du = s.du) (le : t.le.abandon = s.le.abandon)
    (link : recovering t = recovering s) (routes : t.rr.routes = s.rr.routes) : Settled t := by
  have job : ∀ z, t.job z = if k = z then i else s.job z := fun z => by
    rw [State.job, jm]
    exact upd_get ..
  have same : SameTables s t := .of_record record job (by rw [jm]) (by rw [jm]) (by rw [jm]) du le link (routesKept_of_same routes)
  refine same.tables (fun z => ?_) sound
  rw [job]
  split
  · next e => rw [← e, priority]
  · rfl

/-- A route changed with its owner, its FREEness and its stopped timer kept. -/
theorem of_route {x : Route} (sound : Settled s) (owner : x.owner = (s.route r).owner)
    (free : x.state = .free ↔ (s.route r).state = .free) (timer : x.timer ≠ none → (s.route r).timer ≠ none) :
    Settled (s.setRoute r x) := by
  have same : SameTables s (s.setRoute r x) := by
    refine ⟨fun z => .refl _, rfl, rfl, rfl, rfl, rfl, rfl, fun y => ?_⟩
    rw [State.setRoute_route]
    split
    · next e => exact e ▸ ⟨owner, free, timer⟩
    · exact ⟨rfl, Iff.rfl, id⟩
  exact same.tables (fun _ => rfl) sound

end Settled

theorem takeHead_same (k : SlotId) (s : State) : SameTables s (takeHead k s) ∧ ∀ z, ((takeHead k s).job z).priority = (s.job z).priority := by
  have record (c : List Segment) (n : Nat) (x : SlotId → Job) (job : ∀ z, x z = if k = z then { s.job k with chain := c, queued := n } else s.job z)
      (z : SlotId) : SameRecord (s.job z) (x z) ∧ (x z).priority = (s.job z).priority := by
    rw [job]
    split
    · next e => exact e ▸ ⟨⟨rfl, rfl, rfl, rfl, rfl, rfl, rfl, fun _ => rfl⟩, rfl⟩
    · exact ⟨.refl _, rfl⟩
  rw [takeHead]
  split
  · exact ⟨.refl s, fun _ => rfl⟩
  · next g gs _ =>
    split
    · exact ⟨.refl s, fun _ => rfl⟩
    · have freed := record gs ((s.job k).queued - 1) _ fun z => State.setJob_job ..
      rw [evaluateSpace_frame]
      exact ⟨⟨fun z => (freed z).1, rfl, rfl, rfl, rfl, rfl, rfl, routesKept_of_same rfl⟩, fun z => (freed z).2⟩
    · next es _ _ =>
      have kept := record ({ g with taken := g.taken + 1, entries := es } :: gs) ((s.job k).queued - 1) _ fun z => State.setJob_job ..
      exact ⟨⟨fun z => (kept z).1, rfl, rfl, rfl, rfl, rfl, rfl, routesKept_of_same rfl⟩, fun z => (kept z).2⟩

theorem Settled.taken (sound : Settled s) (k : SlotId) : Settled (takeHead k s) :=
  (takeHead_same k s).1.tables (takeHead_same k s).2 sound

/-! ## The order of work -/

theorem activeHead_active {e : Entry} (head : activeHead s = some (a, e)) : s.du.active = some a := by
  rw [activeHead] at head
  split at head
  · cases head
  · next x active =>
    obtain ⟨e', -, same⟩ := Option.map_eq_some_iff.mp head
    rw [active, (Prod.mk.inj same).1]

theorem Settled.takeBreak (sound : Settled s) (active : s.du.active = some a) : Settled (Machine.takeBreak a s) := by
  have taken := sound.taken a
  have active' : (takeHead a s).du.active = some a := by rw [(takeHead_same a s).1.du, active]
  rw [Machine.takeBreak]
  split
  · exact taken.settled
  · next v changed => exact (taken.1.breakPoint active' changed).settled

theorem Settled.begins (sound : Settled s) (active : s.du.active = some a) : Settled (beginJob a (takeHead a s)) := by
  have active' : (takeHead a s).du.active = some a := by rw [(takeHead_same a s).1.du, active]
  have begun := (sound.taken a).1.begins active'
  refine ⟨begun, .of_active (a := a) ?_⟩
  rw [beginJob]
  split <;> exact active'

theorem takeBreak_recovering (a : SlotId) (s : State) : recovering (takeBreak a s) = recovering s :=
  (takeBreak_offLink a s).recovering

theorem begins_recovering (a : SlotId) (s : State) : recovering (beginJob a (takeHead a s)) = recovering s :=
  (offerEntry_offLink a s).recovering

/-- A move of the link leaves the tables alone. -/
theorem Settled.move (sound : Settled s) (up : recovering s = false) (move : LinkMove s t) : Settled t := by
  have link := move.up.trans up.symm
  cases move with
  | grants => exact sound.of_rest rfl rfl rfl link rfl
  | holds =>
    refine sound.of_rest ?_ ?_ ?_ link ?_ <;> rw [holdOff] <;> split <;> rfl
  | idles => refine sound.of_rest ?_ ?_ ?_ link ?_ <;> rw [goIdle_frame]
  | offers o =>
    refine sound.of_rest ?_ ?_ ?_ link ?_
    · rw [makeOffer, endStall_frame]
    · rw [makeOffer, endStall_frame]
    · rw [(makeOffer_link o s).1]
    · rw [makeOffer, endStall_frame]

theorem Settled.applyOrder (sound : Settled s) (up : recovering s = false) : Settled (Machine.applyOrder s) := by
  obtain ⟨u, ⟨sound, up⟩, move⟩ := orderOfWork_moves (P := fun u => Settled u ∧ recovering u = false)
    (fun u a h head => ⟨h.1.takeBreak (activeHead_active head), (takeBreak_recovering a u).trans h.2⟩)
    (fun u a kind b h head => ⟨h.1.begins (activeHead_active head), (begins_recovering a u).trans h.2⟩)
    (poolEntries s + 1) ⟨sound, up⟩
  exact sound.move up move

theorem Settled.boundaryWork (sound : Settled s) : Settled (Machine.boundaryWork s) := by
  cases up : recovering s with
  | true => rwa [boundaryWork_recovering up]
  | false =>
    rw [Machine.boundaryWork]
    split
    · exact sound.applyOrder up
    · exact sound.applyOrder up
    all_goals exact sound

end Sys2Proof.Machine
end

section
/-! SUPPORT. CLOSE, SET_PRIORITY and APPEND keep the tables in agreement and decided (R11 to R15, R33, R44, R63). -/

namespace Sys2Proof.Machine

variable {s t u v : State} {h : HostId} {a k m z : SlotId} {j : Job} {o : JobOutcome} {c : Cause} {r : RouteId}

/-! ## CLOSE -/

/-- A job closed with no entries before it began ends (R14). -/
theorem Settled.endUnused (sound : Settled s) (was : (s.job k).state = .filling ∨ (s.job k).state = .starved ∨ (s.job k).state = .ready)
    (unbegun : (s.job k).begun = false) : Settled (Machine.endUnused k s) := by
  obtain ⟨agree, decided⟩ := sound
  have out {x : JobState} (other : x ≠ .filling ∧ x ≠ .starved ∧ x ≠ .ready) : (s.job k).state ≠ x := by
    rcases was with e | e | e <;> rw [e]
    exacts [other.1.symm, other.2.1.symm, other.2.2.symm]
  have inactive : s.du.active ≠ some k := fun active => out (by simp) ((agree.active k).mp active)
  have unclaimed : ¬ claiming (s.job k) := fun held => absurd (unbegun.symm.trans held.1) nofun
  have off : LetOff s (abortRoute k { s with du := { s.du with ready := s.du.ready.erase k } }) k := by
    refine .of_removed agree ?_ ?_ ?_ ?_ ?_ ?_ ?_ ?_ (abortRoute_kept_of agree.routes (out (by simp)) rfl rfl) unclaimed (out (by simp))
    · rw [abortRoute_frame]
    · rw [abortRoute_frame]
    · rw [abortRoute_frame, agree.not_stacked (out (by simp))]
    · rw [abortRoute_frame, if_neg inactive]
    · rw [abortRoute_frame]
    · rw [abortRoute_frame]
    · rw [abortRoute_frame]
    · exact recovering_of_link (by rw [abortRoute_frame])
  exact off.endJobAlone_settled agree (out (by simp)) decided inactive unclaimed .done .none

theorem Settled.closed (sound : Settled s) (k : SlotId) : Settled (withJob s k (closedJob s k)) :=
  sound.of_record (k := k) (i := closedJob s k) ⟨rfl, rfl, rfl, rfl, rfl, rfl, rfl, fun _ => rfl⟩ rfl rfl rfl rfl rfl rfl

theorem Settled.closeJob (sound : Settled s) (k : SlotId) : Settled (Machine.closeJob k s) := by
  have closed := sound.closed k
  have here : (withJob s k (closedJob s k)).job k = closedJob s k := upd_same ..
  have state : ((withJob s k (closedJob s k)).job k).state = (s.job k).state := by rw [here]
  have begun : ((withJob s k (closedJob s k)).job k).begun = (s.job k).begun := by rw [here]
  rw [closeJob_eq]
  split
  · next was =>
    split
    · next unused => exact closed.endUnused (.inl (state.trans was)) (begun.trans (unusedJob_iff.mp unused).2)
    · exact closed.enterReady (.inl (state.trans was))
  · next was =>
    split
    · next unused => exact closed.endUnused (.inr (.inl (state.trans was))) (begun.trans (unusedJob_iff.mp unused).2)
    · exact closed.enterReady (.inr (state.trans was))
  · next was =>
    split
    · next unused => exact closed.endUnused (.inr (.inr (state.trans was))) (begun.trans (unusedJob_iff.mp unused).2)
    · exact closed
  · exact closed.settled
  all_goals exact closed

/-! ## SET_PRIORITY -/

/-- A job whose priority changes outside the line; where that could make it a candidate, DU responds (R15, R44). -/
theorem Settled.priorityChanged {p : Fin 8} (sound : Settled s)
    (was : (s.job k).state = .filling ∨ (s.job k).state = .ready ∨ (s.job k).state = .starved) :
    Settled (Machine.priorityChanged k p s) := by
  obtain ⟨agree, decided⟩ := sound
  have off : ¬ ((s.job k).state = .active ∨ (s.job k).state = .suspended) := by rcases was with e | e | e <;> simp [e]
  have job : ∀ z, (s.setJob k { s.job k with priority := p }).job z = if k = z then { s.job k with priority := p } else s.job z :=
    State.setJob_job s k _
  have same : SameTables s (s.setJob k { s.job k with priority := p }) :=
    .of_record (i := { s.job k with priority := p }) ⟨rfl, rfl, rfl, rfl, rfl, rfl, rfl, fun inLine => absurd inLine off⟩ job rfl rfl rfl rfl rfl rfl (routesKept_of_same rfl)
  have du : (s.setJob k { s.job k with priority := p }).du = s.du := rfl
  have link : recovering (s.setJob k { s.job k with priority := p }) = recovering s := rfl
  have changed := same.agree agree
  rw [Machine.priorityChanged]
  split
  · exact changed.responds fun idle made => (decided idle made).1
  · next silent =>
    refine ⟨changed, fun idle made => ?_⟩
    obtain ⟨empty, none'⟩ := decided idle made
    refine ⟨empty, fun up z mem cand => ?_⟩
    refine none' up z mem ?_
    obtain ⟨state, level, opened, -, -⟩ := cand
    rw [job] at state level opened
    by_cases e : k = z
    · subst e
      rw [if_pos rfl] at state level opened
      refine ⟨state, fun zero => silent (raisePrompts_iff.mpr ⟨state, ?_, .inl zero⟩), opened,
        by rw [empty]; exact fun j mem => absurd mem List.not_mem_nil, nofun⟩
      rw [zero]
      exact Fin.pos_iff_ne_zero.mpr level
    · rw [if_neg e] at state level opened
      exact ⟨state, level, opened, by rw [empty]; exact fun j mem => absurd mem List.not_mem_nil, nofun⟩

/-! ## APPEND -/

theorem Settled.joined (sound : Settled s) (k : SlotId) : Settled (entriesJoined k s) := by
  rw [entriesJoined]
  split
  · next was =>
    split
    · exact sound.enterReady (.inl was)
    · exact sound
  · next was =>
    split
    · exact sound.enterReady (.inr was)
    · exact sound
  · exact sound.of_rest rfl rfl rfl rfl rfl
  all_goals exact sound

theorem Settled.appended (sound : Settled s) (k : SlotId) (es : List Entry) (close : Bool) : Settled (appendActed k es close s) := by
  have grew : Settled (appendEntries k es s) :=
    sound.of_record (k := k) (i := { s.job k with chain := grownChain s k es, queued := (s.job k).queued + es.length })
      ⟨rfl, rfl, rfl, rfl, rfl, rfl, rfl, fun _ => rfl⟩ rfl rfl rfl rfl rfl rfl
  have joined := grew.joined k
  rw [appendActed]
  split
  · exact joined.closeJob k
  · exact joined

end Sys2Proof.Machine
end

section
/-! SUPPORT. CANCEL keeps the tables in agreement and decided (R66, R97, R130 to R134). -/

namespace Sys2Proof.Machine

variable {s t u v : State} {h : HostId} {a k m z : SlotId} {j : Job} {o : JobOutcome} {c : Cause} {r : RouteId}

/-- A partly sent job is one whose channel is claimed for it and which is not CANCELLING yet (R45, R131). -/
theorem partlySent_iff : partlySent j = true ↔ claiming j ∧ j.state ≠ .cancelling := by
  rw [partlySent, Bool.and_eq_true]
  cases state : j.state <;> simp [claiming, state]

theorem cancelJob_du (k : SlotId) (c : Cause) (s : State) : (cancelJob k c s).du = (removeFromDispatch k s).du := by
  rw [cancelJob_eq]
  split
  · rw [abandonAborted_eq]
  · rw [endJob_frame, abortRoute_frame]

/-- The Dispatch Unit and the route let go of a job that is not partly sent (R66, R97). -/
theorem cancelled_letOff (agree : Agree s) (live : (s.job k).state ≠ .free) (alive : (s.job k).state ≠ .cancelling)
    (whole : ¬ claiming (s.job k)) : LetOff s (abortRoute k (removeFromDispatch k s)) k := by
  have kept := abortRoute_kept_of (u := removeFromDispatch k s) agree.routes live (by rw [removeFromDispatch_eq]) (by rw [removeFromDispatch_eq])
  have frame := abortRoute_frame k (removeFromDispatch k s)
  generalize abortRoute k (removeFromDispatch k s) = t at *
  rw [removeFromDispatch_eq] at frame
  have du : t.du = { s.du with
      ready := s.du.ready.erase k, stack := s.du.stack.erase k, active := if s.du.active = some k then none else s.du.active } := by
    rw [frame]
  exact .of_removed agree (by rw [frame]) (by rw [du]) (by rw [du]) (by rw [du]) (by rw [du]) (by rw [du]) (by rw [frame])
    (recovering_of_link (by rw [frame])) kept whole alive

/-- A partly sent job becomes CANCELLING and joins the abandon list (R66, R131, R134). -/
theorem abandoned_retired (agree : Agree s) (partly : partlySent (s.job k) = true) :
    Retired s (joinAbandonList k c (discardChain k (abortRoute k (removeFromDispatch k s)))) k c := by
  obtain ⟨held, alive⟩ := partlySent_iff.mp partly
  have live : (s.job k).state ≠ .free := fun free => by rw [partlySent, free, Bool.and_false] at partly; cases partly
  have kept := abortRoute_kept_of (u := removeFromDispatch k s) agree.routes live (by rw [removeFromDispatch_eq]) (by rw [removeFromDispatch_eq])
  have route := abortRoute_route k (removeFromDispatch k s)
  have frame := abandonAborted_eq k c (removeFromDispatch k s)
  have routes : ∀ r, (joinAbandonList k c (discardChain k (abortRoute k (removeFromDispatch k s)))).route r =
      (abortRoute k (removeFromDispatch k s)).route r := fun r => by rw [State.route, frame]; rfl
  generalize joinAbandonList k c (discardChain k (abortRoute k (removeFromDispatch k s))) = t at *
  have same : ∀ z, (removeFromDispatch k s).job z = s.job z := fun z => by rw [removeFromDispatch_eq]; rfl
  have handle : (removeFromDispatch k s).handle k = s.handle k := by rw [removeFromDispatch_eq]; rfl
  rw [same, handle] at frame
  have job : ∀ z, t.job z = if k = z then { s.job k with chain := [], queued := 0, state := .cancelling } else s.job z := fun z => by
    rw [frame]
    refine (upd_get ..).trans ?_
    split
    · rfl
    · exact same z
  have here : t.job k = { s.job k with chain := [], queued := 0, state := .cancelling } := by rw [job, if_pos rfl]
  have keeps : keepsClaim (t.job k) := .inr (by rw [here])
  rw [removeFromDispatch_eq] at frame
  have du : t.du = { s.du with
      ready := s.du.ready.erase k, stack := s.du.stack.erase k, active := if s.du.active = some k then none else s.du.active } := by
    rw [frame]
  have claims : t.du.claims = s.du.claims := by rw [du]
  refine ⟨⟨fun z e => by rw [job, if_neg (Ne.symm e)], by rw [here], by rw [here], by rw [here], by rw [here], live, .inl keeps,
    fun _ => ⟨held.1, alive⟩, by rw [frame], by rw [frame], by rw [frame], fun r => ?_⟩, fun _ _ => held, by rw [du], by rw [du],
    by rw [du], by rw [du], fun x => ?_, ?_, recovering_of_link (by rw [frame])⟩
  · obtain ⟨owner, free, timer⟩ := kept r
    rw [routes]
    refine ⟨owner, free, fun runs => .inl ⟨timer runs, fun own => ?_⟩⟩
    rw [route, if_pos (by rw [same]; exact own)] at runs
    exact runs rfl
  · rw [State.claim, claims, if_neg fun both => both.2 keeps, State.claim]
  · rw [if_pos (by rw [here]), frame]

/-- A CANCEL acted on keeps the tables in agreement, and decided where the job was not the active one. -/
theorem cancelJob_agree (agree : Agree s) (live : (s.job k).state ≠ .free) (alive : (s.job k).state ≠ .cancelling) (c : Cause) :
    Agree (cancelJob k c s) ∧ (s.du.active ≠ some k → Decided s → Decided (cancelJob k c s)) := by
  rw [cancelJob_eq]
  split
  · next partly =>
    have gone := abandoned_retired (c := c) agree partly
    refine ⟨gone.agree agree, fun other decided => gone.decided agree other (gone.claims_of agree (.inr (.inr ?_))) decided⟩
    rw [abandonAborted_eq]
    exact congrArg Job.state (upd_same ..)
  · next whole =>
    have whole : ¬ claiming (s.job k) := fun held => whole (partlySent_iff.mpr ⟨held, alive⟩)
    have off := cancelled_letOff agree live alive whole
    exact ⟨off.endJob agree live .cancelled c,
      fun other decided => (off.endJob_settled agree live decided other whole .cancelled c).2⟩

theorem Settled.cancelActed (sound : Settled s) (live : (s.job k).state ≠ .free) (alive : (s.job k).state ≠ .cancelling) (c : Cause) :
    Settled (Machine.cancelActed k c s) := by
  obtain ⟨agree, decided⟩ := sound
  obtain ⟨agreed, made⟩ := cancelJob_agree agree live alive c
  have du : (evaluateSpace (cancelJob k c s)).du = (removeFromDispatch k s).du := by rw [evaluateSpace_frame]; exact cancelJob_du k c s
  rw [Machine.cancelActed]
  split
  · next active =>
    refine ((SameTables.of_evaluateSpace _).agree agreed).leaveLink ?_ ?_ <;> rw [du, removeFromDispatch_eq]
    · exact if_pos active
    · exact agree.settledLeaving active
  · next other => exact Settled.evaluated ⟨agreed, made other decided⟩

theorem Settled.acceptCancel (sound : Settled s) (live : (s.job k).state ≠ .free) (alive : (s.job k).state ≠ .cancelling) (c : Cause) :
    Settled (Machine.acceptCancel k c s) := by
  rw [acceptCancel_eq]
  exact (sound.cancelActed live alive c).boundaryWork

end Sys2Proof.Machine
end

section
/-! SUPPORT. Acknowledgements keep the tables in agreement and decided (R46, R54, R74, R85, R92, R136). -/

namespace Sys2Proof.Machine

variable {s t u v : State} {h : HostId} {a k m z : SlotId} {j : Job} {o : JobOutcome} {c : Cause} {r : RouteId}

theorem Settled.entryAcknowledged (sound : Settled s) (x : Handle) : Settled (Machine.entryAcknowledged x s) := by
  rw [Machine.entryAcknowledged]
  split
  · refine Settled.settled ?_
    exact sound.of_record (k := x.slot) (i := { s.job x.slot with
        sent := (s.job x.slot).sent + 1
        turn := if (s.job x.slot).turn < Config.turnCountMax then (s.job x.slot).turn + 1 else (s.job x.slot).turn })
      ⟨rfl, rfl, rfl, rfl, rfl, rfl, rfl, fun _ => rfl⟩ rfl rfl rfl rfl rfl rfl
  · exact sound.of_record (k := x.slot) (i := { s.job x.slot with sent := (s.job x.slot).sent + 1 })
      ⟨rfl, rfl, rfl, rfl, rfl, rfl, rfl, fun _ => rfl⟩ rfl rfl rfl rfl rfl rfl
  all_goals exact sound

/-- The head abandon entry and the claim it holds are given up (R136). -/
abbrev abandonLeft (s : State) (e : AbandonEntry) (es : List AbandonEntry) : State :=
  ({ s with le := { s.le with abandon := es } } : State).setClaim e.channel none

/-- The job of the head abandon entry is CANCELLING, and the entry's channel is claimed for it (R45, R134). -/
theorem Agree.abandonHead {e : AbandonEntry} {es : List AbandonEntry} (agree : Agree s) (list : s.le.abandon = e :: es) :
    (s.job e.job.slot).state = .cancelling ∧ s.claim e.channel = some e.job.slot := by
  obtain ⟨-, -, named, -⟩ := agree.abandon
  obtain ⟨-, state, channel⟩ := named e (by rw [list]; exact List.mem_cons_self ..)
  exact ⟨state, (agree.claims _ _).mpr ⟨channel, (agree.jobs.2 _).2.1 state, .inr (.inr (.inr (.inr state)))⟩⟩

theorem abandonLeft_letOff {e : AbandonEntry} {es : List AbandonEntry} (agree : Agree s) (list : s.le.abandon = e :: es) :
    LetOff s (abandonLeft s e es) e.job.slot := by
  obtain ⟨state, claim⟩ := agree.abandonHead list
  obtain ⟨slots, -, -, -⟩ := agree.abandon
  rw [list, List.map_cons, List.nodup_cons] at slots
  refine ⟨rfl, (agree.not_ready (by rw [state]; nofun)).symm, (agree.not_stacked (by rw [state]; nofun)).symm, ?_, rfl,
    fun x => ?_, ?_, rfl, routesKept_of_same rfl⟩
  · exact (if_neg fun active => absurd (((agree.active _).mp active).symm.trans state) nofun).symm
  · refine (State.setClaim_claim ..).trans ?_
    by_cases here : e.channel = x
    · rw [if_pos here, if_pos (here ▸ claim)]
    · rw [if_neg here, if_neg fun taken => here ?_]
      · rfl
      · exact ((agree.claims _ _).mp claim).1.symm.trans ((agree.claims _ _).mp taken).1
  · rw [list, List.filter_cons_of_neg (by simp)]
    refine (List.filter_eq_self.mpr fun x mem => ?_).symm
    have other : x.job.slot ≠ e.job.slot := fun same => slots.1 (List.mem_map.mpr ⟨x, mem, same⟩)
    exact decide_eq_true other

theorem endJobAlone_du (k : SlotId) (o : JobOutcome) (c : Cause) (s : State) : (endJobAlone k o c s).du = s.du := by
  rw [endJobAlone, evaluateSpace_frame, endJob_frame]

theorem endJobAlone_other (other : z ≠ k) : (endJobAlone k o c s).job z = s.job z := by
  have jm : (endJobAlone k o c s).jm = (endJob k o c s).jm := by rw [endJobAlone, evaluateSpace_frame]
  rw [State.job, jm]
  exact (endJob_job ..).trans (if_neg (Ne.symm other))

theorem endJobAlone_recovering (k : SlotId) (o : JobOutcome) (c : Cause) (s : State) :
    recovering (endJobAlone k o c s) = recovering s := (endJobAlone_offLink k o c s).recovering

/-- The cancelled job ends, and the jobs its channel was closed to are answered (R46, R136). -/
theorem Settled.abandonAcknowledged (sound : Settled s) : Settled (Machine.abandonAcknowledged s) := by
  obtain ⟨agree, decided⟩ := sound
  rw [Machine.abandonAcknowledged]
  split
  · exact ⟨agree, decided⟩
  · next e es list =>
    obtain ⟨state, claim⟩ := agree.abandonHead list
    have ended := (abandonLeft_letOff agree list).endJobAlone agree (by rw [state]; nofun) .cancelled e.cause
    have du := endJobAlone_du e.job.slot .cancelled e.cause (abandonLeft s e es)
    have others := fun z (other : z ≠ e.job.slot) =>
      endJobAlone_other (o := .cancelled) (c := e.cause) (s := abandonLeft s e es) other
    have link := endJobAlone_recovering e.job.slot .cancelled e.cause (abandonLeft s e es)
    dsimp only
    change Settled (if eligibleOn (endJobAlone e.job.slot .cancelled e.cause (abandonLeft s e es)) e.channel = true then
      respondEligible (endJobAlone e.job.slot .cancelled e.cause (abandonLeft s e es)) else
      endJobAlone e.job.slot .cancelled e.cause (abandonLeft s e es))
    generalize endJobAlone e.job.slot .cancelled e.cause (abandonLeft s e es) = t at *
    have lists : t.du.active = s.du.active ∧ t.du.leaving = s.du.leaving ∧ t.du.stack = s.du.stack ∧ t.du.ready = s.du.ready := by
      rw [du]
      exact ⟨rfl, rfl, rfl, rfl⟩
    obtain ⟨active, leaving, stack, ready⟩ := lists
    split
    · refine ended.responds fun idle made => ?_
      rw [active] at idle
      rw [leaving] at made
      rw [stack]
      exact (decided idle made).1
    · next none' =>
      refine ⟨ended, fun idle made => ?_⟩
      rw [active] at idle
      rw [leaving] at made
      obtain ⟨empty, nobody⟩ := decided idle made
      refine ⟨stack.trans empty, fun up z mem cand => ?_⟩
      have inside : z ∈ s.du.ready := ready ▸ mem
      have other : z ≠ e.job.slot := fun here => by
        have ready' := (agree.ready.2.1 z).mp inside
        rw [here, state] at ready'
        cases ready'
      obtain ⟨state', level, opened, -, -⟩ := cand
      have apart : (t.job z).channel ≠ e.channel := fun here => by
        refine none' (List.any_eq_true.mpr ⟨z, mem, ?_⟩)
        rw [Bool.and_eq_true]
        exact ⟨decide_eq_true here, eligible_iff.mpr ⟨state', level, opened⟩⟩
      have same : t.job z = s.job z := others z other
      rw [same] at state' level opened apart
      have claim' : t.claim (s.job z).channel = s.claim (s.job z).channel := by
        rw [State.claim, du]
        exact (State.setClaim_claim ..).trans (if_neg apart.symm)
      rw [claim'] at opened
      exact nobody (link.symm.trans up) z inside ⟨state', level, opened,
        by rw [empty]; exact fun j mem => absurd mem List.not_mem_nil, nofun⟩

theorem Settled.originAcknowledged (sound : Settled s) (o : Origin) : Settled (Machine.originAcknowledged o s) := by
  cases o with
  | entry x => exact sound.entryAcknowledged x
  | select c => exact sound.of_rest rfl rfl rfl rfl rfl
  | abandon => exact sound.abandonAcknowledged

end Sys2Proof.Machine
end

section
/-! SUPPORT. Reverse bytes and the expiries of dry waits and replies keep the tables in agreement and decided (R59, R64, R101, R106 to
R109, R114). -/

namespace Sys2Proof.Machine

variable {s t u v : State} {h : HostId} {a k m z : SlotId} {j : Job} {o : JobOutcome} {c : Cause} {r : RouteId} {b : Byte}

/-! ## Reverse bytes -/

theorem storeCopies_kept (b : Byte) (n : Nat) (x : Route) :
    (storeCopies b n x).owner = x.owner ∧ (storeCopies b n x).state = x.state ∧ (storeCopies b n x).timer = x.timer := by
  induction n generalizing x with
  | zero => exact ⟨rfl, rfl, rfl⟩
  | succ n ih =>
    obtain ⟨owner, state, timer⟩ := ih (storeCopy b x)
    have copied : (storeCopy b x).owner = x.owner ∧ (storeCopy b x).state = x.state ∧ (storeCopy b x).timer = x.timer := by
      rw [storeCopy]
      split <;> exact ⟨rfl, rfl, rfl⟩
    exact ⟨owner.trans copied.1, state.trans copied.2.1, timer.trans copied.2.2⟩

namespace Settled

variable (sound : Settled s)
include sound

theorem statusPosted (e : Event) : Settled (postStatusGroup e s) :=
  (SameTables.of_postStatusGroup e s).tables (same_priority_of_jm (by rw [postStatusGroup_frame])) sound

theorem ownerPosted (r : RouteId) (kind : EventKind) (code : Byte) : Settled (postToRouteOwner r kind code s) := by
  rw [postToRouteOwner]
  split
  · exact sound
  · split
    · exact sound
    · exact sound.posted ..

theorem orphanNoticed : Settled (orphanNotice s) := by
  rw [orphanNotice]
  split
  · exact sound
  · have posted := sound.groupPosted { kind := .linkProtocol, handle := none, route := s.rr.selection, code := orphanCode }
    dsimp only
    generalize postLinkGroup { kind := .linkProtocol, handle := none, route := s.rr.selection, code := orphanCode } s = u at *
    exact posted.of_rest rfl rfl rfl rfl rfl

theorem stored (r : RouteId) (n : Nat) (b : Byte) : Settled (storeData r n b s) := by
  obtain ⟨owner, state, timer⟩ := storeCopies_kept b n (restartReplyTimer s.su.settings.replyTime (s.route r))
  have copied := sound.of_route (r := r) (x := storeCopies b n (restartReplyTimer s.su.settings.replyTime (s.route r))) owner
    (by rw [state]; exact Iff.rfl) (fun runs stopped => by
      rw [timer, restartReplyTimer, stopped] at runs
      exact runs rfl)
  rw [storeData]
  split
  · exact copied.ownerPosted ..
  · exact copied

theorem dataTaken (b : Byte) : Settled (reverseData b s) := by
  have used : Settled { s with rr := { s.rr with repeats := none } } := sound.of_rest rfl rfl rfl rfl rfl
  rw [reverseData]
  dsimp only
  split
  · exact used.orphanNoticed
  · split
    · exact used.orphanNoticed
    · exact used.orphanNoticed
    · exact used
    · exact used.stored ..

/-- A job in AWAIT_REPLY ends, its route being COMPLETE or ABORTED (R109, R114). -/
theorem replyEnds (waits : (s.job k).state = .awaitReply) (jm : u.jm = s.jm) (du : u.du = s.du) (abandon : u.le.abandon = s.le.abandon)
    (link : recovering u = recovering s) (routes : routesKept s u) (o : JobOutcome) (c : Cause) :
    Settled (endJobAlone k o c u) := by
  have unclaimed : ¬ claiming (s.job k) := fun held => by
    rw [claiming, waits] at held
    simp at held
  have off : LetOff s u k := .of_rest sound.1 jm du abandon link routes (.inr (.inr waits)) unclaimed
  exact off.endJobAlone_settled sound.1 (by rw [waits]; nofun) sound.2
    (fun active => absurd (((sound.1.active k).mp active).symm.trans waits) nofun) unclaimed o c

theorem completed (opened : (s.route r).state = .opened) : Settled (completeRoute r s) := by
  have complete := (sound.of_route (r := r) (x := { s.route r with state := .complete }) rfl
    (by rw [opened]; exact iff_of_false nofun nofun) id).ownerPosted r .replyEnd (flagBit (s.route r).truncated 0)
  rw [completeRoute]
  split
  · exact complete
  · next w _ =>
    split
    · next waits => exact complete.replyEnds waits rfl rfl rfl rfl (routesKept_of_same rfl) .done .none
    · exact complete

theorem replyEnded : Settled (reverseEnd s) := by
  have deselected {u : State} (sound : Settled u) : Settled { u with rr := { u.rr with selection := none } } :=
    sound.of_rest rfl rfl rfl rfl rfl
  rw [reverseEnd]
  refine deselected ?_
  split
  · exact sound.orphanNoticed
  · split
    · exact sound.orphanNoticed
    · exact sound.orphanNoticed
    · exact sound
    · next opened => exact sound.completed opened

theorem repeatBroken : Settled (breakRepeat s) := by
  have used : Settled { s with rr := { s.rr with repeats := none } } := sound.of_rest rfl rfl rfl rfl rfl
  rw [breakRepeat]
  split
  · exact sound
  · exact used.groupPosted _

theorem acknowledged : Settled (acknowledgeByte s) := sound.of_rest rfl rfl rfl rfl rfl

theorem controlTaken (up : recovering s = false) (c : ReverseControl) : Settled (reverseControlByte c s) := by
  cases c with
  | repeats n =>
    have pending : Settled { s with rr := { s.rr with repeats := some n } } := sound.of_rest rfl rfl rfl rfl rfl
    exact pending.acknowledged
  | route r =>
    have selected : Settled { s with rr := { s.rr with selection := some r } } := sound.of_rest rfl rfl rfl rfl rfl
    exact selected.acknowledged
  | status n =>
    have held : Settled { s with le := { s.le with lastStatus := some n } } := sound.of_rest rfl rfl rfl rfl rfl
    exact (held.statusPosted _).acknowledged
  | endReply => exact sound.replyEnded.acknowledged
  | malformed => exact (sound.groupPosted _).acknowledged
  | yieldPhase =>
    have ended : Settled (endPhase (acknowledgeByte s)) := sound.of_rest rfl rfl rfl rfl rfl
    exact ended.applyOrder up

theorem byteTaken {kind : ByteKind} (e : execReverseByte kind b s = .next t) : Settled t := by
  have arrived : Settled (byteArrived s) := sound.of_rest rfl rfl rfl rfl rfl
  rcases reverseByte_cases e with ⟨-, rfl⟩ | ⟨phase, ⟨-, rfl⟩ | ⟨-, rfl⟩⟩
  · exact sound.of_rest rfl rfl rfl rfl rfl
  · exact (arrived.dataTaken b).acknowledged
  · have link : (breakRepeat (byteArrived s)).le.link = s.le.link := by
      rw [breakRepeat]
      split
      · rfl
      · rw [postLinkGroup_frame]
    refine arrived.repeatBroken.controlTaken ?_ _
    rw [recovering, link, phase]

end Settled

/-! ## Expiries -/

theorem starved_job (s : State) (a z : SlotId) : (starved s a).job z = if a = z then { s.job a with state := .starved } else s.job z :=
  State.setJob_job s a { s.job a with state := .starved } z

/-- The job whose dry wait has run out leaves the link, its claim kept (R45, R64). -/
theorem starved_retired (agree : Agree s) (active : s.du.active = some a) : Retired s (starved s a) a .none := by
  have state := (agree.active a).mp active
  have here : (starved s a).job a = { s.job a with state := .starved } := by rw [starved_job, if_pos rfl]
  have keeps : keepsClaim ((starved s a).job a) := .inl (by rw [here])
  refine ⟨⟨fun z e => by rw [starved_job, if_neg (Ne.symm e)], by rw [here], by rw [here], by rw [here], by rw [here],
    by rw [state]; nofun, .inl keeps, fun gone => absurd gone (by rw [here]; nofun), rfl, rfl, rfl,
    fun r => ⟨rfl, Iff.rfl, fun runs => .inl ⟨runs, fun own => ?_⟩⟩⟩, fun _ begun => ⟨begun, .inl state⟩,
    (agree.not_ready (by rw [state]; nofun)).symm, (agree.not_stacked (by rw [state]; nofun)).symm, (if_pos active).symm, rfl,
    fun x => (if_neg fun both : s.claim x = some a ∧ ¬ keepsClaim ((starved s a).job a) => both.2 keeps).symm, ?_, rfl⟩
  · obtain ⟨-, named, mine, -⟩ := agree.routes
    have owner := mine a r (by rw [state]; nofun) own
    obtain ⟨-, -, -, waits⟩ := named r _ owner
    exact absurd (state.symm.trans (waits runs)) nofun
  · rw [if_neg (by rw [here]; nofun)]
    exact (agree.unlisted_filter (by rw [state]; nofun)).symm

/-- The leaving decision is left open (R64). -/
theorem Agree.opensDecision (agree : Agree s) (idle : s.du.active = none) (up : recovering s = false) :
    Settled (openDecision s) := by
  obtain ⟨jobs, claims, ready, nodup, depth, stack, active, -, line, -, abandon, routes⟩ := agree
  have opened : Settled { s with du := { s.du with leaving := true } } :=
    ⟨⟨jobs, claims, ready, nodup, depth, stack, active, fun _ => idle, ⟨line.priorities, line.channels, line.opened⟩,
      fun down => absurd (up.symm.trans down) nofun, abandon, routes⟩, .of_leaving rfl⟩
  exact opened.boundaryWork

theorem Settled.dryWaitEnded (sound : Settled s) (e : execDryWaitExpiry s = .next t) : Settled t := by
  rcases dryWaitExpiry_cases e with rfl | ⟨a, active, -, after⟩
  · exact sound
  · have agree := (starved_retired sound.1 active).agree sound.1
    have up : recovering s = false := Bool.eq_false_iff.mpr fun down =>
      absurd ((sound.1.recovery down).1.symm.trans active) nofun
    have idle : (starved s a).du.active = none := rfl
    have made : (starved s a).du.leaving = false := sound.1.settledLeaving active
    have up' : recovering (starved s a) = false := up
    generalize starved s a = u at *
    rcases after with ⟨rfl, -⟩ | rfl
    · exact agree.opensDecision idle up'
    · exact (agree.leaveLink idle made).boundaryWork

theorem Settled.replyExpired (sound : Settled s) (e : execReplyTimerExpiry r s = .next t) : Settled t := by
  rcases replyTimerExpiry_cases e with same | ⟨x, runs, owner, after⟩
  · exact same ▸ sound
  · rw [after]
    obtain ⟨-, named, -, -⟩ := sound.1.routes
    obtain ⟨-, live, -, waits⟩ := named r x owner
    have waits := waits fun none' => by rw [none'] at runs; cases runs
    have kept := abortRoute_kept sound.1.routes live
    have frame := abortRoute_frame x.slot s
    generalize abortRoute x.slot s = u at kept frame ⊢
    exact sound.replyEnds waits (by rw [frame]) (by rw [frame]) (by rw [frame]) (recovering_of_link (by rw [frame])) kept .failed
      .replyTimeout

end Sys2Proof.Machine
end

section
/-! SUPPORT. A link reset leaves the tables in agreement, and nothing to decide (R68, R69, R138 to R140). -/

namespace Sys2Proof.Machine

variable {s t u v : State} {h : HostId} {a k m z : SlotId} {j : Job} {o : JobOutcome} {c : Cause} {r : RouteId}
  {entries : List AbandonEntry} {fault : LastFault}

/-! ## The jobs and routes -/

theorem jobsSound_of_jm (sound : jobsSound s) (jm : t.jm = s.jm) : jobsSound t := by
  have job : ∀ z, t.job z = s.job z := fun z => by rw [State.job, jm, State.job]
  exact jobsSound_of sound (by rw [jm]) (fun z => by rw [job]; exact ⟨rfl, Iff.rfl⟩) fun z => by rw [job, jm]; exact sound.2 z

theorem routesSound_of_same (sound : routesSound s) (jm : t.jm = s.jm) (routes : t.rr.routes = s.rr.routes) : routesSound t := by
  have job : ∀ z, t.job z = s.job z := fun z => by rw [State.job, jm, State.job]
  exact routesSound_of sound (routesKept_of_same routes) (by rw [jm]) fun z => by rw [job]; exact ⟨rfl, Iff.rfl, .inl⟩

/-- The job table and the routes are in agreement by themselves. -/
abbrev RecordsSound (s : State) : Prop := jobsSound s ∧ routesSound s

theorem RecordsSound.of_same (sound : RecordsSound s) (jm : t.jm = s.jm) (routes : t.rr.routes = s.rr.routes) : RecordsSound t :=
  ⟨jobsSound_of_jm sound.1 jm, routesSound_of_same sound.2 jm routes⟩

theorem RecordsSound.ends (sound : RecordsSound s) (live : (s.job k).state ≠ .free) (o : JobOutcome) (c : Cause) :
    RecordsSound (endJob k o c (abortRoute k s)) := by
  have departed := jobEnds_departed (u := abortRoute k s) (by rw [abortRoute_frame]) (abortRoute_kept sound.2 live) live o c
  have jobs := departed.jobsSound sound.1
  have routes := departed.routesSound sound.2
  have ended : ((jobEnds k o c (abortRoute k s)).job k).state = .ended := by rw [jobEnds_job, if_pos rfl]
  rw [endJob_eq]
  generalize jobEnds k o c (abortRoute k s) = t at *
  split
  · exact ⟨releaseSlot_jobsSound jobs ended, releaseSlot_routesSound routes ended⟩
  · exact RecordsSound.of_same ⟨jobs, routes⟩ rfl rfl

theorem RecordsSound.meetsFate (sound : RecordsSound s) (entries : List AbandonEntry) (c : Cause) (k : SlotId) :
    RecordsSound (meetFate entries c s k) := by
  rw [meetFate]
  split
  · exact sound
  · next fate => exact sound.ends (fun free => by rw [resetFate, free] at fate; cases fate) ..

theorem RecordsSound.meetFates (entries : List AbandonEntry) (c : Cause) (l : List SlotId) (sound : RecordsSound s) :
    RecordsSound (l.foldl (meetFate entries c) s) := by
  induction l generalizing s with
  | nil => exact sound
  | cons k l ih => exact ih (sound.meetsFate entries c k)

theorem RecordsSound.reset (sound : RecordsSound s) (fault : LastFault) (c : Cause) : RecordsSound (resetLink fault c s) := by
  obtain ⟨v, -, eq⟩ := resetLink_eq fault c s
  have reported : RecordsSound (faultReported s fault v) := sound.of_same rfl rfl
  have met := reported.meetFates s.le.abandon c allSlots
  rw [eq, evaluateSpace_frame]
  generalize allSlots.foldl (meetFate s.le.abandon c) (faultReported s fault v) = t at *
  exact met.of_same rfl rfl

/-! ## The jobs that are kept -/

/-- A job stands outside the link: it claims no channel, and is neither ACTIVE, SUSPENDED nor CANCELLING. -/
structure OffLinkJob (j : Job) : Prop where
  unclaimed : ¬ claiming j
  active : j.state ≠ .active
  suspended : j.state ≠ .suspended
  cancelling : j.state ≠ .cancelling

/-- The jobs a reset keeps stand outside the link (R139). -/
theorem offLinkJob_of_kept {x : Handle} (kept : resetFate entries c x j = none) : OffLinkJob j := by
  rw [resetFate] at kept
  split at kept
  case h_4 state | h_5 state =>
    split at kept
    · cases kept
    · next unbegun => exact ⟨fun held => unbegun held.1, by rw [state]; nofun, by rw [state]; nofun, by rw [state]; nofun⟩
  case h_7 state | h_8 state | h_9 state =>
    refine ⟨fun held => ?_, by rw [state]; nofun, by rw [state]; nofun, by rw [state]; nofun⟩
    rw [claiming, state] at held
    simp at held
  all_goals cases kept

/-- After a reset every job stands outside the link, and the READY ones are as they were (R68, R69, R139). -/
theorem resetLink_offLink (fault : LastFault) (c : Cause) (s : State) (z : SlotId) :
    OffLinkJob ((resetLink fault c s).job z) ∧
      (((resetLink fault c s).job z).state = .ready → (resetLink fault c s).job z = s.job z) := by
  rw [(resetLink_job fault c s z).1, meetFate_job]
  have gone {i : Job} (over' : i.state = .free ∨ i.state = .ended) : OffLinkJob i ∧ (i.state = .ready → i = s.job z) := by
    refine ⟨⟨fun held => ?_, ?_, ?_, ?_⟩, fun ready => ?_⟩
    · rw [claiming] at held
      rcases over' with e | e <;> simp [e] at held
    all_goals rcases over' with e | e <;> simp [e] at *
  cases fate : resetFate s.le.abandon c (s.handle z) (s.job z) with
  | none => exact ⟨offLinkJob_of_kept fate, fun _ => rfl⟩
  | some f =>
    dsimp only
    rw [if_pos rfl]
    split
    · exact gone (.inl rfl)
    · exact gone (.inr rfl)

/-! ## The reset -/

theorem Agree.reset (agree : Agree s) (fault : LastFault) (c : Cause) : Settled (resetLink fault c s) := by
  obtain ⟨jobs, routes⟩ := RecordsSound.reset ⟨agree.jobs, agree.routes⟩ fault c
  have cleared := resetLink_clears fault c s
  have each := resetLink_offLink fault c s
  generalize resetLink fault c s = t at *
  have stack : t.du.stack = [] := by rw [cleared.du]
  have active : t.du.active = none := by rw [cleared.du]
  have leaving : t.du.leaving = false := by rw [cleared.du]
  have ready : t.du.ready = s.du.ready.filter fun k => decide ((t.job k).state = .ready) := by rw [cleared.du]
  have claim : ∀ x, t.claim x = none := fun x => by rw [State.claim, cleared.du]; exact Vector.getElem_replicate ..
  have abandon : t.le.abandon = [] := by rw [cleared.le]
  have down : recovering t = true := by rw [recovering, cleared.le]
  have line : lineOf t = [] := by rw [lineOf, stack, active]; rfl
  refine ⟨⟨jobs, fun x k => ?_, ⟨?_, fun k => ?_, ?_⟩, by rw [stack]; exact List.nodup_nil, by rw [stack]; exact Nat.zero_le _,
    fun k => ?_, fun k => ?_, fun _ => active, ⟨?_, ?_, ?_⟩, fun _ => ⟨active, stack, leaving⟩, ⟨?_, ?_, ?_, ?_⟩, routes⟩,
    fun _ _ => ⟨stack, fun up => absurd (down.symm.trans up) nofun⟩⟩
  · rw [claim]
    exact iff_of_false nofun fun held => (each k).1.unclaimed held.2
  · rw [ready]
    exact agree.ready.1.filter _
  · rw [ready, List.mem_filter, decide_eq_true_eq]
    refine and_iff_right_of_imp fun state => (agree.ready.2.1 k).mpr ?_
    rw [← (each k).2 state, state]
  · rw [ready, List.map_congr_left fun z mem => by rw [(each z).2 (of_decide_eq_true (List.mem_filter.mp mem).2)]]
    exact agree.ready.2.2.sublist (List.filter_sublist.map _)
  · rw [stack]
    exact iff_of_false List.not_mem_nil (each k).1.suspended
  · rw [active]
    exact iff_of_false nofun (each k).1.active
  · rw [line]
    exact .nil
  · rw [line]
    exact List.nodup_nil
  · rw [line]
    exact fun z mem => absurd mem List.not_mem_nil
  · rw [abandon]
    exact List.nodup_nil
  · rw [abandon]
    exact List.nodup_nil
  · rw [abandon]
    exact fun e mem => absurd mem List.not_mem_nil
  · exact fun k state => absurd state (each k).1.cancelling

end Sys2Proof.Machine
end

section
/-! SUPPORT. A port reset keeps the tables in agreement and decided (R21, R22, R39, R67, R149). -/

namespace Sys2Proof.Machine

variable {s t u v : State} {h : HostId} {a k m z : SlotId} {j : Job} {o : JobOutcome} {c : Cause} {gone : Prop} {made : Bool}

/-! ## The jobs of the host -/

/-- The jobs of host `h` are being released and orphaned; but where the active job was one of them (`gone`), there is nothing new to
decide, and the active job stays. -/
structure Emptying (h : HostId) (gone : Prop) (made : Bool) (s : State) : Prop where
  agree : Agree s
  leaving : s.du.leaving = made
  kept : ¬ gone → Decided s ∧ ∀ a, s.du.active = some a → (s.job a).owner ≠ h

/-- No job of another host is touched, and no job enters the link. -/
structure OthersKept (h : HostId) (s t : State) : Prop where
  job : ∀ z, (s.job z).owner ≠ h → t.job z = s.job z
  active : ∀ a, t.du.active = some a → s.du.active = some a
  leaving : t.du.leaving = s.du.leaving

theorem Emptying.next (emptying : Emptying h gone made s) (others : OthersKept h s t) (agree : Agree t)
    (decided : (∀ a, s.du.active = some a → (s.job a).owner ≠ h) → Decided s → Decided t) : Emptying h gone made t := by
  refine ⟨agree, others.leaving.trans emptying.leaving, fun still => ?_⟩
  obtain ⟨before, active⟩ := emptying.kept still
  refine ⟨decided active before, fun a held => ?_⟩
  have other := active a (others.active a held)
  rw [others.job a other]
  exact other

theorem Emptying.releases (emptying : Emptying h gone made s) (own : (s.job k).owner = h) (ended : (s.job k).state = .ended) :
    Emptying h gone made (releaseSlot k s) := by
  have beside := releaseSlot_beside ended
  have du := beside.du
  refine emptying.next ⟨fun z other => beside.others z fun e => other (e ▸ own), fun a held => ?_, by rw [du]⟩
    (emptying.agree.release ended) fun _ => beside.decided
  rw [du] at held
  exact held

theorem Emptying.releasesEnded (emptying : Emptying h gone made s) (k : SlotId) : Emptying h gone made (releaseEnded h s k) := by
  rw [releaseEnded]
  split
  · next both => exact emptying.releases both.1 both.2
  · exact emptying

theorem Dropped.others (dropped : Dropped h s t k) (own : (s.job k).owner = h) : OthersKept h s t := by
  have du := congrArg State.du dropped.frame
  refine ⟨fun z other => ?_, fun a held => ?_, by rw [du]⟩
  · rw [dropped.job, if_neg fun e : k = z => other (e ▸ own)]
  · rw [du] at held
    dsimp only at held
    split at held
    · cases held
    · exact held

/-- A job marked ORPHANED. -/
theorem Settled.orphaned (agree : Agree s) (k : SlotId) :
    Agree (withJob s k { s.job k with orphaned := true }) ∧ (Decided s → Decided (withJob s k { s.job k with orphaned := true })) := by
  have same : SameTables s (withJob s k { s.job k with orphaned := true }) :=
    .of_record (k := k) (i := { s.job k with orphaned := true }) ⟨rfl, rfl, rfl, rfl, rfl, rfl, rfl, fun _ => rfl⟩
      (fun z => upd_get ..) rfl rfl rfl rfl rfl rfl (routesKept_of_same rfl)
  refine ⟨same.agree agree, same.decided fun z => ?_⟩
  refine (congrArg Job.priority (upd_get ..)).trans ?_
  split
  · next e => rw [← e]
  · rfl

theorem Emptying.orphans (emptying : Emptying h gone made s) (k : SlotId) : Emptying h gone made (orphanSlot h s k) := by
  by_cases own : (s.job k).owner = h
  · by_cases ended : (s.job k).state = .ended
    · have released : orphanSlot h s k = releaseSlot k s := by
        rw [orphanSlot, if_pos own, ended]
      rw [released]
      exact emptying.releases own ended
    · have others := (orphanSlot_dropped fun _ => ended).others own
      obtain ⟨marked, decides⟩ := Settled.orphaned emptying.agree k
      have job : (withJob s k { s.job k with orphaned := true }).job k = { s.job k with orphaned := true } := upd_same ..
      have state : ((withJob s k { s.job k with orphaned := true }).job k).state = (s.job k).state := by rw [job]
      have cancels (live : (s.job k).state ≠ .free) (alive : (s.job k).state ≠ .cancelling)
          (same : orphanSlot h s k = cancelJob k .byOwner (withJob s k { s.job k with orphaned := true })) :
          Emptying h gone made (orphanSlot h s k) := by
        obtain ⟨agree, decided⟩ := cancelJob_agree marked (by rw [state]; exact live) (by rw [state]; exact alive) .byOwner
        rw [← same] at agree decided
        exact emptying.next others agree fun still before => decided (fun active => still k active own) (decides before)
      cases was : (s.job k).state with
      | free =>
        have same : orphanSlot h s k = s := by rw [orphanSlot, if_pos own, was]
        rw [same]
        exact emptying
      | ended => exact absurd was ended
      | cancelling =>
        have same : orphanSlot h s k = withJob s k { s.job k with orphaned := true } := by rw [orphanSlot, if_pos own, was]; rfl
        rw [same] at others ⊢
        exact emptying.next others marked fun _ => decides
      | filling | ready | active | suspended | starved | awaitReply =>
        exact cancels (by rw [was]; nofun) (by rw [was]; nofun) (by rw [orphanSlot, if_pos own, was]; rfl)
  · rw [orphanSlot, if_neg own]
    exact emptying

theorem Emptying.fold {f : State → SlotId → State} (each : ∀ u k, Emptying h gone made u → Emptying h gone made (f u k))
    (l : List SlotId) (emptying : Emptying h gone made s) : Emptying h gone made (l.foldl f s) := by
  induction l generalizing s with
  | nil => exact emptying
  | cons k l ih => exact ih (each s k emptying)

/-! ## The port reset -/

theorem Settled.orphansJobs (sound : Settled s) (h : HostId) : Settled (orphanJobs h (portDropped s h)) := by
  have dropped : Settled (portDropped s h) := sound.of_rest rfl rfl rfl rfl rfl
  have emptying : Emptying h (∃ a, s.du.active = some a ∧ (s.job a).owner = h) s.du.leaving (emptied s h) := by
    have start : Emptying h (∃ a, s.du.active = some a ∧ (s.job a).owner = h) s.du.leaving (portDropped s h) :=
      ⟨dropped.1, rfl, fun still => ⟨dropped.2, fun a active own => still ⟨a, active, own⟩⟩⟩
    have all := (start.fold (f := releaseEnded h) (fun u k e => e.releasesEnded k) allSlots).fold (f := orphanSlot h)
      (fun u k e => e.orphans k) allSlots
    rw [emptied]
    generalize allSlots.foldl (orphanSlot h) (allSlots.foldl (releaseEnded h) (portDropped s h)) = w at *
    have du : (evaluateSpace w).du = w.du := by rw [evaluateSpace_frame]
    have job : ∀ z, (evaluateSpace w).job z = w.job z := fun z => by rw [State.job, evaluateSpace_frame]; rfl
    refine ⟨(SameTables.of_evaluateSpace w).agree all.agree, by rw [du]; exact all.leaving, fun still => ?_⟩
    obtain ⟨decided, active⟩ := all.kept still
    refine ⟨(Settled.evaluated ⟨all.agree, decided⟩).2, fun a held => ?_⟩
    rw [job]
    rw [du] at held
    exact active a held
  obtain ⟨-, -, -, -, -, left⟩ := emptied_falls s h
  by_cases mine : ∃ a, s.du.active = some a ∧ (s.job a).owner = h
  · obtain ⟨a, active, own⟩ := mine
    have lost : lost h (s.job a) = true := by simp [lost, own, (sound.1.active a).mp active]
    rw [orphanJobs_left active own]
    exact emptying.agree.leaveLink (left a active lost).1 (emptying.leaving.trans (sound.1.settledLeaving active))
  · rw [orphanJobs_kept fun a active own => mine ⟨a, active, own⟩]
    exact ⟨emptying.agree, (emptying.kept mine).1⟩

end Sys2Proof.Machine
end

section
/-! SUPPORT. The way through recovery, and the commands of ports, timers and lines, keep the tables in agreement and decided (R70, R77,
R143 to R146). -/

namespace Sys2Proof.Machine

variable {s t u v : State} {h : HostId} {a k m z : SlotId} {j : Job} {o : JobOutcome} {c : Cause} {r : RouteId}

/-! ## Recovery -/

/-- With an empty line and no open decision the link may change its state as it likes. -/
theorem Agree.relinked (agree : Agree s) (down : recovering s = true) (jm : t.jm = s.jm) (du : t.du = s.du)
    (abandon : t.le.abandon = s.le.abandon) (routes : t.rr.routes = s.rr.routes) : Agree t := by
  obtain ⟨idle, empty, made⟩ := agree.recovery down
  have job : ∀ z, t.job z = s.job z := fun z => by rw [State.job, jm, State.job]
  refine ⟨jobsSound_of_jm agree.jobs jm, claimsSound_of agree.claims (by rw [du]) fun z => by rw [job]; exact ⟨rfl, Iff.rfl⟩,
    readySound_of agree.ready (by rw [du]) fun z => by rw [job]; exact ⟨Iff.rfl, fun _ => rfl⟩, by rw [du]; exact agree.stackNodup,
    by rw [du]; exact agree.stackDepth, fun z => by rw [du, job]; exact agree.stack z, fun z => by rw [du, job]; exact agree.active z,
    by rw [du]; exact agree.leaving, agree.line.shrink ?_ (fun z _ => by rw [job]; exact ⟨rfl, rfl⟩) (fun z _ => .inr ?_),
    fun _ => by rw [du]; exact ⟨idle, empty, made⟩,
    abandonSound_of agree.abandon abandon (by rw [jm]) fun z => by rw [job]; exact ⟨rfl, Iff.rfl⟩,
    routesSound_of_same agree.routes jm routes⟩
  · rw [lineOf, du]
  · rw [State.claim, du, State.claim]

/-- The link leaves recovery, and DU selects (R144, R146). -/
theorem Agree.entersIdle (agree : Agree s) (down : recovering s = true) : Settled (enterIdle s) := by
  have entered : Agree { s with le := { s.le with link := .idle, wakeTimer := none } } := agree.relinked down rfl rfl rfl rfl
  have posted := (SameTables.of_postLinkGroup (plainEvent .linkUp 0) _).agree entered
  have link := (postLinkGroup_offLink (plainEvent .linkUp 0)
    { s with le := { s.le with link := .idle, wakeTimer := none } }).recovering
  have du : (postLinkGroup (plainEvent .linkUp 0) { s with le := { s.le with link := .idle, wakeTimer := none } }).du = s.du := by
    rw [postLinkGroup_frame]
  rw [enterIdle]
  generalize postLinkGroup (plainEvent .linkUp 0) { s with le := { s.le with link := .idle, wakeTimer := none } } = u at *
  have up : recovering (respondEligible u) = false := (respondEligible_offLink u).recovering.trans link
  exact (posted.responds fun _ _ => by rw [du]; exact (agree.recovery down).2.1).applyOrder up

theorem Settled.entersWaking (sound : Settled s) (down : recovering s = true) : Settled (enterWaking s) := by
  have waking : Settled { s with
      le := { s.le with link := .waking, pulseTimer := none, wakeTimer := some s.su.settings.wakeTime }
      pins := { s.pins with lrst := false } } := sound.of_rest rfl rfl rfl down.symm rfl
  rw [enterWaking]
  split
  · exact waking.1.entersIdle rfl
  · exact waking

theorem Settled.pulseEnded (sound : Settled s) (link : linkSound s) (e : execLrstPulseEnd s = .next t) : Settled t := by
  rcases lrstPulseEnd_cases e with same | ⟨runs, after⟩
  · exact same ▸ sound
  · obtain ⟨-, -, -, -, -, -, pulse, -⟩ := link
    rw [after]
    exact sound.entersWaking (by rw [recovering, (pulse.mp runs).1])

theorem Settled.wakeEnded (sound : Settled s) (link : linkSound s) (e : execWakeTimerExpiry s = .next t) : Settled t := by
  rcases wakeTimerExpiry_cases e with same | ⟨runs, after⟩
  · exact same ▸ sound
  · obtain ⟨-, -, -, -, -, wake, -⟩ := link
    have down : recovering s = true := by rw [recovering, wake.mp runs]
    have entered : Settled { s with le := { s.le with link := .down, wakeTimer := none } } :=
      sound.of_rest rfl rfl rfl down.symm rfl
    rw [after]
    exact entered.groupPosted _

theorem Settled.prdyRisen (sound : Settled s) (e : execPrdyRise s = .next t) : Settled t := by
  have risen : Settled { s with pins := { s.pins with prdy := true } } := sound.of_rest rfl rfl rfl rfl rfl
  rcases prdyRise_cases e with same | ⟨-, ⟨link, after⟩ | ⟨link, after⟩ | ⟨link, after⟩ | after⟩
  · exact same ▸ sound
  · rw [after]
    exact risen.applyOrder (by rcases link with q | q <;> rw [recovering, q])
  · rw [after]
    exact risen.1.entersIdle (by rw [recovering, link])
  · have down : recovering s = true := by rw [recovering, link]
    rw [after]
    exact sound.of_rest rfl rfl rfl down.symm rfl
  · exact after ▸ risen

/-! ## Lines and timers -/

theorem Settled.levelChanged {i : Instr} (sound : Settled s) (own : i ∈ [.rreqRise, .rreqFall, .prdyFall, .pfltChange])
    (e : exec i s = .next t) : Settled t := by
  rcases levelCommand_cases own e with same | ⟨rreq, prdy, pflt, after⟩
  · exact same ▸ sound
  · have changed : Settled { s with pins := { s.pins with rreq := rreq, prdy := prdy, pflt := pflt } } :=
      sound.of_rest rfl rfl rfl rfl rfl
    rw [after]
    exact changed.boundaryWork

theorem Settled.acknowledgementTaken (sound : Settled s) (link : linkSound s) (e : execAcknowledgement s = .next t) : Settled t := by
  rcases acknowledgement_cases e with ⟨-, after⟩ | ⟨o, latch, after⟩
  · rw [after]
    exact sound.of_rest rfl rfl rfl rfl rfl
  · obtain ⟨offered, -⟩ := link
    have sending := offered.mp (by rw [latch]; rfl)
    have taken : Settled (offerTaken s) := sound.of_rest rfl rfl rfl rfl rfl
    rw [after]
    refine (taken.originAcknowledged o.origin).applyOrder ?_
    rw [recovering, (originAcknowledged_linkSame o.origin (offerTaken s)).link, sending]

theorem Settled.phaseTimedOut (sound : Settled s) (link : linkSound s) (e : execRevIdleExpiry s = .next t) : Settled t := by
  rcases revIdleExpiry_cases e with same | ⟨runs, after⟩
  · exact same ▸ sound
  · obtain ⟨-, -, -, idle, -⟩ := link
    have up : recovering (endPhase s) = false := by
      have phase := idle.mp runs
      rw [recovering, show (endPhase s).le.link = .reverse from phase]
    have ended : Settled (endPhase s) := sound.of_rest rfl rfl rfl rfl rfl
    rw [after]
    exact (ended.groupPosted _).applyOrder ((postLinkGroup_offLink ..).recovering.trans up)

theorem Settled.stallTimedOut (sound : Settled s) (e : execStallTimerExpiry s = .next t) : Settled t := by
  rcases stallTimerExpiry_cases e with same | ⟨-, after⟩
  · exact same ▸ sound
  · have reported : Settled { s with le := { s.le with stall := .reported, stallTimer := none } } :=
      sound.of_rest rfl rfl rfl rfl rfl
    rw [after]
    exact reported.groupPosted _

theorem Settled.termEnded (sound : Settled s) (e : execLeaseTermExpiry s = .next t) : Settled t := by
  rcases leaseTermExpiry_cases e with same | ⟨h, -, after⟩
  · exact same ▸ sound
  · have posted := sound.posted h (plainEvent .leaseExpired 0)
    rw [after]
    generalize post h (plainEvent .leaseExpired 0) s = u at *
    rw [handover_frame]
    exact posted.of_rest rfl rfl rfl rfl rfl

theorem Settled.acknowledgementTimedOut (sound : Settled s) (e : execAcknowledgeTimeout s = .next t) : Settled t := by
  rcases acknowledgeTimeout_cases e with same | ⟨-, after⟩
  · exact same ▸ sound
  · rw [after]
    exact sound.1.reset ..

/-! ## Ports and resets -/

theorem Settled.portResets (sound : Settled s) (e : execPortReset h s = .next t) : Settled t := by
  rw [execPortReset_eq] at e
  split at e <;> have after := next_inj e
  · exact after ▸ sound
  · have worked := (sound.orphansJobs h).boundaryWork
    rw [← after]
    generalize Machine.boundaryWork (orphanJobs h (portDropped s h)) = u at *
    rw [dropLeaseOf_blocks]
    exact worked.of_rest rfl rfl rfl rfl rfl

theorem settled_of_partReset (e : execPartReset s = .next t) : Settled t := by
  obtain ⟨-, -, rr, jm, -, du, le, -⟩ := execPartReset_rest e
  exact tablesSound_iff.mp (tablesSound_of_reset jm du le rr)

end Sys2Proof.Machine
end

section
/-! OBLIGATION O59: settings, limits and stack in range, and the tables in agreement, at every step. -/

namespace Sys2Proof.Machine

variable {s t : State} {h : HostId}

/-! ## Requests -/

theorem Settled.opened (sound : Settled s) (h : HostId) (channel p f : Byte) : Settled (judgeOpen h channel p f s).state := by
  rcases judgeOpen_cases h channel p f s with e | ⟨k, ch, pr, stream, reply, r, -, slot, route, e⟩ <;> rw [e]
  · exact sound
  · obtain ⟨agree, beside⟩ := sound.1.create h ch pr stream reply r (lowestFreeSlot_free slot)
      fun x own => by simpa using List.find?_some (route x own)
    exact ⟨agree, beside.decided sound.2⟩

theorem Settled.appendJudged (sound : Settled s) (h : HostId) (b kind f : Byte) (bytes : List Byte) :
    Settled (judgeAppend h b kind f bytes s).state := by
  rcases judgeAppend_cases h b kind f bytes s with e | ⟨need, e⟩ | ⟨k, kd, -, -, -, -, e⟩ <;> rw [e]
  · exact sound
  · exact sound.of_rest rfl rfl rfl rfl rfl
  · exact (sound.appended k (appendList kd bytes (breakAfter f)) (closeAfter f)).boundaryWork

theorem Settled.closeJudged (sound : Settled s) (h : HostId) (b : Byte) : Settled (judgeClose h b s).state := by
  rcases judgeClose_cases h b s with e | ⟨k, -, -, e⟩ <;> rw [e]
  · exact sound
  · exact (sound.closeJob k).boundaryWork

theorem Settled.priorityJudged (sound : Settled s) (h : HostId) (b p : Byte) : Settled (judgeSetPriority h b p s).state := by
  rcases judgeSetPriority_cases h b p s with e | ⟨k, q, -, state, e⟩ <;> rw [e]
  · exact sound
  · rw [changePriority_eq]
    exact (sound.priorityChanged (k := k) (p := q) (by simpa using state)).boundaryWork

theorem Settled.cancelJudged (sound : Settled s) (h : HostId) (b : Byte) : Settled (judgeCancel h b s).state := by
  rcases judgeCancel_cases h b s with e | ⟨k, c, -, state, e⟩ <;> rw [e]
  · exact sound
  · exact sound.acceptCancel (fun free => state (by simp [free])) (fun cancelling => state (by simp [cancelling])) c

theorem Settled.releaseJudged (sound : Settled s) (h : HostId) (b : Byte) : Settled (judgeRelease h b s).state := by
  rcases judgeRelease_cases h b s with e | ⟨k, -, ended, e⟩ <;> rw [e]
  · exact sound
  · exact ⟨sound.1.release ended, (releaseSlot_beside ended).decided sound.2⟩

theorem Settled.replyRead (sound : Settled s) (h : HostId) (b m : Byte) : Settled (judgeReadReply h b m s).state := by
  rcases judgeReadReply_cases h b m s with e | ⟨r, e⟩ <;> rw [e]
  · exact sound
  · exact sound.of_route rfl Iff.rfl id

theorem Settled.settingJudged (sound : Settled s) (h : HostId) (i n : Byte) (v : BitVec 16) : Settled (judgeSet h i n v s).state := by
  rcases judgeSet_cases h i n v s with e | ⟨name, -, -, -, -, e⟩ <;> rw [e]
  · exact sound
  · rw [applySetting_frame]
    exact sound.of_rest rfl rfl rfl rfl rfl

theorem Settled.leaseDropped (sound : Settled s) (h : HostId) : Settled (judgeLeaseDrop h s).state := by
  rw [judgeLeaseDrop]
  split
  · rw [handover_frame]
    exact sound.of_rest rfl rfl rfl rfl rfl
  · split <;> exact sound.of_rest rfl rfl rfl rfl rfl

theorem Settled.linkResetJudged (sound : Settled s) (h : HostId) : Settled (judgeLinkReset h s).state := by
  rw [judgeLinkReset]
  split
  · dsimp only
    exact sound.1.reset .resetRequested .linkReset
  · exact sound

/-- A request keeps the tables sound where its judgement does. -/
theorem Settled.served {body : State → Reply} (sound : Settled s) (judged : Settled (body s).state)
    (e : serve h body s = .next t) : Settled t := by
  rcases serve_cases e with ⟨-, after⟩ | ⟨-, -, after⟩ | ⟨-, -, after⟩ <;> rw [after]
  · exact sound
  · exact sound.of_rest rfl rfl rfl rfl rfl
  · exact judged.of_rest rfl rfl rfl rfl rfl

/-! ## Every step -/

theorem exec_settled {i : Instr} (e : exec i s = .next t) (link : linkSound s) (sound : Settled s) : Settled t := by
  cases i with
  | partReset => exact settled_of_partReset e
  | rstRelease =>
    change execRstRelease s = _ at e
    rw [execRstRelease] at e
    split at e <;> rw [← next_inj e]
    · exact sound.of_rest rfl rfl rfl rfl rfl
    · exact sound
  | poolInitEnd =>
    change execPoolInitEnd s = _ at e
    rw [execPoolInitEnd] at e
    split at e <;> rw [← next_inj e]
    · exact sound.of_rest rfl rfl rfl rfl rfl
    · exact sound
  | lrstPulseEnd => exact sound.pulseEnded link e
  | portReset h => exact sound.portResets e
  | hkrstRelease h | chipSelectAssert h | chipSelectRelease h | answerSent h | ident h | last h =>
    obtain ⟨p, after⟩ := portCommand_frame (h := h) (frame := []) (by simp) e
    rw [after]
    exact sound.of_rest rfl rfl rfl rfl rfl
  | framingFault h frame =>
    obtain ⟨p, after⟩ := portCommand_frame (h := h) (frame := frame) (by simp) e
    rw [after]
    exact sound.of_rest rfl rfl rfl rfl rfl
  | openJob h c p f => exact sound.served (sound.opened h c p f) e
  | append h b k f bs => exact sound.served (sound.appendJudged h b k f bs) e
  | close h b => exact sound.served (sound.closeJudged h b) e
  | setPriority h b p => exact sound.served (sound.priorityJudged h b p) e
  | cancel h b => exact sound.served (sound.cancelJudged h b) e
  | release h b => exact sound.served (sound.releaseJudged h b) e
  | jobStatus h b => exact sound.served (by rw [judgeJobStatus_state]; exact sound) e
  | readReply h b m => exact sound.served (sound.replyRead h b m) e
  | fetchEvent h =>
    refine sound.served ?_ e
    rw [judgeFetchEvent]
    split <;> exact sound.of_rest rfl rfl rfl rfl rfl
  | subscribe h f =>
    refine sound.served ?_ e
    rw [judgeSubscribe]
    split <;> exact sound.of_rest rfl rfl rfl rfl rfl
  | leaseTake h =>
    refine sound.served ?_ e
    rw [judgeLeaseTake]
    split <;> exact sound.of_rest rfl rfl rfl rfl rfl
  | leaseDrop h => exact sound.served (sound.leaseDropped h) e
  | setSetting h i n v => exact sound.served (sound.settingJudged h i n v) e
  | getSetting h i n => exact sound.served (by rw [judgeGet_state]; exact sound) e
  | linkStatus h => exact sound.served sound e
  | linkReset h => exact sound.served (sound.linkResetJudged h) e
  | acknowledgement => exact sound.acknowledgementTaken link e
  | acknowledgeTimeout => exact sound.acknowledgementTimedOut e
  | rreqRise | rreqFall | prdyFall | pfltChange => exact sound.levelChanged (by simp) e
  | prdyRise => exact sound.prdyRisen e
  | reverseByte kind b => exact sound.byteTaken e
  | revIdleExpiry => exact sound.phaseTimedOut link e
  | stallTimerExpiry => exact sound.stallTimedOut e
  | dryWaitExpiry => exact sound.dryWaitEnded e
  | wakeTimerExpiry => exact sound.wakeEnded link e
  | replyTimerExpiry r => exact sound.replyExpired e
  | leaseTermExpiry => exact sound.termEnded e

/-- Settles O59: each command keeps the ranges and gives the link to no job in recovery, and each keeps the tables in agreement and
the leaving decision made. -/
theorem stepsKeepSettingsLimitsAndStackSound : Obligations.StepsKeepSettingsLimitsAndStackSound := by
  intro s t e
  rcases step_cases e with rfl | ⟨i, rest, -, run⟩
  · exact ⟨id, id, id, fun _ _ => id, fun _ => id⟩
  · have ranges := exec_ranges run
    have idle : RecoveryIdle { s with pending := rest } t := exec_recoveryIdle run
    exact ⟨ranges.settings, ranges.limits, ranges.stack, idle,
      fun link tables => tablesSound_iff.mpr (exec_settled run link (tablesSound_iff.mp tables))⟩

end Sys2Proof.Machine
end
